-- ==== Sys2Proof/Word.lean ====
section
/-!
DEFINITION. The byte of the part's serial lines, control blocks and configuration memory, and the numbers of its repeated
blocks (spec/00_scope.md, "The device in outline").
-/
namespace Sys2Proof

/-- A byte of a control block, of a reply or of the configuration memory (R147, R176). -/
abbrev Byte := BitVec 8

/-- The number of a programme channel, C0 to C3. -/
abbrev ChanNo := Fin 4

/-- The number of a booth, B0 to B5. -/
abbrev BoothNo := Fin 6

/-- The number of a control port, CP0 to CP5. -/
abbrev PortNo := Fin 6

/-- The number of a slot of a link frame, S0 to S7. -/
abbrev SlotNo := Fin 8

/-- The number of a layout profile, P0 to P15. -/
abbrev ProfNo := Fin 16

/-- The number of an avoidance zone, Z0 to Z5. -/
abbrev ZoneNo := Fin 6

end Sys2Proof
end

