-- ==== Sys2Proof/Config.lean ====
section
/-!
DEFINITION. The fixed numbers of the part, each with the rule of spec/ that gives it. The spec leaves no value open that an
instruction reads, so no constant here is without a body.
-/
namespace Sys2Proof.Config

/-- Frames of delay memory shared by the four programme paths (R13). -/
abbrev poolFrames : Nat := 480

/-- The greatest delay target (R13, R17). -/
abbrev maxTarget : Nat := 150

/-- The programme picture's width and height (00_scope.md, Pictures and samples). -/
abbrev picWidth : Nat := 1920
abbrev picHeight : Nat := 1080

/-- The booth picture's width and height (00_scope.md, Pictures and samples). -/
abbrev boothWidth : Nat := 960
abbrev boothHeight : Nat := 540

/-- The legal range of a 10-bit sample: luma 64 to 940, chroma 64 to 960 (00_scope.md). -/
abbrev legalLow : Nat := 64
abbrev legalLuma : Nat := 940
abbrev legalChroma : Nat := 960

/-- Black is luma 64 with both chroma samples 512 (R3). -/
abbrev blackLuma : Nat := 64
abbrev blackChroma : Nat := 512

/-- One whole of a level or weight (00_scope.md, Levels and weights). -/
abbrev whole : Nat := 256

/-- The most cues a list holds, and the most records an outcome ring holds (R123, R138). -/
abbrev listCapacity : Nat := 32
abbrev ringCapacity : Nat := 16

/-- The greatest lateness recorded and the greatest late limit (R137, R145). -/
abbrev maxLateness : Nat := 250

/-- The most outcome records one READ OUTCOMES returns (R139), and the most cues one LIST CUES returns (R141). -/
abbrev outcomesPerReply : Nat := 6
abbrev cuesPerReply : Nat := 4

/-- The most body bytes a port keeps of a block (R148). -/
abbrev maxBody : Nat := 70

/-- The start byte of a control block and of a reply (10_block_and_record_formats.md, 10.2). -/
abbrev startByte : Byte := 0xA5

/-- The byte that stands for none, absent or ANY (R179). -/
abbrev noneByte : Nat := 0xFF

/-- The size of the configuration memory in bytes, and the offset of its body (R165, section 10.5). -/
abbrev memoryBytes : Nat := 4096
abbrev bodyOffset : Nat := 8

/-- The markers and the format version of the configuration memory's header (section 10.5). -/
abbrev validMarker : Nat := 0x6B47
abbrev invalidMarker : Nat := 0
abbrev formatVersion : Nat := 1

/-- What a byte of the configuration memory reads as when nothing lists it.
DESIGN CHOICE, unsafe: the spec does not say what a memory that was never written holds (notes/assumptions/3.md). -/
abbrev blankMemory : Byte := 0

/-- Vendor code, part number and design level of IDENTIFY (section 10.4). -/
abbrev vendorCode : Byte := 0x4B
abbrev partNumber : Nat := 0x0280
abbrev designLevel : Byte := 0x01

/-- The defaults of an invalid configuration memory (R166). -/
abbrev defaultSlew : Nat := 5
abbrev defaultLateLimit : Nat := 25

end Sys2Proof.Config
end

