-- ==== Sys2Proof/Syntax.lean ====
section
/-!
DEFINITION. The steps of the part: one constructor of Instr for each row of spec/opcode_table.json, with the operands a
step brings from outside the part (a frame, the slots of a link frame, the bytes of a control block).
-/
namespace Sys2Proof

/-- The fields of an embedded timecode as they are read, in range or not (R4). -/
structure Timecode where
  hh : Nat
  mm : Nat
  ss : Nat
  ff : Nat
  deriving DecidableEq, Repr

/-- One plane of samples of a picture, in raster order: the sample at an address that `cells` lists is the one listed, and
every other sample is `fill`. -/
structure Plane where
  fill  : Nat
  cells : List (Nat × Nat)
  deriving DecidableEq, Repr

/-- A 4:2:2 picture: one luma plane and two chroma planes of half its width (00_scope.md, Pictures and samples). -/
structure Picture where
  y  : Plane
  cb : Plane
  cr : Plane
  deriving DecidableEq, Repr

/-- Embedded audio: silence, or a payload the part carries and never looks into (R7, R10). -/
inductive Audio where
  | silent
  | carried (payload : List Nat)
  deriving DecidableEq, Repr

/-- A valid programme frame as it arrives at an input (R1, R4). -/
structure InputFrame where
  picture  : Picture
  audio    : Audio
  timecode : Option Timecode
  deriving DecidableEq, Repr

/-- The marker of a slot: it carries a picture, it carries none, or it is neither of its two meanings (section 2.1, R22). -/
inductive Marker where
  | picture
  | noPicture
  | other
  deriving DecidableEq, Repr

/-- One slot of a link frame received in full: its marker, its raw container values and its check word (section 2.1). -/
structure SlotRx where
  marker : Marker
  raw    : Picture
  check  : Nat
  deriving DecidableEq, Repr

/-- What follows the command code in a complete control block: the parameter bytes as sent, the check byte, and whether some
byte of the block had a framing fault (R147, R148). -/
structure Tail where
  params  : List Byte
  check   : Byte
  damaged : Bool
  deriving DecidableEq, Repr

/-- What causes a unit restart: power-on, the reset input RST, or the end of the reply to RESET UNIT (section 9.2). -/
inductive RestartCause where
  | powerOn
  | rstInput
  | resetReply
  deriving DecidableEq, Repr

/-- How the configuration memory meets the loader at start-up: it does not answer or cannot be read (R165), it answers with
the contents it was left with, or it answers with an image prepared outside the part (R166, R171). -/
inductive MemoryAnswer where
  | unreadable
  | held
  | prepared (image : List Byte)
  deriving DecidableEq, Repr

/-- How the configuration memory behaves while a store writes it: the index of the first byte write it does not answer, if
any, and the cells that do not take the value written but hold the one listed (R173). -/
structure StoreMemory where
  noAnswerAt : Option Nat
  stuck      : List (Nat × Byte)
  deriving DecidableEq, Repr

/-- The commands a controller sends in a control block (section 10.2, Commands). -/
inductive Command where
  | identify | readSense | readNotices | setNoticeMask | channelState
  | addCues | dropCue | flushCues | listCues | findCue | takeNow | readOutcomes | setLateLimit
  | setLossMode | clearChannel | setDelay | setSlew
  | writeBooth | readBooth | setSlotMask | boothState
  | writeProfile | readProfile | assignBooth | releaseBooth
  | writePortRoles | storeSettings | resetUnit
  deriving DecidableEq, Repr

/-- The steps of the part. Each constructor is one row of spec/opcode_table.json, named after the row; `c` is the channel,
`p` the control port, and `b` what follows the command code in the block. -/
inductive Instr where
  /-- PROGRAMME_FRAME_ARRIVAL (R2). `gap` is the time since the previous valid frame at this input, in thousandths of the
  frame period 1/F (notes/assumptions/5.md). -/
  | programmeFrameArrival (c : ChanNo) (frame : InputFrame) (gap : Nat)
  /-- INVALID_FRAME_ARRIVAL (R1). -/
  | invalidFrameArrival (c : ChanNo)
  /-- LOCK_LOSS_TIMEOUT (R1). -/
  | lockLossTimeout (c : ChanNo)
  /-- FREE_RUN_FRAME_START (R2). -/
  | freeRunFrameStart (c : ChanNo)
  /-- BYPASS_BLACK_FRAME (R6). -/
  | bypassBlackFrame (c : ChanNo)
  /-- LINK_FRAME_END (R21): the eight slots received. -/
  | linkFrameEnd (slots : List SlotRx)
  /-- LINK_GAP_TIMEOUT (R23): the slots received in full before the break. -/
  | linkGapTimeout (slots : List SlotRx)
  /-- LINK_NEW_FRAME_START (R23): the slots received in full before the new frame's start was seen. -/
  | linkNewFrameStart (slots : List SlotRx)
  /-- LINK_SILENCE_TIMEOUT (R23). -/
  | linkSilenceTimeout
  /-- IDENTIFY (R162). -/
  | identify (p : PortNo) (b : Tail)
  /-- READ_SENSE (R154). -/
  | readSense (p : PortNo) (b : Tail)
  /-- READ_NOTICES (R160). -/
  | readNotices (p : PortNo) (b : Tail)
  /-- SET_NOTICE_MASK (R158). -/
  | setNoticeMask (p : PortNo) (b : Tail)
  /-- CHANNEL_STATE (R163). -/
  | channelState (p : PortNo) (b : Tail)
  /-- ADD_CUES (R125). -/
  | addCues (p : PortNo) (b : Tail)
  /-- DROP_CUE (R127). -/
  | dropCue (p : PortNo) (b : Tail)
  /-- FLUSH_CUES (R128). -/
  | flushCues (p : PortNo) (b : Tail)
  /-- LIST_CUES (R141). -/
  | listCues (p : PortNo) (b : Tail)
  /-- FIND_CUE (R142). -/
  | findCue (p : PortNo) (b : Tail)
  /-- TAKE_NOW (R143). -/
  | takeNow (p : PortNo) (b : Tail)
  /-- READ_OUTCOMES (R139). -/
  | readOutcomes (p : PortNo) (b : Tail)
  /-- SET_LATE_LIMIT (R145). -/
  | setLateLimit (p : PortNo) (b : Tail)
  /-- SET_LOSS_MODE (R100). -/
  | setLossMode (p : PortNo) (b : Tail)
  /-- CLEAR_CHANNEL (R101). -/
  | clearChannel (p : PortNo) (b : Tail)
  /-- SET_DELAY (R17). -/
  | setDelay (p : PortNo) (b : Tail)
  /-- SET_SLEW (R12). -/
  | setSlew (p : PortNo) (b : Tail)
  /-- WRITE_BOOTH (R26). -/
  | writeBooth (p : PortNo) (b : Tail)
  /-- READ_BOOTH (R28). -/
  | readBooth (p : PortNo) (b : Tail)
  /-- SET_SLOT_MASK (R24). -/
  | setSlotMask (p : PortNo) (b : Tail)
  /-- BOOTH_STATE (R38). -/
  | boothState (p : PortNo) (b : Tail)
  /-- WRITE_PROFILE (R59). -/
  | writeProfile (p : PortNo) (b : Tail)
  /-- READ_PROFILE (R62). -/
  | readProfile (p : PortNo) (b : Tail)
  /-- ASSIGN_BOOTH (R105). -/
  | assignBooth (p : PortNo) (b : Tail)
  /-- RELEASE_BOOTH (R115). -/
  | releaseBooth (p : PortNo) (b : Tail)
  /-- WRITE_PORT_ROLES (R171). -/
  | writePortRoles (p : PortNo) (b : Tail)
  /-- STORE_SETTINGS (R172). -/
  | storeSettings (p : PortNo) (b : Tail)
  /-- RESET_UNIT (R175). -/
  | resetUnit (p : PortNo) (b : Tail)
  /-- UNKNOWN_COMMAND (R151): a complete block with the command code given. -/
  | unknownCommand (p : PortNo) (code : Byte) (b : Tail)
  /-- OVERLAPPED_BLOCK (R150): a complete block with the command code given. -/
  | overlappedBlock (p : PortNo) (code : Byte) (b : Tail)
  /-- BLOCK_GAP_TIMEOUT (R149). -/
  | blockGapTimeout (p : PortNo)
  /-- REPLY_SENT (R150). -/
  | replySent (p : PortNo)
  /-- UNIT_RESTART (R168). `storeWrites` is how many byte writes of a store in progress the memory has taken (R174). -/
  | unitRestart (cause : RestartCause) (storeWrites : Nat)
  /-- START_UP_COMPLETE (R170). -/
  | startUpComplete (memory : MemoryAnswer)
  /-- STORE_COMPLETE (R173). -/
  | storeComplete (memory : StoreMemory)
  /-- CONTROL_BYTE_RECEIVED (R148). `noStop` says that the byte's stop bit was absent (R147). -/
  | controlByteReceived (p : PortNo) (byte : Byte) (noStop : Bool)
  /-- LINK_FRAME_BEGIN (R27). -/
  | linkFrameBegin
  /-- BAD_LENGTH_BLOCK (R151): a complete block with length byte 0. -/
  | badLengthBlock (p : PortNo) (check : Byte) (damaged : Bool)
  deriving DecidableEq, Repr

/-- The row that a complete block of a command is. -/
def Command.instr (k : Command) (p : PortNo) (b : Tail) : Instr :=
  match k with
  | .identify => .identify p b
  | .readSense => .readSense p b
  | .readNotices => .readNotices p b
  | .setNoticeMask => .setNoticeMask p b
  | .channelState => .channelState p b
  | .addCues => .addCues p b
  | .dropCue => .dropCue p b
  | .flushCues => .flushCues p b
  | .listCues => .listCues p b
  | .findCue => .findCue p b
  | .takeNow => .takeNow p b
  | .readOutcomes => .readOutcomes p b
  | .setLateLimit => .setLateLimit p b
  | .setLossMode => .setLossMode p b
  | .clearChannel => .clearChannel p b
  | .setDelay => .setDelay p b
  | .setSlew => .setSlew p b
  | .writeBooth => .writeBooth p b
  | .readBooth => .readBooth p b
  | .setSlotMask => .setSlotMask p b
  | .boothState => .boothState p b
  | .writeProfile => .writeProfile p b
  | .readProfile => .readProfile p b
  | .assignBooth => .assignBooth p b
  | .releaseBooth => .releaseBooth p b
  | .writePortRoles => .writePortRoles p b
  | .storeSettings => .storeSettings p b
  | .resetUnit => .resetUnit p b

end Sys2Proof
end

