-- ==== Sys2Proof/Decode.lean ====
section
/-!
DEFINITION. What a word stands for. The rows of spec/opcode_table.json carry no bits, so no word spells one of them. The one
encoding the spec gives a command is its code byte in a control block (section 10.2), which is read here.
-/
namespace Sys2Proof

/-- The instruction a word spells by the table's bits: none, since the table gives no row any bits. -/
def decodeTableWord (_nbits _w : Nat) : Option Instr := none

/-- The code byte of each command (section 10.2, Commands). -/
def Command.code : Command → Byte
  | .identify => 0x01
  | .readSense => 0x02
  | .readNotices => 0x03
  | .setNoticeMask => 0x04
  | .channelState => 0x05
  | .addCues => 0x10
  | .dropCue => 0x11
  | .flushCues => 0x12
  | .listCues => 0x13
  | .findCue => 0x14
  | .takeNow => 0x15
  | .readOutcomes => 0x16
  | .setLateLimit => 0x17
  | .setLossMode => 0x20
  | .clearChannel => 0x21
  | .setDelay => 0x28
  | .setSlew => 0x29
  | .writeBooth => 0x30
  | .readBooth => 0x31
  | .setSlotMask => 0x32
  | .boothState => 0x33
  | .writeProfile => 0x38
  | .readProfile => 0x39
  | .assignBooth => 0x40
  | .releaseBooth => 0x41
  | .writePortRoles => 0x48
  | .storeSettings => 0x49
  | .resetUnit => 0x4A

/-- Every command of the part, in the order of the table of section 10.2. -/
def allCommands : List Command :=
  [.identify, .readSense, .readNotices, .setNoticeMask, .channelState,
   .addCues, .dropCue, .flushCues, .listCues, .findCue, .takeNow, .readOutcomes, .setLateLimit,
   .setLossMode, .clearChannel, .setDelay, .setSlew,
   .writeBooth, .readBooth, .setSlotMask, .boothState,
   .writeProfile, .readProfile, .assignBooth, .releaseBooth,
   .writePortRoles, .storeSettings, .resetUnit]

/-- The command a code byte names, none for a byte that is not a command of the part (R151, test 6). -/
def Command.ofCode (b : Byte) : Option Command :=
  allCommands.find? (fun k => k.code == b)

end Sys2Proof
end

