-- ==== Sys2Proof/Machine/Types.lean ====
section
/-!
DEFINITION. The pieces the part's state is made of, block by block, as each chapter's table of items lists them. All plain data.
-/
namespace Sys2Proof.Machine

/-- The frame rate of the whole part, 25 or 50 frames per second (R166). -/
inductive Rate where
  | f25
  | f50
  deriving DecidableEq, Repr

/-- The role of a control port (00_scope.md, Controllers and roles; R155). -/
inductive Role where
  | channel (n : ChanNo)
  | studio
  | monitor
  | idle
  deriving DecidableEq, Repr

/-! ### The programme path and the frame pool (chapter 1) -/

/-- An entry of a delay line: picture, embedded audio and the timecode stored with it, as a frame number (section 1.4). -/
structure Frame where
  picture : Picture
  audio   : Audio
  tc      : Nat
  deriving DecidableEq, Repr

/-- A frame on an output PGOn: picture, embedded audio and embedded timecode, if any (R6, R7, R8, R56). -/
structure SentFrame where
  picture  : Picture
  audio    : Audio
  timecode : Option Timecode
  deriving DecidableEq, Repr

/-- A programme path's state (table of chapter 1). The actual delay A is the length of `line` (R7), so it has no field of its
own. `prevValid` says that a valid frame has arrived since the restart or the last loss of lock, from which R1 measures one
frame period. `sent` is the frame most recently sent on PGOn. -/
structure Path where
  locked       : Bool
  prevValid    : Bool
  lastTc       : Option Nat
  flywheel     : Bool
  bypass       : Bool
  line         : List Frame
  lastOut      : Option Frame
  outTc        : Nat
  slewInterval : Nat
  slewCounter  : Nat
  sent         : Option SentFrame
  deriving DecidableEq, Repr

/-- What the frame pool controller holds for one channel (section 1.6). The reservation is max(G, A) at all times (R13), so it
is the function `Channel.reservation` and has no field of its own. -/
structure Pool where
  target  : Nat
  granted : Nat
  clamped : Bool
  deriving DecidableEq, Repr

/-! ### The booth link and the booth store (chapter 2) -/

/-- The sample width of a booth's slot, 8 or 10 bits (section 2.2). -/
inductive Width where
  | w8
  | w10
  deriving DecidableEq, Repr

/-- A booth record (section 2.2). -/
structure BoothRecord where
  slot     : Option SlotNo
  width    : Width
  cb0      : Nat
  cr0      : Nat
  rIn      : Nat
  rOut     : Nat
  cx       : Nat
  cy       : Nat
  hold     : Nat
  recovery : Nat
  deriving DecidableEq, Repr

/-- The health of a booth (section 2.4). -/
inductive Health where
  | absent
  | live
  | held
  | lost
  deriving DecidableEq, Repr

/-- A slot result, or NONE where a booth has had none (R22, R38). -/
inductive SlotResult where
  | none
  | good
  | empty
  | damaged
  | masked
  deriving DecidableEq, Repr

/-- What the booth store holds for one booth (table of chapter 2). `awaiting` says that the booth was remapped and takes no
result before the end of a link frame whose reception begins after that (R27). -/
structure Booth where
  record    : BoothRecord
  health    : Health
  ready     : Option Picture
  candidate : Option Picture
  missed    : Nat
  good      : Nat
  seq       : Nat
  last      : SlotResult
  awaiting  : Bool
  deriving DecidableEq, Repr

/-! ### Profiles and placement (chapter 4) -/

/-- A profile record (section 4.1). `positions` holds the entries within the position count, and its length is that count;
the entries beyond it are (0, 0) (R60). -/
structure Profile where
  cw        : Nat
  ch        : Nat
  fp        : Nat
  ff        : Option Nat
  positions : List (Nat × Nat)
  edge      : Nat
  fade      : Nat
  move      : Nat
  defined   : Bool
  deriving DecidableEq, Repr

/-- A placement: the position and reduction factor of the box. -/
structure Placement where
  x : Nat
  y : Nat
  f : Nat
  deriving DecidableEq, Repr

/-- A window of the programme picture (00_scope.md, Pictures and samples). -/
structure Window where
  x : Nat
  y : Nat
  w : Nat
  h : Nat
  deriving DecidableEq, Repr

/-- An avoidance zone (section 4.2). -/
structure Zone where
  active : Bool
  window : Window
  deriving DecidableEq, Repr

/-- A move record: origin, target, length n and steps taken i (section 4.5). -/
structure Move where
  origin : Placement
  target : Placement
  n      : Nat
  i      : Nat
  deriving DecidableEq, Repr

/-- A placement unit's state (table of chapter 4). -/
structure Place where
  profile   : ProfNo
  zones     : Vector Zone 6
  replace   : Bool
  chosen    : Placement
  shown     : Placement
  move      : Option Move
  conflict  : Bool
  visBefore : Bool
  deriving DecidableEq, Repr

/-! ### The presenter controller (chapter 5) -/

/-- The presenter state. -/
inductive PState where
  | off
  | rising
  | on
  | falling
  | waitFeed
  deriving DecidableEq, Repr

/-- A channel's reaction to loss of its booth. -/
inductive LossMode where
  | holdFade
  | cut
  | freeze
  deriving DecidableEq, Repr

/-- A fade record: direction, start level g0, length n, step count m and steps taken i (table of chapter 5, R84). -/
structure Fade where
  rise : Bool
  g0   : Nat
  n    : Nat
  m    : Nat
  i    : Nat
  deriving DecidableEq, Repr

/-- A presenter controller's state (table of chapter 5). -/
structure Presenter where
  state      : PState
  intent     : Bool
  g          : Nat
  fade       : Option Fade
  loss       : LossMode
  frozen     : Bool
  visAtEntry : Bool
  deriving DecidableEq, Repr

/-! ### The assignment map (chapter 6) -/

/-- A handover in progress: incoming booth, crossfade length n_x, steps taken i and progress h, held together (R104). -/
structure Incoming where
  booth : BoothNo
  nx    : Nat
  i     : Nat
  h     : Nat
  deriving DecidableEq, Repr

/-- A channel's assignment record (table of chapter 6). -/
structure Assign where
  assigned       : Option BoothNo
  incoming       : Option Incoming
  releasePending : Bool
  deriving DecidableEq, Repr

/-! ### The cue scheduler (chapter 7) -/

/-- The action of a cue (R121). -/
inductive Action where
  | presenterOn
  | presenterOff
  | selectProfile (p : ProfNo)
  | setZone (z : ZoneNo) (w : Window)
  | clearZone (z : ZoneNo)
  | setDelay (d : Nat)
  | mark
  deriving DecidableEq, Repr

/-- The guard of a cue (R121, R131). -/
inductive Guard where
  | always
  | feedUsable
  | feedNotUsable
  | assigned
  | visible
  | notVisible
  | noConflict
  deriving DecidableEq, Repr

/-- A cue record; `due` is the frame number u of its due timecode (R121). -/
structure Cue where
  tag    : Nat
  due    : Nat
  action : Action
  guard  : Guard
  fade   : Option Nat
  deriving DecidableEq, Repr

/-- What became of a cue (R130). -/
inductive OutcomeKind where
  | done
  | skipped
  | missed
  | failed
  deriving DecidableEq, Repr

/-- An outcome record; `outTc` is the output timecode of the dispatch, as a frame number (R137). -/
structure OutcomeRec where
  tag      : Nat
  outcome  : OutcomeKind
  outTc    : Nat
  lateness : Nat
  deriving DecidableEq, Repr

/-- A cue scheduler's state (table of chapter 7). -/
structure Sched where
  cues      : List Cue
  lateLimit : Nat
  ring      : List OutcomeRec
  lost      : Bool
  deriving DecidableEq, Repr

/-- All that is held once per channel. -/
structure Channel where
  path   : Path
  pool   : Pool
  pres   : Presenter
  place  : Place
  assign : Assign
  sched  : Sched
  deriving DecidableEq, Repr

/-! ### The control ports (chapter 8) -/

/-- A complete control block as its port judges it: the length byte, the body bytes kept (at most 70), the sum of length byte,
all body bytes and check byte mod 256, and whether a byte had a framing fault (R147, R148). -/
structure Block where
  len     : Byte
  body    : List Byte
  sum     : Byte
  damaged : Bool
  deriving DecidableEq, Repr

/-- A port's receive state with the bytes of the block being received (R148). In BODY, `got` counts the body bytes received;
`sum` is the sum of the length byte and the body bytes so far. -/
inductive Recv where
  | seek
  | count
  | body (len : Byte) (kept : List Byte) (got : Nat) (sum : Byte) (damaged : Bool)
  | trailer (len : Byte) (kept : List Byte) (sum : Byte) (damaged : Bool)
  deriving DecidableEq, Repr

/-- A port's transaction state (R150). While ANSWERING it holds the reply being sent, or none while the command is still being
carried out, as STORE SETTINGS is. -/
inductive Trans where
  | free
  | answering (reply : Option (List Byte))
  deriving DecidableEq, Repr

/-- The keys of a sense record (R153). -/
inductive SenseKey where
  | none
  | notReady
  | illegal
  | notPermitted
  | noTarget
  | conflict
  | resource
  | link
  | storeFailed
  deriving DecidableEq, Repr

/-- The codes of a sense record (R153). -/
inductive SenseCode where
  | none
  | starting
  | unknownCommand
  | badLength
  | outOfRange
  | beyondHorizon
  | portIdle
  | wrongRole
  | noSuchTag
  | profileUndefined
  | duplicateTag
  | alreadyPast
  | guardFalse
  | slotInUse
  | profileZero
  | inTransition
  | boothNotLive
  | duplicateRole
  | listFull
  | byteFraming
  | badCheck
  | verifyFailed
  deriving DecidableEq, Repr

/-- A sense record; `info` is none when the info valid flag is clear, and the info field is then 0 (R153, R177). -/
structure Sense where
  key  : SenseKey
  code : SenseCode
  info : Option (BitVec 32)
  deriving DecidableEq, Repr

/-- A pending notice set: an entry for START, and for each other kind its source set; a kind is pending exactly when its
source set is not empty, so it is held at most once (R156, R161). -/
structure Notices where
  start      : Bool
  outcome    : BitVec 4
  feed       : BitVec 4
  assignment : BitVec 4
  profile    : BitVec 4
  delay      : BitVec 4
  conflict   : BitVec 4
  booth      : BitVec 6
  deriving DecidableEq, Repr

/-- A notice of a kind for a source (R156). -/
inductive Notice where
  | start
  | outcome (c : ChanNo)
  | feed (c : ChanNo)
  | assignment (c : ChanNo)
  | profile (c : ChanNo)
  | delay (c : ChanNo)
  | conflict (c : ChanNo)
  | booth (b : BoothNo)
  deriving DecidableEq, Repr

/-- A control port's state (table of chapter 8). `role` is none while no role is in force (R155). The attention line is the
function `Port.attention` of `pending` and `enabled` at every moment (R159), so it has no field of its own. -/
structure Port where
  role    : Option Role
  recv    : Recv
  trans   : Trans
  sense   : Sense
  pending : Notices
  enabled : BitVec 8
  deriving DecidableEq, Repr

/-! ### The configuration loader (chapter 9) -/

/-- The stored defaults of one channel (R166). -/
structure ChanDefaults where
  target    : Nat
  slew      : Nat
  lateLimit : Nat
  loss      : LossMode
  profile   : ProfNo
  deriving DecidableEq, Repr

/-- The standing settings: what the configuration memory's body carries (R166, R172). A profile whose defined flag is clear is
one the settings do not hold. -/
structure Settings where
  rate     : Rate
  roles    : Vector Role 6
  mask     : BitVec 8
  booths   : Vector BoothRecord 6
  profiles : Vector Profile 16
  chans    : Vector ChanDefaults 4
  deriving DecidableEq, Repr

/-- The loader's state; while STORING it holds the store snapshot and the port that awaits the reply (R172, R174). -/
inductive Phase where
  | starting
  | serving
  | storing (p : PortNo) (snapshot : Settings)
  deriving DecidableEq, Repr

/-- The configuration loader's state (table of chapter 9). `pendingRoles` is none where it holds no value (R168).
`grantsAtReset` holds each channel's grant as it stood when RESET UNIT was taken, none where no restart was asked for (R168).
`resetPort` is the port whose reply to RESET UNIT, once sent, brings the restart (R175). -/
structure Loader where
  phase         : Phase
  pendingRoles  : Option (Vector Role 6)
  rolesPending  : Bool
  defaulted     : Bool
  grantsAtReset : Option (Vector Nat 4)
  resetPort     : Option PortNo
  deriving DecidableEq, Repr

end Sys2Proof.Machine
end

