-- ==== Sys2Proof/Machine/Cells.lean ====
section
/-!
DEFINITION. Sparse contents kept in one canonical form: pairs of address and value with addresses strictly rising and no value
equal to what an unlisted address reads as. The configuration memory and the planes of pictures are held so.
-/
namespace Sys2Proof.Machine

/-- The value at an address: the one listed, else `fill`. -/
def cellsRead {α : Type} (fill : α) : List (Nat × α) → Nat → α
  | [], _ => fill
  | (b, w) :: t, a => if a = b then w else cellsRead fill t a

/-- The contents with one address given a value; a value equal to `fill` leaves the address unlisted. -/
def cellsWrite {α : Type} [DecidableEq α] (fill : α) : List (Nat × α) → Nat → α → List (Nat × α)
  | [], a, v => if v = fill then [] else [(a, v)]
  | (b, w) :: t, a, v =>
    if a < b then (if v = fill then (b, w) :: t else (a, v) :: (b, w) :: t)
    else if a = b then (if v = fill then t else (a, v) :: t)
    else (b, w) :: cellsWrite fill t a v

/-- The canonical form, with every address at or above `lo`. -/
def cellsCanon {α : Type} [DecidableEq α] (fill : α) : Nat → List (Nat × α) → Bool
  | _, [] => true
  | lo, (a, v) :: t => decide (lo ≤ a ∧ v ≠ fill) && cellsCanon fill (a + 1) t

/-- The configuration memory's byte at an offset (section 9.1). -/
def memRead (m : List Host.Cell) (a : Nat) : Byte := cellsRead Config.blankMemory m a

/-- The configuration memory with one byte written. -/
def memWrite (m : List Host.Cell) (a : Nat) (v : Byte) : List Host.Cell := cellsWrite Config.blankMemory m a v

/-- The configuration memory's canonical form holds. -/
def Memory.wf (m : List Host.Cell) : Bool := cellsCanon Config.blankMemory 0 m

/-- The sample of a plane at an address in raster order. -/
def planeGet (p : Plane) (a : Nat) : Nat := cellsRead p.fill p.cells a

/-- The plane with one sample written. -/
def planeWrite (p : Plane) (a v : Nat) : Plane := { p with cells := cellsWrite p.fill p.cells a v }

/-- The plane, `w` samples wide, with the samples of the rectangle at (x, y) of `bw` by `bh` given by `val` of column and line
within the rectangle. -/
def planePaint (p : Plane) (w x y bw bh : Nat) (val : Nat → Nat → Nat) : Plane :=
  (List.range bh).foldr
    (fun v q => (List.range bw).foldr (fun u r => planeWrite r ((y + v) * w + (x + u)) (val u v)) q) p

/-- The plane with every sample passed through a function. -/
def planeMap (f : Nat → Nat) (p : Plane) : Plane :=
  { fill := f p.fill, cells := (p.cells.map (fun x => (x.1, f x.2))).filter (fun x => x.2 != f p.fill) }

/-- The sum of a plane's `n` samples. -/
def planeSum (n : Nat) (p : Plane) : Nat :=
  p.fill * (n - p.cells.length) + (p.cells.map (·.2)).sum

/-- Some sample of a plane of `n` samples is above a bound. -/
def planeAbove (n bound : Nat) (p : Plane) : Bool :=
  (decide (p.cells.length < n) && decide (bound < p.fill)) || p.cells.any (fun x => decide (bound < x.2))

/-- The black frame's picture (R3). -/
def blackPicture : Picture :=
  { y := { fill := Config.blackLuma, cells := [] }
    cb := { fill := Config.blackChroma, cells := [] }
    cr := { fill := Config.blackChroma, cells := [] } }

end Sys2Proof.Machine
end

