-- ==== Sys2Proof/Machine/Defaults.lean ====
section
/-!
DEFINITION. The values the spec gives the blocks for a unit restart, for an invalid configuration memory, and for a record
that the stored settings do not hold.
-/
namespace Sys2Proof.Machine

/-- The start values of a booth record when the settings are invalid (section 2.2, R25). -/
def defaultBoothRecord : BoothRecord :=
  { slot := none, width := .w10, cb0 := 512, cr0 := 512, rIn := 0, rOut := 1, cx := 0, cy := 0, hold := 12, recovery := 3 }

/-- The default profile record (R58), with the defined flag given. -/
def defaultProfile (defined : Bool) : Profile :=
  { cw := 432, ch := 528, fp := 2, ff := some 3, positions := [(1656, 762), (48, 762)], edge := 2, fade := 12, move := 8,
    defined := defined }

/-- The profile library when the configuration memory is invalid (R58): P0 defined, P1 to P15 undefined. -/
def defaultProfiles : Vector Profile 16 :=
  (Vector.replicate 16 (defaultProfile false)).set 0 (defaultProfile true)

/-- The default role of each port (R166). -/
def defaultRoles : Vector Role 6 :=
  #v[.channel 0, .channel 1, .channel 2, .channel 3, .studio, .monitor]

/-- The defaults of a channel when the configuration memory is invalid (R166). -/
def defaultChan : ChanDefaults :=
  { target := 0, slew := Config.defaultSlew, lateLimit := Config.defaultLateLimit, loss := .holdFade, profile := 0 }

/-- Every item at its default of R166. -/
def defaultSettings : Settings :=
  { rate := .f25, roles := defaultRoles, mask := 0, booths := Vector.replicate 6 defaultBoothRecord,
    profiles := defaultProfiles, chans := Vector.replicate 4 defaultChan }

/-- The sense record NONE (R151, R153). -/
def senseNone : Sense := { key := .none, code := .none, info := none }

/-- An empty pending notice set (R159). -/
def noNotices : Notices :=
  { start := false, outcome := 0, feed := 0, assignment := 0, profile := 0, delay := 0, conflict := 0, booth := 0 }

/-- The starting values of a programme path (table "Starting values" of chapter 1). DESIGN CHOICE: neither the table nor R1 says
whether a valid frame from before the restart counts for R1's period; it is forgotten (log 31). -/
def restartPath : Path :=
  { locked := false, prevValid := false, lastTc := none, flywheel := false, bypass := true, line := [], lastOut := none,
    outTc := 0, slewInterval := Config.defaultSlew, slewCounter := 0, sent := none }

/-- A channel's share of the frame pool before its grant is computed (R19). -/
def restartPool : Pool := { target := 0, granted := 0, clamped := false }

/-- The starting values of a presenter controller (R79). DESIGN CHOICE: R79 gives the visibility at step entry no value after a unit
restart; it starts at not visible (log 25). -/
def restartPresenter : Presenter :=
  { state := .off, intent := false, g := 0, fade := none, loss := .holdFade, frozen := false, visAtEntry := false }

/-- The starting values of a placement unit (R78): P0's default record puts every channel at (1656, 762) with factor 2. -/
def restartPlace : Place :=
  { profile := 0, zones := Vector.replicate 6 { active := false, window := ⟨0, 0, 0, 0⟩ }, replace := false,
    chosen := ⟨1656, 762, 2⟩, shown := ⟨1656, 762, 2⟩, move := none, conflict := false, visBefore := false }

/-- The starting values of an assignment record (R103). -/
def restartAssign : Assign := { assigned := none, incoming := none, releasePending := false }

/-- The starting values of a cue scheduler (R146). -/
def restartSched : Sched := { cues := [], lateLimit := Config.defaultLateLimit, ring := [], lost := false }

/-- The starting values of a channel. -/
def restartChannel : Channel :=
  { path := restartPath, pool := restartPool, pres := restartPresenter, place := restartPlace, assign := restartAssign,
    sched := restartSched }

/-- A booth as it begins after a unit restart, with the record given (R25). -/
def restartBooth (r : BoothRecord) : Booth :=
  { record := r, health := .absent, ready := none, candidate := none, missed := 0, good := 0, seq := 0, last := .none,
    awaiting := false }

/-- A control port after a unit restart: no role in force, SEEK, FREE, sense NONE, nothing pending, all eight kinds enabled
(R148, R150, R153, R155, R158, R159). -/
def restartPort : Port :=
  { role := none, recv := .seek, trans := .free, sense := senseNone, pending := noNotices, enabled := 0xFF }

/-- The loader at power-on (R168). -/
def powerOnLoader : Loader :=
  { phase := .starting, pendingRoles := none, rolesPending := false, defaulted := false, grantsAtReset := none,
    resetPort := none }

end Sys2Proof.Machine
end

