-- ==== Sys2Proof/Machine/State.lean ====
section
/-!
DEFINITION. The state of the part: everything spec/ gives it, plain data, with the queue of the commands that wait. What a
step can end in beside a next state. The state right after a power-on restart.
-/
namespace Sys2Proof.Machine

/-- Why the part could stop. No rule of spec/ names a fault that stops the part: a refused block is answered and the part goes
on (R151), and every event has an effect or none. So there is no fault. -/
inductive Fault
  deriving DecidableEq, Repr

/-- Why a command has no outcome in the model. -/
inductive Refusal where
  /-- The command has no meaning yet; raised by an arm of `exec` only; safe, since nothing is said of the command. -/
  | notModelled (mnemonic : String)
  deriving DecidableEq, Repr

/-- The whole state. `linkInFrame` says that the booth link receiver is inside a link frame (R23, R27). `memory` is the
configuration memory in canonical form: addresses rising, none equal to `Config.blankMemory`. `pending` is the queue of the
commands that wait, first in, first out. -/
structure State where
  rate        : Rate
  chans       : Vector Channel 4
  booths      : Vector Booth 6
  slotMask    : BitVec 8
  linkInFrame : Bool
  profiles    : Vector Profile 16
  ports       : Vector Port 6
  loader      : Loader
  memory      : List Host.Cell
  pending     : List Instr
  deriving DecidableEq, Repr

/-- The state right after a power-on restart (R168): start-up is in progress, bypass is engaged on every path, every booth is
ABSENT, no port has a role. The items the loader will load stand at their defaults of R166 (notes/assumptions/2.md), the
configuration memory is blank (notes/assumptions/3.md), and no command waits. -/
def State.reset : State :=
  { rate := .f25
    chans := Vector.replicate 4 restartChannel
    booths := Vector.replicate 6 (restartBooth defaultBoothRecord)
    slotMask := 0
    linkInFrame := false
    profiles := defaultProfiles
    ports := Vector.replicate 6 restartPort
    loader := powerOnLoader
    memory := []
    pending := [] }

end Sys2Proof.Machine
end

