-- ==== Sys2Proof/Machine/Time.lean ====
section
/-!
DEFINITION. Frame rate, day, timecode and signed offset (00_scope.md, Timecode and frame numbers; Signed offset, ahead and due).
-/
namespace Sys2Proof.Machine

/-- F, the frames in a second. -/
def Rate.fps : Rate → Nat
  | .f25 => 25
  | .f50 => 50

/-- D, the frames in a day. -/
def Rate.day (r : Rate) : Nat := 86400 * r.fps

/-- Every field of a timecode is in range (R4). -/
def tcValid (r : Rate) (t : Sys2Proof.Timecode) : Bool :=
  decide (t.hh ≤ 23 ∧ t.mm ≤ 59 ∧ t.ss ≤ 59 ∧ t.ff ≤ r.fps - 1)

/-- The frame number of a timecode. -/
def tcToFrame (r : Rate) (t : Sys2Proof.Timecode) : Nat :=
  ((t.hh * 60 + t.mm) * 60 + t.ss) * r.fps + t.ff

/-- The timecode of a frame number (R178). -/
def tcOfFrame (r : Rate) (n : Nat) : Sys2Proof.Timecode :=
  { hh := n / (3600 * r.fps), mm := n / (60 * r.fps) % 60, ss := n / r.fps % 60, ff := n % r.fps }

/-- The signed offset of a due frame from a timecode, from −D/2 to D/2 − 1. -/
def signedOffset (r : Rate) (due t : Nat) : Int :=
  let rem := ((due : Int) - (t : Int)) % (r.day : Int)
  if rem ≥ (r.day / 2 : Nat) then rem - (r.day : Int) else rem

/-- The farthest a cue may be ahead when it is offered: D/4 (R124). -/
def Rate.horizon (r : Rate) : Nat := r.day / 4

/-- ceil(a / b) (section 5.3). -/
def ceilDiv (a b : Nat) : Nat := (a + b - 1) / b

/-- round(a / b), half up (00_scope.md, Rounding). -/
def roundDiv (a b : Nat) : Nat := (2 * a + b) / (2 * b)

end Sys2Proof.Machine
end

