-- ==== Sys2Proof/Machine/Ops.lean ====
section
/-!
DEFINITION. The operations every block shares: reading and replacing a channel, a booth, a port or a profile; raising notices;
the frame pool's grants.
-/
namespace Sys2Proof.Machine

/-! ### Access -/

def State.chan (s : State) (c : ChanNo) : Channel := s.chans[c]
def State.setChan (s : State) (c : ChanNo) (x : Channel) : State := { s with chans := s.chans.set c x }
def State.booth (s : State) (b : BoothNo) : Booth := s.booths[b]
def State.setBooth (s : State) (b : BoothNo) (x : Booth) : State := { s with booths := s.booths.set b x }
def State.port (s : State) (p : PortNo) : Port := s.ports[p]
def State.setPort (s : State) (p : PortNo) (x : Port) : State := { s with ports := s.ports.set p x }
def State.profile (s : State) (n : ProfNo) : Profile := s.profiles[n]
def State.setProfile (s : State) (n : ProfNo) (x : Profile) : State := { s with profiles := s.profiles.set n x }

def State.setPath (s : State) (c : ChanNo) (x : Path) : State := s.setChan c { s.chan c with path := x }
def State.setPool (s : State) (c : ChanNo) (x : Pool) : State := s.setChan c { s.chan c with pool := x }
def State.setPres (s : State) (c : ChanNo) (x : Presenter) : State := s.setChan c { s.chan c with pres := x }
def State.setPlace (s : State) (c : ChanNo) (x : Place) : State := s.setChan c { s.chan c with place := x }
def State.setAssign (s : State) (c : ChanNo) (x : Assign) : State := s.setChan c { s.chan c with assign := x }
def State.setSched (s : State) (c : ChanNo) (x : Sched) : State := s.setChan c { s.chan c with sched := x }

/-- The profile record a channel's current profile names (R57). -/
def State.currentProfile (s : State) (c : ChanNo) : Profile := s.profile (s.chan c).place.profile

/-! ### Notices (section 8.5) -/

/-- A port of this role is entitled to the notice (R157). -/
def Role.hears : Role → Notice → Bool
  | _, .start => true
  | .channel n, .outcome c => n == c
  | .channel n, .feed c => n == c
  | .channel n, .profile c => n == c
  | .channel n, .delay c => n == c
  | .channel n, .conflict c => n == c
  | .channel n, .assignment c => n == c
  | .channel _, .booth _ => false
  | .studio, .assignment _ => true
  | .studio, .booth _ => true
  | .studio, _ => false
  | .monitor, _ => true
  | .idle, _ => false

/-- The notice added to a pending set: a kind not pending gains an entry, a source not in its entry is added (R156). -/
def Notices.add (n : Notices) : Notice → Notices
  | .start => { n with start := true }
  | .outcome c => { n with outcome := n.outcome ||| BitVec.twoPow 4 c }
  | .feed c => { n with feed := n.feed ||| BitVec.twoPow 4 c }
  | .assignment c => { n with assignment := n.assignment ||| BitVec.twoPow 4 c }
  | .profile c => { n with profile := n.profile ||| BitVec.twoPow 4 c }
  | .delay c => { n with delay := n.delay ||| BitVec.twoPow 4 c }
  | .conflict c => { n with conflict := n.conflict ||| BitVec.twoPow 4 c }
  | .booth b => { n with booth := n.booth ||| BitVec.twoPow 6 b }

/-- What raising a notice does at one port: nothing while no role is in force (R169) or where the role is not entitled. -/
def Port.hear (q : Port) (e : Notice) : Port :=
  match q.role with
  | none => q
  | some r => if r.hears e then { q with pending := q.pending.add e } else q

/-- An owning block raises a notice: it goes into the pending set of every port entitled to it (R156, R157). -/
def State.raise (s : State) (e : Notice) : State :=
  { s with ports := Vector.ofFn (fun i => s.ports[i].hear e) }

/-- The notice is raised when the condition holds. -/
def State.raiseIf (s : State) (b : Bool) (e : Notice) : State := if b then s.raise e else s

/-! ### The frame pool (section 1.6) -/

/-- The actual delay A: the frames retained in the delay line (R7). -/
def Channel.actual (x : Channel) : Nat := x.path.line.length

/-- The reservation: the greater of the granted and the actual delay (R13). -/
def Channel.reservation (x : Channel) : Nat := max x.pool.granted x.actual

/-- The sum of the four channels' reservations (R13). -/
def State.reserved (s : State) : Nat :=
  (s.chan 0).reservation + (s.chan 1).reservation + (s.chan 2).reservation + (s.chan 3).reservation

/-- The grant the pool allows a channel for a target: min(target, 480 − R), R the other channels' reservations (R14). -/
def State.grantFor (s : State) (c : ChanNo) (target : Nat) : Nat :=
  min target (Config.poolFrames - (s.reserved - (s.chan c).reservation))

/-- The channel's grant set to G, with its clamped flag and, where the grant changed, its DELAY notice (R14, R16). -/
def State.setGrant (s : State) (c : ChanNo) (g : Nat) : State :=
  let p := (s.chan c).pool
  (s.setPool c { p with granted := g, clamped := decide (g < p.target) }).raiseIf (g != p.granted) (.delay c)

/-- One channel's turn in a re-evaluation pass: a clamped channel whose grant can rise is granted anew (R15). -/
def State.regrant (s : State) (c : ChanNo) : State :=
  let p := (s.chan c).pool
  if p.clamped && decide (p.granted < s.grantFor c p.target) then s.setGrant c (s.grantFor c p.target) else s

/-- The pool's re-evaluation pass over the clamped channels, C0 to C3 (R15). -/
def State.poolPass (s : State) : State := (((s.regrant 0).regrant 1).regrant 2).regrant 3

/-- The pass is made when the channel's reservation has fallen from what it was (R14, R15). -/
def State.poolPassIfFell (s : State) (c : ChanNo) (before : Nat) : State :=
  if (s.chan c).reservation < before then s.poolPass else s

/-- A channel's target set and its grant computed, with the pass that a fallen reservation brings (R14). -/
def State.setTarget (s : State) (c : ChanNo) (d : Nat) : State :=
  let x := s.chan c
  let s1 := s.setPool c { x.pool with target := d }
  (s1.setGrant c (s.grantFor c d)).poolPassIfFell c x.reservation

/-! ### The feed (section 5.1) -/

/-- LIVE and HELD are the usable healths (section 2.4). -/
def Health.usable : Health → Bool
  | .live => true
  | .held => true
  | .lost => false
  | .absent => false

/-- The health of a channel's assigned booth, if one is assigned. -/
def State.assignedHealth (s : State) (c : ChanNo) : Option Health :=
  (s.chan c).assign.assigned.map (fun b => (s.booth b).health)

/-- The channel's feed is usable: it has an assigned booth that is LIVE or HELD (R81). -/
def State.feedUsable (s : State) (c : ChanNo) : Bool :=
  match s.assignedHealth c with
  | some h => h.usable
  | none => false

end Sys2Proof.Machine
end

