-- ==== Sys2Proof/Machine/Booths.lean ====
section
/-!
DEFINITION. The booth link receiver and the booth store: slot results, landing, health, and what SET SLOT MASK and WRITE BOOTH
do to a booth (chapter 2).
-/
namespace Sys2Proof.Machine

/-- Samples of a booth picture: luma samples, and samples of each chroma component (section 2.1). -/
def boothLuma : Nat := Config.boothWidth * Config.boothHeight
def boothChroma : Nat := Config.boothWidth / 2 * Config.boothHeight

/-- The sum of all raw samples of a slot, mod 65536 (R22). -/
def rawSum (p : Picture) : Nat := (planeSum boothLuma p.y + planeSum boothChroma p.cb + planeSum boothChroma p.cr) % 65536

/-- Some container of the slot holds a value above 255 (R22). -/
def rawAbove255 (p : Picture) : Bool :=
  planeAbove boothLuma 255 p.y || planeAbove boothChroma 255 p.cb || planeAbove boothChroma 255 p.cr

/-- The result of a slot by the four tests of R22, `rx` being none where the slot was not received in full. -/
def slotResult (enabled : Bool) (w : Width) (rx : Option SlotRx) : SlotResult :=
  if !enabled then .masked
  else match rx with
    | none => .damaged
    | some s =>
      match s.marker with
      | .noPicture => .empty
      | .other => .damaged
      | .picture => if (w == .w8 && rawAbove255 s.raw) || s.check != rawSum s.raw then .damaged else .good

/-- Landing of one sample: widened, then clamped to the legal range (R29). -/
def landSample (w : Width) (high v : Nat) : Nat :=
  let x := match w with
    | .w8 => v * 4
    | .w10 => v
  min (max x Config.legalLow) high

/-- Landing of a GOOD picture (R29). -/
def land (w : Width) (p : Picture) : Picture :=
  { y := planeMap (landSample w Config.legalLuma) p.y
    cb := planeMap (landSample w Config.legalChroma) p.cb
    cr := planeMap (landSample w Config.legalChroma) p.cr }

/-- A landed picture becomes READY: the sequence number rises by 1 mod 65536, the health is LIVE, the counts are 0 and no
candidate is held (R30, R32, R33). -/
def Booth.promote (b : Booth) (p : Picture) : Booth :=
  { b with ready := some p, candidate := none, seq := (b.seq + 1) % 65536, health := .live, missed := 0, good := 0 }

/-- A GOOD result (R32, R33). -/
def Booth.onGood (b : Booth) (p : Picture) : Booth :=
  match b.health with
  | .absent => b.promote p
  | .live => b.promote p
  | .held => b.promote p
  | .lost => if b.good + 1 ≥ b.record.recovery then b.promote p
             else { b with good := b.good + 1, candidate := some p }

/-- A miss, EMPTY or DAMAGED (R32, R33). -/
def Booth.onMiss (b : Booth) : Booth :=
  match b.health with
  | .absent => b
  | .live => { b with missed := 1, health := if b.record.hold ≤ 1 then .lost else .held, good := 0 }
  | .held =>
    if b.missed + 1 ≥ b.record.hold then { b with missed := b.missed + 1, health := .lost, good := 0 }
    else { b with missed := b.missed + 1 }
  | .lost => { b with good := 0, candidate := none }

/-- A slot result applied to a booth; every result applied becomes its last slot result (R32, R33). -/
def Booth.applyResult (b : Booth) (r : SlotResult) (p : Picture) : Booth :=
  let q := match r with
    | .good => b.onGood p
    | .empty => b.onMiss
    | .damaged => b.onMiss
    | .masked => b
    | .none => b
  { q with last := r }

/-- The booth goes to ABSENT at once (R35). -/
def Booth.toAbsent (b : Booth) : Booth :=
  { b with health := .absent, ready := none, candidate := none, missed := 0, good := 0, seq := 0, last := .none }

/-- The health re-examined with the new hold limit and recovery count already in the record (R34). -/
def Booth.reexamine (b : Booth) : Booth :=
  match b.health with
  | .held => if b.missed ≥ b.record.hold then { b with health := .lost, missed := b.record.hold, good := 0 } else b
  | .lost =>
    if b.good ≥ b.record.recovery then
      match b.candidate with
      | some p => b.promote p
      | none => { b with missed := b.record.hold }
    else { b with missed := b.record.hold }
  | .live => b
  | .absent => b

/-- WRITE BOOTH's effect on the booth (R27). -/
def Booth.rewrite (b : Booth) (r : BoothRecord) : Booth :=
  if r.slot ≠ b.record.slot ∨ r.width ≠ b.record.width then { b.toAbsent with record := r, awaiting := true }
  else if r.hold ≠ b.record.hold ∨ r.recovery ≠ b.record.recovery then ({ b with record := r } : Booth).reexamine
  else { b with record := r }

/-- The FEED notices of a booth's change between usable and unusable healths: one for each channel it is assigned to (R36). -/
def State.raiseFeed (s : State) (b : BoothNo) (changed : Bool) : State :=
  let tell := fun (t : State) (c : ChanNo) => t.raiseIf (changed && (s.chan c).assign.assigned == some b) (.feed c)
  tell (tell (tell (tell s 0) 1) 2) 3

/-- A booth replaced, with the BOOTH notice of a change of health and the FEED notices of a change of usability (R36). -/
def State.putBooth (s : State) (b : BoothNo) (x : Booth) : State :=
  let old := (s.booth b).health
  ((s.setBooth b x).raiseIf (x.health != old) (.booth b)).raiseFeed b (x.health.usable != old.usable)

/-- A booth's turn at a link frame end: the result of its slot is applied, unless it has no slot or was remapped since the
reception of the frame began (R21, R27). `results` gives a slot's result and `picture` what landed in it. -/
def State.boothEnd (s : State) (b : BoothNo) (slots : SlotNo → Option SlotRx) : State :=
  let x := s.booth b
  match x.record.slot with
  | none => s
  | some n =>
    if x.awaiting then s
    else
      let r := slotResult (s.slotMask.getLsbD n) x.record.width (slots n)
      let p := match slots n with
        | some rx => land x.record.width rx.raw
        | none => blackPicture
      s.putBooth b (x.applyResult r p)

/-- The slots' results applied to all six booths (R21). -/
def State.boothEnds (s : State) (slots : SlotNo → Option SlotRx) : State :=
  [0, 1, 2, 3, 4, 5].foldl (fun t b => t.boothEnd b slots) s

/-- A link frame end with the slots received in full, S0 first (R21, R23). -/
def State.linkEnd (s : State) (slots : List SlotRx) : State :=
  ({ s with linkInFrame := false } : State).boothEnds (fun n => slots[n.val]?)

/-- The reception of a new link frame begins: a remapped booth takes its results from this frame on (R27). -/
def State.linkBegin (s : State) : State :=
  { s with linkInFrame := true, booths := Vector.ofFn (fun i => { s.booths[i] with awaiting := false }) }

/-- What a slot of a silent link gives: no picture (R23). -/
def silentSlot : SlotRx := { marker := .noPicture, raw := blackPicture, check := 0 }

/-- A booth goes to ABSENT when its slot is one the mask given newly masks (R24, R35). -/
def State.maskBooth (s : State) (old new : BitVec 8) (b : BoothNo) : State :=
  match (s.booth b).record.slot with
  | none => s
  | some n => if old.getLsbD n && !new.getLsbD n then s.putBooth b (s.booth b).toAbsent else s

/-- The slot mask becomes the set given (R24). -/
def State.setMask (s : State) (m : BitVec 8) : State :=
  [0, 1, 2, 3, 4, 5].foldl (fun t b => t.maskBooth s.slotMask m b) { s with slotMask := m }

/-- Another booth's record names the slot (R26). -/
def State.slotHolder (s : State) (b : BoothNo) (slot : Option SlotNo) : Option BoothNo :=
  [0, 1, 2, 3, 4, 5].find? (fun o => o != b && slot.isSome && (s.booth o).record.slot == slot)

end Sys2Proof.Machine
end

