-- ==== Sys2Proof/Machine/Presenter.lean ====
section
/-!
DEFINITION. The presenter controller: actions, fades, the presenter step and its loss reactions (chapter 5); and the visibility
report to the assignment map (R92, R113).
-/
namespace Sys2Proof.Machine

/-- Visible: RISING, ON or FALLING (R80). -/
def PState.visible : PState → Bool
  | .off => false
  | .rising => true
  | .on => true
  | .falling => true
  | .waitFeed => false

/-- The step count of a rise of length n from level g0 (R86). -/
def riseSteps (n g0 : Nat) : Nat := max 1 (ceilDiv (n * (Config.whole - g0)) Config.whole)

/-- The step count of a fall of length n from level g0 (R87). -/
def fallSteps (n g0 : Nat) : Nat := max 1 (ceilDiv (n * g0) Config.whole)

/-- The level a fade shows at its step i (R86, R87). -/
def Fade.level (f : Fade) (i : Nat) : Nat :=
  if f.rise then f.g0 + roundDiv ((Config.whole - f.g0) * i) f.m else f.g0 - roundDiv (f.g0 * i) f.m

/-- RISING from level g0 with length n; the first step is still to come (R82, R84, R86). -/
def Presenter.beginRise (p : Presenter) (g0 n : Nat) : Presenter :=
  { p with state := .rising, g := g0, fade := some { rise := true, g0 := g0, n := n, m := riseSteps n g0, i := 0 } }

/-- FALLING from the current g with length n; the first step is still to come (R83, R84, R87). -/
def Presenter.beginFall (p : Presenter) (n : Nat) : Presenter :=
  { p with state := .falling, fade := some { rise := false, g0 := p.g, n := n, m := fallSteps n p.g, i := 0 } }

/-- Where a presenter that leaves the visible states ends: WAIT_FEED while the intent is ON, else OFF (R91, R95, R97). -/
def Presenter.restState (p : Presenter) : PState := if p.intent then .waitFeed else .off

/-- g becomes 0 in this frame and the fade record is discarded (R95, R97). -/
def Presenter.cutToZero (p : Presenter) : Presenter := { p with state := p.restState, g := 0, fade := none }

/-- PRESENTER ON (table of R82); `n` is the length of a rise begun here. -/
def Presenter.actionOn (p : Presenter) (usable releasePending : Bool) (n : Nat) : Presenter :=
  let q := { p with intent := true }
  match p.state with
  | .off => if usable then q.beginRise 0 n else { q with state := .waitFeed }
  | .waitFeed => q
  | .rising => q
  | .on => q
  | .falling => if !releasePending && usable then q.beginRise p.g n else q

/-- PRESENTER OFF (table of R83); `n` is the length of a fall begun here. -/
def Presenter.actionOff (p : Presenter) (n : Nat) : Presenter :=
  let q := { p with intent := false }
  match p.state with
  | .off => q
  | .waitFeed => { q with state := .off }
  | .rising => q.beginFall n
  | .on => q.beginFall n
  | .falling => q

/-- What release pending does to the presenter: RISING or ON begins to fall, FALLING runs on (R98). -/
def Presenter.fallForRelease (p : Presenter) (n : Nat) : Presenter :=
  match p.state with
  | .rising => p.beginFall n
  | .on => p.beginFall n
  | .falling => p
  | .off => p
  | .waitFeed => p

/-- The reaction to a LOST booth under a visible presenter, by loss mode (R94, R95, R96). -/
def Presenter.onLost (p : Presenter) (n : Nat) : Presenter :=
  match p.loss with
  | .holdFade => p.fallForRelease n
  | .cut => p.cutToZero
  | .freeze => p

/-- The feed is usable at the presenter step: a rise out of WAIT_FEED from 0, or out of FALLING with intent ON and no release
pending from the current g (R90). -/
def Presenter.riseOnFeed (p : Presenter) (releasePending : Bool) (n : Nat) : Presenter :=
  match p.state with
  | .waitFeed => p.beginRise 0 n
  | .falling => if p.intent && !releasePending then p.beginRise p.g n else p
  | .off => p
  | .rising => p
  | .on => p

/-- Part 1 of the presenter step: a rise out of WAIT_FEED or FALLING, and the reactions to a booth that is LOST or ABSENT while
the presenter is visible (R90, R94 to R97). `health` is the assigned booth's, none when no booth is assigned. -/
def Presenter.react (p : Presenter) (health : Option Health) (releasePending : Bool) (n : Nat) : Presenter :=
  match health with
  | none => p
  | some .live => p.riseOnFeed releasePending n
  | some .held => p.riseOnFeed releasePending n
  | some .lost => if p.state.visible then p.onLost n else p
  | some .absent => if p.state.visible then p.cutToZero else p

/-- Part 2 of the presenter step: one step of the fade in progress; at step m a rise ends with g = 256 and the state ON, and a
fall with g = 0 and the state OFF or WAIT_FEED (R91). -/
def Presenter.fadeStep (p : Presenter) : Presenter :=
  match p.state, p.fade with
  | .rising, some f =>
    if f.i + 1 ≥ f.m then { p with state := .on, g := Config.whole, fade := none }
    else { p with g := f.level (f.i + 1), fade := some { f with i := f.i + 1 } }
  | .falling, some f =>
    if f.i + 1 ≥ f.m then p.cutToZero
    else { p with g := f.level (f.i + 1), fade := some { f with i := f.i + 1 } }
  | _, _ => p

/-- Part 3 of the presenter step: the frozen flag is set while the presenter is visible, its booth is LOST and the loss mode is
FREEZE, and cleared otherwise (R96). -/
def Presenter.setFrozen (p : Presenter) (health : Option Health) : Presenter :=
  { p with frozen := p.state.visible && health == some .lost && p.loss == .freeze }

/-- The presenter step but for its visibility report: parts 1 to 3, with the visibility at entry recorded first (R89). -/
def Presenter.step (p : Presenter) (health : Option Health) (releasePending : Bool) (n : Nat) : Presenter :=
  ((({ p with visAtEntry := p.state.visible } : Presenter).react health releasePending n).fadeStep).setFrozen health

/-- A completed handover: the incoming booth becomes the assigned booth, and what was held with it is cleared (R110). -/
def Assign.complete (a : Assign) (b : BoothNo) : Assign := { a with assigned := some b, incoming := none }

/-- The visibility report's effect on the assignment record: a pending release ends, or a handover in progress is forced to
complete (R113). -/
def Assign.onReport (a : Assign) : Assign :=
  if a.releasePending then { a with assigned := none, releasePending := false }
  else match a.incoming with
    | some inc => a.complete inc.booth
    | none => a

/-- The visibility report reaches the assignment map, which raises an ASSIGNMENT notice when it acts (R92, R113, R118). -/
def State.visibilityReport (s : State) (c : ChanNo) : State :=
  let a := (s.chan c).assign
  (s.setAssign c a.onReport).raiseIf (a.releasePending || a.incoming.isSome) (.assignment c)

/-- The presenter step of a channel's frame start (R89). -/
def State.presenterStep (s : State) (c : ChanNo) : State :=
  let x := s.chan c
  let p := x.pres.step (s.assignedHealth c) x.assign.releasePending (s.currentProfile c).fade
  let s1 := s.setPres c p
  if p.visAtEntry && !p.state.visible then s1.visibilityReport c else s1

/-- PRESENTER ON executed on a channel (R82), with the length R84 gives. -/
def State.presenterOn (s : State) (c : ChanNo) (override : Option Nat) : State :=
  let x := s.chan c
  s.setPres c (x.pres.actionOn (s.feedUsable c) x.assign.releasePending (override.getD (s.currentProfile c).fade))

/-- PRESENTER OFF executed on a channel (R83), with the length R84 gives. -/
def State.presenterOff (s : State) (c : ChanNo) (override : Option Nat) : State :=
  s.setPres c ((s.chan c).pres.actionOff (override.getD (s.currentProfile c).fade))

end Sys2Proof.Machine
end

