-- ==== Sys2Proof/Machine/Placement.lean ====
section
/-!
DEFINITION. The placement unit: zones, the choice of a placement, moves and the placement step (chapter 4).
-/
namespace Sys2Proof.Machine

/-- A number rounded down to even. -/
def evenDown (n : Nat) : Nat := n - n % 2

/-- The box width and height at a factor (R67). -/
def Profile.boxW (p : Profile) (f : Nat) : Nat := p.cw / f
def Profile.boxH (p : Profile) (f : Nat) : Nat := p.ch / f

/-- A placement fitted to the picture (R67, R72). -/
def Profile.fit (p : Profile) (q : Placement) : Placement :=
  { x := evenDown (min q.x (Config.picWidth - p.boxW q.f)), y := min q.y (Config.picHeight - p.boxH q.f), f := q.f }

/-- The fitted candidates of a profile in order: each position at the preferred factor, then each at the fallback factor (R67). -/
def Profile.candidates (p : Profile) : List Placement :=
  p.positions.map (fun q => p.fit ⟨q.1, q.2, p.fp⟩) ++
    (match p.ff with
     | some f => p.positions.map (fun q => p.fit ⟨q.1, q.2, f⟩)
     | none => [])

/-- The length two spans share. -/
def shared (a la b lb : Nat) : Nat := min (a + la) (b + lb) - max a b

/-- The area a window shares with a box (R68). -/
def Window.sharedArea (z : Window) (x y bw bh : Nat) : Nat := shared x bw z.x z.w * shared y bh z.y z.h

/-- The overlap of a fitted candidate: each active zone counted in full (R68). -/
def Profile.overlap (p : Profile) (zones : List Zone) (q : Placement) : Nat :=
  ((zones.filter (·.active)).map (fun z => z.window.sharedArea q.x q.y (p.boxW q.f) (p.boxH q.f))).sum

/-- The earliest of the candidates with the least overlap, from one already in hand (R69). -/
def leastOverlap (score : Placement → Nat) (best : Placement) : List Placement → Placement
  | [] => best
  | q :: t => if score q < score best then leastOverlap score q t else leastOverlap score best t

/-- The choice: the first candidate with overlap 0, else the earliest with the least overlap; and whether the zone conflict flag
is set (R69). A profile always has a candidate (section 4.1); without one the placement given is kept. -/
def Profile.choose (p : Profile) (zones : List Zone) (kept : Placement) : Placement × Bool :=
  match p.candidates with
  | [] => (kept, false)
  | q :: t =>
    let best := leastOverlap (p.overlap zones) q t
    (best, p.overlap zones best != 0)

/-- The position and factor of step i of a move, before it is fitted (R71, R72). -/
def Move.at (m : Move) (i : Nat) : Placement :=
  let along := fun (a b : Nat) => (a : Int) + (2 * ((b : Int) - a) * i + m.n) / (2 * m.n)
  { x := evenDown (along m.origin.x m.target.x).toNat
    y := (along m.origin.y m.target.y).toNat
    f := if i < ceilDiv m.n 2 then m.origin.f else m.target.f }

/-- One step of a move: the shown placement of the step, and the record, discarded at step n (R71). -/
def Place.moveStep (pl : Place) (m : Move) : Place :=
  if m.i + 1 ≥ m.n then { pl with shown := m.target, move := none }
  else { pl with shown := m.at (m.i + 1), move := some { m with i := m.i + 1 } }

/-- The move in progress takes its next step; with none the box stays (R70). -/
def Place.advance (pl : Place) : Place :=
  match pl.move with
  | some m => pl.moveStep m
  | none => pl

/-- A choice made while the presenter is visible now and was at the previous frame start (R70, first case). -/
def Place.applyChoice (pl : Place) (moveFrames : Nat) : Place :=
  if pl.move.any (fun m => m.target == pl.chosen) then pl.advance
  else if pl.chosen = pl.shown then { pl with move := none }
  else if moveFrames = 0 then { pl with move := none, shown := pl.chosen }
  else pl.moveStep { origin := pl.shown, target := pl.chosen, n := moveFrames, i := 0 }

/-- The first part of the placement step: the choice, when re-placement is pending (R66, R69). -/
def Place.makeChoice (pl : Place) (p : Profile) : Place :=
  if pl.replace then
    let r := p.choose pl.zones.toList pl.chosen
    { pl with chosen := r.1, conflict := r.2, replace := false }
  else pl

/-- The second part of the placement step: the choice or the move in progress is applied (R70). -/
def Place.apply (pl : Place) (choiceMade visible : Bool) (moveFrames : Nat) : Place :=
  if visible && pl.visBefore then
    if choiceMade then pl.applyChoice moveFrames else pl.advance
  else { pl with move := none, shown := pl.chosen }

/-- The placement step of one unit (R75): choice, application, fit, visibility recorded. -/
def Place.step (pl : Place) (p : Profile) (visible : Bool) : Place :=
  let q := (pl.makeChoice p).apply pl.replace visible p.move
  { q with shown := p.fit q.shown, visBefore := visible }

/-- The placement step of a channel's frame start, with the CONFLICT notice of a choice that sets the flag (R69, R75). -/
def State.placementStep (s : State) (c : ChanNo) : State :=
  let x := s.chan c
  let pl := x.place.step (s.currentProfile c) x.pres.state.visible
  (s.setPlace c pl).raiseIf (pl.conflict && !x.place.conflict) (.conflict c)

/-- A window trimmed to the picture (R63). -/
def Window.trim (w : Window) : Window :=
  { w with w := min w.w (Config.picWidth - w.x), h := min w.h (Config.picHeight - w.y) }

/-- SET ZONE (R63). -/
def Place.setZone (pl : Place) (z : ZoneNo) (w : Window) : Place :=
  { pl with zones := pl.zones.set z { active := true, window := w.trim }, replace := true }

/-- CLEAR ZONE: the window is kept (R64). -/
def Place.clearZone (pl : Place) (z : ZoneNo) : Place :=
  { pl with zones := pl.zones.set z { pl.zones[z] with active := false }, replace := true }

/-- SELECT PROFILE of a defined profile (R65). -/
def Place.select (pl : Place) (n : ProfNo) : Place := { pl with profile := n, replace := true }

/-- CLEAR CHANNEL, as it touches the placement unit (R76). -/
def Place.clear (pl : Place) : Place :=
  { pl with zones := Vector.ofFn (fun i => { pl.zones[i] with active := false }), move := none, replace := true }

/-- The choice made at start-up, with no zone active: the first candidate, chosen and shown (R78). -/
def Place.startUp (pl : Place) (p : Profile) : Place :=
  let q := (p.choose [] pl.chosen).1
  { pl with chosen := q, shown := q, conflict := false }

end Sys2Proof.Machine
end

