-- ==== Sys2Proof/Machine/Compositor.lean ====
section
/-!
DEFINITION. The compositor: crop, reduction, key, edge, weight and mix, and the output picture of a frame (chapter 3).
-/
namespace Sys2Proof.Machine

/-- A booth as a channel takes it at its frame start: its READY picture, if it has one, with its key and crop origin (R31). -/
structure BoothInput where
  picture : Option Picture
  record  : BoothRecord
  deriving DecidableEq, Repr

/-- The frame inputs of section 3.1 beside the programme picture. -/
structure FrameInput where
  g        : Nat
  box      : Placement
  cw       : Nat
  ch       : Nat
  edge     : Nat
  assigned : Option BoothInput
  incoming : Option (BoothInput × Nat)
  deriving DecidableEq, Repr

/-- The box's width and height (R40). -/
def FrameInput.bw (k : FrameInput) : Nat := k.cw / k.box.f
def FrameInput.bh (k : FrameInput) : Nat := k.ch / k.box.f

/-- A sample raised to the lower bound or lowered to the upper bound of the legal range (00_scope.md). -/
def clamp (high v : Nat) : Nat := min (max v Config.legalLow) high

/-- The crop origin used for a booth (R42). -/
def cropX (r : BoothRecord) (cw : Nat) : Nat := min (evenDown r.cx) (Config.boothWidth - cw)
def cropY (r : BoothRecord) (ch : Nat) : Nat := min r.cy (Config.boothHeight - ch)

/-- The sum of `val` over a block of `cols` columns and `rows` lines. -/
def blockSum (cols rows : Nat) (val : Nat → Nat → Nat) : Nat :=
  ((List.range rows).map (fun j => ((List.range cols).map (fun i => val i j)).sum)).sum

/-- The rounded mean of f² samples with sum s (R43, R44). -/
def meanOf (f s : Nat) : Nat := (s + f * f / 2) / (f * f)

/-- The box luma sample at box pixel (u, v), the crop at (ox, oy) (R43). -/
def boxLuma (pic : Picture) (ox oy f u v : Nat) : Nat :=
  meanOf f (blockSum f f (fun i j => planeGet pic.y ((oy + v * f + j) * Config.boothWidth + (ox + u * f + i))))

/-- The box chroma sample of one component at the box pair of even column u on line v (R44). -/
def boxChroma (plane : Plane) (ox oy f u v : Nat) : Nat :=
  meanOf f (blockSum f f (fun i j =>
    planeGet plane ((oy + v * f + j) * (Config.boothWidth / 2) + ((ox + u * f) / 2 + i))))

/-- |a − b| -/
def distance (a b : Nat) : Nat := (a - b) + (b - a)

/-- The signer opacity of a box pair with reduced chroma (cb, cr) (R45). -/
def opacity (r : BoothRecord) (cb cr : Nat) : Nat :=
  let d := distance cb r.cb0 + distance cr r.cr0
  if d ≤ r.rIn then 0
  else if d < r.rOut then ((d - r.rIn) * Config.whole + (r.rOut - r.rIn) / 2) / (r.rOut - r.rIn)
  else Config.whole

/-- The edge factor of box pixel (u, v) (R47). -/
def edgeFactor (bw bh e u v : Nat) : Nat :=
  let k := min (min u v) (min (bw - 1 - u) (bh - 1 - v))
  if k ≥ e then Config.whole else (512 * (k + 1) + e + 1) / (2 * (e + 1))

/-- The weight of a box pixel from opacity, fade level and edge factor (R48). -/
def weight (alpha g edge : Nat) : Nat := ((alpha * g + 128) / 256 * edge + 128) / 256

/-- A mix of two samples with weight w (00_scope.md, Levels and weights; R50, R51). -/
def mix (first second w : Nat) : Nat := (first * (256 - w) + second * w + 128) / 256

/-- The weight of box pixel (u, v) of a booth's composite: the key of the pixel's pair, g and the pixel's edge factor (R45, R48). -/
def pixelWeight (k : FrameInput) (r : BoothRecord) (pic : Picture) (u v : Nat) : Nat :=
  let ox := cropX r k.cw
  let oy := cropY r k.ch
  let ue := evenDown u
  weight (opacity r (boxChroma pic.cb ox oy k.box.f ue v) (boxChroma pic.cr ox oy k.box.f ue v)) k.g
    (edgeFactor k.bw k.bh k.edge u v)

/-- One composite's luma sample at box pixel (u, v) over the clamped programme sample; a booth that holds no picture is wholly
transparent (R50, R52). -/
def compositeLuma (k : FrameInput) (b : BoothInput) (p' u v : Nat) : Nat :=
  match b.picture with
  | none => p'
  | some pic =>
    mix p' (boxLuma pic (cropX b.record k.cw) (cropY b.record k.ch) k.box.f u v) (pixelWeight k b.record pic u v)

/-- One composite's chroma sample of one component at the pair of even column u, mixed with the even pixel's weight (R48, R50). -/
def compositeChroma (k : FrameInput) (b : BoothInput) (comp : Picture → Plane) (p' u v : Nat) : Nat :=
  match b.picture with
  | none => p'
  | some pic =>
    mix p' (boxChroma (comp pic) (cropX b.record k.cw) (cropY b.record k.ch) k.box.f u v) (pixelWeight k b.record pic u v)

/-- An output sample inside the box from the composites of the frame's booths: one booth's, or two blended at progress h (R51). -/
def blended (k : FrameInput) (p' : Nat) (one : BoothInput → Nat) : Nat :=
  let c1 := match k.assigned with
    | some b => one b
    | none => p'
  match k.incoming with
  | some (b, h) => mix c1 (one b) h
  | none => c1

/-- The output luma sample at box pixel (u, v) from the programme sample there (R49 to R51). -/
def outLuma (k : FrameInput) (p u v : Nat) : Nat :=
  let p' := clamp Config.legalLuma p
  blended k p' (fun b => compositeLuma k b p' u v)

/-- The output chroma sample of one component at the pair of even column u (R49 to R51). -/
def outChroma (k : FrameInput) (comp : Picture → Plane) (p u v : Nat) : Nat :=
  let p' := clamp Config.legalChroma p
  blended k p' (fun b => compositeChroma k b comp p' u v)

/-- The address of a luma sample of the programme picture, and of the chroma sample of the pair at an even column. -/
def lumaAddr (x y : Nat) : Nat := y * Config.picWidth + x
def chromaAddr (x y : Nat) : Nat := y * (Config.picWidth / 2) + x / 2

/-- One chroma plane of the output picture. -/
def composeChroma (k : FrameInput) (comp : Picture → Plane) (plane : Plane) : Plane :=
  planePaint plane (Config.picWidth / 2) (k.box.x / 2) k.box.y (k.bw / 2) k.bh
    (fun j v => outChroma k comp (planeGet plane (chromaAddr (k.box.x + 2 * j) (k.box.y + v))) (2 * j) v)

/-- The output picture: the programme picture itself where g is 0, else the programme picture with every sample inside the box
computed (R41, R49 to R51). -/
def compose (p : Picture) (k : FrameInput) : Picture :=
  if k.g = 0 then p
  else
    { y := planePaint p.y Config.picWidth k.box.x k.box.y k.bw k.bh
        (fun u v => outLuma k (planeGet p.y (lumaAddr (k.box.x + u) (k.box.y + v))) u v)
      cb := composeChroma k (·.cb) p.cb
      cr := composeChroma k (·.cr) p.cr }

/-- A booth's READY picture and record as they stand (R31, R46). -/
def State.boothInput (s : State) (b : BoothNo) : BoothInput := { picture := (s.booth b).ready, record := (s.booth b).record }

/-- The frame inputs the other blocks hand the compositor in step 4 (R39, R114). -/
def State.frameInput (s : State) (c : ChanNo) : FrameInput :=
  let x := s.chan c
  let p := s.currentProfile c
  { g := x.pres.g, box := x.place.shown, cw := p.cw, ch := p.ch, edge := p.edge
    assigned := x.assign.assigned.map s.boothInput
    incoming := x.assign.incoming.map (fun i => (s.boothInput i.booth, i.h)) }

/-- Step 4 of a frame start: the composited frame goes out on PGOn with the output frame's audio and T (R8, R39, R56). -/
def State.composeStep (s : State) (c : ChanNo) : State :=
  let x := s.chan c
  match x.path.lastOut with
  | none => s
  | some f =>
    s.setPath c { x.path with
      sent := some { picture := compose f.picture (s.frameInput c), audio := f.audio, timecode := some (tcOfFrame s.rate f.tc) } }

end Sys2Proof.Machine
end

