-- ==== Sys2Proof/Machine/Handover.lean ====
section
/-!
DEFINITION. The assignment map: the handover step and what ASSIGN BOOTH and RELEASE BOOTH do to a record (chapter 6).
-/
namespace Sys2Proof.Machine

/-- The progress of a crossfade of length n_x after step i: round(256 × i / n_x) (R110). -/
def crossfadeProgress (nx i : Nat) : Nat := roundDiv (Config.whole * i) nx

/-- The handover step of a record with a handover in progress, given the health of the incoming booth and of the assigned booth:
the four cases of R110 in order. -/
def Assign.handover (a : Assign) (inc : Incoming) (incHealth : Health) (asgHealth : Option Health) : Assign :=
  if inc.nx = 0 then a.complete inc.booth
  else if !incHealth.usable then { a with incoming := none }
  else if asgHealth.any (fun h => !h.usable) then a.complete inc.booth
  else if inc.i + 1 ≥ inc.nx then a.complete inc.booth
  else { a with incoming := some { inc with i := inc.i + 1, h := crossfadeProgress inc.nx (inc.i + 1) } }

/-- The handover step of a channel's frame start, with the ASSIGNMENT notice of a handover that ends at it (R110, R118). -/
def State.handoverStep (s : State) (c : ChanNo) : State :=
  let a := (s.chan c).assign
  match a.incoming with
  | none => s
  | some inc =>
    let a' := a.handover inc (s.booth inc.booth).health (s.assignedHealth c)
    (s.setAssign c a').raiseIf a'.incoming.isNone (.assignment c)

/-- What ASSIGN BOOTH comes to once its parameters are in range (table of section 6.2). -/
inductive AssignResult where
  /-- The booth is already assigned: GOOD, no effect (R105). -/
  | same
  /-- A handover or a release forbids it: BUSY with CHECK CONFLICT (R109). -/
  | busy
  /-- A crossfade toward a booth that is not LIVE: CHECK CONFLICT (R108). -/
  | notLive
  /-- The record after the block has acted (R106, R107, R108). -/
  | taken (a : Assign)
  deriving DecidableEq, Repr

/-- The rows of the table of section 6.2, in order. -/
def Assign.assign (a : Assign) (b : BoothNo) (nx : Nat) (visible : Bool) (health : Health) : AssignResult :=
  if a.assigned = some b then .same
  else if a.incoming.isSome || a.releasePending then .busy
  else if !visible then .taken { a with assigned := some b }
  else if nx = 0 || health == .live then .taken { a with incoming := some { booth := b, nx := nx, i := 0, h := 0 } }
  else .notLive

/-- RELEASE BOOTH on a record: the record after it, and whether the record changed (R115). -/
def Assign.release (a : Assign) (visible : Bool) : Assign × Bool :=
  if a.assigned.isNone || a.releasePending then (a, false)
  else if visible then ({ a with incoming := none, releasePending := true }, true)
  else ({ a with assigned := none }, true)

/-- RELEASE BOOTH on a channel: where the release becomes pending the presenter is told at once (R98, R115, R118). -/
def State.releaseBooth (s : State) (c : ChanNo) : State :=
  let x := s.chan c
  let r := x.assign.release x.pres.state.visible
  let s1 := s.setAssign c r.1
  let s2 := if r.2 && r.1.releasePending then
    s1.setPres c (x.pres.fallForRelease (s.currentProfile c).fade) else s1
  s2.raiseIf r.2 (.assignment c)

end Sys2Proof.Machine
end

