-- ==== Sys2Proof/Machine/Cues.lean ====
section
/-!
DEFINITION. The cue scheduler: guards, actions, the list's order, dispatch, and the outcome ring (chapter 7).
-/
namespace Sys2Proof.Machine

/-- A guard evaluated against the channel's state (R131). -/
def State.guardHolds (s : State) (c : ChanNo) : Guard → Bool
  | .always => true
  | .feedUsable => s.feedUsable c
  | .feedNotUsable => !s.feedUsable c
  | .assigned => (s.chan c).assign.assigned.isSome
  | .visible => (s.chan c).pres.state.visible
  | .notVisible => !(s.chan c).pres.state.visible
  | .noConflict => !(s.chan c).place.conflict

/-- An action executed on a channel, and whether it could be performed (R132): SELECT PROFILE of an undefined profile is the one
that fails. -/
def State.perform (s : State) (c : ChanNo) (override : Option Nat) : Action → State × Bool
  | .presenterOn => (s.presenterOn c override, true)
  | .presenterOff => (s.presenterOff c override, true)
  | .selectProfile n =>
    if (s.profile n).defined then (s.setPlace c ((s.chan c).place.select n), true) else (s, false)
  | .setZone z w => (s.setPlace c ((s.chan c).place.setZone z w), true)
  | .clearZone z => (s.setPlace c ((s.chan c).place.clearZone z), true)
  | .setDelay d => (s.setTarget c d, true)
  | .mark => (s, true)

/-- The signed offset of a cue from the channel's output timecode T. -/
def State.offset (s : State) (c : ChanNo) (q : Cue) : Int := signedOffset s.rate q.due (s.chan c).path.outTc

/-- A cue placed behind every cue whose offset is less than or equal to its own (R126). -/
def insertCue (key : Cue → Int) (q : Cue) : List Cue → List Cue
  | [] => [q]
  | h :: t => if key h ≤ key q then h :: insertCue key q t else q :: h :: t

/-- The list sorted by offset, cues of equal offset keeping their order (R129). -/
def sortCues (key : Cue → Int) (l : List Cue) : List Cue := l.insertionSort (fun a b => key a ≤ key b)

/-- The channel's cue list replaced. -/
def State.setCues (s : State) (c : ChanNo) (l : List Cue) : State := s.setSched c { (s.chan c).sched with cues := l }

/-- An outcome added behind the newest record, or discarded with the outcomes-lost flag set when the ring is full (R138). -/
def Sched.write (d : Sched) (r : OutcomeRec) : Sched :=
  if d.ring.length < Config.ringCapacity then { d with ring := d.ring ++ [r] } else { d with lost := true }

/-- The outcome of a cue written to the channel's ring, with the T of the dispatch (R137, R138). -/
def State.writeOutcome (s : State) (c : ChanNo) (tag : Nat) (k : OutcomeKind) (lateness : Nat) : State :=
  let x := s.chan c
  s.setSched c (x.sched.write { tag := tag, outcome := k, outTc := x.path.outTc, lateness := lateness })

/-- A due cue, already removed from the list, has its outcome decided and written (R130, R137). -/
def State.takeCue (s : State) (c : ChanNo) (q : Cue) : State :=
  let lateness := (-(s.offset c q)).toNat
  if (s.chan c).sched.lateLimit < lateness then
    s.writeOutcome c q.tag .missed (min lateness Config.maxLateness)
  else if s.guardHolds c q.guard then
    let r := s.perform c q.fade q.action
    r.1.writeOutcome c q.tag (if r.2 then .done else .failed) lateness
  else s.writeOutcome c q.tag .skipped lateness

/-- The due cues are taken from the head of the list, one after another, until a head is ahead or the list is empty (R130). -/
def State.takeDue (c : ChanNo) : List Cue → State → State
  | [], s => s.setCues c []
  | q :: t, s => if s.offset c q ≤ 0 then State.takeDue c t ((s.setCues c t).takeCue c q) else s.setCues c (q :: t)

/-- A cue is stranded beyond the horizon: more than D/4 + 1 frames ahead (R133). -/
def State.stranded (s : State) (c : ChanNo) (q : Cue) : Bool := decide ((s.rate.horizon : Int) + 1 < s.offset c q)

/-- The stranded cues are removed, in list order, as MISSED with lateness 0 (R133). -/
def State.removeStranded (s : State) (c : ChanNo) : State :=
  let l := (s.chan c).sched.cues
  (l.filter (s.stranded c)).foldl (fun t q => t.writeOutcome c q.tag .missed 0)
    (s.setCues c (l.filter (fun q => !s.stranded c q)))

/-- The dispatch of a channel's frame start (R129): re-sort, due cues, stranded cues, and the OUTCOME notice when any outcome was
written or lost (R140). -/
def State.dispatch (s : State) (c : ChanNo) : State :=
  let before := (s.chan c).sched.cues
  let t := (State.takeDue c (sortCues (s.offset c) before) s).removeStranded c
  t.raiseIf ((t.chan c).sched.cues.length != before.length) (.outcome c)

end Sys2Proof.Machine
end

