-- ==== Sys2Proof/Machine/Path.lean ====
section
/-!
DEFINITION. The programme path: lock, timecode and flywheel, the delay line, the slew and the output frame (chapter 1).
-/
namespace Sys2Proof.Machine

/-- A valid frame follows another by one frame period within a twentieth either way; `gap` is in thousandths of the period (R1). -/
def onePeriod (gap : Nat) : Bool := decide (950 ≤ gap ∧ gap ≤ 1050)

/-- The path after the arrival of a valid frame, as its lock goes (R1). -/
def Path.lockOnArrival (p : Path) (gap : Nat) : Path :=
  { p with locked := p.locked || (p.prevValid && onePeriod gap), prevValid := true }

/-- The path after a loss of lock; the next valid frame is the first after the loss and never locks by itself (R1). -/
def Path.loseLock (p : Path) : Path := { p with locked := false, prevValid := false }

/-- The frame number of a timecode that is present with every field in range (R4). -/
def readTimecode (r : Rate) (t : Option Timecode) : Option Nat :=
  match t with
  | some t => if tcValid r t then some (tcToFrame r t) else none
  | none => none

/-- The timecode of a valid frame under bypass is read into the last timecode, and an invalid one is not flywheeled (R6). -/
def Path.readUnderBypass (p : Path) (r : Rate) (t : Option Timecode) : Path :=
  match readTimecode r t with
  | some n => { p with lastTc := some n, flywheel := false }
  | none => p

/-- The timecode given to a frame as it enters the delay line: its own where valid, else the flywheel's (R4, R5). -/
def Path.entryTc (p : Path) (r : Rate) (t : Option Timecode) : Nat :=
  match readTimecode r t with
  | some n => n
  | none => match p.lastTc with
    | some l => (l + 1) % r.day
    | none => 0

/-- The path with the entering frame's timecode read: it becomes the last timecode, and the flywheel flag says whether it was
supplied (R4, R5). -/
def Path.stamp (p : Path) (r : Rate) (t : Option Timecode) : Path :=
  { p with lastTc := some (p.entryTc r t), flywheel := (readTimecode r t).isNone }

/-- What the slew does at a frame start (R9). -/
inductive Slew where
  | stay
  | rep
  | drop
  deriving DecidableEq, Repr

/-- The slew decision and the slew counter after it (R9). The frame start that ends bypass takes no step and leaves the counter
0 (R6). -/
def Path.slew (p : Path) (granted : Nat) : Slew × Nat :=
  if p.bypass || p.line.length = granted then (.stay, 0)
  else if p.slewCounter + 1 ≥ p.slewInterval then
    (if p.line.length < granted then .rep else .drop, 0)
  else (.stay, p.slewCounter + 1)

/-- The output frame and the delay line after the frame start, from the line with the entering frame added (R7, R10, R11). -/
def Path.chooseOutput (p : Path) (k : Slew) (entering : Frame) : Frame × List Frame :=
  let line := p.line ++ [entering]
  match k with
  | .stay => (line.headD entering, line.tail)
  | .rep => ({ p.lastOut.getD entering with audio := .silent }, line)
  | .drop => (line.tail.headD entering, line.tail.tail)

/-- Step 1 of a frame start on the path: the frame enters, the output frame and its timecode T are fixed (R4 to R11). -/
def Path.enter (p : Path) (r : Rate) (granted : Nat) (picture : Picture) (audio : Audio) (t : Option Timecode) : Path :=
  let entering : Frame := { picture := picture, audio := audio, tc := p.entryTc r t }
  let k := p.slew granted
  let out := p.chooseOutput k.1 entering
  { p.stamp r t with
    bypass := false, line := out.2, lastOut := some out.1, outTc := out.1.tc, slewCounter := k.2 }

/-- Step 1 of a channel's frame start, with the pool's pass when a drop lowers the reservation (R11, R15). -/
def State.pathStep (s : State) (c : ChanNo) (picture : Picture) (audio : Audio) (t : Option Timecode) : State :=
  let x := s.chan c
  (s.setPath c (x.path.enter s.rate x.pool.granted picture audio t)).poolPassIfFell c x.reservation

end Sys2Proof.Machine
end

