-- ==== Sys2Proof/Machine/FrameStart.lean ====
section
/-!
DEFINITION. The frame start of a channel in its four steps, and the events of a programme input that bring one about or act
under bypass (sections 1.1 to 1.3; 00_scope.md, How the blocks work together).
-/
namespace Sys2Proof.Machine

/-- The loader is STARTING (R169). -/
def Phase.isStarting : Phase → Bool
  | .starting => true
  | .serving => false
  | .storing _ _ => false

/-- Step 3 of a frame start: handover step, presenter step, placement step, in that order (R89, R110, R75). -/
def State.transitions (s : State) (c : ChanNo) : State := ((s.handoverStep c).presenterStep c).placementStep c

/-- A frame start of a channel: the output frame and T, cue dispatch, one step of each transition, the composited frame. -/
def State.frameStart (s : State) (c : ChanNo) (picture : Picture) (audio : Audio) (t : Option Timecode) : State :=
  (((s.pathStep c picture audio t).dispatch c).transitions c).composeStep c

/-- A frame start at which a black frame enters (R3). -/
def State.blackFrameStart (s : State) (c : ChanNo) : State := s.frameStart c blackPicture .silent none

/-- A valid frame meets a path that takes no frame start at it: under bypass its timecode is read, and a LOCKED input's frame
goes out unchanged (R6); with bypass ended an UNLOCKED input's frame goes nowhere (R2). -/
def Path.passBy (p : Path) (r : Rate) (f : InputFrame) : Path :=
  if p.bypass then
    let q := p.readUnderBypass r f.timecode
    if p.locked then { q with sent := some { picture := f.picture, audio := f.audio, timecode := f.timecode } } else q
  else p

/-- A valid programme frame arrives (R1, R2, R6): it may complete the lock; in LOCKED, once start-up has completed, it is a frame
start. -/
def State.validArrival (s : State) (c : ChanNo) (f : InputFrame) (gap : Nat) : State :=
  let p := (s.chan c).path.lockOnArrival gap
  let s1 := s.setPath c p
  if p.locked && !s.loader.phase.isStarting then s1.frameStart c f.picture f.audio f.timecode
  else s1.setPath c (p.passBy s.rate f)

/-- An invalid frame arrives: a LOCKED input becomes UNLOCKED (R1). -/
def State.invalidArrival (s : State) (c : ChanNo) : State :=
  if (s.chan c).path.locked then s.setPath c (s.chan c).path.loseLock else s

/-- One and a half periods pass with no valid frame: a LOCKED input becomes UNLOCKED, and with bypass ended the next frame start
falls at that moment (R1, R2). -/
def State.lockTimeout (s : State) (c : ChanNo) : State :=
  let p := (s.chan c).path
  if p.locked then
    let s1 := s.setPath c p.loseLock
    if p.bypass then s1 else s1.blackFrameStart c
  else s

/-- The 1/F interval of an UNLOCKED channel expires: a frame start with a black frame, once start-up has completed (R2, R3). -/
def State.freeRun (s : State) (c : ChanNo) : State :=
  if (s.chan c).path.locked || s.loader.phase.isStarting then s else s.blackFrameStart c

/-- Under bypass with the input UNLOCKED, a black frame with silent audio and no timecode is sent (R6). -/
def State.bypassBlack (s : State) (c : ChanNo) : State :=
  let p := (s.chan c).path
  if p.bypass && !p.locked then
    s.setPath c { p with sent := some { picture := blackPicture, audio := .silent, timecode := none } }
  else s

end Sys2Proof.Machine
end

