-- ==== Sys2Proof/Machine/LinkEvents.lean ====
section
/-!
DEFINITION. The meanings of the events of the booth link, one definition per row of the table. During start-up the receiver
ignores the link (R23, R169).
-/
namespace Sys2Proof.Machine

/-- A link frame has been received whole (R21). -/
def State.linkFrameEnds (s : State) (slots : List SlotRx) : State :=
  if s.loader.phase.isStarting then s else s.linkEnd slots

/-- A gap inside a link frame ends it as broken (R23); outside a link frame there is nothing to end. -/
def State.linkGap (s : State) (slots : List SlotRx) : State :=
  if s.loader.phase.isStarting || !s.linkInFrame then s else s.linkEnd slots

/-- The start of a new link frame ends the current one as broken, and the new one is received from its start (R23). -/
def State.linkCutShort (s : State) (slots : List SlotRx) : State :=
  if s.loader.phase.isStarting then s else (if s.linkInFrame then s.linkEnd slots else s).linkBegin

/-- The link stays silent: a substitute link frame end, at which every slot that is not masked gives EMPTY (R23). -/
def State.linkSilent (s : State) : State :=
  if s.loader.phase.isStarting || s.linkInFrame then s else s.linkEnd (List.replicate 8 silentSlot)

/-- The reception of a new link frame begins (R27). DESIGN CHOICE: inside a link frame, where the row cannot occur, it ends no link
frame and lets every remapped booth take results (log 33). -/
def State.linkBegins (s : State) : State := if s.loader.phase.isStarting then s else s.linkBegin

/-- LINK_FRAME_END (R21, R22). -/
def execLinkFrameEnd (slots : List SlotRx) (s : State) : Host.Outcome State Fault Refusal :=
  .next (s.linkFrameEnds slots)

/-- LINK_GAP_TIMEOUT (R23). -/
def execLinkGapTimeout (slots : List SlotRx) (s : State) : Host.Outcome State Fault Refusal :=
  .next (s.linkGap slots)

/-- LINK_NEW_FRAME_START (R23). -/
def execLinkNewFrameStart (slots : List SlotRx) (s : State) : Host.Outcome State Fault Refusal :=
  .next (s.linkCutShort slots)

/-- LINK_SILENCE_TIMEOUT (R23). -/
def execLinkSilenceTimeout (s : State) : Host.Outcome State Fault Refusal :=
  .next (s.linkSilent)

/-- LINK_FRAME_BEGIN (R27). -/
def execLinkFrameBegin (s : State) : Host.Outcome State Fault Refusal :=
  .next (s.linkBegins)

end Sys2Proof.Machine
end

