-- ==== Sys2Proof/Machine/PathEvents.lean ====
section
/-!
DEFINITION. The meanings of the events of the programme inputs, one definition per row of the table.
-/
namespace Sys2Proof.Machine

/-- PROGRAMME_FRAME_ARRIVAL (R1, R2, R6). -/
def execProgrammeFrameArrival (c : ChanNo) (frame : InputFrame) (gap : Nat) (s : State) : Host.Outcome State Fault Refusal :=
  .next (s.validArrival c frame gap)

/-- INVALID_FRAME_ARRIVAL (R1). -/
def execInvalidFrameArrival (c : ChanNo) (s : State) : Host.Outcome State Fault Refusal :=
  .next (s.invalidArrival c)

/-- LOCK_LOSS_TIMEOUT (R1, R2). -/
def execLockLossTimeout (c : ChanNo) (s : State) : Host.Outcome State Fault Refusal :=
  .next (s.lockTimeout c)

/-- FREE_RUN_FRAME_START (R2, R3). -/
def execFreeRunFrameStart (c : ChanNo) (s : State) : Host.Outcome State Fault Refusal :=
  .next (s.freeRun c)

/-- BYPASS_BLACK_FRAME (R6). -/
def execBypassBlackFrame (c : ChanNo) (s : State) : Host.Outcome State Fault Refusal :=
  .next (s.bypassBlack c)

end Sys2Proof.Machine
end

