-- ==== Sys2Proof/Machine/Bytes.lean ====
section
/-!
DEFINITION. Byte order, bit sets and special byte values of blocks, replies and the configuration memory (section 10.1).
-/
namespace Sys2Proof.Machine

/-- A number below 256 as one byte. -/
def byteOf (n : Nat) : Byte := BitVec.ofNat 8 n

/-- A quantity of two bytes, most significant byte first (R176). -/
def be16 (n : Nat) : List Byte := [byteOf (n / 256), byteOf n]

/-- A quantity of four bytes, most significant byte first (R176). -/
def be32 (w : BitVec 32) : List Byte :=
  [w.extractLsb' 24 8, w.extractLsb' 16 8, w.extractLsb' 8 8, w.extractLsb' 0 8]

/-- The number in the byte at an index. -/
def natAt (bs : List Byte) (i : Nat) : Nat := (bs.getD i 0).toNat

/-- The number in the two bytes at an index, most significant byte first (R176). -/
def nat16At (bs : List Byte) (i : Nat) : Nat := natAt bs i * 256 + natAt bs (i + 1)

/-- A flag in bit 0 of a byte of its own (R176). -/
def flagByte (b : Bool) : Byte := if b then 1 else 0

/-- A flag as bit `n` of a flags byte (R176). -/
def flagBit (n : Nat) (b : Bool) : Byte := if b then BitVec.twoPow 8 n else 0

/-- The sum of bytes mod 256 (R148). -/
def byteSum (bs : List Byte) : Byte := bs.foldr (· + ·) 0

/-- The check byte that makes the length byte, body and check byte sum to 0 mod 256 (R152). -/
def checkByte (len : Byte) (body : List Byte) : Byte := -(len + byteSum body)

/-- A body framed as blocks and replies are: start byte, length byte, body, check byte (R152, section 10.2). -/
def framed (body : List Byte) : List Byte :=
  Config.startByte :: byteOf body.length :: (body ++ [checkByte (byteOf body.length) body])

/-- A complete block made of its body bytes as sent: the first 70 are kept, all are counted and summed (R148). -/
def Block.ofBytes (bytes : List Byte) (check : Byte) (damaged : Bool) : Block :=
  { len := byteOf bytes.length, body := bytes.take Config.maxBody,
    sum := byteOf bytes.length + byteSum bytes + check, damaged := damaged }

/-- The block a code byte and what follows it make. -/
def tailBlock (code : Byte) (b : Tail) : Block := Block.ofBytes (code :: b.params) b.check b.damaged

end Sys2Proof.Machine
end

