-- ==== Sys2Proof/Machine/Operands.lean ====
section
/-!
DEFINITION. Every operand form of a control block and every record of a reply or of the configuration memory: how its bytes are
read, which of its fields is out of range first, and how it is written back (chapter 10; R122, R26, R59).
-/
namespace Sys2Proof.Machine

/-- The lowest index whose range test fails, from tests in index order. -/
def firstFault : List (Nat × Bool) → Option Nat
  | [] => none
  | (i, ok) :: t => if ok then firstFault t else some i

/-- A number as a channel, when it is one. -/
def chanOf (n : Nat) : Option ChanNo := if h : n < 4 then some ⟨n, h⟩ else none

/-- A number as a booth, when it is one. -/
def boothOf (n : Nat) : Option BoothNo := if h : n < 6 then some ⟨n, h⟩ else none

/-- A number as a profile, when it is one. -/
def profOf (n : Nat) : Option ProfNo := if h : n < 16 then some ⟨n, h⟩ else none

/-! ### Enumerations (R179) -/

def Role.toByte : Role → Byte
  | .channel n => byteOf n
  | .studio => 4
  | .monitor => 5
  | .idle => 6

def roleOf (n : Nat) : Option Role :=
  match n with
  | 0 => some (.channel 0)
  | 1 => some (.channel 1)
  | 2 => some (.channel 2)
  | 3 => some (.channel 3)
  | 4 => some .studio
  | 5 => some .monitor
  | 6 => some .idle
  | _ => none

def LossMode.toByte : LossMode → Byte
  | .holdFade => 0
  | .cut => 1
  | .freeze => 2

def lossOf (n : Nat) : Option LossMode :=
  match n with
  | 0 => some .holdFade
  | 1 => some .cut
  | 2 => some .freeze
  | _ => none

def Guard.toByte : Guard → Byte
  | .always => 0
  | .feedUsable => 1
  | .feedNotUsable => 2
  | .assigned => 3
  | .visible => 4
  | .notVisible => 5
  | .noConflict => 6

def guardOf (n : Nat) : Option Guard :=
  match n with
  | 0 => some .always
  | 1 => some .feedUsable
  | 2 => some .feedNotUsable
  | 3 => some .assigned
  | 4 => some .visible
  | 5 => some .notVisible
  | 6 => some .noConflict
  | _ => none

def OutcomeKind.toByte : OutcomeKind → Byte
  | .done => 0
  | .skipped => 1
  | .missed => 2
  | .failed => 3

def PState.toByte : PState → Byte
  | .off => 0
  | .rising => 1
  | .on => 2
  | .falling => 3
  | .waitFeed => 4

def Health.toByte : Health → Byte
  | .absent => 0
  | .live => 1
  | .held => 2
  | .lost => 3

def SlotResult.toByte : SlotResult → Byte
  | .none => 0
  | .good => 1
  | .empty => 2
  | .damaged => 3
  | .masked => 4

def SenseKey.toByte : SenseKey → Byte
  | .none => 0
  | .notReady => 1
  | .illegal => 2
  | .notPermitted => 3
  | .noTarget => 4
  | .conflict => 5
  | .resource => 6
  | .link => 7
  | .storeFailed => 8

def SenseCode.toByte : SenseCode → Byte
  | .none => 0x00
  | .starting => 0x01
  | .unknownCommand => 0x10
  | .badLength => 0x11
  | .outOfRange => 0x12
  | .beyondHorizon => 0x13
  | .portIdle => 0x20
  | .wrongRole => 0x21
  | .noSuchTag => 0x30
  | .profileUndefined => 0x31
  | .duplicateTag => 0x40
  | .alreadyPast => 0x41
  | .guardFalse => 0x42
  | .slotInUse => 0x43
  | .profileZero => 0x44
  | .inTransition => 0x45
  | .boothNotLive => 0x46
  | .duplicateRole => 0x47
  | .listFull => 0x50
  | .byteFraming => 0x60
  | .badCheck => 0x61
  | .verifyFailed => 0x70

/-- The number of an action's kind. -/
def Action.kind : Action → Nat
  | .presenterOn => 0
  | .presenterOff => 1
  | .selectProfile _ => 2
  | .setZone _ _ => 3
  | .clearZone _ => 4
  | .setDelay _ => 5
  | .mark => 6

/-- A booth number, or FFh for none (R179). -/
def boothByte (b : Option BoothNo) : Byte :=
  match b with
  | some n => byteOf n
  | none => byteOf Config.noneByte

/-! ### Timecode, window, action and cue record -/

/-- A timecode of a reply (R178). -/
def tcBytes (r : Rate) (n : Nat) : List Byte :=
  let t := tcOfFrame r n
  [byteOf t.hh, byteOf t.mm, byteOf t.ss, byteOf t.ff]

/-- Two 12-bit values packed into three bytes, the first in the upper 12 bits (section 10.3, Zone window). -/
def pack12 (a b : Nat) : List Byte := [byteOf (a / 16), byteOf (a % 16 * 16 + b / 256), byteOf b]
def upper12 (bs : List Byte) (i : Nat) : Nat := natAt bs i * 16 + natAt bs (i + 1) / 16
def lower12 (bs : List Byte) (i : Nat) : Nat := natAt bs (i + 1) % 16 * 256 + natAt bs (i + 2)

/-- The zone window at an index (section 10.3). -/
def windowAt (bs : List Byte) (i : Nat) : Window :=
  { x := upper12 bs i, y := upper12 bs (i + 3), w := lower12 bs i, h := lower12 bs (i + 3) }

def Window.bytes (w : Window) : List Byte := pack12 w.x w.w ++ pack12 w.y w.h

/-- The action part of a cue record or of TAKE NOW as received: fields 6 to 13 of R122. -/
structure RawAction where
  kind   : Nat
  param  : Nat
  window : Window
  guard  : Nat
  fade   : Nat
  deriving DecidableEq, Repr

/-- The action part at an index (section 10.2, TAKE NOW; section 10.3, Cue record). -/
def rawActionAt (bs : List Byte) (i : Nat) : RawAction :=
  { kind := natAt bs i, param := natAt bs (i + 1), window := windowAt bs (i + 2), guard := natAt bs (i + 8),
    fade := natAt bs (i + 9) }

/-- The action the fields stand for, none where the kind, the parameter or the window is out of range (R122, fields 6 to 11). -/
def RawAction.action (q : RawAction) : Option Action :=
  match q.kind with
  | 0 => some .presenterOn
  | 1 => some .presenterOff
  | 2 => (profOf q.param).map .selectProfile
  | 3 => if q.window.x ≤ 1919 ∧ q.window.y ≤ 1079 ∧ 1 ≤ q.window.w ∧ q.window.w ≤ 1920 ∧ 1 ≤ q.window.h ∧ q.window.h ≤ 1080
         then (boothOf q.param).map (fun z => .setZone z q.window) else none
  | 4 => (boothOf q.param).map .clearZone
  | 5 => if q.param ≤ Config.maxTarget then some (.setDelay q.param) else none
  | 6 => some .mark
  | _ => none

/-- The fade override: FFh is absent (R179). -/
def fadeOf (n : Nat) : Option Nat := if n = Config.noneByte then none else some n

/-- The first of fields 6 to 13 out of range (R122). -/
def RawAction.fault (q : RawAction) : Option Nat :=
  let zone := q.kind == 3
  firstFault
    [(6, decide (q.kind ≤ 6)),
     (7, if q.kind = 2 then decide (q.param ≤ 15) else if q.kind = 3 ∨ q.kind = 4 then decide (q.param ≤ 5)
         else if q.kind = 5 then decide (q.param ≤ Config.maxTarget) else true),
     (8, !zone || decide (q.window.x ≤ 1919)),
     (9, !zone || decide (q.window.y ≤ 1079)),
     (10, !zone || decide (1 ≤ q.window.w ∧ q.window.w ≤ 1920)),
     (11, !zone || decide (1 ≤ q.window.h ∧ q.window.h ≤ 1080)),
     (12, decide (q.guard ≤ 6)),
     (13, q.fade == Config.noneByte || (decide (q.kind ≤ 1) && decide (q.fade ≤ 250)))]

/-- A cue record as received (section 10.3). -/
structure RawCue where
  tag : Nat
  due : Timecode
  act : RawAction
  deriving DecidableEq, Repr

/-- The cue record at an index. -/
def rawCueAt (bs : List Byte) (i : Nat) : RawCue :=
  { tag := nat16At bs i
    due := { hh := natAt bs (i + 2), mm := natAt bs (i + 3), ss := natAt bs (i + 4), ff := natAt bs (i + 5) }
    act := rawActionAt bs (i + 6) }

/-- The first field of a cue record out of range (R122). -/
def RawCue.fault (r : Rate) (q : RawCue) : Option Nat :=
  match firstFault
    [(1, decide (1 ≤ q.tag)), (2, decide (q.due.hh ≤ 23)), (3, decide (q.due.mm ≤ 59)), (4, decide (q.due.ss ≤ 59)),
     (5, decide (q.due.ff ≤ r.fps - 1))] with
  | some i => some i
  | none => q.act.fault

/-- The cue of a valid record (R121). -/
def RawCue.cue (r : Rate) (q : RawCue) : Cue :=
  { tag := q.tag, due := tcToFrame r q.due, action := q.act.action.getD .mark,
    guard := (guardOf q.act.guard).getD .always, fade := fadeOf q.act.fade }

/-- The parameter byte of an action; 0 where the action uses none (R177). -/
def Action.param : Action → Nat
  | .presenterOn => 0
  | .presenterOff => 0
  | .selectProfile p => p
  | .setZone z _ => z
  | .clearZone z => z
  | .setDelay d => d
  | .mark => 0

/-- The window of an action; 0 where the action uses none (R177). -/
def Action.window : Action → Window
  | .setZone _ w => w
  | .presenterOn => ⟨0, 0, 0, 0⟩
  | .presenterOff => ⟨0, 0, 0, 0⟩
  | .selectProfile _ => ⟨0, 0, 0, 0⟩
  | .clearZone _ => ⟨0, 0, 0, 0⟩
  | .setDelay _ => ⟨0, 0, 0, 0⟩
  | .mark => ⟨0, 0, 0, 0⟩

/-- A cue record of a reply (section 10.3, R177). -/
def Cue.bytes (r : Rate) (q : Cue) : List Byte :=
  be16 q.tag ++ tcBytes r q.due ++ [byteOf q.action.kind, byteOf q.action.param] ++ q.action.window.bytes ++
    [q.guard.toByte, byteOf (q.fade.getD Config.noneByte)]

/-- An outcome record of a reply (section 10.3). -/
def OutcomeRec.bytes (r : Rate) (o : OutcomeRec) : List Byte :=
  be16 o.tag ++ [o.outcome.toByte] ++ tcBytes r o.outTc ++ [byteOf o.lateness]

/-! ### Booth record (section 10.3) -/

/-- The range tests of a booth record's fields at their parameter indices, 2 to 11 (section 2.2, R26). -/
def boothTests (bs : List Byte) (i : Nat) : List (Nat × Bool) :=
  [(2, decide (natAt bs i ≤ 7) || natAt bs i == Config.noneByte),
   (3, natAt bs (i + 1) == 8 || natAt bs (i + 1) == 10),
   (4, decide (64 ≤ nat16At bs (i + 2) ∧ nat16At bs (i + 2) ≤ 960)),
   (5, decide (64 ≤ nat16At bs (i + 4) ∧ nat16At bs (i + 4) ≤ 960)),
   (6, decide (nat16At bs (i + 6) ≤ 1022)),
   (7, decide (nat16At bs (i + 6) + 1 ≤ nat16At bs (i + 8) ∧ nat16At bs (i + 8) ≤ 1023)),
   (8, decide (nat16At bs (i + 10) ≤ 959)),
   (9, decide (nat16At bs (i + 12) ≤ 539)),
   (10, decide (1 ≤ natAt bs (i + 14) ∧ natAt bs (i + 14) ≤ 50)),
   (11, decide (1 ≤ natAt bs (i + 15) ∧ natAt bs (i + 15) ≤ 15))]

/-- The booth record at an index, its fields in range. -/
def boothRecordAt (bs : List Byte) (i : Nat) : BoothRecord :=
  { slot := if h : natAt bs i < 8 then some ⟨natAt bs i, h⟩ else none
    width := if natAt bs (i + 1) = 8 then .w8 else .w10
    cb0 := nat16At bs (i + 2), cr0 := nat16At bs (i + 4), rIn := nat16At bs (i + 6), rOut := nat16At bs (i + 8)
    cx := nat16At bs (i + 10), cy := nat16At bs (i + 12), hold := natAt bs (i + 14), recovery := natAt bs (i + 15) }

/-- A slot number, or FFh for none (R179). -/
def slotByte (n : Option SlotNo) : Byte :=
  match n with
  | some k => byteOf k
  | none => byteOf Config.noneByte

def Width.toByte : Width → Byte
  | .w8 => 8
  | .w10 => 10

def BoothRecord.bytes (r : BoothRecord) : List Byte :=
  [slotByte r.slot, r.width.toByte] ++ be16 r.cb0 ++ be16 r.cr0 ++ be16 r.rIn ++ be16 r.rOut ++ be16 r.cx ++ be16 r.cy ++
    [byteOf r.hold, byteOf r.recovery]

/-! ### Profile record (section 10.3) -/

/-- The position entry k, from 0, of a profile record at an index. -/
def positionAt (bs : List Byte) (i k : Nat) : Nat × Nat := (nat16At bs (i + 7 + 4 * k), nat16At bs (i + 9 + 4 * k))

/-- The range tests of a profile record's fields at their parameter indices, 2 to 17; positions beyond the count are not tested
(section 4.1, R59). -/
def profileTests (bs : List Byte) (i : Nat) : List (Nat × Bool) :=
  let count := natAt bs (i + 6)
  let coord := fun (k : Nat) =>
    [(7 + 2 * k, decide (count ≤ k) || decide ((positionAt bs i k).1 ≤ 1919)),
     (8 + 2 * k, decide (count ≤ k) || decide ((positionAt bs i k).2 ≤ 1079))]
  [(2, decide (96 ≤ nat16At bs i ∧ nat16At bs i ≤ 960)),
   (3, decide (96 ≤ nat16At bs (i + 2) ∧ nat16At bs (i + 2) ≤ 528)),
   (4, decide (1 ≤ natAt bs (i + 4) ∧ natAt bs (i + 4) ≤ 4)),
   (5, natAt bs (i + 5) == 0 || decide (natAt bs (i + 4) < natAt bs (i + 5) ∧ natAt bs (i + 5) ≤ 4)),
   (6, decide (1 ≤ count ∧ count ≤ 4))] ++
  coord 0 ++ coord 1 ++ coord 2 ++ coord 3 ++
  [(15, decide (natAt bs (i + 23) ≤ 15)), (16, decide (natAt bs (i + 24) ≤ 250)), (17, decide (natAt bs (i + 25) ≤ 100))]

/-- A crop dimension rounded down to a multiple of 24 (R60). -/
def crop24 (n : Nat) : Nat := n / 24 * 24

/-- The profile record at an index as it is stored, its fields in range (R60), with the defined flag given. -/
def profileAt (bs : List Byte) (i : Nat) (defined : Bool) : Profile :=
  { cw := crop24 (nat16At bs i), ch := crop24 (nat16At bs (i + 2)), fp := natAt bs (i + 4)
    ff := if natAt bs (i + 5) = 0 then none else some (natAt bs (i + 5))
    positions := (List.range (natAt bs (i + 6))).map (positionAt bs i)
    edge := natAt bs (i + 23), fade := natAt bs (i + 24), move := natAt bs (i + 25), defined := defined }

/-- The four position entries of a record, (0, 0) beyond the count (R60). -/
def Profile.positionBytes (p : Profile) : List Byte :=
  (List.range 4).flatMap (fun k => let q := p.positions.getD k (0, 0); be16 q.1 ++ be16 q.2)

def Profile.bytes (p : Profile) : List Byte :=
  be16 p.cw ++ be16 p.ch ++ [byteOf p.fp, byteOf (p.ff.getD 0), byteOf p.positions.length] ++ p.positionBytes ++
    [byteOf p.edge, byteOf p.fade, byteOf p.move, flagByte p.defined]

end Sys2Proof.Machine
end

