-- ==== Sys2Proof/Machine/Flags.lean ====
section
/-!
DEFINITION. Every status word the part makes up: the pending kinds, the attention line, the status byte of a reply, the flags
byte of CHANNEL STATE and the flags byte of IDENTIFY (R152, R159, sections 10.2 and 10.4).
-/
namespace Sys2Proof.Machine

/-- The kinds pending, bit per kind (R156, R179). -/
def Notices.kinds (n : Notices) : BitVec 8 :=
  flagBit 0 n.start ||| flagBit 1 (n.outcome != 0) ||| flagBit 2 (n.feed != 0) ||| flagBit 3 (n.assignment != 0) |||
  flagBit 4 (n.profile != 0) ||| flagBit 5 (n.delay != 0) ||| flagBit 6 (n.conflict != 0) ||| flagBit 7 (n.booth != 0)

/-- The port's attention line is asserted exactly when its pending set and its enabled set share a kind (R159). -/
def Port.attention (q : Port) : Bool := (q.pending.kinds &&& q.enabled) != 0

/-- The status byte of a reply made up at a port (R152, section 10.2). -/
def Port.status (q : Port) (busy matched : Bool) : Byte :=
  flagBit 0 (q.sense.key != .none) ||| flagBit 1 busy ||| flagBit 2 matched ||| flagBit 3 q.attention

/-- The flags byte of CHANNEL STATE (section 10.4). -/
def Channel.flags (x : Channel) : Byte :=
  flagBit 0 x.pres.intent ||| flagBit 1 x.pres.frozen ||| flagBit 2 x.assign.releasePending |||
  flagBit 3 x.place.move.isSome ||| flagBit 4 x.place.conflict ||| flagBit 5 x.sched.lost |||
  flagBit 6 x.path.locked ||| flagBit 7 x.path.flywheel

/-- The flags byte of IDENTIFY (section 10.4). -/
def Loader.flags (l : Loader) : Byte := flagBit 0 l.defaulted ||| flagBit 1 l.rolesPending

/-- The notice report of READ NOTICES (section 10.4). -/
def Notices.bytes (n : Notices) : List Byte :=
  [n.kinds, n.outcome.zeroExtend 8, n.feed.zeroExtend 8, n.assignment.zeroExtend 8, n.profile.zeroExtend 8,
   n.delay.zeroExtend 8, n.conflict.zeroExtend 8, n.booth.zeroExtend 8]

/-- The sense record of READ SENSE (section 10.3, R177). -/
def Sense.bytes (e : Sense) : List Byte :=
  [e.key.toByte, e.code.toByte, flagByte e.info.isSome] ++ be32 (e.info.getD 0)

/-- The channel state of CHANNEL STATE (section 10.4, R163). DESIGN CHOICE: h is held only beside an incoming booth (section 6.1), and
its two bytes are sent as 0 while there is none (log 29). -/
def Channel.stateBytes (r : Rate) (x : Channel) : List Byte :=
  [x.pres.state.toByte, x.flags] ++ be16 x.pres.g ++
  [x.pres.loss.toByte, boothByte x.assign.assigned, boothByte (x.assign.incoming.map (·.booth))] ++
  be16 ((x.assign.incoming.map (·.h)).getD 0) ++ [byteOf x.place.profile] ++
  be16 x.place.shown.x ++ be16 x.place.shown.y ++
  [byteOf x.place.shown.f, byteOf x.sched.cues.length, byteOf x.sched.ring.length, byteOf x.pool.target,
   byteOf x.pool.granted, byteOf x.actual] ++ tcBytes r x.path.outTc

/-- The booth state of BOOTH STATE (section 10.4, R38). -/
def Booth.stateBytes (b : Booth) : List Byte :=
  [b.health.toByte, byteOf b.missed, byteOf b.good] ++ be16 b.seq ++ [slotByte b.record.slot, b.last.toByte]

end Sys2Proof.Machine
end

