-- ==== Sys2Proof/Machine/Answer.lean ====
section
/-!
DEFINITION. What a command's block can be answered with, and the making up of the reply (R152, R153).
-/
namespace Sys2Proof.Machine

/-- What the block that owns a command comes to. -/
inductive Answer where
  /-- Taken: the reply data, and whether it carries MATCH. -/
  | good (data : List Byte) (matched : Bool)
  /-- Refused: key, code and info, and whether the refusal carries BUSY. -/
  | check (key : SenseKey) (code : SenseCode) (info : Option Nat) (busy : Bool)
  /-- Still being carried out; the reply follows when it ends (R152, R174). -/
  | later
  deriving DecidableEq, Repr

/-- GOOD with reply data. -/
def Answer.ok (data : List Byte) : Answer := .good data false

/-- CHECK ILLEGAL, code OUT OF RANGE, with the index at fault (R153). -/
def Answer.illegal (index : Nat) : Answer := .check .illegal .outOfRange (some index) false

/-- CHECK with a key, code and valid info. -/
def Answer.refuse (key : SenseKey) (code : SenseCode) (info : Nat) : Answer := .check key code (some info) false

/-- The sense record of a refusal (R153). -/
def senseOf (key : SenseKey) (code : SenseCode) (info : Option Nat) : Sense :=
  { key := key, code := code, info := info.map (BitVec.ofNat 32) }

/-- The reply made up at a port and sent at once: framed, the status byte first, with data unless CHECK is set (R152). -/
def Port.reply (q : Port) : Answer → Port
  | .good data matched => { q with trans := .answering (some (framed (q.status false matched :: data))) }
  | .check key code info busy =>
    let q1 := { q with sense := senseOf key code info }
    { q1 with trans := .answering (some (framed [q1.status busy false])) }
  | .later => q

/-- A block's answer given at its port. -/
def State.answer (s : State) (p : PortNo) (a : Answer) : State := s.setPort p ((s.port p).reply a)

end Sys2Proof.Machine
end

