-- ==== Sys2Proof/Machine/ChannelCommands.lean ====
section
/-!
DEFINITION. The commands of a channel's presenter and programme path: SET LOSS MODE, CLEAR CHANNEL, SET DELAY, SET SLEW (R100,
R101, R17, R12).
-/
namespace Sys2Proof.Machine

/-- SET LOSS MODE (R100). -/
def actSetLossMode (s : State) (c : ChanNo) (prm : List Byte) : State × Answer :=
  match lossOf (natAt prm 0) with
  | some m => (s.setPres c { (s.chan c).pres with loss := m }, .ok [m.toByte])
  | none => (s, .illegal 1)

/-- The presenter as CLEAR CHANNEL leaves it (R101). -/
def Presenter.clear (p : Presenter) : Presenter :=
  { p with state := .off, intent := false, g := 0, fade := none, frozen := false }

/-- The cue scheduler as CLEAR CHANNEL leaves it (R101). -/
def Sched.clear (d : Sched) : Sched := { d with cues := [], ring := [], lost := false }

/-- A channel removed from the source sets of the OUTCOME and CONFLICT entries; an entry left empty is gone (R161). -/
def Notices.forget (n : Notices) (c : ChanNo) : Notices :=
  { n with outcome := n.outcome &&& ~~~BitVec.twoPow 4 c, conflict := n.conflict &&& ~~~BitVec.twoPow 4 c }

/-- CLEAR CHANNEL on the channel (R101): the presenter, the visibility report of a visible presenter, the cues and outcomes, the
placement unit. -/
def State.clearChannel (s : State) (c : ChanNo) : State :=
  let p := (s.chan c).pres
  let s1 := s.setPres c p.clear
  let s2 := if p.state.visible then s1.visibilityReport c else s1
  let s3 := s2.setSched c (s2.chan c).sched.clear
  s3.setPlace c (s3.chan c).place.clear

/-- CLEAR CHANNEL from the channel's port (R101, R161). -/
def actClearChannel (s : State) (p : PortNo) (c : ChanNo) : State × Answer :=
  let t := s.clearChannel c
  (t.setPort p { t.port p with pending := (t.port p).pending.forget c }, .ok [])

/-- SET DELAY (R17). -/
def actSetDelay (s : State) (c : ChanNo) (prm : List Byte) : State × Answer :=
  let d := natAt prm 0
  if Config.maxTarget < d then (s, .illegal 1)
  else let t := s.setTarget c d; (t, .ok [byteOf d, byteOf (t.chan c).pool.granted])

/-- SET SLEW (R12). -/
def actSetSlew (s : State) (c : ChanNo) (prm : List Byte) : State × Answer :=
  let n := nat16At prm 0
  if n = 0 ∨ 255 < n then (s, .illegal 1)
  else (s.setPath c { (s.chan c).path with slewInterval := n }, .ok [])

end Sys2Proof.Machine
end

