-- ==== Sys2Proof/Machine/CueCommands.lean ====
section
/-!
DEFINITION. The commands of the cue scheduler (sections 7.3, 7.6 to 7.9), each for the channel given.
-/
namespace Sys2Proof.Machine

/-- The acceptance offset of a cue: its signed offset from T + 1 (R124). -/
def State.acceptOffset (s : State) (c : ChanNo) (q : Cue) : Int :=
  signedOffset s.rate q.due (((s.chan c).path.outTc + 1) % s.rate.day)

/-- The first record, from number n, whose fields are at fault, with the field (R125, stage 2). -/
def fieldStage (r : Rate) (n : Nat) : List RawCue → Option (Nat × Nat)
  | [] => none
  | q :: t =>
    match q.fault r with
    | some f => some (n, f)
    | none => fieldStage r (n + 1) t

/-- The number of the first record whose cue is beyond the horizon (R125, stage 3). -/
def State.horizonStage (s : State) (c : ChanNo) (n : Nat) : List Cue → Option Nat
  | [] => none
  | q :: t => if (s.rate.horizon : Int) < s.acceptOffset c q then some n else s.horizonStage c (n + 1) t

/-- The first record's tag that is in use, by the list or by an earlier record (R125, stage 4). -/
def tagStage (used : List Nat) : List Cue → Option Nat
  | [] => none
  | q :: t => if used.contains q.tag then some q.tag else tagStage (q.tag :: used) t

/-- The tag of the first record whose cue is already past (R125, stage 5). -/
def State.pastStage (s : State) (c : ChanNo) (l : List Cue) : Option Nat :=
  (l.find? (fun q => decide (s.acceptOffset c q < -((s.chan c).sched.lateLimit : Int)))).map (·.tag)

/-- The checks of ADD CUES on the cues of a well-formed block (R125, stages 3 to 5). -/
def State.cueChecks (s : State) (c : ChanNo) (l : List Cue) : Option Answer :=
  let d := (s.chan c).sched
  match s.horizonStage c 1 l with
  | some n => some (.refuse .illegal .beyondHorizon (n * 256 + 2))
  | none =>
    match tagStage (d.cues.map (·.tag)) l with
    | some t => some (.refuse .conflict .duplicateTag t)
    | none =>
      match s.pastStage c l with
      | some t => some (.refuse .conflict .alreadyPast t)
      | none =>
        if Config.listCapacity < d.cues.length + l.length then
          some (.refuse .resource .listFull (Config.listCapacity - d.cues.length))
        else none

/-- An accepted block's cues inserted in block order (R126). -/
def State.insertCues (s : State) (c : ChanNo) (l : List Cue) : State :=
  s.setCues c (l.foldl (fun acc q => insertCue (s.offset c) q acc) (s.chan c).sched.cues)

/-- The number of cues in a channel's list, as a reply gives it. -/
def State.cueCount (s : State) (c : ChanNo) : Byte := byteOf (s.chan c).sched.cues.length

/-- ADD CUES (R125, R126). -/
def actAddCues (s : State) (c : ChanNo) (prm : List Byte) : State × Answer :=
  let count := natAt prm 0
  if count = 0 ∨ 4 < count then (s, .illegal 0)
  else
    let raws := (List.range count).map (fun k => rawCueAt prm (1 + 16 * k))
    match fieldStage s.rate 1 raws with
    | some (n, f) => (s, .illegal (n * 256 + f))
    | none =>
      let l := raws.map (RawCue.cue s.rate)
      match s.cueChecks c l with
      | some a => (s, a)
      | none => let t := s.insertCues c l; (t, .ok [t.cueCount c])

/-- DROP CUE (R127). -/
def actDropCue (s : State) (c : ChanNo) (prm : List Byte) : State × Answer :=
  let tag := nat16At prm 0
  let l := (s.chan c).sched.cues
  if tag = 0 then (s, .illegal 1)
  else if l.any (fun q => q.tag == tag) then
    let t := s.setCues c (l.eraseP (fun q => q.tag == tag))
    (t, .ok [t.cueCount c])
  else (s, .refuse .noTarget .noSuchTag tag)

/-- FLUSH CUES (R128). -/
def actFlushCues (s : State) (c : ChanNo) : State × Answer := (s.setCues c [], .ok [s.cueCount c])

/-- A cue as LIST CUES and FIND CUE give it: its record and its signed offset from T (R141). -/
def State.cueEntry (s : State) (c : ChanNo) (q : Cue) : List Byte :=
  q.bytes s.rate ++ be32 (BitVec.ofInt 32 (s.offset c q))

/-- LIST CUES with its start position at parameter index i and its count at index i + 1 (R141). DEDUCED: where both are out of range,
the info is the start position's index, the lowest (log 30). -/
def listFrom (s : State) (c : ChanNo) (i : Nat) (prm : List Byte) : State × Answer :=
  let start := natAt prm (i - 1)
  let count := natAt prm i
  if start = 0 ∨ 32 < start then (s, .illegal i)
  else if 4 < count then (s, .illegal (i + 1))
  else
    let l := (((s.chan c).sched.cues).drop (start - 1)).take (if count = 0 then Config.cuesPerReply else count)
    (s, .ok ([s.cueCount c, byteOf start, byteOf l.length] ++ l.flatMap (s.cueEntry c)))

/-- LIST CUES from a port of the role given: a CHANNEL port's own channel, else the channel of parameter 1 (R141). DEDUCED: where the
channel and another parameter are out of range, the info is the channel's index, the lowest (log 30). -/
def actListCues (s : State) (r : Option Role) (prm : List Byte) : State × Answer :=
  match r with
  | some (.channel n) => listFrom s n 1 prm
  | _ =>
    match chanOf (natAt prm 0) with
    | some c => listFrom s c 2 prm
    | none => (s, .illegal 1)

/-- A cue's kind and guard are those asked for; FFh asks for any kind, or for no guard (R142, R179). -/
def cueMatches (kind guard : Nat) (q : Cue) : Bool :=
  (kind == Config.noneByte || q.action.kind == kind) && (guard == Config.noneByte || q.guard.toByte.toNat == guard)

/-- FIND CUE (R142). DEDUCED: where kind and guard are both out of range, the info is index 1, the lowest (log 30). -/
def actFindCue (s : State) (c : ChanNo) (prm : List Byte) : State × Answer :=
  let kind := natAt prm 0
  let guard := natAt prm 1
  let invert := (prm.getD 2 0).getLsbD 0
  let l := (s.chan c).sched.cues
  if ¬(kind ≤ 6 ∨ kind = Config.noneByte) then (s, .illegal 1)
  else if ¬(guard ≤ 6 ∨ guard = Config.noneByte) then (s, .illegal 2)
  else
    let k := l.findIdx (fun q => cueMatches kind guard q != invert)
    match l[k]? with
    | some q => (s, .good (byteOf (k + 1) :: s.cueEntry c q) true)
    | none => (s, .ok [0])

/-- TAKE NOW (R143). The parameter index of a field of R122 is the field number less 5. -/
def actTakeNow (s : State) (c : ChanNo) (prm : List Byte) : State × Answer :=
  let q := rawActionAt prm 0
  match q.fault with
  | some f => (s, .illegal (f - 5))
  | none =>
    let a := q.action.getD .mark
    if !s.guardHolds c ((guardOf q.guard).getD .always) then (s, .refuse .conflict .guardFalse 7)
    else
      let r := s.perform c (fadeOf q.fade) a
      if !r.2 then (s, .refuse .noTarget .profileUndefined q.param)
      else
        match a with
        | .setDelay d => (r.1, .ok [byteOf d, byteOf (r.1.chan c).pool.granted])
        | _ => (r.1, .ok [])

/-- READ OUTCOMES (R139). -/
def actReadOutcomes (s : State) (c : ChanNo) : State × Answer :=
  let d := (s.chan c).sched
  let out := d.ring.take Config.outcomesPerReply
  let left := d.ring.drop Config.outcomesPerReply
  (s.setSched c { d with ring := left, lost := d.lost && !left.isEmpty },
   .ok ([flagByte d.lost, byteOf out.length, byteOf left.length] ++ out.flatMap (OutcomeRec.bytes s.rate)))

/-- SET LATE LIMIT (R145). -/
def actSetLateLimit (s : State) (c : ChanNo) (prm : List Byte) : State × Answer :=
  let n := natAt prm 0
  if Config.maxLateness < n then (s, .illegal 1)
  else (s.setSched c { (s.chan c).sched with lateLimit := n }, .ok [byteOf n])

end Sys2Proof.Machine
end

