-- ==== Sys2Proof/Machine/Settings.lean ====
section
/-!
DEFINITION. The standing settings as the configuration memory holds them: judging and loading a memory, taking a snapshot, and
the bytes a store writes (sections 9.1, 9.3 and 10.5; R25, R58, R165 to R167, R172, R180).
-/
namespace Sys2Proof.Machine

/-! ### Reading -/

/-- The 4096 bytes of the memory, in order of offset. -/
def memBytes (m : List Host.Cell) (start n : Nat) : List Byte := (List.range n).map (fun i => memRead m (start + i))

/-- The profile count of a body (section 10.5). -/
def profileCount (body : List Byte) : Nat := natAt body 104

/-- The length the items of a body call for (R180). -/
def itemsLength (k : Nat) : Nat := 125 + 28 * k

/-- The sum of bytes mod 65536 (section 9.1). -/
def bodySum (bs : List Byte) : Nat := (bs.map BitVec.toNat).sum % 65536

/-- The body length the header gives. -/
def headerLength (m : List Host.Cell) : Nat := nat16At (memBytes m 0 8) 4

/-- The body as the header delimits it. -/
def memBody (m : List Host.Cell) : List Byte := memBytes m Config.bodyOffset (headerLength m)

/-- The memory is valid by its header and body (R165, R180). -/
def memoryValid (m : List Host.Cell) : Bool :=
  let h := memBytes m 0 8
  let n := headerLength m
  let body := memBody m
  nat16At h 0 == Config.validMarker && nat16At h 2 == Config.formatVersion &&
  n != 0 && decide (Config.bodyOffset + n ≤ Config.memoryBytes) &&
  decide (itemsLength (profileCount body) ≤ n) && decide (profileCount body ≤ 16) &&
  nat16At h 6 == bodySum body

/-- The frame rate stored, 25 where it is out of range (R166). -/
def rateOf (n : Nat) : Rate := if n = 50 then .f50 else .f25

/-- A stored booth record: the start values where a field is out of range (R25). -/
def loadBooth (body : List Byte) (b : BoothNo) : BoothRecord :=
  let i := 8 + 16 * b.val
  if (firstFault (boothTests body i)).isNone then boothRecordAt body i else defaultBoothRecord

/-- The stored records with each slot left to the lowest-numbered booth that names it (R25). DEDUCED: they are the records after the
fallback of one out of range, which then names no slot (log 32). -/
def resolveSlots (v : Vector BoothRecord 6) : Vector BoothRecord 6 :=
  Vector.ofFn (fun b =>
    let taken := (List.range b.val).any (fun o => (v.toList.getD o defaultBoothRecord).slot == v[b].slot)
    if taken then { v[b] with slot := none } else v[b])

/-- The profile entries of a body in order: number and index of the record (R180). -/
def profileEntries (body : List Byte) : List (Nat × Nat) :=
  (List.range (profileCount body)).map (fun j => (natAt body (105 + 28 * j), 106 + 28 * j))

/-- A stored profile: the first entry of its number, where every field is in range; else as if the settings did not hold it
(R58, R180). -/
def loadProfile (body : List Byte) (n : ProfNo) : Profile :=
  match (profileEntries body).find? (fun e => e.1 == n.val) with
  | some e =>
    if (firstFault (profileTests body e.2)).isNone then profileAt body e.2 true else defaultProfile (n == 0)
  | none => defaultProfile (n == 0)

/-- The stored defaults of a channel, each out-of-range item at its fallback (R166). -/
def loadChan (body : List Byte) (profiles : Vector Profile 16) (c : ChanNo) : ChanDefaults :=
  let i := 105 + 28 * profileCount body + 5 * c.val
  { target := if natAt body i ≤ Config.maxTarget then natAt body i else 0
    slew := if natAt body (i + 1) = 0 then Config.defaultSlew else natAt body (i + 1)
    lateLimit := if natAt body (i + 2) ≤ Config.maxLateness then natAt body (i + 2) else Config.defaultLateLimit
    loss := (lossOf (natAt body (i + 3))).getD .holdFade
    profile :=
      match profOf (natAt body (i + 4)) with
      | some n => if profiles[n].defined then n else 0
      | none => 0 }

/-- The settings loaded from the body of a valid memory, item by item (R166). -/
def loadBody (body : List Byte) : Settings :=
  let profiles := Vector.ofFn (loadProfile body)
  { rate := rateOf (natAt body 0)
    roles := Vector.ofFn (fun p => (roleOf (natAt body (1 + p.val))).getD defaultRoles[p])
    mask := body.getD 7 0
    booths := resolveSlots (Vector.ofFn (loadBooth body))
    profiles := profiles
    chans := Vector.ofFn (loadChan body profiles) }

/-! ### Roles (R167) -/

/-- A role is a duplicate when it is a CHANNEL n or STUDIO that a lower-numbered port already has. -/
def duplicates (before : List Role) (r : Role) : Bool :=
  match r with
  | .channel _ => before.contains r
  | .studio => before.contains r
  | .monitor => false
  | .idle => false

/-- The roles with duplicates removed: the lowest-numbered port keeps the role, each other becomes IDLE (R167). -/
def resolveRoles (v : Vector Role 6) : Vector Role 6 :=
  Vector.ofFn (fun p => if duplicates (v.toList.take p.val) v[p] then .idle else v[p])

/-! ### Writing -/

/-- One profile entry of a body: number and record, the defined-flag byte 1 (R180). -/
def profileEntry (n : Nat) (p : Profile) : List Byte := byteOf n :: ({ p with defined := true } : Profile).bytes

/-- The entries of the defined profiles, ascending (R180). -/
def profileEntriesBytes (v : Vector Profile 16) : List (List Byte) :=
  (List.range 16).filterMap (fun n =>
    let p := v.toList.getD n (defaultProfile false)
    if p.defined then some (profileEntry n p) else none)

def Rate.toByte : Rate → Byte
  | .f25 => 25
  | .f50 => 50

def ChanDefaults.bytes (d : ChanDefaults) : List Byte :=
  [byteOf d.target, byteOf d.slew, byteOf d.lateLimit, d.loss.toByte, byteOf d.profile]

/-- The body a store writes (section 10.5, R180). -/
def Settings.body (t : Settings) : List Byte :=
  let entries := profileEntriesBytes t.profiles
  [t.rate.toByte] ++ t.roles.toList.map Role.toByte ++ [t.mask] ++ t.booths.toList.flatMap BoothRecord.bytes ++
    [byteOf entries.length] ++ entries.flatten ++ t.chans.toList.flatMap ChanDefaults.bytes

/-- A header with the marker given (section 10.5). -/
def headerBytes (marker : Nat) (body : List Byte) : List Byte :=
  be16 marker ++ be16 Config.formatVersion ++ be16 body.length ++ be16 (bodySum body)

/-- Bytes with their offsets in the memory. -/
def placed (start : Nat) (bs : List Byte) : List Host.Cell := (List.range bs.length).map (fun i => (start + i, bs.getD i 0))

/-- The byte writes of a store in order: the header with the invalid marker, the body, the header with the valid marker (R173,
steps 1, 2 and 4). -/
def Settings.writes (t : Settings) : List Host.Cell × List Host.Cell × List Host.Cell :=
  (placed 0 (headerBytes Config.invalidMarker t.body), placed Config.bodyOffset t.body,
   placed 0 (headerBytes Config.validMarker t.body))

/-- Byte writes taken by the memory one after another. -/
def memWriteAll (m : List Host.Cell) (w : List Host.Cell) : List Host.Cell := w.foldl (fun a x => memWrite a x.1 x.2) m

end Sys2Proof.Machine
end

