-- ==== Sys2Proof/Machine/Loader.lean ====
section
/-!
DEFINITION. The configuration loader: the unit restart, start-up, stores, and the commands on the stored settings (chapter 9).
-/
namespace Sys2Proof.Machine

/-! ### The unit restart (R168) -/

/-- The memory at a restart: a store in progress has left what its first byte writes made of it (R174). -/
def State.memoryAtRestart (s : State) (storeWrites : Nat) : List Host.Cell :=
  match s.loader.phase with
  | .storing _ t =>
    let w := t.writes
    memWriteAll s.memory ((w.1 ++ w.2.1 ++ w.2.2).take storeWrites)
  | .starting => s.memory
  | .serving => s.memory

/-- The loader after a restart: across one requested by RESET UNIT the pending roles, their flag and the grants at reset are
kept; the configuration-defaulted flag keeps its old value in either case (R168). -/
def Loader.restarted (l : Loader) (cause : RestartCause) : Loader :=
  match cause with
  | .resetReply => { l with phase := .starting, resetPort := none }
  | .powerOn => { powerOnLoader with defaulted := l.defaulted }
  | .rstInput => { powerOnLoader with defaulted := l.defaulted }

/-- A unit restart: every block takes the values its chapter gives for it; the configuration memory, the frame rate until the
loader sets it, and the commands that wait outside the part are kept (R168). -/
def State.restart (s : State) (cause : RestartCause) (storeWrites : Nat) : State :=
  { State.reset with
    rate := s.rate, loader := s.loader.restarted cause, memory := s.memoryAtRestart storeWrites, pending := s.pending }

/-! ### Start-up (R165 to R167, R170) -/

/-- The memory the loader meets: one prepared outside the part stands in place of what was held. -/
def memContents (a : MemoryAnswer) (m : List Host.Cell) : List Host.Cell :=
  match a with
  | .unreadable => m
  | .held => m
  | .prepared image => memWriteAll [] (placed 0 (image.take Config.memoryBytes))

/-- The memory is judged valid at start-up (R165). -/
def memAnswerValid (a : MemoryAnswer) (m : List Host.Cell) : Bool :=
  match a with
  | .unreadable => false
  | .held => memoryValid m
  | .prepared _ => memoryValid (memContents a m)

/-- The settings a start-up loads (R165, R166). -/
def startSettings (a : MemoryAnswer) (m : List Host.Cell) : Settings :=
  if memAnswerValid a m then loadBody (memBody (memContents a m)) else defaultSettings

/-- The roles of a start-up: the pending ones where RESET UNIT carried them across, else the settings'; duplicates resolved
(R167). -/
def Loader.roles (l : Loader) (t : Settings) : Vector Role 6 :=
  resolveRoles (match l.rolesPending, l.pendingRoles with
    | true, some v => v
    | _, _ => t.roles)

/-- A channel with its stored defaults in place (R12, R19, R78, R79, R145). -/
def Channel.load (x : Channel) (d : ChanDefaults) : Channel :=
  { x with
    path := { x.path with slewInterval := d.slew }
    pool := { x.pool with target := d.target }
    pres := { x.pres with loss := d.loss }
    place := { x.place with profile := d.profile }
    sched := { x.sched with lateLimit := d.lateLimit } }

/-- The settings in their places in the owning blocks (R166). DESIGN CHOICE: where the frame rate loaded is not the one kept under
bypass, a last timecode read at the old rate stays the frame number it was (log 34). -/
def State.load (s : State) (t : Settings) : State :=
  { s with
    rate := t.rate
    slotMask := t.mask
    profiles := t.profiles
    booths := Vector.ofFn (fun b => restartBooth t.booths[b])
    chans := Vector.ofFn (fun c => (s.chan c).load t.chans[c]) }

/-- A channel's grant at start-up, by the expression of R14; no notice is raised (R16, R19). -/
def State.startGrant (s : State) (c : ChanNo) : State :=
  let p := (s.chan c).pool
  let g := s.grantFor c p.target
  s.setPool c { p with granted := g, clamped := decide (g < p.target) }

/-- The four grants in ascending channel order (R19). -/
def State.startGrants (s : State) : State := (((s.startGrant 0).startGrant 1).startGrant 2).startGrant 3

/-- Every placement unit's start-up choice (R78). -/
def State.startPlacements (s : State) : State :=
  { s with chans := Vector.ofFn (fun c => { s.chan c with place := (s.chan c).place.startUp (s.currentProfile c) }) }

/-- The roles come into force, and every sense record is cleared (R170, step 3). -/
def State.bringRoles (s : State) (v : Vector Role 6) : State :=
  { s with ports := Vector.ofFn (fun p => { s.ports[p] with role := some v[p], sense := senseNone }) }

/-- The DELAY notices of a start-up after RESET UNIT: one for each channel whose grant differs from its grant at reset (R170,
step 5). -/
def State.resetDelays (s : State) (old : Option (Vector Nat 4)) : State :=
  match old with
  | none => s
  | some v =>
    let tell := fun (t : State) (c : ChanNo) => t.raiseIf ((s.chan c).pool.granted != v[c]) (.delay c)
    tell (tell (tell (tell s 0) 1) 2) 3

/-- Start-up completes (R170); it is an event of a part that is STARTING, and of no other. -/
def State.startUp (s : State) (a : MemoryAnswer) : State :=
  match s.loader.phase with
  | .starting =>
    let t := startSettings a s.memory
    let roles := s.loader.roles t
    let s1 := ((({ s with memory := memContents a s.memory } : State).load t).startGrants).startPlacements
    let s2 := ((s1.bringRoles roles).raise .start).resetDelays s.loader.grantsAtReset
    { s2 with
      linkInFrame := false
      loader := { phase := .serving, pendingRoles := some roles, rolesPending := false, defaulted := !memAnswerValid a s.memory,
                  grantsAtReset := none, resetPort := none } }
  | .serving => s
  | .storing _ _ => s

/-! ### WRITE PORT ROLES, STORE SETTINGS and RESET UNIT -/

/-- The first of six role bytes that is no role, at its parameter index (R171). -/
def rolesFault (prm : List Byte) : Option Nat :=
  firstFault ((List.range 6).map (fun i => (i + 1, (roleOf (natAt prm i)).isSome)))

/-- The six roles of a WRITE PORT ROLES in range. -/
def rolesAt (prm : List Byte) : Vector Role 6 := Vector.ofFn (fun p => (roleOf (natAt prm p.val)).getD .idle)

/-- The first port, from CP0 upward, whose role duplicates a lower-numbered port's (R171). -/
def firstDuplicate (v : Vector Role 6) : Option Nat :=
  (List.range 6).find? (fun p => duplicates (v.toList.take p) (v.toList.getD p .idle))

/-- WRITE PORT ROLES (R171). -/
def actWritePortRoles (s : State) (prm : List Byte) : State × Answer :=
  match rolesFault prm with
  | some i => (s, .illegal i)
  | none =>
    let v := rolesAt prm
    match firstDuplicate v with
    | some p => (s, .refuse .conflict .duplicateRole (p + 1))
    | none =>
      ({ s with loader := { s.loader with pendingRoles := some v, rolesPending := true } },
       .ok (v.toList.map Role.toByte))

/-- The snapshot of the settings as they stand (R172). -/
def State.snapshot (s : State) : Settings :=
  { rate := s.rate
    roles := s.loader.pendingRoles.getD (Vector.ofFn (fun p => (s.port p).role.getD .idle))
    mask := s.slotMask
    booths := Vector.ofFn (fun b => (s.booth b).record)
    profiles := s.profiles
    chans := Vector.ofFn (fun c =>
      let x := s.chan c
      { target := x.pool.target, slew := x.path.slewInterval, lateLimit := x.sched.lateLimit, loss := x.pres.loss,
        profile := x.place.profile }) }

/-- STORE SETTINGS: the snapshot is taken and the write begins; the reply follows the write (R172, R174). -/
def actStoreSettings (s : State) (p : PortNo) : State × Answer :=
  ({ s with loader := { s.loader with phase := .storing p s.snapshot } }, .later)

/-- The byte a cell of the memory holds after a byte is written to it (R173). -/
def storeTakes (k : StoreMemory) (x : Host.Cell) : Host.Cell :=
  match k.stuck.find? (fun y => y.1 == x.1) with
  | some y => y
  | none => x

/-- The first offset, of those written, that reads back as another byte than was written (R173). -/
def firstDiffers (m : List Host.Cell) (w : List Host.Cell) : Option Nat :=
  (w.find? (fun x => memRead m x.1 != x.2)).map (·.1)

/-- What a store comes to: the memory it leaves, and the offset of the first byte that failed, if one did (R173). A write of
step 1 that is not answered has written nothing. -/
def storeRun (k : StoreMemory) (m : List Host.Cell) (t : Settings) : List Host.Cell × Option Nat :=
  let w := t.writes
  let put := fun (a : List Host.Cell) (l : List Host.Cell) => memWriteAll a (l.map (storeTakes k))
  let at1 := w.1.length
  let at2 := w.2.1.length
  let at4 := w.2.2.length
  let m1 := put m w.1
  let m2 := put m1 w.2.1
  let m4 := put m2 w.2.2
  let silent := k.noAnswerAt.getD (at1 + at2 + at4)
  if silent < at1 then (m, some silent)
  else if silent < at1 + at2 then (put m1 (w.2.1.take (silent - at1)), some (Config.bodyOffset + (silent - at1)))
  else
    match firstDiffers m2 w.2.1 with
    | some o => (m2, some o)
    | none =>
      if silent < at1 + at2 + at4 then (put m2 (w.2.2.take (silent - at1 - at2)), some (silent - at1 - at2))
      else (m4, firstDiffers m4 w.2.2)

/-- The write and verification of a store end, and STORE SETTINGS is answered (R173); it is an event of a part that is
STORING. -/
def State.storeDone (s : State) (k : StoreMemory) : State :=
  match s.loader.phase with
  | .storing p t =>
    let r := storeRun k s.memory t
    ({ s with memory := r.1, loader := { s.loader with phase := .serving } } : State).answer p
      (match r.2 with
       | none => .ok []
       | some o => .refuse .storeFailed .verifyFailed o)
  | .starting => s
  | .serving => s

/-- RESET UNIT: answered GOOD; the restart follows the reply's last byte, and the grants as they stand are kept for it (R168,
R175). -/
def actResetUnit (s : State) (p : PortNo) : State × Answer :=
  ({ s with loader := { s.loader with
      resetPort := some p, grantsAtReset := some (Vector.ofFn (fun c => (s.chan c).pool.granted)) } }, .ok [])

end Sys2Proof.Machine
end

