-- ==== Sys2Proof/Machine/PortCommands.lean ====
section
/-!
DEFINITION. The commands the port itself answers, and CHANNEL STATE (R154, R158, R160, R162, R163).
-/
namespace Sys2Proof.Machine

/-- IDENTIFY (R162, section 10.4). A port that answers it has a role in force. -/
def actIdentify (s : State) (p : PortNo) : State × Answer :=
  (s, .ok ([Config.vendorCode] ++ be16 Config.partNumber ++
    [Config.designLevel, byteOf p, ((s.port p).role.getD .idle).toByte, byteOf s.rate.fps, s.loader.flags]))

/-- READ SENSE: the record as it stood before the block was accepted (R154). -/
def actReadSense (s : State) (before : Sense) : State × Answer := (s, .ok before.bytes)

/-- READ NOTICES: the pending set is returned and emptied (R160). -/
def actReadNotices (s : State) (p : PortNo) : State × Answer :=
  (s.setPort p { s.port p with pending := noNotices }, .ok (s.port p).pending.bytes)

/-- SET NOTICE MASK (R158): two bytes, of which bits 8 to 15 name no kind (R176). -/
def actSetNoticeMask (s : State) (p : PortNo) (prm : List Byte) : State × Answer :=
  if natAt prm 0 ≠ 0 then (s, .illegal 1)
  else (s.setPort p { s.port p with enabled := prm.getD 1 0 }, .ok [0, prm.getD 1 0])

/-- The channel a CHANNEL STATE names: a CHANNEL port's own, else the one its parameter gives (R163). -/
def stateChannel (r : Option Role) (prm : List Byte) : Option ChanNo :=
  match r with
  | some (.channel n) => some n
  | _ => chanOf (natAt prm 0)

/-- CHANNEL STATE (R163). -/
def actChannelState (s : State) (p : PortNo) (prm : List Byte) : State × Answer :=
  match stateChannel (s.port p).role prm with
  | some c => (s, .ok ((s.chan c).stateBytes s.rate))
  | none => (s, .illegal 1)

end Sys2Proof.Machine
end

