-- ==== Sys2Proof/Machine/StudioCommands.lean ====
section
/-!
DEFINITION. The commands on the booth table, the slot mask, the profile library and the assignment map (R24 to R28, R38, R59 to
R62, R105 to R109, R115).
-/
namespace Sys2Proof.Machine

/-- WRITE BOOTH (R26, R27): booth number, then the 16 bytes of the record. -/
def actWriteBooth (s : State) (prm : List Byte) : State × Answer :=
  match firstFault ((1, decide (natAt prm 0 ≤ 5)) :: boothTests prm 1), boothOf (natAt prm 0) with
  | some i, _ => (s, .illegal i)
  | none, none => (s, .illegal 1)
  | none, some b =>
    let r := boothRecordAt prm 1
    match s.slotHolder b r.slot with
    | some o => (s, .refuse .conflict .slotInUse o)
    | none => (s.putBooth b ((s.booth b).rewrite r), .ok [])

/-- READ BOOTH (R28). -/
def actReadBooth (s : State) (prm : List Byte) : State × Answer :=
  match boothOf (natAt prm 0) with
  | some b => (s, .ok (byteOf b :: (s.booth b).record.bytes))
  | none => (s, .illegal 1)

/-- SET SLOT MASK (R24). -/
def actSetSlotMask (s : State) (prm : List Byte) : State × Answer :=
  let m := prm.getD 0 0
  (s.setMask m, .ok [m])

/-- BOOTH STATE (R38). -/
def actBoothState (s : State) (prm : List Byte) : State × Answer :=
  match boothOf (natAt prm 0) with
  | some b => (s, .ok (s.booth b).stateBytes)
  | none => (s, .illegal 1)

/-- The channels whose current profile was rewritten are told: re-placement pending, and a PROFILE notice (R61). -/
def State.tellRewrite (s : State) (n : ProfNo) : State :=
  let tell := fun (t : State) (c : ChanNo) =>
    if (t.chan c).place.profile = n then (t.setPlace c { (t.chan c).place with replace := true }).raise (.profile c) else t
  tell (tell (tell (tell s 0) 1) 2) 3

/-- A profile record replaced (R60, R61). -/
def State.writeProfile (s : State) (n : ProfNo) (r : Profile) : State :=
  if s.profile n = r then s else (s.setProfile n r).tellRewrite n

/-- WRITE PROFILE (R59 to R61): profile number, then the 27 bytes of the record. -/
def actWriteProfile (s : State) (prm : List Byte) : State × Answer :=
  match firstFault ((1, decide (natAt prm 0 ≤ 15)) :: profileTests prm 1), profOf (natAt prm 0) with
  | some i, _ => (s, .illegal i)
  | none, none => (s, .illegal 1)
  | none, some n =>
    let defined := (prm.getD 27 0).getLsbD 0
    if n = 0 ∧ defined = false then (s, .refuse .conflict .profileZero 18)
    else
      let r := profileAt prm 1 defined
      (s.writeProfile n r, .ok (be16 r.cw ++ be16 r.ch))

/-- READ PROFILE (R62). -/
def actReadProfile (s : State) (prm : List Byte) : State × Answer :=
  match profOf (natAt prm 0) with
  | some n => (s, .ok (byteOf n :: (s.profile n).bytes))
  | none => (s, .illegal 1)

/-- ASSIGN BOOTH (R105 to R109): channel, booth, crossfade length. -/
def actAssignBooth (s : State) (prm : List Byte) : State × Answer :=
  let nx := natAt prm 2
  match chanOf (natAt prm 0), boothOf (natAt prm 1) with
  | none, _ => (s, .illegal 1)
  | some _, none => (s, .illegal 2)
  | some c, some b =>
    if 100 < nx then (s, .illegal 3)
    else
      let x := s.chan c
      let data := fun (a : Assign) => [boothByte a.assigned, boothByte (a.incoming.map (·.booth))]
      match x.assign.assign b nx x.pres.state.visible (s.booth b).health with
      | .same => (s, .ok (data x.assign))
      | .busy => (s, .check .conflict .inTransition (some 1) true)
      | .notLive => (s, .refuse .conflict .boothNotLive 2)
      | .taken a => ((s.setAssign c a).raise (.assignment c), .ok (data a))

/-- RELEASE BOOTH (R115). -/
def actReleaseBooth (s : State) (prm : List Byte) : State × Answer :=
  match chanOf (natAt prm 0) with
  | none => (s, .illegal 1)
  | some c =>
    let t := s.releaseBooth c
    (t, .ok [boothByte (t.chan c).assign.assigned, flagByte (t.chan c).assign.releasePending])

end Sys2Proof.Machine
end

