-- ==== Sys2Proof/Machine/Ports.lean ====
section
/-!
DEFINITION. The control port: framing of bytes, the transaction state, the tests of an accepted block, the command carried out,
and the reply (chapter 8).
-/
namespace Sys2Proof.Machine

/-- The role may issue the command (table "Commands by role" of R155). -/
def mayIssue (k : Command) (r : Role) : Bool :=
  match k, r with
  | _, .idle => false
  | .identify, _ => true
  | .readSense, _ => true
  | .readNotices, _ => true
  | .setNoticeMask, _ => true
  | .channelState, _ => true
  | .listCues, .channel _ => true
  | .listCues, .monitor => true
  | .readBooth, .studio => true
  | .readBooth, .monitor => true
  | .boothState, .studio => true
  | .boothState, .monitor => true
  | .readProfile, .studio => true
  | .readProfile, .monitor => true
  | .addCues, .channel _ => true
  | .dropCue, .channel _ => true
  | .flushCues, .channel _ => true
  | .findCue, .channel _ => true
  | .takeNow, .channel _ => true
  | .readOutcomes, .channel _ => true
  | .setLateLimit, .channel _ => true
  | .setDelay, .channel _ => true
  | .setSlew, .channel _ => true
  | .setLossMode, .channel _ => true
  | .clearChannel, .channel _ => true
  | .writeBooth, .studio => true
  | .setSlotMask, .studio => true
  | .assignBooth, .studio => true
  | .releaseBooth, .studio => true
  | .writeProfile, .studio => true
  | .writePortRoles, .studio => true
  | .storeSettings, .studio => true
  | .resetUnit, .studio => true
  | _, _ => false

/-- The body length of the command's form for a role (column L of section 10.2), none where any length goes on to the owning
block: ADD CUES with a count of 0 or above 4 (R151, test 8). -/
def formLength (k : Command) (r : Role) (prm : List Byte) : Option Nat :=
  match k with
  | .setNoticeMask => some 3
  | .addCues => if natAt prm 0 = 0 ∨ 4 < natAt prm 0 then none else some (2 + 16 * natAt prm 0)
  | .dropCue => some 3
  | .listCues => match r with
    | .channel _ => some 3
    | _ => some 4
  | .findCue => some 4
  | .takeNow => some 11
  | .setSlew => some 3
  | .writeBooth => some 18
  | .writeProfile => some 29
  | .assignBooth => some 4
  | .writePortRoles => some 7
  | _ => some 2

/-- What the tests of R151 make of an accepted block. -/
inductive Judged where
  | refused (a : Answer)
  | command (k : Command) (r : Role)
  deriving DecidableEq, Repr

/-- The eight tests of an accepted block, in order (R151). -/
def judge (starting : Bool) (role : Option Role) (b : Block) : Judged :=
  let r := role.getD .idle
  let code := b.body.getD 0 0
  if starting then .refused (.check .notReady .starting none true)
  else if r = .idle then .refused (.check .notPermitted .portIdle none false)
  else if b.damaged then .refused (.check .link .byteFraming none false)
  else if b.sum ≠ 0 then .refused (.check .link .badCheck none false)
  else if b.len.toNat < 2 ∨ 70 < b.len.toNat then .refused (.refuse .illegal .badLength b.len.toNat)
  else match Command.ofCode code with
    | none => .refused (.refuse .illegal .unknownCommand code.toNat)
    | some k =>
      if !mayIssue k r then .refused (.refuse .notPermitted .wrongRole code.toNat)
      else if (formLength k r b.body.tail).any (fun n => n != b.len.toNat) then
        .refused (.refuse .illegal .badLength b.len.toNat)
      else .command k r

/-- The channel a CHANNEL port serves; C0 stands in for a port of another role, which may issue no channel command. -/
def ownChannel (r : Role) : ChanNo :=
  match r with
  | .channel n => n
  | .studio => 0
  | .monitor => 0
  | .idle => 0

/-- The command carried out by the block that owns it; `before` is the sense record kept aside (R151, R154). -/
def act (k : Command) (r : Role) (s : State) (p : PortNo) (before : Sense) (prm : List Byte) : State × Answer :=
  match k with
  | .identify => actIdentify s p
  | .readSense => actReadSense s before
  | .readNotices => actReadNotices s p
  | .setNoticeMask => actSetNoticeMask s p prm
  | .channelState => actChannelState s p prm
  | .addCues => actAddCues s (ownChannel r) prm
  | .dropCue => actDropCue s (ownChannel r) prm
  | .flushCues => actFlushCues s (ownChannel r)
  | .listCues => actListCues s (some r) prm
  | .findCue => actFindCue s (ownChannel r) prm
  | .takeNow => actTakeNow s (ownChannel r) prm
  | .readOutcomes => actReadOutcomes s (ownChannel r)
  | .setLateLimit => actSetLateLimit s (ownChannel r) prm
  | .setLossMode => actSetLossMode s (ownChannel r) prm
  | .clearChannel => actClearChannel s p (ownChannel r)
  | .setDelay => actSetDelay s (ownChannel r) prm
  | .setSlew => actSetSlew s (ownChannel r) prm
  | .writeBooth => actWriteBooth s prm
  | .readBooth => actReadBooth s prm
  | .setSlotMask => actSetSlotMask s prm
  | .boothState => actBoothState s prm
  | .writeProfile => actWriteProfile s prm
  | .readProfile => actReadProfile s prm
  | .assignBooth => actAssignBooth s prm
  | .releaseBooth => actReleaseBooth s prm
  | .writePortRoles => actWritePortRoles s prm
  | .storeSettings => actStoreSettings s p
  | .resetUnit => actResetUnit s p

/-- A port as it accepts a block: ANSWERING, back in SEEK, its sense record cleared (R148, R150, R151). -/
def Port.accept (q : Port) : Port := { q with recv := .seek, trans := .answering none, sense := senseNone }

/-- A block accepted at a port: judged, its command carried out, the reply made up (R150 to R152). -/
def State.acceptBlock (s : State) (p : PortNo) (b : Block) : State :=
  let q := s.port p
  let t := s.setPort p q.accept
  match judge s.loader.phase.isStarting q.role b with
  | .refused a => t.answer p a
  | .command k r =>
    let u := act k r t p q.sense b.body.tail
    u.1.answer p u.2

/-- A block completes at a port: accepted in FREE; overlapped in ANSWERING, when it is discarded with no reply (R150). -/
def State.blockCompletes (s : State) (p : PortNo) (b : Block) : State :=
  match (s.port p).trans with
  | .free => s.acceptBlock p b
  | .answering _ => s.setPort p { s.port p with recv := .seek }

/-- A byte received, as it moves the receive state; a completed block comes with it (R147, R148). -/
def Recv.take (v : Recv) (x : Byte) (noStop : Bool) : Recv × Option Block :=
  match v with
  | .seek => (if x = Config.startByte ∧ noStop = false then .count else .seek, none)
  | .count => (if x = 0 then .trailer x [] x noStop else .body x [] 0 x noStop, none)
  | .body len kept got sum dmg =>
    let kept' := if got < Config.maxBody then kept ++ [x] else kept
    (if got + 1 ≥ len.toNat then .trailer len kept' (sum + x) (dmg || noStop)
     else .body len kept' (got + 1) (sum + x) (dmg || noStop), none)
  | .trailer len kept sum dmg => (.seek, some { len := len, body := kept, sum := sum + x, damaged := dmg || noStop })

/-- A byte arrives at a port (R147, R148); the block it completes is handed on at once (R150). -/
def State.byteArrives (s : State) (p : PortNo) (x : Byte) (noStop : Bool) : State :=
  let r := (s.port p).recv.take x noStop
  let t := s.setPort p { s.port p with recv := r.1 }
  match r.2 with
  | none => t
  | some b => t.blockCompletes p b

/-- A gap of 20 ms abandons a block that has begun; in SEEK no gap is timed (R149). -/
def State.gapAbandons (s : State) (p : PortNo) : State := s.setPort p { s.port p with recv := .seek }

/-- The last byte of a reply has been sent: FREE again, or, where it answered RESET UNIT, the unit restart (R150, R175). No
reply ends on a port that is sending none. -/
def State.replyEnds (s : State) (p : PortNo) : State :=
  match (s.port p).trans with
  | .free => s
  | .answering none => s
  | .answering (some _) =>
    if s.loader.resetPort = some p then s.restart .resetReply 0 else s.setPort p { s.port p with trans := .free }

end Sys2Proof.Machine
end

