-- ==== Sys2Proof/Machine/PortEvents.lean ====
section
/-!
DEFINITION. The meanings of the blocks and bytes at the control ports, one definition per row of the table. Every command
of a controller completes as a block at its port; what it then does is its own definition among act… (Ports.lean, act).
-/
namespace Sys2Proof.Machine

/-- IDENTIFY (R162, R150 to R152): a block with this command code completes at the port. -/
def execIdentify (p : PortNo) (b : Tail) (s : State) : Host.Outcome State Fault Refusal :=
  .next (s.blockCompletes p (tailBlock Command.identify.code b))

/-- READ_SENSE (R154, R150 to R152): a block with this command code completes at the port. -/
def execReadSense (p : PortNo) (b : Tail) (s : State) : Host.Outcome State Fault Refusal :=
  .next (s.blockCompletes p (tailBlock Command.readSense.code b))

/-- READ_NOTICES (R160, R150 to R152): a block with this command code completes at the port. -/
def execReadNotices (p : PortNo) (b : Tail) (s : State) : Host.Outcome State Fault Refusal :=
  .next (s.blockCompletes p (tailBlock Command.readNotices.code b))

/-- SET_NOTICE_MASK (R158, R150 to R152): a block with this command code completes at the port. -/
def execSetNoticeMask (p : PortNo) (b : Tail) (s : State) : Host.Outcome State Fault Refusal :=
  .next (s.blockCompletes p (tailBlock Command.setNoticeMask.code b))

/-- CHANNEL_STATE (R163, R150 to R152): a block with this command code completes at the port. -/
def execChannelState (p : PortNo) (b : Tail) (s : State) : Host.Outcome State Fault Refusal :=
  .next (s.blockCompletes p (tailBlock Command.channelState.code b))

/-- ADD_CUES (R125, R150 to R152): a block with this command code completes at the port. -/
def execAddCues (p : PortNo) (b : Tail) (s : State) : Host.Outcome State Fault Refusal :=
  .next (s.blockCompletes p (tailBlock Command.addCues.code b))

/-- DROP_CUE (R127, R150 to R152): a block with this command code completes at the port. -/
def execDropCue (p : PortNo) (b : Tail) (s : State) : Host.Outcome State Fault Refusal :=
  .next (s.blockCompletes p (tailBlock Command.dropCue.code b))

/-- FLUSH_CUES (R128, R150 to R152): a block with this command code completes at the port. -/
def execFlushCues (p : PortNo) (b : Tail) (s : State) : Host.Outcome State Fault Refusal :=
  .next (s.blockCompletes p (tailBlock Command.flushCues.code b))

/-- LIST_CUES (R141, R150 to R152): a block with this command code completes at the port. -/
def execListCues (p : PortNo) (b : Tail) (s : State) : Host.Outcome State Fault Refusal :=
  .next (s.blockCompletes p (tailBlock Command.listCues.code b))

/-- FIND_CUE (R142, R150 to R152): a block with this command code completes at the port. -/
def execFindCue (p : PortNo) (b : Tail) (s : State) : Host.Outcome State Fault Refusal :=
  .next (s.blockCompletes p (tailBlock Command.findCue.code b))

/-- TAKE_NOW (R143, R150 to R152): a block with this command code completes at the port. -/
def execTakeNow (p : PortNo) (b : Tail) (s : State) : Host.Outcome State Fault Refusal :=
  .next (s.blockCompletes p (tailBlock Command.takeNow.code b))

/-- READ_OUTCOMES (R139, R150 to R152): a block with this command code completes at the port. -/
def execReadOutcomes (p : PortNo) (b : Tail) (s : State) : Host.Outcome State Fault Refusal :=
  .next (s.blockCompletes p (tailBlock Command.readOutcomes.code b))

/-- SET_LATE_LIMIT (R145, R150 to R152): a block with this command code completes at the port. -/
def execSetLateLimit (p : PortNo) (b : Tail) (s : State) : Host.Outcome State Fault Refusal :=
  .next (s.blockCompletes p (tailBlock Command.setLateLimit.code b))

/-- SET_LOSS_MODE (R100, R150 to R152): a block with this command code completes at the port. -/
def execSetLossMode (p : PortNo) (b : Tail) (s : State) : Host.Outcome State Fault Refusal :=
  .next (s.blockCompletes p (tailBlock Command.setLossMode.code b))

/-- CLEAR_CHANNEL (R101, R150 to R152): a block with this command code completes at the port. -/
def execClearChannel (p : PortNo) (b : Tail) (s : State) : Host.Outcome State Fault Refusal :=
  .next (s.blockCompletes p (tailBlock Command.clearChannel.code b))

/-- SET_DELAY (R17, R150 to R152): a block with this command code completes at the port. -/
def execSetDelay (p : PortNo) (b : Tail) (s : State) : Host.Outcome State Fault Refusal :=
  .next (s.blockCompletes p (tailBlock Command.setDelay.code b))

/-- SET_SLEW (R12, R150 to R152): a block with this command code completes at the port. -/
def execSetSlew (p : PortNo) (b : Tail) (s : State) : Host.Outcome State Fault Refusal :=
  .next (s.blockCompletes p (tailBlock Command.setSlew.code b))

/-- WRITE_BOOTH (R26, R150 to R152): a block with this command code completes at the port. -/
def execWriteBooth (p : PortNo) (b : Tail) (s : State) : Host.Outcome State Fault Refusal :=
  .next (s.blockCompletes p (tailBlock Command.writeBooth.code b))

/-- READ_BOOTH (R28, R150 to R152): a block with this command code completes at the port. -/
def execReadBooth (p : PortNo) (b : Tail) (s : State) : Host.Outcome State Fault Refusal :=
  .next (s.blockCompletes p (tailBlock Command.readBooth.code b))

/-- SET_SLOT_MASK (R24, R150 to R152): a block with this command code completes at the port. -/
def execSetSlotMask (p : PortNo) (b : Tail) (s : State) : Host.Outcome State Fault Refusal :=
  .next (s.blockCompletes p (tailBlock Command.setSlotMask.code b))

/-- BOOTH_STATE (R38, R150 to R152): a block with this command code completes at the port. -/
def execBoothState (p : PortNo) (b : Tail) (s : State) : Host.Outcome State Fault Refusal :=
  .next (s.blockCompletes p (tailBlock Command.boothState.code b))

/-- WRITE_PROFILE (R59, R150 to R152): a block with this command code completes at the port. -/
def execWriteProfile (p : PortNo) (b : Tail) (s : State) : Host.Outcome State Fault Refusal :=
  .next (s.blockCompletes p (tailBlock Command.writeProfile.code b))

/-- READ_PROFILE (R62, R150 to R152): a block with this command code completes at the port. -/
def execReadProfile (p : PortNo) (b : Tail) (s : State) : Host.Outcome State Fault Refusal :=
  .next (s.blockCompletes p (tailBlock Command.readProfile.code b))

/-- ASSIGN_BOOTH (R105, R150 to R152): a block with this command code completes at the port. -/
def execAssignBooth (p : PortNo) (b : Tail) (s : State) : Host.Outcome State Fault Refusal :=
  .next (s.blockCompletes p (tailBlock Command.assignBooth.code b))

/-- RELEASE_BOOTH (R115, R150 to R152): a block with this command code completes at the port. -/
def execReleaseBooth (p : PortNo) (b : Tail) (s : State) : Host.Outcome State Fault Refusal :=
  .next (s.blockCompletes p (tailBlock Command.releaseBooth.code b))

/-- WRITE_PORT_ROLES (R171, R150 to R152): a block with this command code completes at the port. -/
def execWritePortRoles (p : PortNo) (b : Tail) (s : State) : Host.Outcome State Fault Refusal :=
  .next (s.blockCompletes p (tailBlock Command.writePortRoles.code b))

/-- STORE_SETTINGS (R172, R150 to R152): a block with this command code completes at the port. -/
def execStoreSettings (p : PortNo) (b : Tail) (s : State) : Host.Outcome State Fault Refusal :=
  .next (s.blockCompletes p (tailBlock Command.storeSettings.code b))

/-- RESET_UNIT (R175, R150 to R152): a block with this command code completes at the port. -/
def execResetUnit (p : PortNo) (b : Tail) (s : State) : Host.Outcome State Fault Refusal :=
  .next (s.blockCompletes p (tailBlock Command.resetUnit.code b))

/-- UNKNOWN_COMMAND (R151, test 6): the tests find that the code is no command. -/
def execUnknownCommand (p : PortNo) (code : Byte) (b : Tail) (s : State) : Host.Outcome State Fault Refusal :=
  .next (s.blockCompletes p (tailBlock code b))

/-- OVERLAPPED_BLOCK (R150): a block completes, and the transaction state discards it while ANSWERING. -/
def execOverlappedBlock (p : PortNo) (code : Byte) (b : Tail) (s : State) : Host.Outcome State Fault Refusal :=
  .next (s.blockCompletes p (tailBlock code b))

/-- BLOCK_GAP_TIMEOUT (R149). -/
def execBlockGapTimeout (p : PortNo) (s : State) : Host.Outcome State Fault Refusal :=
  .next (s.gapAbandons p)

/-- REPLY_SENT (R150, R175). -/
def execReplySent (p : PortNo) (s : State) : Host.Outcome State Fault Refusal :=
  .next (s.replyEnds p)

/-- CONTROL_BYTE_RECEIVED (R147, R148). -/
def execControlByteReceived (p : PortNo) (byte : Byte) (noStop : Bool) (s : State) : Host.Outcome State Fault Refusal :=
  .next (s.byteArrives p byte noStop)

/-- BAD_LENGTH_BLOCK (R151, test 5). -/
def execBadLengthBlock (p : PortNo) (check : Byte) (damaged : Bool) (s : State) : Host.Outcome State Fault Refusal :=
  .next (s.blockCompletes p (Block.ofBytes [] check damaged))

end Sys2Proof.Machine
end

