-- ==== Sys2Proof/Machine/UnitEvents.lean ====
section
/-!
DEFINITION. The meanings of the events of the unit as a whole, one definition per row of the table.
-/
namespace Sys2Proof.Machine

/-- UNIT_RESTART (R168, R174). -/
def execUnitRestart (cause : RestartCause) (storeWrites : Nat) (s : State) : Host.Outcome State Fault Refusal :=
  .next (s.restart cause storeWrites)

/-- START_UP_COMPLETE (R165 to R170). -/
def execStartUpComplete (memory : MemoryAnswer) (s : State) : Host.Outcome State Fault Refusal :=
  .next (s.startUp memory)

/-- STORE_COMPLETE (R173). -/
def execStoreComplete (memory : StoreMemory) (s : State) : Host.Outcome State Fault Refusal :=
  .next (s.storeDone memory)

end Sys2Proof.Machine
end

