-- ==== Sys2Proof/Machine/Dispatch.lean ====
section
/-!
DEFINITION. exec: one arm per row of spec/opcode_table.json, each a direct call of the row's meaning.
-/
namespace Sys2Proof.Machine

def exec (i : Instr) (s : State) : Host.Outcome State Fault Refusal :=
  match i with
  | .programmeFrameArrival c frame gap => Sys2Proof.Machine.execProgrammeFrameArrival c frame gap s
  | .invalidFrameArrival c => Sys2Proof.Machine.execInvalidFrameArrival c s
  | .lockLossTimeout c => Sys2Proof.Machine.execLockLossTimeout c s
  | .freeRunFrameStart c => Sys2Proof.Machine.execFreeRunFrameStart c s
  | .bypassBlackFrame c => Sys2Proof.Machine.execBypassBlackFrame c s
  | .linkFrameEnd slots => Sys2Proof.Machine.execLinkFrameEnd slots s
  | .linkGapTimeout slots => Sys2Proof.Machine.execLinkGapTimeout slots s
  | .linkNewFrameStart slots => Sys2Proof.Machine.execLinkNewFrameStart slots s
  | .linkSilenceTimeout => Sys2Proof.Machine.execLinkSilenceTimeout s
  | .identify p b => Sys2Proof.Machine.execIdentify p b s
  | .readSense p b => Sys2Proof.Machine.execReadSense p b s
  | .readNotices p b => Sys2Proof.Machine.execReadNotices p b s
  | .setNoticeMask p b => Sys2Proof.Machine.execSetNoticeMask p b s
  | .channelState p b => Sys2Proof.Machine.execChannelState p b s
  | .addCues p b => Sys2Proof.Machine.execAddCues p b s
  | .dropCue p b => Sys2Proof.Machine.execDropCue p b s
  | .flushCues p b => Sys2Proof.Machine.execFlushCues p b s
  | .listCues p b => Sys2Proof.Machine.execListCues p b s
  | .findCue p b => Sys2Proof.Machine.execFindCue p b s
  | .takeNow p b => Sys2Proof.Machine.execTakeNow p b s
  | .readOutcomes p b => Sys2Proof.Machine.execReadOutcomes p b s
  | .setLateLimit p b => Sys2Proof.Machine.execSetLateLimit p b s
  | .setLossMode p b => Sys2Proof.Machine.execSetLossMode p b s
  | .clearChannel p b => Sys2Proof.Machine.execClearChannel p b s
  | .setDelay p b => Sys2Proof.Machine.execSetDelay p b s
  | .setSlew p b => Sys2Proof.Machine.execSetSlew p b s
  | .writeBooth p b => Sys2Proof.Machine.execWriteBooth p b s
  | .readBooth p b => Sys2Proof.Machine.execReadBooth p b s
  | .setSlotMask p b => Sys2Proof.Machine.execSetSlotMask p b s
  | .boothState p b => Sys2Proof.Machine.execBoothState p b s
  | .writeProfile p b => Sys2Proof.Machine.execWriteProfile p b s
  | .readProfile p b => Sys2Proof.Machine.execReadProfile p b s
  | .assignBooth p b => Sys2Proof.Machine.execAssignBooth p b s
  | .releaseBooth p b => Sys2Proof.Machine.execReleaseBooth p b s
  | .writePortRoles p b => Sys2Proof.Machine.execWritePortRoles p b s
  | .storeSettings p b => Sys2Proof.Machine.execStoreSettings p b s
  | .resetUnit p b => Sys2Proof.Machine.execResetUnit p b s
  | .unknownCommand p code b => Sys2Proof.Machine.execUnknownCommand p code b s
  | .overlappedBlock p code b => Sys2Proof.Machine.execOverlappedBlock p code b s
  | .blockGapTimeout p => Sys2Proof.Machine.execBlockGapTimeout p s
  | .replySent p => Sys2Proof.Machine.execReplySent p s
  | .unitRestart cause storeWrites => Sys2Proof.Machine.execUnitRestart cause storeWrites s
  | .startUpComplete memory => Sys2Proof.Machine.execStartUpComplete memory s
  | .storeComplete memory => Sys2Proof.Machine.execStoreComplete memory s
  | .controlByteReceived p byte noStop => Sys2Proof.Machine.execControlByteReceived p byte noStop s
  | .linkFrameBegin => Sys2Proof.Machine.execLinkFrameBegin s
  | .badLengthBlock p check damaged => Sys2Proof.Machine.execBadLengthBlock p check damaged s

end Sys2Proof.Machine
end

