-- ==== Sys2Proof/Safety.lean ====
section
/-!
DEFINITION. The terms statements about the part are made in: a port that serves a role, a block sent whole, a port that sends a
reply; and the laws of the device the chapters state, each a property of one state.
-/
namespace Sys2Proof.Machine

/-! ### Blocks and replies -/

/-- Command service has begun, the port is FREE, and its role in force is the one given. -/
abbrev State.Serves (s : State) (p : PortNo) (r : Role) : Prop :=
  s.loader.phase.isStarting = false ∧ (s.port p).trans = .free ∧ (s.port p).role = some r

/-- A block with this command code arrived with no framing fault, and its length byte, body and check byte sum to 0 (R151,
tests 3 and 4). -/
abbrev Intact (code : Byte) (b : Tail) : Prop := b.damaged = false ∧ (tailBlock code b).sum = 0

/-- The port back in SEEK with sense NONE, sending a reply without CHECK that carries the data given (R150 to R152). -/
def Port.sendGood (q : Port) (data : List Byte) (matched : Bool) : Port :=
  let q1 := { q with recv := .seek, sense := senseNone }
  { q1 with trans := .answering (some (framed (q1.status false matched :: data))) }

/-- The port back in SEEK with the sense record given, sending a reply that is its status byte alone (R151, R152). -/
def Port.sendCheck (q : Port) (e : Sense) (busy : Bool) : Port :=
  let q1 := { q with recv := .seek, sense := e }
  { q1 with trans := .answering (some (framed [q1.status busy false])) }

/-- The state with one port sending a reply without CHECK, and nothing else changed. -/
def State.sendGood (s : State) (p : PortNo) (data : List Byte) (matched : Bool := false) : State :=
  s.setPort p ((s.port p).sendGood data matched)

/-- The state with one port sending a refusal, and nothing else changed. -/
def State.sendCheck (s : State) (p : PortNo) (key : SenseKey) (code : SenseCode) (info : Option Nat) (busy : Bool := false) :
    State :=
  s.setPort p ((s.port p).sendCheck (senseOf key code info) busy)

/-- The state refusing a block at one port with CHECK ILLEGAL, OUT OF RANGE and an index. -/
def State.sendIllegal (s : State) (p : PortNo) (index : Nat) : State := s.sendCheck p .illegal .outOfRange (some index)

/-- The bytes received one after another at a port, each with whether its stop bit was absent. -/
def receiveBytes (p : PortNo) (bytes : List (Byte × Bool)) (s : State) : Host.Outcome State Fault Refusal :=
  match bytes with
  | [] => .next s
  | x :: rest =>
    match exec (.controlByteReceived p x.1 x.2) s with
    | .next t => receiveBytes p rest t
    | .fault r => .fault r
    | .refused r => .refused r

/-! ### Received records, byte k of the record being `n k` (section 10.3) -/

/-- The number in two bytes of a record, most significant byte first (R176). -/
def word (n : Nat → Nat) (k : Nat) : Nat := 256 * n k + n (k + 1)

/-- The test at this position is the first that fails. -/
abbrev FirstFails (tests : List Bool) (k : Nat) : Prop := tests[k]? = some false ∧ ∀ j, j < k → tests[j]? = some true

/-- The ranges of a booth record's ten fields, in order (table of section 2.2, R26). -/
def boothRanges (n : Nat → Nat) : List Bool :=
  [n 0 ≤ 7 ∨ n 0 = 255, n 1 = 8 ∨ n 1 = 10, 64 ≤ word n 2 ∧ word n 2 ≤ 960, 64 ≤ word n 4 ∧ word n 4 ≤ 960, word n 6 ≤ 1022,
   word n 6 < word n 8 ∧ word n 8 ≤ 1023, word n 10 ≤ 959, word n 12 ≤ 539, 1 ≤ n 14 ∧ n 14 ≤ 50, 1 ≤ n 15 ∧ n 15 ≤ 15]

/-- The booth record sixteen bytes in range stand for. -/
def boothOfRecord (n : Nat → Nat) : BoothRecord :=
  { slot := if n 0 = 255 then none else some (Fin.ofNat 8 (n 0)), width := if n 1 = 8 then .w8 else .w10, cb0 := word n 2,
    cr0 := word n 4, rIn := word n 6, rOut := word n 8, cx := word n 10, cy := word n 12, hold := n 14, recovery := n 15 }

/-- The ranges of a profile record's sixteen fields but the defined flag, in order; a position beyond the count is not tested
(table of section 4.1, R59). -/
def profileRanges (n : Nat → Nat) : List Bool :=
  [96 ≤ word n 0 ∧ word n 0 ≤ 960, 96 ≤ word n 2 ∧ word n 2 ≤ 528, 1 ≤ n 4 ∧ n 4 ≤ 4, n 5 = 0 ∨ n 4 < n 5 ∧ n 5 ≤ 4,
   1 ≤ n 6 ∧ n 6 ≤ 4, 1 ≤ n 6 → word n 7 ≤ 1919, 1 ≤ n 6 → word n 9 ≤ 1079, 2 ≤ n 6 → word n 11 ≤ 1919,
   2 ≤ n 6 → word n 13 ≤ 1079, 3 ≤ n 6 → word n 15 ≤ 1919, 3 ≤ n 6 → word n 17 ≤ 1079, 4 ≤ n 6 → word n 19 ≤ 1919,
   4 ≤ n 6 → word n 21 ≤ 1079, n 23 ≤ 15, n 24 ≤ 250, n 25 ≤ 100]

/-- The profile record twenty-seven bytes in range stand for, its crop rounded down to multiples of 24 (R60), with the defined
flag given. -/
def profileOfRecord (n : Nat → Nat) (defined : Bool) : Profile :=
  { cw := word n 0 / 24 * 24, ch := word n 2 / 24 * 24, fp := n 4, ff := if n 5 = 0 then none else some (n 5)
    positions := [(word n 7, word n 9), (word n 11, word n 13), (word n 15, word n 17), (word n 19, word n 21)].take (n 6)
    edge := n 23, fade := n 24, move := n 25, defined := defined }

/-- The window of six bytes: x and w, then y and h, twelve bits each (section 10.3, Zone window). -/
def windowOfRecord (n : Nat → Nat) : Window :=
  { x := 16 * n 0 + n 1 / 16, y := 16 * n 3 + n 4 / 16, w := 256 * (n 1 % 16) + n 2, h := 256 * (n 4 % 16) + n 5 }

/-- The ranges of an action's eight fields, which are fields 6 to 13 of a cue record and parameters 1 to 8 of TAKE NOW (R122, R143):
action kind, parameter, window x, y, w and h, guard, fade override. -/
def actionRanges (n : Nat → Nat) : List Bool :=
  let v := windowOfRecord (fun k => n (2 + k))
  [n 0 ≤ 6, (n 0 = 2 → n 1 ≤ 15) ∧ (n 0 = 3 ∨ n 0 = 4 → n 1 ≤ 5) ∧ (n 0 = 5 → n 1 ≤ 150), n 0 = 3 → v.x ≤ 1919,
   n 0 = 3 → v.y ≤ 1079, n 0 = 3 → 1 ≤ v.w ∧ v.w ≤ 1920, n 0 = 3 → 1 ≤ v.h ∧ v.h ≤ 1080, n 8 ≤ 6,
   n 9 = 255 ∨ n 0 ≤ 1 ∧ n 9 ≤ 250]

/-- The ranges of a cue record's thirteen fields (R122). -/
def cueRanges (r : Rate) (n : Nat → Nat) : List Bool :=
  ([1 ≤ word n 0 ∧ word n 0 ≤ 65535, n 2 ≤ 23, n 3 ≤ 59, n 4 ≤ 59, n 5 ≤ r.fps - 1] : List Bool) ++
    actionRanges (fun k => n (6 + k))

/-- The guards in the order of their numbers (R179). -/
def guardList : List Guard := [.always, .feedUsable, .feedNotUsable, .assigned, .visible, .notVisible, .noConflict]

/-- The roles in the order of their numbers (R179). -/
def roleList : List Role := [.channel 0, .channel 1, .channel 2, .channel 3, .studio, .monitor, .idle]

/-- A memory whose bytes make it invalid: its marker, version, body length, profile count or sum does not check (R165, R180). -/
abbrev BadImage (byte : Nat → Nat) : Prop :=
  word byte 0 ≠ 0x6B47 ∨ word byte 2 ≠ 1 ∨ word byte 4 = 0 ∨ 4096 < 8 + word byte 4 ∨ word byte 4 < 125 + 28 * byte 112 ∨
    16 < byte 112 ∨ word byte 6 ≠ ((List.range (word byte 4)).map (fun i => byte (8 + i))).sum % 65536

/-- The bytes a start-up reads: those the memory was left with, or those of an image prepared outside the part. -/
def startBytes (s : State) : MemoryAnswer → Option (Nat → Nat)
  | .unreadable => none
  | .held => some (fun a => (memRead s.memory a).toNat)
  | .prepared image => some (fun a => natAt image a)

/-! ### Notices raised (section 8.5) -/

/-- The notices of a change to booths: at each port entitled, BOOTH for each booth whose health differs, and FEED for each channel
whose assigned booth moved between the usable and the unusable healths; no other notice (R36, R156, R157). -/
structure State.TellsBooths (s t : State) : Prop where
  kinds : ∀ p : PortNo, (t.port p).pending = { (s.port p).pending with
    booth := (t.port p).pending.booth, feed := (t.port p).pending.feed }
  booth : ∀ (p : PortNo) (b : BoothNo), (t.port p).pending.booth.getLsbD b =
    ((s.port p).pending.booth.getLsbD b ||
      ((s.port p).role.any (fun r => r.hears (.booth b)) && decide ((t.booth b).health ≠ (s.booth b).health)))
  feed : ∀ (p : PortNo) (c : ChanNo), (t.port p).pending.feed.getLsbD c =
    ((s.port p).pending.feed.getLsbD c ||
      ((s.port p).role.any (fun r => r.hears (.feed c)) && (s.chan c).assign.assigned.any (fun b =>
        decide ((t.booth b).health = .live ∨ (t.booth b).health = .held) !=
          decide ((s.booth b).health = .live ∨ (s.booth b).health = .held))))

/-- The notices of a change of grants: at each port entitled, DELAY for each channel whose grant differs; no other notice (R16, R156,
R157). -/
structure State.TellsDelays (s t : State) : Prop where
  kinds : ∀ p : PortNo, (t.port p).pending = { (s.port p).pending with delay := (t.port p).pending.delay }
  delay : ∀ (p : PortNo) (c : ChanNo), (t.port p).pending.delay.getLsbD c =
    ((s.port p).pending.delay.getLsbD c ||
      ((s.port p).role.any (fun r => r.hears (.delay c)) && decide ((t.chan c).pool.granted ≠ (s.chan c).pool.granted)))

/-! ### The programme path (chapter 1) -/

/-- What a frame start does to the delay line, the output frame, T and the slew counter, from the granted delay and the entering
frame, spelled out case by case (R7, R9, R10, R11). -/
structure Path.Outputs (p : Path) (granted : Nat) (e : Frame) (q : Path) : Prop where
  /-- No step with A = G, or at the frame start that ends bypass: the oldest frame leaves, and the counter is 0. -/
  level : p.bypass = true ∨ p.line.length = granted →
    q.line = (p.line ++ [e]).tail ∧ q.lastOut = (p.line ++ [e]).head? ∧ q.slewCounter = 0
  /-- No step before the counter reaches the interval. -/
  wait : p.bypass = false → p.line.length ≠ granted → p.slewCounter + 1 < p.slewInterval →
    q.line = (p.line ++ [e]).tail ∧ q.lastOut = (p.line ++ [e]).head? ∧ q.slewCounter = p.slewCounter + 1
  /-- A repeat: no frame leaves, and the last output frame is sent again with silent audio. -/
  rep : p.bypass = false → p.line.length < granted → p.slewInterval ≤ p.slewCounter + 1 →
    q.line = p.line ++ [e] ∧ q.slewCounter = 0 ∧ ∀ o, p.lastOut = some o → q.lastOut = some { o with audio := .silent }
  /-- A drop: the oldest frame is discarded, and the next is the output frame. -/
  drop : p.bypass = false → granted < p.line.length → p.slewInterval ≤ p.slewCounter + 1 →
    q.line = (p.line ++ [e]).tail.tail ∧ q.slewCounter = 0 ∧ q.lastOut = (p.line ++ [e]).tail.head?
  /-- T is the timecode stored with the output frame, and bypass has ended (R6, R8). -/
  out : q.bypass = false ∧ ∃ o, q.lastOut = some o ∧ q.outTc = o.tc

/-- The frame that enters a delay line, from the timecode read with it, and what the reading leaves in the path: a valid timecode
is taken as read and clears the flywheel flag; else the last timecode plus one, or 0, is supplied and the flag is set (R4, R5). -/
structure Path.Stamps (p : Path) (r : Rate) (t : Option Timecode) (e : Frame) (q : Path) : Prop where
  valid : ∀ x, t = some x → tcValid r x = true → e.tc = tcToFrame r x ∧ q.flywheel = false
  supplied : (∀ x, t = some x → tcValid r x = false) →
    (∀ l, p.lastTc = some l → e.tc = (l + 1) % r.day) ∧ (p.lastTc = none → e.tc = 0) ∧ q.flywheel = true
  last : q.lastTc = some e.tc

/-- What enters the delay line at a frame start of an UNLOCKED input: black, silent, with no timecode of its own (R3). -/
def blackInput : InputFrame := { picture := blackPicture, audio := .silent, timecode := none }

/-- The steps that are a frame start of a channel once start-up has completed, with the frame that enters: the arrival of a valid
frame at an input that is LOCKED or that the arrival locks, the expiry of an UNLOCKED channel's 1/F interval, and the passing of
one and a half periods at a LOCKED input (R1, R2). -/
inductive FrameStarts (s : State) (c : ChanNo) : Instr → InputFrame → Prop where
  | arrival (f : InputFrame) (gap : Nat) (serving : s.loader.phase.isStarting = false)
      (locks : (s.chan c).path.locked = true ∨ (s.chan c).path.prevValid = true ∧ 950 ≤ gap ∧ gap ≤ 1050) :
      FrameStarts s c (.programmeFrameArrival c f gap) f
  | freeRun (serving : s.loader.phase.isStarting = false) (unlocked : (s.chan c).path.locked = false) :
      FrameStarts s c (.freeRunFrameStart c) blackInput
  | timeout (serving : s.loader.phase.isStarting = false) (locked : (s.chan c).path.locked = true)
      (ended : (s.chan c).path.bypass = false) : FrameStarts s c (.lockLossTimeout c) blackInput

/-- What a frame start of a channel, or a change of its delay target, can touch: anything of its own channel, the grants and
clamped flags of the others, and the pending notices (R2, R15, R156). -/
structure State.Moves (s : State) (c : ChanNo) (t : State) : Prop where
  rate : t.rate = s.rate
  booths : t.booths = s.booths
  slotMask : t.slotMask = s.slotMask
  linkInFrame : t.linkInFrame = s.linkInFrame
  profiles : t.profiles = s.profiles
  loader : t.loader = s.loader
  memory : t.memory = s.memory
  pending : t.pending = s.pending
  ports : ∀ p, t.port p = { s.port p with pending := (t.port p).pending }
  others : ∀ d, d ≠ c → t.chan d = { s.chan d with
    pool := { (s.chan d).pool with granted := (t.chan d).pool.granted, clamped := (t.chan d).pool.clamped } }

/-! ### The frame pool (chapter 1) -/

/-- An action that sets a delay target sets one of 0 to 150 (R18). -/
def Action.delayOk : Action → Bool
  | .setDelay d => decide (d ≤ Config.maxTarget)
  | .setZone _ _ => true
  | .presenterOn => true
  | .presenterOff => true
  | .selectProfile _ => true
  | .clearZone _ => true
  | .mark => true

/-- The laws of the frame pool (R13): the reservations sum to at most 480, no grant exceeds its target, no target exceeds 150;
and no cue that waits will set a greater one (R18). -/
abbrev State.PoolLaws (s : State) : Prop :=
  s.reserved ≤ Config.poolFrames ∧
  ∀ c : ChanNo, (s.chan c).pool.granted ≤ (s.chan c).pool.target ∧ (s.chan c).pool.target ≤ Config.maxTarget ∧
    ∀ q ∈ (s.chan c).sched.cues, q.action.delayOk = true

/-- The clamped flags say which grants are below their targets, and no clamped channel could be granted a frame more (R14, R15). -/
abbrev State.PoolSettled (s : State) : Prop :=
  ∀ c : ChanNo, (s.chan c).pool.clamped = decide ((s.chan c).pool.granted < (s.chan c).pool.target) ∧
    ((s.chan c).pool.clamped = true → s.grantFor c (s.chan c).pool.target ≤ (s.chan c).pool.granted)

/-- The pools where one channel's path and pool alone changed: with the re-evaluation pass made when its reservation fell, and else
as they are (R15). -/
def State.poolsAfter (s : State) (c : ChanNo) (line : Nat) (pool : Pool) (s' : State) (e : ChanNo) : Pool :=
  if max pool.granted line < (s.chan c).reservation then (s'.poolPass.chan e).pool else (s'.chan e).pool

/-- What setting a channel's delay target leaves: the channel's pool, the grants of the others after the pass a fallen reservation
brings, and the DELAY notices (R14, R15, R16). -/
structure State.SetsTarget (s : State) (c : ChanNo) (d : Nat) (t : State) : Prop where
  own : t.chan c = { s.chan c with pool := {
    target := d
    granted := min d (480 - (s.reserved - (s.chan c).reservation))
    clamped := decide (min d (480 - (s.reserved - (s.chan c).reservation)) < d) } }
  others : ∀ e, e ≠ c → t.chan e = { s.chan e with
    pool := s.poolsAfter c (s.chan c).actual (t.chan c).pool (s.setPool c (t.chan c).pool) e }
  rises : ∀ e, e ≠ c → (s.chan e).pool.granted ≤ (t.chan e).pool.granted ∧
    ((s.chan e).pool.clamped = false → (t.chan e).pool = (s.chan e).pool)
  tells : s.TellsDelays t

/-! ### The booth store (chapter 2) -/

/-- Every sample of a plane lies between two bounds. -/
def planeWithin (lo hi : Nat) (p : Plane) : Bool :=
  decide (lo ≤ p.fill ∧ p.fill ≤ hi) && p.cells.all (fun x => decide (lo ≤ x.2 ∧ x.2 ≤ hi))

/-- Every sample of a picture lies in the legal range (00_scope.md, Pictures and samples). -/
def pictureLegal (p : Picture) : Bool :=
  planeWithin Config.legalLow Config.legalLuma p.y && planeWithin Config.legalLow Config.legalChroma p.cb &&
    planeWithin Config.legalLow Config.legalChroma p.cr

/-- The counts and pictures that go with a booth's health (R30, R32, R33; section 2.4). -/
def Booth.healthLaw (b : Booth) : Bool :=
  match b.health with
  | .absent => b.ready.isNone && b.candidate.isNone && b.missed == 0 && b.good == 0 && b.seq == 0
  | .live => b.ready.isSome && b.candidate.isNone && b.missed == 0 && b.good == 0
  | .held => b.ready.isSome && b.candidate.isNone && decide (1 ≤ b.missed ∧ b.missed < b.record.hold) && b.good == 0
  | .lost => b.ready.isSome && (b.candidate.isSome == (b.good != 0)) && b.missed == b.record.hold &&
      decide (b.good < b.record.recovery)

/-- The fields of a booth record lie in the ranges of section 2.2. -/
def BoothRecord.inRange (r : BoothRecord) : Bool :=
  decide (64 ≤ r.cb0 ∧ r.cb0 ≤ 960 ∧ 64 ≤ r.cr0 ∧ r.cr0 ≤ 960 ∧ r.rIn ≤ 1022 ∧ r.rIn + 1 ≤ r.rOut ∧ r.rOut ≤ 1023 ∧
    r.cx ≤ 959 ∧ r.cy ≤ 539 ∧ 1 ≤ r.hold ∧ r.hold ≤ 50 ∧ 1 ≤ r.recovery ∧ r.recovery ≤ 15)

/-- The laws of one booth: its counts and pictures go with its health, its pictures are legal, its record is in range, and it is
ABSENT while it has no slot or its slot is masked (R29, R30, R32, R35). -/
def Booth.laws (mask : BitVec 8) (b : Booth) : Bool :=
  b.healthLaw && b.ready.all pictureLegal && b.candidate.all pictureLegal && decide (b.seq < 65536) &&
  b.record.inRange &&
  (match b.record.slot with
   | none => b.health == .absent
   | some n => mask.getLsbD n || b.health == .absent)

/-- The laws of the booth store: each booth's, and no two booths mapped to one slot (R26). -/
abbrev State.BoothLaws (s : State) : Prop :=
  (∀ b : BoothNo, (s.booth b).laws s.slotMask = true) ∧
  ∀ b o : BoothNo, b ≠ o → (s.booth b).record.slot.isSome = true → (s.booth b).record.slot ≠ (s.booth o).record.slot

/-- The steps that end a link frame once start-up has completed, with the slots received in full: the end of a whole frame, a gap
in a frame, the start of a new frame inside one, and a silent link's substitute, at which every slot carries no picture (R21, R23). -/
inductive LinkEnds (s : State) : Instr → List SlotRx → Prop where
  | whole (slots : List SlotRx) (serving : s.loader.phase.isStarting = false) : LinkEnds s (.linkFrameEnd slots) slots
  | gap (slots : List SlotRx) (serving : s.loader.phase.isStarting = false) (inside : s.linkInFrame = true) :
      LinkEnds s (.linkGapTimeout slots) slots
  | cutShort (slots : List SlotRx) (serving : s.loader.phase.isStarting = false) (inside : s.linkInFrame = true) :
      LinkEnds s (.linkNewFrameStart slots) slots
  | silence (serving : s.loader.phase.isStarting = false) (outside : s.linkInFrame = false) :
      LinkEnds s .linkSilenceTimeout (List.replicate 8 silentSlot)

/-- A landed picture promoted to READY: the booth is LIVE, its counts 0, its candidate gone, its sequence number one more mod 65536
(R30, R32, R33). -/
abbrev Booth.promotes (b : Booth) (pic : Picture) (b' : Booth) : Prop :=
  b'.health = .live ∧ b'.ready = some pic ∧ b'.seq = (b.seq + 1) % 65536 ∧ b'.missed = 0 ∧ b'.good = 0 ∧ b'.candidate = none

/-- The READY picture and its sequence number are kept. -/
abbrev Booth.keepsReady (b b' : Booth) : Prop := b'.ready = b.ready ∧ b'.seq = b.seq

/-- A slot result applied to a booth, case by case as the table of section 2.4 and R32 and R33 give it. -/
structure Booth.Takes (b : Booth) (r : SlotResult) (pic : Picture) (b' : Booth) : Prop where
  last : b'.last = r ∧ b'.record = b.record
  masked : r = .masked → b' = { b with last := .masked }
  good : r = .good → b.health ≠ .lost → b.promotes pic b'
  goodLost : r = .good → b.health = .lost →
    if b.good + 1 ≥ b.record.recovery then b.promotes pic b'
    else b'.health = .lost ∧ b.keepsReady b' ∧ b'.good = b.good + 1 ∧ b'.candidate = some pic ∧ b'.missed = b.missed
  missAbsent : r = .empty ∨ r = .damaged → b.health = .absent → b' = { b with last := r }
  missLive : r = .empty ∨ r = .damaged → b.health = .live →
    b.keepsReady b' ∧ b'.missed = 1 ∧ b'.health = (if b.record.hold ≤ 1 then .lost else .held) ∧ b'.good = 0
  missHeld : r = .empty ∨ r = .damaged → b.health = .held →
    b.keepsReady b' ∧ b'.missed = b.missed + 1 ∧
    (if b.missed + 1 ≥ b.record.hold then b'.health = .lost ∧ b'.good = 0 else b'.health = .held ∧ b'.good = b.good)
  missLost : r = .empty ∨ r = .damaged → b.health = .lost →
    b'.health = .lost ∧ b.keepsReady b' ∧ b'.good = 0 ∧ b'.candidate = none ∧ b'.missed = b.missed

/-! ### Layout (chapter 4) -/

/-- The fields of a profile record lie in the ranges of section 4.1. -/
def Profile.inRange (p : Profile) : Bool :=
  decide (96 ≤ p.cw ∧ p.cw ≤ 960 ∧ p.cw % 24 = 0 ∧ 96 ≤ p.ch ∧ p.ch ≤ 528 ∧ p.ch % 24 = 0) &&
  decide (1 ≤ p.fp ∧ p.fp ≤ 4) && p.ff.all (fun f => decide (p.fp < f ∧ f ≤ 4)) &&
  decide (1 ≤ p.positions.length ∧ p.positions.length ≤ 4) &&
  p.positions.all (fun q => decide (q.1 ≤ 1919 ∧ q.2 ≤ 1079)) &&
  decide (p.edge ≤ 15 ∧ p.fade ≤ 250 ∧ p.move ≤ 100)

/-- A window whose width and height were trimmed to the picture (section 4.2). -/
def Window.inPicture (w : Window) : Bool := decide (w.x + w.w ≤ Config.picWidth ∧ w.y + w.h ≤ Config.picHeight)

/-- A factor of a placement. -/
def factorOk (f : Nat) : Bool := decide (1 ≤ f ∧ f ≤ 4)

/-- An action that sets a zone names a window that begins within the picture (section 4.2). -/
def Action.zoneOk : Action → Bool
  | .setZone _ w => decide (w.x ≤ 1919 ∧ w.y ≤ 1079)
  | .setDelay _ => true
  | .presenterOn => true
  | .presenterOff => true
  | .selectProfile _ => true
  | .clearZone _ => true
  | .mark => true

/-- The laws of a placement unit: factors 1 to 4, zones within the picture, a move that still has steps to take. -/
def Place.laws (pl : Place) : Bool :=
  factorOk pl.chosen.f && factorOk pl.shown.f && pl.zones.toList.all (·.window.inPicture) &&
  pl.move.all (fun m => factorOk m.origin.f && factorOk m.target.f && decide (m.i < m.n))

/-- The laws of the profile library and the placement units (R57, section 4.1, section 4.2). -/
abbrev State.LayoutLaws (s : State) : Prop :=
  (s.profile 0).defined = true ∧ (∀ n : ProfNo, (s.profile n).inRange = true) ∧
  ∀ c : ChanNo, (s.chan c).place.laws = true ∧ ∀ q ∈ (s.chan c).sched.cues, q.action.zoneOk = true

/-- A box lies wholly within the programme picture, at an even column (R40, R72). -/
abbrev Profile.boxInPicture (p : Profile) (q : Placement) : Prop :=
  q.x % 2 = 0 ∧ q.x + p.boxW q.f ≤ Config.picWidth ∧ q.y + p.boxH q.f ≤ Config.picHeight

/-- A position at a factor fitted to the picture for a profile's crop (R67, R72). -/
def Profile.fitted (p : Profile) (q : Placement) : Placement :=
  let x := min q.x (1920 - p.cw / q.f)
  { x := x - x % 2, y := min q.y (1080 - p.ch / q.f), f := q.f }

/-- The next step of a move as a placement unit shows it: the rounded share of the way with the factor in force, fitted, or at the
last step the target, fitted, with the record discarded (R71, R72). -/
structure Move.Steps (m : Move) (p : Profile) (q : Place) : Prop where
  on : m.i + 1 < m.n → q.move = some { m with i := m.i + 1 } ∧
    (let along := fun a b : Nat => ((a : Int) + (2 * ((b : Int) - a) * (m.i + 1 : Nat) + m.n) / (2 * m.n)).toNat
     let x := along m.origin.x m.target.x
     q.shown = p.fitted ⟨x - x % 2, along m.origin.y m.target.y, if m.i + 1 < (m.n + 1) / 2 then m.origin.f else m.target.f⟩)
  last : m.n ≤ m.i + 1 → q.move = none ∧ q.shown = p.fitted m.target

/-- What a placement step does to the move and the shown placement, case by case, from the choice it made, if it made one (R70,
R71, R73). -/
structure Place.Applies (pl : Place) (p : Profile) (visible : Bool) (choice : Option Placement) (q : Place) : Prop where
  jump : visible = false ∨ pl.visBefore = false → q.move = none ∧ q.shown = p.fitted (choice.getD pl.chosen)
  stay : visible = true → pl.visBefore = true → choice = none → pl.move = none → q.move = none ∧ q.shown = p.fitted pl.shown
  run : visible = true → pl.visBefore = true → ∀ m, pl.move = some m → choice = none ∨ choice = some m.target → m.Steps p q
  rest : visible = true → pl.visBefore = true → choice = some pl.shown → (∀ m, pl.move = some m → m.target ≠ pl.shown) →
    q.move = none ∧ q.shown = p.fitted pl.shown
  cut : visible = true → pl.visBefore = true → ∀ o, choice = some o → o ≠ pl.shown → (∀ m, pl.move = some m → m.target ≠ o) →
    p.move = 0 → q.move = none ∧ q.shown = p.fitted o
  start : visible = true → pl.visBefore = true → ∀ o, choice = some o → o ≠ pl.shown → (∀ m, pl.move = some m → m.target ≠ o) →
    0 < p.move → ({ origin := pl.shown, target := o, n := p.move, i := 0 } : Move).Steps p q

/-! ### Presenter and assignment (chapters 5 and 6) -/

/-- The level and the fade record that go with a presenter's state (R80, R86, R87). -/
def Presenter.stateLaw (p : Presenter) : Bool :=
  decide (p.g ≤ Config.whole) &&
  (match p.state with
   | .off => p.g == 0 && p.fade.isNone
   | .waitFeed => p.g == 0 && p.fade.isNone && p.intent
   | .on => p.g == Config.whole && p.fade.isNone
   | .rising => p.fade.any (fun f => f.rise && decide (f.g0 ≤ Config.whole ∧ f.i < f.m))
   | .falling => p.fade.any (fun f => !f.rise && decide (f.g0 ≤ Config.whole ∧ f.i < f.m)))

/-- The laws that bind one channel's presenter and its assignment: a visible presenter has an assigned booth, a pending release
finds it FALLING, and an incoming booth stands only beside another assigned booth under a visible presenter with no release
pending (R80, R81, R104). -/
def airLaw (p : Presenter) (a : Assign) : Bool :=
  p.stateLaw && (!p.state.visible || a.assigned.isSome) && (!a.releasePending || p.state == .falling) &&
  a.incoming.all (fun i => p.state.visible && !a.releasePending && a.assigned != some i.booth &&
    decide (i.nx ≤ 100 ∧ i.i ≤ i.nx ∧ i.h ≤ Config.whole))

/-- The laws of the presenters and the assignment map. -/
abbrev State.AirLaws (s : State) : Prop := ∀ c : ChanNo, airLaw (s.chan c).pres (s.chan c).assign = true

/-! ### Cue lists (chapter 7) -/

/-- The laws of the cue schedulers: at most 32 cues, each due within the day, with tags of 1 to 65535 that differ, in order of
offset from T; at most 16 outcomes, and outcomes lost only while the ring holds some; and no cue while start-up runs (R121, R123,
R138, R139, R146). -/
abbrev State.CueLaws (s : State) : Prop :=
  ∀ c : ChanNo,
    (s.chan c).sched.cues.length ≤ Config.listCapacity ∧
    (∀ q ∈ (s.chan c).sched.cues, 1 ≤ q.tag ∧ q.tag ≤ 65535 ∧ q.due < s.rate.day) ∧
    ((s.chan c).sched.cues.map (·.tag)).Nodup ∧
    (s.chan c).sched.cues.Pairwise (fun a b => s.offset c a ≤ s.offset c b) ∧
    (s.chan c).sched.ring.length ≤ Config.ringCapacity ∧
    ((s.chan c).sched.lost = true → (s.chan c).sched.ring ≠ []) ∧
    (s.loader.phase.isStarting = true → (s.chan c).sched.cues = [])

/-- The outcome records a dispatch writes at output timecode T: one for each due cue in order, MISSED past the late limit with a
lateness of at most 250, else DONE, SKIPPED or FAILED with the cue's lateness; then one for each stranded cue in order, MISSED with
lateness 0 (R130, R133, R137). -/
structure DispatchWrites (limit T : Nat) (late : Cue → Nat) (due stranded : List Cue) (out : List OutcomeRec) : Prop where
  count : out.length = due.length + stranded.length
  past : ∀ (k : Nat) (q : Cue), due[k]? = some q → limit < late q →
    out[k]? = some ⟨q.tag, .missed, T, min (late q) 250⟩
  inTime : ∀ (k : Nat) (q : Cue), due[k]? = some q → late q ≤ limit →
    ∃ o : OutcomeKind, o ≠ .missed ∧ out[k]? = some ⟨q.tag, o, T, late q⟩
  far : ∀ (k : Nat) (q : Cue), stranded[k]? = some q → out[due.length + k]? = some ⟨q.tag, .missed, T, 0⟩

/-! ### Control ports and loader (chapters 8 and 9) -/

/-- What the spec gives every block after a unit restart, whatever caused it (R168 and the starting values of each chapter). -/
abbrev State.AfterRestart (s : State) : Prop :=
  s.loader.phase = .starting ∧
  (∀ c : ChanNo,
    (let p := (s.chan c).path
     p.locked = false ∧ p.lastTc = none ∧ p.flywheel = false ∧ p.bypass = true ∧ p.line = [] ∧ p.lastOut = none ∧ p.outTc = 0 ∧
     p.slewCounter = 0) ∧
    (s.chan c).reservation = 0 ∧
    (let p := (s.chan c).pres
     p.state = .off ∧ p.intent = false ∧ p.g = 0 ∧ p.fade = none ∧ p.frozen = false) ∧
    (s.chan c).assign = { assigned := none, incoming := none, releasePending := false } ∧
    (let d := (s.chan c).sched
     d.cues = [] ∧ d.ring = [] ∧ d.lost = false) ∧
    (let l := (s.chan c).place
     l.move = none ∧ l.replace = false ∧ l.visBefore = false ∧
     ∀ z : ZoneNo, l.zones[z] = { active := false, window := ⟨0, 0, 0, 0⟩ })) ∧
  (∀ b : BoothNo,
    (s.booth b).health = .absent ∧ (s.booth b).ready = none ∧ (s.booth b).candidate = none ∧ (s.booth b).missed = 0 ∧
    (s.booth b).good = 0 ∧ (s.booth b).seq = 0 ∧ (s.booth b).last = .none) ∧
  ∀ p : PortNo,
    (s.port p).role = none ∧ (s.port p).recv = .seek ∧ (s.port p).trans = .free ∧ (s.port p).sense = senseNone ∧
    (s.port p).pending = noNotices ∧ (s.port p).enabled = 0xFF ∧ (s.port p).attention = false

/-- What holds while start-up runs: bypass is engaged on every path, with no frame held and none granted, and no port has a role or
a pending notice, all kinds being enabled (R6, R19, R168, R169). -/
abbrev State.StartingLaws (s : State) : Prop :=
  s.loader.phase = .starting →
    (∀ c : ChanNo, (s.chan c).path.bypass = true ∧ (s.chan c).path.line = [] ∧ (s.chan c).pool.granted = 0) ∧
    ∀ p : PortNo, (s.port p).role = none ∧ (s.port p).pending = noNotices ∧ (s.port p).enabled = 0xFF

/-- Standing settings that lie in the ranges the blocks keep: what a snapshot of the part can hold (R172; sections 2.2 and 4.1). -/
abbrev Settings.Storable (t : Settings) : Prop :=
  (∀ b : BoothNo, t.booths[b].inRange = true) ∧
  (∀ b o : BoothNo, b ≠ o → t.booths[b].slot.isSome = true → t.booths[b].slot ≠ t.booths[o].slot) ∧
  t.profiles[(0 : ProfNo)].defined = true ∧ (∀ n : ProfNo, t.profiles[n].inRange = true) ∧
  ∀ c : ChanNo, t.chans[c].target ≤ Config.maxTarget ∧ 1 ≤ t.chans[c].slew ∧ t.chans[c].slew ≤ 255 ∧
    t.chans[c].lateLimit ≤ Config.maxLateness

/-- The settings as a start-up finds them again: an undefined profile is not stored, and a channel whose profile is undefined falls
back to P0 (R58, R166, R172). -/
def Settings.asLoaded (t : Settings) : Settings :=
  { t with
    profiles := Vector.ofFn (fun n => if t.profiles[n].defined then t.profiles[n] else defaultProfile false)
    chans := Vector.ofFn (fun c => if t.profiles[t.chans[c].profile].defined then t.chans[c] else { t.chans[c] with profile := 0 }) }

/-- Two ports may have this role together (R167). -/
def Role.plural : Role → Bool
  | .channel _ => false
  | .studio => false
  | .monitor => true
  | .idle => true

/-- The laws of the ports: before start-up completes no port has a role or a pending notice, and after it every port has a role;
no two ports share a CHANNEL n or STUDIO; and while STORING the port that asked awaits its reply with its sense record NONE (R151,
R155, R167, R169, R174). -/
abbrev State.PortLaws (s : State) : Prop :=
  (∀ p : PortNo, if s.loader.phase.isStarting then (s.port p).role = none ∧ (s.port p).pending = noNotices
    else (s.port p).role.isSome = true) ∧
  (∀ p q : PortNo, p ≠ q → (s.port p).role = (s.port q).role → (s.port p).role.all Role.plural = true) ∧
  match s.loader.phase with
  | .storing p _ => (s.port p).role = some .studio ∧ (s.port p).trans = .answering none ∧ (s.port p).sense = senseNone
  | .starting => True
  | .serving => True

end Sys2Proof.Machine
end

