-- ==== Sys2Proof/WellFormed.lean ====
section
/-!
DEFINITION. Which operands a step can bring: what the programme inputs, the booth link, the serial lines and the
configuration memory can carry. The meanings do not read these checks; they hold of any operand.
-/
namespace Sys2Proof

/-- Addresses strictly rising from `lo`, each below `size`, and no listed sample equal to `fill` or wider than 10 bits. -/
def cellsOk (fill size : Nat) : Nat → List (Nat × Nat) → Bool
  | _, [] => true
  | lo, (a, v) :: t => decide (lo ≤ a ∧ a < size ∧ v < 1024 ∧ v ≠ fill) && cellsOk fill size (a + 1) t

/-- A plane of `size` 10-bit samples, each sample that differs from `fill` listed once. -/
def Plane.ok (size : Nat) (p : Plane) : Bool :=
  decide (p.fill < 1024) && cellsOk p.fill size 0 p.cells

/-- A 4:2:2 picture of `w` by `h` pixels. -/
def Picture.ok (w h : Nat) (p : Picture) : Bool :=
  p.y.ok (w * h) && p.cb.ok (w / 2 * h) && p.cr.ok (w / 2 * h)

/-- A slot of a link frame: one booth picture and a 16-bit check word (section 2.1). -/
def SlotRx.ok (s : SlotRx) : Bool :=
  s.raw.ok Config.boothWidth Config.boothHeight && decide (s.check < 65536)

/-- A block's length byte counts the code and the parameters, so at most 254 parameters follow a code (R148). -/
def Tail.ok (b : Tail) : Bool := decide (b.params.length ≤ 254)

/-- The operands of a step are ones the part can meet. -/
def Instr.wellFormed : Instr → Bool
  | .programmeFrameArrival _ f _ => f.picture.ok Config.picWidth Config.picHeight
  | .invalidFrameArrival _ => true
  | .lockLossTimeout _ => true
  | .freeRunFrameStart _ => true
  | .bypassBlackFrame _ => true
  | .linkFrameEnd slots => decide (slots.length = 8) && slots.all SlotRx.ok
  | .linkGapTimeout slots => decide (slots.length ≤ 7) && slots.all SlotRx.ok
  | .linkNewFrameStart slots => decide (slots.length ≤ 7) && slots.all SlotRx.ok
  | .linkSilenceTimeout => true
  | .identify _ b => b.ok
  | .readSense _ b => b.ok
  | .readNotices _ b => b.ok
  | .setNoticeMask _ b => b.ok
  | .channelState _ b => b.ok
  | .addCues _ b => b.ok
  | .dropCue _ b => b.ok
  | .flushCues _ b => b.ok
  | .listCues _ b => b.ok
  | .findCue _ b => b.ok
  | .takeNow _ b => b.ok
  | .readOutcomes _ b => b.ok
  | .setLateLimit _ b => b.ok
  | .setLossMode _ b => b.ok
  | .clearChannel _ b => b.ok
  | .setDelay _ b => b.ok
  | .setSlew _ b => b.ok
  | .writeBooth _ b => b.ok
  | .readBooth _ b => b.ok
  | .setSlotMask _ b => b.ok
  | .boothState _ b => b.ok
  | .writeProfile _ b => b.ok
  | .readProfile _ b => b.ok
  | .assignBooth _ b => b.ok
  | .releaseBooth _ b => b.ok
  | .writePortRoles _ b => b.ok
  | .storeSettings _ b => b.ok
  | .resetUnit _ b => b.ok
  | .unknownCommand _ code b => b.ok && (Command.ofCode code).isNone
  | .overlappedBlock _ _ b => b.ok
  | .blockGapTimeout _ => true
  | .replySent _ => true
  | .unitRestart _ _ => true
  | .startUpComplete m =>
    match m with
    | .unreadable => true
    | .held => true
    | .prepared image => decide (image.length ≤ Config.memoryBytes)
  | .storeComplete m => m.stuck.all (fun x => decide (x.1 < Config.memoryBytes))
  | .controlByteReceived _ _ _ => true
  | .linkFrameBegin => true
  | .badLengthBlock _ _ _ => true

end Sys2Proof
end

