-- ==== Sys2Proof/Certificates/Slice0/Obligations.lean ====
section
/-!
DEFINITION. The statements about the part, each a proposition for the provers. Their terms are those of Safety.lean.
-/
open Sys2Proof Sys2Proof.Machine

/-! ### The step, the restart and start-up (chapter 9) -/

/-- A step carries out the command at the front of the queue on the state with the queue's rest. On an empty queue the part idles,
which is the model's choice (notes/assumptions/1.md). -/
def Obligations.StepRunsFrontCommand : Prop :=
  (∀ (i : Instr) (rest : List Instr) (s : State), step { s with pending := i :: rest } = exec i { s with pending := rest }) ∧
  ∀ s : State, s.pending = [] → step s = .next s

/-- The state after power-on is the one the chapters give for a unit restart, with no roles pending and no grants at reset held
(R168), and the laws of the device hold in it. -/
def Obligations.LawsHoldAtReset : Prop :=
  State.reset.AfterRestart ∧ State.reset.loader.pendingRoles = none ∧ State.reset.loader.rolesPending = false ∧
    State.reset.loader.grantsAtReset = none ∧
    State.reset.PoolLaws ∧ State.reset.PoolSettled ∧ State.reset.BoothLaws ∧ State.reset.LayoutLaws ∧ State.reset.AirLaws ∧
    State.reset.CueLaws ∧ State.reset.PortLaws ∧ State.reset.StartingLaws ∧
    Memory.wf State.reset.memory = true

/-- UNIT_RESTART: every block takes its values for a unit restart. The configuration-defaulted flag is kept; the pending roles,
their flag and the grants at reset are kept across a restart that RESET UNIT asked for and cleared by any other; the memory is
kept where no store was in progress (R168). -/
def Obligations.UnitRestartStartsEveryBlockAfresh : Prop :=
  ∀ (cause : RestartCause) (w : Nat) (s : State), ∃ t, exec (.unitRestart cause w) s = .next t ∧ t.AfterRestart ∧
    t.loader.defaulted = s.loader.defaulted ∧
    (cause = .resetReply → t.loader.pendingRoles = s.loader.pendingRoles ∧ t.loader.rolesPending = s.loader.rolesPending ∧
      t.loader.grantsAtReset = s.loader.grantsAtReset) ∧
    (cause ≠ .resetReply → t.loader.pendingRoles = none ∧ t.loader.rolesPending = false ∧ t.loader.grantsAtReset = none) ∧
    ((∀ p k, s.loader.phase ≠ .storing p k) → t.memory = s.memory)

/-- START_UP_COMPLETE in a part that is STARTING, whatever its start-up has met: the settings take their places, the grants are
computed in ascending channel order, each placement is the first candidate of its profile, the resolved roles come into force with
every sense record NONE, and START is pending with the attention line asserted at every port, with a DELAY notice for each channel
whose grant is not the one RESET UNIT kept. The roles are the pending ones where RESET UNIT carried them across, else those of the
settings. What the chapters do not name is kept: each path's lock, last timecode and output, each port's reception and reply, and the
queue (R6, R19, R78, R166, R167, R169, R170). The memory is as it was, or the image where one was prepared outside the part; that such an
image replaces the contents whole, bytes beyond it reading as blank, is the model's choice (notes/assumptions/19.md), and so is that a last timecode stays the same frame number where the frame rate loaded
is another than before (34.md). -/
def Obligations.StartUpPutsSettingsInPlace : Prop :=
  ∀ (m : MemoryAnswer) (s : State), s.loader.phase = .starting → s.StartingLaws →
    let k := startSettings m s.memory
    ∃ (t : State) (roles : Vector Role 6), exec (.startUpComplete m) s = .next t ∧
      (∀ v, s.loader.rolesPending = true → s.loader.pendingRoles = some v → roles = resolveRoles v) ∧
      (s.loader.rolesPending = false ∨ s.loader.pendingRoles = none → roles = resolveRoles k.roles) ∧
      t = { s with rate := k.rate, slotMask := k.mask, profiles := k.profiles, linkInFrame := false
                   booths := t.booths, chans := t.chans, ports := t.ports, memory := t.memory
                   loader := { phase := .serving, pendingRoles := some roles, rolesPending := false,
                               defaulted := !memAnswerValid m s.memory, grantsAtReset := none, resetPort := none } } ∧
      (∀ b : BoothNo, t.booth b = { record := k.booths[b], health := .absent, ready := none, candidate := none, missed := 0, good := 0,
                                    seq := 0, last := .none, awaiting := false }) ∧
      (∀ c : ChanNo,
        (let x := s.chan c
         let d := k.chans[c]
         let g := (t.chan c).pool.granted
         t.chan c = { x with
           path := { x.path with slewInterval := d.slew }
           pool := { target := d.target, granted := g, clamped := decide (g < d.target) }
           pres := { x.pres with loss := d.loss }
           place := { x.place with
             profile := d.profile, chosen := (t.chan c).place.chosen, shown := (t.chan c).place.chosen, conflict := false }
           sched := { x.sched with lateLimit := d.lateLimit } }) ∧
        ∀ q, (t.currentProfile c).positions.head? = some q →
          (t.chan c).place.chosen = (t.currentProfile c).fitted ⟨q.1, q.2, (t.currentProfile c).fp⟩) ∧
      (let g := fun c : ChanNo => (t.chan c).pool.granted
       let d := fun c : ChanNo => k.chans[c].target
       g 0 = min (d 0) 480 ∧ g 1 = min (d 1) (480 - g 0) ∧ g 2 = min (d 2) (480 - (g 0 + g 1)) ∧
         g 3 = min (d 3) (480 - (g 0 + g 1 + g 2))) ∧
      (∀ p : PortNo, (t.port p).attention = true ∧
        t.port p = { s.port p with
          role := some roles[p], sense := senseNone
          pending := { noNotices with start := true, delay := (t.port p).pending.delay } } ∧
        ∀ c : ChanNo, (t.port p).pending.delay.getLsbD c = (roles[p].hears (.delay c) &&
          s.loader.grantsAtReset.any (fun v => v[c] != (t.chan c).pool.granted))) ∧
      (m = .unreadable ∨ m = .held → t.memory = s.memory) ∧
      ∀ image, m = .prepared image → ∀ a, a < 4096 → memRead t.memory a = image.getD a 0

/-- A memory that is unreadable, or whose marker, format version, length, profile count or sum does not check, whether it was left there
or prepared outside the part, makes a start-up take every default of the table of R166 and set the configuration-defaulted flag
(R165, R180). From one that checks, each item is loaded as stored, or takes its own fallback where it is out of range, and the flag
is clear: a booth record out of range takes the start values, and a slot that several records name stays with the lowest-numbered
booth (R25); a profile is the first entry of its number where that is in range, else the default record (R58); and each setting of a
channel has the fallback of R166. The roles of the memory come into force where RESET UNIT carried none across. That a booth record
out of range names no slot against another booth is notes/assumptions/32.md, and how an image prepared outside the part stands in the
memory is 19.md. -/
def Obligations.InvalidMemoryGivesEveryDefault : Prop :=
  ∀ (m : MemoryAnswer) (s : State), s.loader.phase = .starting →
    let defaultRole : Vector Role 6 := #v[.channel 0, .channel 1, .channel 2, .channel 3, .studio, .monitor]
    let boothStart : BoothRecord :=
      { slot := none, width := .w10, cb0 := 512, cr0 := 512, rIn := 0, rOut := 1, cx := 0, cy := 0, hold := 12, recovery := 3 }
    let profileStart : ProfNo → Profile := fun n =>
      { cw := 432, ch := 528, fp := 2, ff := some 3, positions := [(1656, 762), (48, 762)], edge := 2, fade := 12, move := 8,
        defined := n == 0 }
    ((∀ byte, startBytes s m = some byte → BadImage byte) →
      ∃ t, exec (.startUpComplete m) s = .next t ∧ t.loader.defaulted = true ∧ t.rate = .f25 ∧ t.slotMask = 0 ∧
        (s.loader.rolesPending = false → ∀ p : PortNo, (t.port p).role = some defaultRole[p]) ∧
        (∀ b : BoothNo, (t.booth b).record = boothStart) ∧
        (∀ n : ProfNo, t.profile n = profileStart n) ∧
        ∀ c : ChanNo, (t.chan c).pool.target = 0 ∧ (t.chan c).path.slewInterval = 5 ∧ (t.chan c).sched.lateLimit = 25 ∧
          (t.chan c).pres.loss = .holdFade ∧ (t.chan c).place.profile = 0) ∧
    ∀ byte, startBytes s m = some byte → ¬BadImage byte →
      let body := fun i => byte (8 + i)
      let stored := fun b : BoothNo => let n := fun i => body (8 + 16 * b + i)
        if (boothRanges n).all id then boothOfRecord n else boothStart
      let entry := fun j i => body (105 + 28 * j + i)
      let defaults := fun (c : ChanNo) i => body (105 + 28 * body 104 + 5 * c + i)
      ∃ (t : State) (roles : Vector Role 6), exec (.startUpComplete m) s = .next t ∧ t.loader.defaulted = false ∧
        t.rate = (if body 0 = 50 then .f50 else .f25) ∧ t.slotMask = BitVec.ofNat 8 (body 7) ∧
        (∀ p : PortNo, roles[p] = (roleList[body (1 + p)]?).getD defaultRole[p] ∧
          (s.loader.rolesPending = false → (t.port p).role = some (resolveRoles roles)[p])) ∧
        (∀ b : BoothNo, (t.booth b).record =
          if ∃ o : BoothNo, o < b ∧ (stored o).slot = (stored b).slot then { stored b with slot := none } else stored b) ∧
        (∀ n : ProfNo,
          ((∀ j, j < body 104 → entry j 0 ≠ n) → t.profile n = profileStart n) ∧
          ∀ j, j < body 104 → entry j 0 = n → (∀ i, i < j → entry i 0 ≠ n) →
            t.profile n = let r := fun i => entry j (1 + i)
              if (profileRanges r).all id then profileOfRecord r true else profileStart n) ∧
        ∀ c : ChanNo,
          (t.chan c).pool.target = (if defaults c 0 ≤ 150 then defaults c 0 else 0) ∧
          (t.chan c).path.slewInterval = (if defaults c 1 = 0 then 5 else defaults c 1) ∧
          (t.chan c).sched.lateLimit = (if defaults c 2 ≤ 250 then defaults c 2 else 25) ∧
          (t.chan c).pres.loss = (if defaults c 3 = 1 then .cut else if defaults c 3 = 2 then .freeze else .holdFade) ∧
          ((t.chan c).place.profile : Nat) =
            if ∃ n : ProfNo, defaults c 4 = n ∧ (t.profile n).defined = true then defaults c 4 else 0

/-- Duplicate roles are resolved so that the lowest-numbered port keeps a CHANNEL n or STUDIO that several ports have, each other
becomes IDLE, and MONITOR and IDLE may be had by any number of ports (R167). -/
def Obligations.LowestPortKeepsDuplicateRole : Prop :=
  ∀ (v : Vector Role 6) (p : PortNo),
    (v[p].plural = true → (resolveRoles v)[p] = v[p]) ∧
    (v[p].plural = false → (∀ q : PortNo, q < p → v[q] ≠ v[p]) → (resolveRoles v)[p] = v[p]) ∧
    (v[p].plural = false → (∃ q : PortNo, q < p ∧ v[q] = v[p]) → (resolveRoles v)[p] = .idle)

/-- A store that meets a memory that takes every byte succeeds: STORE SETTINGS is answered without CHECK, its sense record NONE, the part
is SERVING again, and the memory is valid and loads back, at the next start-up, exactly the settings of the snapshot, undefined
profiles aside (R172, R173, R180, section 10.5). The storing port's sense record is NONE from the acceptance of its block on, which
State.PortLaws holds. -/
def Obligations.StoredSettingsLoadBack : Prop :=
  ∀ (s : State) (p : PortNo) (k : Settings), s.loader.phase = .storing p k → (s.port p).sense = senseNone → k.Storable →
    Memory.wf s.memory = true →
    ∃ t, exec (.storeComplete ⟨none, []⟩) s = .next t ∧ t.loader = { s.loader with phase := .serving } ∧
      (t.port p).trans = .answering (some (framed [if (s.port p).attention then 8 else 0])) ∧ (t.port p).sense = senseNone ∧
      memoryValid t.memory = true ∧ loadBody (memBody t.memory) = k.asLoaded ∧
      t = { s with memory := t.memory, loader := t.loader, ports := t.ports } ∧ ∀ q, q ≠ p → t.port q = s.port q

/-- A store that fails is answered CHECK STORE_FAILED, VERIFY FAILED with the offset of the first byte that failed, and the part is
SERVING again. Where a byte of the body does not take the value written, or a byte write of the body is not answered, the header is
left not checking; where the memory does not answer a byte write of step 1, it is as the store found it; where it does not answer one
of step 4, the header stands as far as it was written, and is whole once the two bytes of the valid marker are there; and a header byte
that does not take its value fails at step 4 (R173). The order and the content of the byte writes are notes/assumptions/17.md and
18.md. -/
def Obligations.FailedStoreIsReported : Prop :=
  ∀ (s : State) (p : PortNo) (k : Settings), s.loader.phase = .storing p k → Memory.wf s.memory = true →
    let header := be16 0x6B47 ++ be16 1 ++ be16 k.body.length ++ be16 ((k.body.map BitVec.toNat).sum % 65536)
    let failed := fun (t : State) (o : Nat) => t.loader = { s.loader with phase := .serving } ∧
      (t.port p).sense = ⟨.storeFailed, .verifyFailed, some (BitVec.ofNat 32 o)⟩ ∧
      (t.port p).trans = .answering (some (framed [if (s.port p).attention then 9 else 1])) ∧
      t = { s with memory := t.memory, loader := t.loader, ports := t.ports } ∧ ∀ q, q ≠ p → t.port q = s.port q
    (∀ (o : Nat) (v : Byte), o < k.body.length → k.body[o]? ≠ some v →
      ∃ t, exec (.storeComplete ⟨none, [(8 + o, v)]⟩) s = .next t ∧ failed t (8 + o) ∧ memoryValid t.memory = false) ∧
    (∀ (o : Nat) (v : Byte), o < 8 → header[o]? ≠ some v →
      ∃ t, exec (.storeComplete ⟨none, [(o, v)]⟩) s = .next t ∧ failed t o ∧ memBytes t.memory 0 8 = header.set o v ∧
        memBytes t.memory 8 k.body.length = k.body) ∧
    ∀ n : Nat, n < 16 + k.body.length →
      ∃ t, exec (.storeComplete ⟨some n, []⟩) s = .next t ∧
        failed t (if n < 8 + k.body.length then n else n - (8 + k.body.length)) ∧
        (n < 8 → t.memory = s.memory) ∧ (8 ≤ n → n < 8 + k.body.length → memoryValid t.memory = false) ∧
        (8 + k.body.length ≤ n → memBytes t.memory 8 k.body.length = k.body ∧
          (n < 10 + k.body.length → memoryValid t.memory = false) ∧
          (10 + k.body.length ≤ n → memBytes t.memory 0 8 = header))

/-- A store abandoned by power-on or RST leaves the memory as it was before its first byte write, and invalid from then until its last
step has begun. Cut short in that step, it leaves the snapshot's body whole behind a header written so far: invalid before the two
bytes of the valid marker are there, and from then on valid with the snapshot's body. No byte beyond the body is touched (R173, R174).
The order and the content of the byte writes are notes/assumptions/17.md. -/
def Obligations.AbandonedStoreLeavesInvalidMemory : Prop :=
  ∀ (s : State) (p : PortNo) (k : Settings) (cause : RestartCause) (w : Nat), s.loader.phase = .storing p k →
    Memory.wf s.memory = true →
    let n := k.body.length
    let rest := be16 1 ++ be16 n ++ be16 ((k.body.map BitVec.toNat).sum % 65536)
    ∃ t, exec (.unitRestart cause w) s = .next t ∧ (w = 0 → t.memory = s.memory) ∧
      (1 ≤ w → w ≤ 9 + n → memoryValid t.memory = false) ∧
      (8 + n ≤ w → memBytes t.memory 8 n = k.body ∧
        memBytes t.memory 0 8 = (be16 0x6B47).take (w - (8 + n)) ++ (be16 0).drop (w - (8 + n)) ++ rest) ∧
      (10 + n ≤ w → memoryValid t.memory = true ∧ memBody t.memory = k.body) ∧
      ∀ a, 8 + n ≤ a → memRead t.memory a = memRead s.memory a

/-- STORE SETTINGS taken in SERVING begins a store of the settings as they stand, and is not answered yet (R172, R174). -/
def Obligations.StoreSettingsTakesSnapshot : Prop :=
  ∀ (s : State) (p : PortNo) (b : Tail), s.Serves p .studio → s.loader.phase = .serving → Intact 0x49 b →
    b.params.length = 1 →
    ∃ k : Settings, exec (.storeSettings p b) s =
        .next { s.setPort p { s.port p with recv := .seek, trans := .answering none, sense := senseNone } with
          loader := { s.loader with phase := .storing p k } } ∧
      k.rate = s.rate ∧ k.mask = s.slotMask ∧ k.profiles = s.profiles ∧ (∀ v, s.loader.pendingRoles = some v → k.roles = v) ∧
      (∀ o : BoothNo, k.booths[o] = (s.booth o).record) ∧
      ∀ c : ChanNo, k.chans[c] =
        { target := (s.chan c).pool.target, slew := (s.chan c).path.slewInterval,
          lateLimit := (s.chan c).sched.lateLimit, loss := (s.chan c).pres.loss, profile := (s.chan c).place.profile }

/-- WRITE PORT ROLES: a byte that is no role is refused at the lowest index at fault; roles that duplicate one another are refused
with DUPLICATE ROLE; otherwise the roles become pending, and the roles in force stay (R171). -/
def Obligations.WritePortRolesSetsPendingRoles : Prop :=
  ∀ (s : State) (p : PortNo) (b : Tail), s.Serves p .studio → Intact 0x48 b → b.params.length = 6 →
    (∀ i, i < 6 → 6 < natAt b.params i → (∀ j, j < i → natAt b.params j ≤ 6) →
      exec (.writePortRoles p b) s = .next (s.sendIllegal p (i + 1))) ∧
    ((∀ i, i < 6 → natAt b.params i ≤ 6) → ∀ j, j < 6 → natAt b.params j ≤ 4 →
      (∃ i, i < j ∧ natAt b.params i = natAt b.params j) →
      (∀ j', j' < j → natAt b.params j' ≤ 4 → ∀ i, i < j' → natAt b.params i ≠ natAt b.params j') →
      exec (.writePortRoles p b) s = .next (s.sendCheck p .conflict .duplicateRole (some (j + 1)))) ∧
    ((∀ i, i < 6 → natAt b.params i ≤ 6) →
      (∀ j, j < 6 → natAt b.params j ≤ 4 → ∀ i, i < j → natAt b.params i ≠ natAt b.params j) →
      ∃ v : Vector Role 6, (∀ o : PortNo, roleOf (natAt b.params o) = some v[o]) ∧
        exec (.writePortRoles p b) s =
          .next (({ s with loader := { s.loader with pendingRoles := some v, rolesPending := true } } : State).sendGood p b.params))

/-- RESET UNIT is answered GOOD and keeps each channel's grant; the end of that reply is the unit restart; the end of any other
reply makes its port FREE (R150, R168, R175). That REPLY_SENT is itself the restart, with no UNIT_RESTART to follow, is
notes/assumptions/13.md. -/
def Obligations.ResetUnitRestartsAfterItsReply : Prop :=
  ∀ (s : State) (p : PortNo),
    (∀ b : Tail, s.Serves p .studio → Intact 0x4A b → b.params.length = 1 →
      ∃ g : Vector Nat 4, (∀ c : ChanNo, g[c] = (s.chan c).pool.granted) ∧
        exec (.resetUnit p b) s =
          .next (({ s with loader := { s.loader with resetPort := some p, grantsAtReset := some g } } : State).sendGood p [])) ∧
    ∀ r, (s.port p).trans = .answering (some r) →
      (s.loader.resetPort = some p → exec (.replySent p) s = exec (.unitRestart .resetReply 0) s) ∧
      (s.loader.resetPort ≠ some p → exec (.replySent p) s = .next (s.setPort p { s.port p with trans := .free }))

/-! ### The programme path and the frame pool (chapter 1) -/

/-- At every frame start one frame enters the delay line, its timecode read or supplied, the output frame and T are fixed with any
slew step, and the lock state follows the event; of the other channels only grants and clamped flags can change, and of the rest
of the part only pending notices; a timecode is valid, and has its frame number, by the ranges and the count of R4 (R2, R4, R5, R7
to R11). Where no cue waits, the grants are as they were, or, where a drop lowered
the reservation, as the pool's pass leaves them, with the DELAY notices of those that changed (R11, R15, R16). That an arrival
locks at a gap of 950 to 1050 thousandths of a period, both ends included, is notes/assumptions/5.md. -/
def Obligations.FrameStartFixesOutputFrame : Prop :=
  (∀ (r : Rate) (x : Sys2Proof.Timecode), r.fps = (if r = .f25 then 25 else 50) ∧ r.day = 86400 * r.fps ∧
    (tcValid r x = true ↔ x.hh ≤ 23 ∧ x.mm ≤ 59 ∧ x.ss ≤ 59 ∧ x.ff + 1 ≤ r.fps) ∧
    tcToFrame r x = ((x.hh * 60 + x.mm) * 60 + x.ss) * r.fps + x.ff) ∧
  ∀ (s : State) (c : ChanNo) (i : Instr) (f : InputFrame), FrameStarts s c i f →
    ∃ t e, exec i s = .next t ∧ e.picture = f.picture ∧ e.audio = f.audio ∧
      (s.chan c).path.Stamps s.rate f.timecode e (t.chan c).path ∧
      (s.chan c).path.Outputs (s.chan c).pool.granted e (t.chan c).path ∧
      (t.chan c).path.slewInterval = (s.chan c).path.slewInterval ∧
      ((t.chan c).path.locked = true ↔ ∃ d g gap, i = .programmeFrameArrival d g gap) ∧
      (∀ d, d ≠ c → t.chan d = { s.chan d with
        pool := { (s.chan d).pool with granted := (t.chan d).pool.granted, clamped := (t.chan d).pool.clamped } }) ∧
      t = { s with chans := t.chans, ports := t.ports } ∧
      (∀ p, t.port p = { s.port p with pending := (t.port p).pending }) ∧
      ((s.chan c).sched.cues = [] →
        (∀ e, (t.chan e).pool =
          s.poolsAfter c (t.chan c).path.line.length (s.chan c).pool (s.setPath c (t.chan c).path) e) ∧
        ∀ (p : PortNo) (e : ChanNo), (t.port p).pending.delay.getLsbD e =
          ((s.port p).pending.delay.getLsbD e || ((s.port p).role.any (fun r => r.hears (.delay e)) &&
            decide ((t.chan e).pool.granted ≠ (s.chan e).pool.granted))))

/-- A valid frame that is no frame start, because start-up runs or because the input stays UNLOCKED: under bypass its valid timecode
becomes the last timecode, and from a LOCKED input it goes to the output as it arrived; with bypass ended it goes nowhere; it always
counts as the valid frame the next is measured from. Under bypass an UNLOCKED input's output is a black frame with silent audio and
no timecode. No frame enters the delay line (R1, R2, R6, R169). That R1's period is met by a gap of 950 to 1050 thousandths, and
what becomes of a frame at an input that stays UNLOCKED, are notes/assumptions/5.md and 10.md. -/
def Obligations.BypassPassesInputToOutput : Prop :=
  ∀ (s : State) (c : ChanNo),
    let p := (s.chan c).path
    (∀ (f : InputFrame) (gap : Nat),
      let locked := p.locked || (p.prevValid && decide (950 ≤ gap ∧ gap ≤ 1050))
      s.loader.phase = .starting ∨ locked = false →
      (p.bypass = true →
        ∃ q : Path, exec (.programmeFrameArrival c f gap) s = .next (s.setPath c q) ∧
          q = { p with locked := locked, prevValid := true, lastTc := q.lastTc, flywheel := q.flywheel, sent := q.sent } ∧
          (∀ x, f.timecode = some x → tcValid s.rate x = true →
            q.lastTc = some (tcToFrame s.rate x) ∧ q.flywheel = false) ∧
          ((∀ x, f.timecode = some x → tcValid s.rate x = false) → q.lastTc = p.lastTc ∧ q.flywheel = p.flywheel) ∧
          q.sent = if locked then some ⟨f.picture, f.audio, f.timecode⟩ else p.sent) ∧
      (p.bypass = false →
        exec (.programmeFrameArrival c f gap) s = .next (s.setPath c { p with locked := locked, prevValid := true }))) ∧
    (p.bypass = true → p.locked = false →
      exec (.bypassBlackFrame c) s = .next (s.setPath c { p with sent := some ⟨blackPicture, .silent, none⟩ }))

/-- An invalid frame makes a LOCKED input UNLOCKED, and the next valid frame does not lock it by itself; a loss of lock under bypass
starts no frame; neither touches anything else (R1, R6). That an invalid frame at an UNLOCKED input changes nothing is
notes/assumptions/7.md, that one starts no frame itself 8.md, the loss of lock under bypass 9.md, and that an event of the path
changes nothing where it cannot occur 14.md. -/
def Obligations.InvalidFrameLosesLock : Prop :=
  ∀ (s : State) (c : ChanNo),
    let p := (s.chan c).path
    (p.locked = true →
      exec (.invalidFrameArrival c) s = .next (s.setPath c { p with locked := false, prevValid := false }) ∧
      (p.bypass = true → exec (.lockLossTimeout c) s = .next (s.setPath c { p with locked := false, prevValid := false }))) ∧
    (p.locked = false → exec (.invalidFrameArrival c) s = .next s ∧ exec (.lockLossTimeout c) s = .next s) ∧
    (p.locked = true ∨ s.loader.phase = .starting → exec (.freeRunFrameStart c) s = .next s) ∧
    (p.bypass = false ∨ p.locked = true → exec (.bypassBlackFrame c) s = .next s)

/-- The frame sent at a frame start is the composited output frame, with that frame's audio and with T as its timecode; where g is
0 its picture is the output frame's picture unaltered (R8, R39, R41, R56). It is composited from the inputs of section 3.1: the
level, the shown placement and the booths as this frame start's steps left them, the crop and edge of the current profile, and the
READY pictures and records the booth store held at the frame start (R31, R114). The timecode of a frame number is the one of R178,
and of a number below D it is the valid timecode whose frame number that is. -/
def Obligations.CompositedFrameIsSent : Prop :=
  (∀ (r : Rate) (n : Nat), tcOfFrame r n = ⟨n / (3600 * r.fps), n / (60 * r.fps) % 60, n / r.fps % 60, n % r.fps⟩ ∧
    (n < r.day → tcValid r (tcOfFrame r n) = true ∧ tcToFrame r (tcOfFrame r n) = n)) ∧
  ∀ (s : State) (c : ChanNo) (i : Instr) (f : InputFrame), FrameStarts s c i f →
    ∃ t o, exec i s = .next t ∧ (t.chan c).path.lastOut = some o ∧
      (let x := t.chan c
       let p := s.profile x.place.profile
       let taken := fun b : BoothNo => ({ picture := (s.booth b).ready, record := (s.booth b).record } : BoothInput)
       let inputs : FrameInput := { g := x.pres.g, box := x.place.shown, cw := p.cw, ch := p.ch, edge := p.edge
                                    assigned := x.assign.assigned.map taken
                                    incoming := x.assign.incoming.map (fun k => (taken k.booth, k.h)) }
       x.path.sent = some ⟨compose o.picture inputs, o.audio, some (tcOfFrame s.rate x.path.outTc)⟩ ∧
       (x.pres.g = 0 → compose o.picture inputs = o.picture))

/-- SET DELAY of 0 to 150 sets the target and grants min(target, 480 − R), R the other channels' reservations, and replies with
both; where the channel's reservation fell, the others are as the pool's pass leaves them; a channel that is not clamped keeps its
grant, no other grant falls, each grant that changes raises a DELAY notice, and nothing else changes beside the port. Above 150 it
is refused at index 1 (R14 to R17). -/
def Obligations.SetDelayGrantsFromThePool : Prop :=
  ∀ (s : State) (p : PortNo) (c : ChanNo) (b : Tail), s.Serves p (.channel c) → Intact 0x28 b → b.params.length = 1 →
    let d := natAt b.params 0
    (150 < d → exec (.setDelay p b) s = .next (s.sendIllegal p 1)) ∧
    (d ≤ 150 → ∃ t, exec (.setDelay p b) s = .next t ∧ s.SetsTarget c d t ∧
      t = { s with chans := t.chans, ports := t.ports } ∧
      t.port p = ({ s.port p with pending := (t.port p).pending } : Port).sendGood
        (b.params ++ [byteOf (min d (480 - (s.reserved - (s.chan c).reservation)))]) false ∧
      ∀ q, q ≠ p → t.port q = { s.port q with pending := (t.port q).pending })

/-- The pool's pass gives each clamped channel, from C0 to C3, what the others' reservations leave it at its turn; it leaves nothing
that a clamped channel could still be granted, only raises grants, and keeps the pool's laws (R13, R15). -/
def Obligations.PassLeavesNothingToGrant : Prop :=
  ∀ s : State, s.PoolLaws →
    s.poolPass.PoolLaws ∧
    (∀ c, (s.chan c).pool.granted ≤ (s.poolPass.chan c).pool.granted) ∧
    (∀ c, (s.poolPass.chan c).pool.clamped = true →
      s.poolPass.grantFor c (s.poolPass.chan c).pool.target ≤ (s.poolPass.chan c).pool.granted) ∧
    (∀ c, (s.chan c).pool.clamped = false → (s.poolPass.chan c).pool = (s.chan c).pool) ∧
    ∀ c, (s.chan c).pool.clamped = true →
      (let others := ((List.finRange 4).map (fun e =>
         if e = c then 0 else max (if e < c then s.poolPass.chan e else s.chan e).pool.granted (s.chan e).actual)).sum
       (s.poolPass.chan c).pool.granted = max (s.chan c).pool.granted (min (s.chan c).pool.target (480 - others))) ∧
      (s.poolPass.chan c).pool.target = (s.chan c).pool.target ∧
      ((s.chan c).pool.granted < (s.poolPass.chan c).pool.granted →
        (s.poolPass.chan c).pool.clamped = decide ((s.poolPass.chan c).pool.granted < (s.chan c).pool.target))

/-- The laws of the frame pool are kept by every step of the part, and so is what holds while the loader is STARTING, bypass engaged
with nothing held or granted among it; and where that holds, so is the state in which no clamped channel could be granted a frame
more: a step that lowers a reservation makes the pool's pass (R6, R13, R14, R15, R19, R168, R169). -/
def Obligations.EveryStepKeepsPoolLaws : Prop :=
  ∀ s t : State, s.PoolLaws → step s = .next t →
    t.PoolLaws ∧ (s.StartingLaws → t.StartingLaws ∧ (s.PoolSettled → t.PoolSettled))

/-! ### The booth link and the booth store (chapter 2) -/

/-- At a link frame end each booth takes the result of its own slot by the tables of section 2.4, unless it has no slot or was
remapped since the frame's reception began; a BOOTH notice tells each change of health, and a FEED notice each change of usability
of a channel's assigned booth; nothing else changes (R21, R22, R23, R27, R29, R32, R33, R36). That LINK_FRAME_END acts outside a link
frame too is notes/assumptions/15.md, and that an awaiting booth takes no result of a substitute either is 16.md. -/
def Obligations.LinkFrameEndAppliesSlotResults : Prop :=
  ∀ (s : State) (i : Instr) (slots : List SlotRx), LinkEnds s i slots →
    ∃ t, exec i s = .next t ∧
      (∀ b : BoothNo,
        (((s.booth b).record.slot = none ∨ (s.booth b).awaiting = true) →
          t.booth b = { s.booth b with awaiting := (t.booth b).awaiting }) ∧
        (∀ n : SlotNo, (s.booth b).record.slot = some n → (s.booth b).awaiting = false →
          ∃ pic, (∀ x, slots[n.val]? = some x → pic = land (s.booth b).record.width x.raw) ∧
            (s.booth b).Takes (slotResult (s.slotMask.getLsbD n) (s.booth b).record.width slots[n.val]?) pic
              { t.booth b with awaiting := false }) ∧
        (t.booth b).awaiting = ((s.booth b).awaiting && !t.linkInFrame)) ∧
      (t.linkInFrame = true ↔ ∃ l, i = .linkNewFrameStart l) ∧
      t = { s with booths := t.booths, ports := t.ports, linkInFrame := t.linkInFrame } ∧
      (∀ p : PortNo, t.port p = { s.port p with pending := (t.port p).pending }) ∧ s.TellsBooths t

/-- The reception of a new link frame lets every remapped booth take results again; while start-up runs, the receiver ignores the
link, whatever the event (R23, R27, R169). That a gap, a new frame's start or a silence changes nothing more where it cannot occur is
notes/assumptions/15.md, and what LINK_FRAME_BEGIN does inside a link frame 33.md. -/
def Obligations.LinkFrameBeginEndsAwaiting : Prop :=
  ∀ s : State,
    (s.loader.phase.isStarting = false →
      ∃ t, exec .linkFrameBegin s = .next t ∧ t = { s with linkInFrame := true, booths := t.booths } ∧
        (∀ b, t.booth b = { s.booth b with awaiting := false }) ∧
        (s.linkInFrame = false →
          ∀ l, exec (.linkGapTimeout l) s = .next s ∧ exec (.linkNewFrameStart l) s = exec .linkFrameBegin s) ∧
        (s.linkInFrame = true → exec .linkSilenceTimeout s = .next s)) ∧
    (s.loader.phase = .starting →
      exec .linkFrameBegin s = .next s ∧ exec .linkSilenceTimeout s = .next s ∧
      ∀ l, exec (.linkFrameEnd l) s = .next s ∧ exec (.linkGapTimeout l) s = .next s ∧
        exec (.linkNewFrameStart l) s = .next s)

/-- A slot's result is the first of four tests that applies, the sum being that of all raw samples mod 65536 and a container above
255 being any of them above 255; and every sample of a picture that lands is widened by the booth's
sample width and clamped to the legal range (R22, R29). -/
def Obligations.SlotTestsAndLanding : Prop :=
  (∀ (on : Bool) (w : Width) (rx : Option SlotRx), slotResult on w rx =
    if on = false then .masked
    else if rx.any (fun x => x.marker = .noPicture) then .empty
    else if rx.any (fun x => x.marker = .picture ∧ ¬(w = .w8 ∧ rawAbove255 x.raw = true) ∧ x.check = rawSum x.raw) then .good
    else .damaged) ∧
  (∀ p : Picture, p.ok 960 540 = true →
    rawSum p = ((∑ a ∈ Finset.range (960 * 540), planeGet p.y a) +
      (∑ a ∈ Finset.range (480 * 540), (planeGet p.cb a + planeGet p.cr a))) % 65536 ∧
    (rawAbove255 p = true ↔ ∃ a, a < 960 * 540 ∧ 255 < planeGet p.y a ∨
      a < 480 * 540 ∧ (255 < planeGet p.cb a ∨ 255 < planeGet p.cr a))) ∧
  ∀ (w : Width) (p : Picture) (a : Nat), p.ok 960 540 = true →
    let widen := fun v : Nat => if w = .w8 then 4 * v else v
    planeGet (land w p).y a = min 940 (max 64 (widen (planeGet p.y a))) ∧
    planeGet (land w p).cb a = min 960 (max 64 (widen (planeGet p.cb a))) ∧
    planeGet (land w p).cr a = min 960 (max 64 (widen (planeGet p.cr a))) ∧ pictureLegal (land w p) = true

/-- The laws of the booth store are kept by every step of the part (R26, R29, R30, R35 and section 2.4). -/
def Obligations.EveryStepKeepsBoothLaws : Prop :=
  ∀ s t : State, s.BoothLaws → step s = .next t → t.BoothLaws

/-- WRITE BOOTH is refused at the lowest index out of range, or for a slot another booth's record names; taken, it replaces the
record and sends the booth to ABSENT where slot or width changed, re-examines the health where only a limit changed, and keeps
picture and health otherwise; a change of health is told by BOOTH and FEED notices, and nothing else changes (R26, R27, R34 to R36). -/
def Obligations.WriteBoothReplacesRecord : Prop :=
  ∀ (s : State) (p : PortNo) (b : Tail), s.Serves p .studio → Intact 0x30 b → b.params.length = 17 →
    let field := fun k => natAt b.params (1 + k)
    (5 < natAt b.params 0 → exec (.writeBooth p b) s = .next (s.sendIllegal p 1)) ∧
    ∀ n : BoothNo, natAt b.params 0 = n →
      (∀ k : Nat, FirstFails (boothRanges field) k → exec (.writeBooth p b) s = .next (s.sendIllegal p (k + 2))) ∧
      ((boothRanges field).all id = true →
        let r := boothOfRecord field
        let old := s.booth n
        (∀ o : BoothNo, o ≠ n → r.slot ≠ none → (s.booth o).record.slot = r.slot →
          (∀ o' : BoothNo, o' < o → o' ≠ n → (s.booth o').record.slot ≠ r.slot) →
          exec (.writeBooth p b) s = .next (s.sendCheck p .conflict .slotInUse (some o))) ∧
        ((∀ o : BoothNo, o ≠ n → r.slot ≠ none → (s.booth o).record.slot ≠ r.slot) →
          ∃ t, exec (.writeBooth p b) s = .next t ∧
            (r.slot ≠ old.record.slot ∨ r.width ≠ old.record.width →
              t.booth n = { record := r, health := .absent, ready := none, candidate := none, missed := 0, good := 0, seq := 0,
                            last := .none, awaiting := true }) ∧
            (r.slot = old.record.slot → r.width = old.record.width →
              (r.hold = old.record.hold ∧ r.recovery = old.record.recovery ∨ old.health = .absent ∨ old.health = .live ∨
                  old.health = .held ∧ old.missed < r.hold → t.booth n = { old with record := r }) ∧
              (r.hold ≠ old.record.hold ∨ r.recovery ≠ old.record.recovery →
                (old.health = .held → r.hold ≤ old.missed →
                  t.booth n = { old with record := r, health := .lost, missed := r.hold, good := 0 }) ∧
                (old.health = .lost → old.good < r.recovery → t.booth n = { old with record := r, missed := r.hold }) ∧
                (∀ pic, old.health = .lost → r.recovery ≤ old.good → old.candidate = some pic →
                  (t.booth n).record = r ∧ old.promotes pic (t.booth n)))) ∧
            (∀ o, o ≠ n → t.booth o = s.booth o) ∧ t = { s with booths := t.booths, ports := t.ports } ∧ s.TellsBooths t ∧
            t.port p = ({ s.port p with pending := (t.port p).pending } : Port).sendGood [] false ∧
            ∀ q, q ≠ p → t.port q = { s.port q with pending := (t.port q).pending }))

/-- READ BOOTH may be issued by a STUDIO or MONITOR port alone; it answers with the booth's record, field by field in the order of
WRITE BOOTH, and refuses a booth number above 5 at index 1; it changes nothing else (R28). -/
def Obligations.ReadBoothReturnsRecord : Prop :=
  (∀ r : Role, mayIssue .readBooth r = true ↔ r = .studio ∨ r = .monitor) ∧
  ∀ (s : State) (p : PortNo) (role : Role) (b : Tail), role = .studio ∨ role = .monitor → s.Serves p role → Intact 0x31 b →
    b.params.length = 1 →
    (∀ n : BoothNo, natAt b.params 0 = n →
      let r := (s.booth n).record
      exec (.readBooth p b) s = .next (s.sendGood p
        ([byteOf n, (match r.slot with | some k => byteOf k | none => 0xFF), (if r.width = .w8 then 8 else 10)] ++
          be16 r.cb0 ++ be16 r.cr0 ++ be16 r.rIn ++ be16 r.rOut ++ be16 r.cx ++ be16 r.cy ++
          [byteOf r.hold, byteOf r.recovery]))) ∧
    (5 < natAt b.params 0 → exec (.readBooth p b) s = .next (s.sendIllegal p 1))

/-- BOOTH STATE and READ PROFILE answer a STUDIO or MONITOR port with what the booth store and the profile library hold, refuse a
number out of range at index 1, and change nothing else; healths and slot results have the numbers of R179 (R38, R62, R179, sections
10.3 and 10.4). -/
def Obligations.BoothStateAndReadProfileReport : Prop :=
  [Health.absent, .live, .held, .lost].map Health.toByte = [0, 1, 2, 3] ∧
  [SlotResult.none, .good, .empty, .damaged, .masked].map SlotResult.toByte = [0, 1, 2, 3, 4] ∧
  ∀ (s : State) (p : PortNo) (role : Role) (b : Tail), role = .studio ∨ role = .monitor → s.Serves p role →
    b.params.length = 1 →
    (Intact 0x33 b →
      (∀ n : BoothNo, natAt b.params 0 = n →
        let x := s.booth n
        exec (.boothState p b) s = .next (s.sendGood p
          ([x.health.toByte, byteOf x.missed, byteOf x.good] ++ be16 x.seq ++
            [(match x.record.slot with | some k => byteOf k | none => 0xFF), x.last.toByte]))) ∧
      (5 < natAt b.params 0 → exec (.boothState p b) s = .next (s.sendIllegal p 1))) ∧
    (Intact 0x39 b →
      (∀ n : ProfNo, natAt b.params 0 = n →
        let x := s.profile n
        let at' := fun k => x.positions.getD k (0, 0)
        exec (.readProfile p b) s = .next (s.sendGood p
          ([byteOf n] ++ be16 x.cw ++ be16 x.ch ++
            [byteOf x.fp, (match x.ff with | some f => byteOf f | none => 0), byteOf x.positions.length] ++
            be16 (at' 0).1 ++ be16 (at' 0).2 ++ be16 (at' 1).1 ++ be16 (at' 1).2 ++ be16 (at' 2).1 ++ be16 (at' 2).2 ++
            be16 (at' 3).1 ++ be16 (at' 3).2 ++
            [byteOf x.edge, byteOf x.fade, byteOf x.move, if x.defined then 1 else 0]))) ∧
      (15 < natAt b.params 0 → exec (.readProfile p b) s = .next (s.sendIllegal p 1)))

/-- SET SLOT MASK puts the set given in force and replies with it; each booth on a slot that was enabled and is masked now goes to
ABSENT with its picture and counts cleared, and every other booth is as it was; a change of health is told by BOOTH and FEED notices,
and nothing else changes (R24, R35, R36). -/
def Obligations.SetSlotMaskSendsBoothsAbsent : Prop :=
  ∀ (s : State) (p : PortNo) (b : Tail), s.Serves p .studio → Intact 0x32 b → b.params.length = 1 →
    let m := b.params.getD 0 0
    ∃ t, exec (.setSlotMask p b) s = .next t ∧ t.slotMask = m ∧
      (∀ (o : BoothNo) (n : SlotNo), (s.booth o).record.slot = some n → s.slotMask.getLsbD n = true → m.getLsbD n = false →
        t.booth o = { s.booth o with health := .absent, ready := none, candidate := none, missed := 0, good := 0, seq := 0,
                                     last := .none }) ∧
      (∀ o : BoothNo, (∀ n, (s.booth o).record.slot = some n → s.slotMask.getLsbD n = false ∨ m.getLsbD n = true) →
        t.booth o = s.booth o) ∧
      t = { s with slotMask := m, booths := t.booths, ports := t.ports } ∧ s.TellsBooths t ∧
      t.port p = ({ s.port p with pending := (t.port p).pending } : Port).sendGood [m] false ∧
      ∀ q, q ≠ p → t.port q = { s.port q with pending := (t.port q).pending }

/-! ### Keying and mixing (chapter 3) -/

/-- In the output picture of a frame, every sample outside the box, and every sample of a frame whose g is 0, is the programme
sample; every luma sample inside the box of a frame with g above 0 is the mix of its pixel, and every chroma sample that of its
pair (R41, R50, R51); KeyEdgeWeightAndMix says what those are. -/
def Obligations.ComposeChangesOnlyTheBox : Prop :=
  ∀ (p : Picture) (k : FrameInput), p.ok 1920 1080 = true → k.box.x % 2 = 0 → k.bw % 2 = 0 → k.box.x + k.bw ≤ 1920 →
    k.box.y + k.bh ≤ 1080 →
    (k.g = 0 → compose p k = p) ∧
    (k.g ≠ 0 →
      (∀ x y, x < 1920 → planeGet (compose p k).y (y * 1920 + x) =
        if k.box.x ≤ x ∧ x < k.box.x + k.bw ∧ k.box.y ≤ y ∧ y < k.box.y + k.bh then
          outLuma k (planeGet p.y (y * 1920 + x)) (x - k.box.x) (y - k.box.y)
        else planeGet p.y (y * 1920 + x)) ∧
      ∀ x y, x < 1920 → x % 2 = 0 →
        (planeGet (compose p k).cb (y * 960 + x / 2) =
          if k.box.x ≤ x ∧ x < k.box.x + k.bw ∧ k.box.y ≤ y ∧ y < k.box.y + k.bh then
            outChroma k (·.cb) (planeGet p.cb (y * 960 + x / 2)) (x - k.box.x) (y - k.box.y)
          else planeGet p.cb (y * 960 + x / 2)) ∧
        planeGet (compose p k).cr (y * 960 + x / 2) =
          if k.box.x ≤ x ∧ x < k.box.x + k.bw ∧ k.box.y ≤ y ∧ y < k.box.y + k.bh then
            outChroma k (·.cr) (planeGet p.cr (y * 960 + x / 2)) (x - k.box.x) (y - k.box.y)
          else planeGet p.cr (y * 960 + x / 2))

/-- Every sample computed inside the box lies in the legal range, whatever the programme sample, when the booths' pictures are
landed pictures, g and h at most 256 and the factor 1 to 4 (R41, R43, R49, R50, R51). -/
def Obligations.BoxSamplesAreLegal : Prop :=
  ∀ (k : FrameInput) (v x y : Nat), factorOk k.box.f = true → k.g ≤ 256 →
    (∀ b, k.assigned = some b → b.picture.all pictureLegal = true) →
    (∀ b h, k.incoming = some (b, h) → b.picture.all pictureLegal = true ∧ h ≤ 256) →
    64 ≤ outLuma k v x y ∧ outLuma k v x y ≤ 940 ∧ 64 ≤ outChroma k (·.cb) v x y ∧ outChroma k (·.cb) v x y ≤ 960 ∧
    64 ≤ outChroma k (·.cr) v x y ∧ outChroma k (·.cr) v x y ≤ 960

/-- How a sample inside the box is made: the key and the edge factor by their formulas and within 0 to 256 (R45, R47); the crop origin
lowered to fit (R42), the rounded mean of the f × f block of crop samples (R43, R44), the weight of the pixel, for chroma that of
the pair's even pixel (R48), and the mix over the clamped programme sample (R49, R50), a booth with no picture leaving that sample;
and during a handover the blend of the two composites at h (R51). The weight and the mix stay within their bounds. -/
def Obligations.KeyEdgeWeightAndMix : Prop :=
  (∀ (r : BoothRecord) (cb cr : Nat), r.rIn < r.rOut →
    let d := (cb - r.cb0) + (r.cb0 - cb) + ((cr - r.cr0) + (r.cr0 - cr))
    (d ≤ r.rIn → opacity r cb cr = 0) ∧ (r.rOut ≤ d → opacity r cb cr = 256) ∧
    (r.rIn < d → d < r.rOut →
      opacity r cb cr = ((d - r.rIn) * 256 + (r.rOut - r.rIn) / 2) / (r.rOut - r.rIn) ∧ opacity r cb cr ≤ 256)) ∧
  (∀ bw bh e u v : Nat, u < bw → v < bh → e ≤ 15 →
    let k := min (min u v) (min (bw - 1 - u) (bh - 1 - v))
    (e ≤ k → edgeFactor bw bh e u v = 256) ∧
    (k < e → edgeFactor bw bh e u v = (512 * (k + 1) + e + 1) / (2 * (e + 1)) ∧ edgeFactor bw bh e u v < 256)) ∧
  (∀ (k : FrameInput) (b : BoothInput) (pic : Picture) (p u v : Nat),
    k.assigned = some b → k.incoming = none → b.picture = some pic →
    let f := k.box.f
    let cx := min (b.record.cx - b.record.cx % 2) (960 - k.cw)
    let cy := min b.record.cy (540 - k.ch)
    let mean := fun sample : Nat → Nat → Nat =>
      ((∑ j ∈ Finset.range f, ∑ i ∈ Finset.range f, sample i j) + f * f / 2) / (f * f)
    let luma := mean (fun i j => planeGet pic.y ((cy + v * f + j) * 960 + (cx + u * f + i)))
    let chroma := fun (plane : Plane) (even : Nat) =>
      mean (fun i j => planeGet plane ((cy + v * f + j) * 480 + ((cx + even * f) / 2 + i)))
    let a := ((opacity b.record (chroma pic.cb (u - u % 2)) (chroma pic.cr (u - u % 2)) * k.g + 128) / 256 *
      edgeFactor (k.cw / f) (k.ch / f) k.edge u v + 128) / 256
    let mixed := fun high sample : Nat => (min high (max 64 p) * (256 - a) + sample * a + 128) / 256
    outLuma k p u v = mixed 940 luma ∧
    (u % 2 = 0 → outChroma k (·.cb) p u v = mixed 960 (chroma pic.cb u) ∧ outChroma k (·.cr) p u v = mixed 960 (chroma pic.cr u))) ∧
  (∀ (k : FrameInput) (p u v : Nat), (∀ b, k.assigned = some b → b.picture = none) → k.incoming = none →
    outLuma k p u v = min 940 (max 64 p) ∧ outChroma k (·.cb) p u v = min 960 (max 64 p) ∧
    outChroma k (·.cr) p u v = min 960 (max 64 p)) ∧
  (∀ (k : FrameInput) (b : BoothInput) (h p u v : Nat), k.incoming = some (b, h) →
    let first := { k with incoming := none }
    let second := { k with assigned := some b, incoming := none }
    outLuma k p u v = (outLuma first p u v * (256 - h) + outLuma second p u v * h + 128) / 256 ∧
    outChroma k (·.cb) p u v = (outChroma first (·.cb) p u v * (256 - h) + outChroma second (·.cb) p u v * h + 128) / 256 ∧
    outChroma k (·.cr) p u v = (outChroma first (·.cr) p u v * (256 - h) + outChroma second (·.cr) p u v * h + 128) / 256) ∧
  (∀ alpha g edge : Nat, alpha ≤ 256 → g ≤ 256 → edge ≤ 256 →
    weight alpha g edge ≤ 256 ∧ (alpha = 0 ∨ g = 0 ∨ edge = 0 → weight alpha g edge = 0) ∧ weight 256 256 256 = 256) ∧
  ∀ first second w : Nat, w ≤ 256 →
    mix first second 0 = first ∧ mix first second 256 = second ∧ min first second ≤ mix first second w ∧
    mix first second w ≤ max first second

/-! ### Layout (chapter 4) -/

/-- A choice is the first candidate, in order, whose overlap is 0, with the conflict flag clear; where there is none it is the
earliest of those with the least overlap, with the flag set (R69). The candidates are the profile's positions in order, at the
preferred and then at the fallback factor, each fitted to the picture (R67); the overlap sums what each active zone shares with the
box (R68). -/
def Obligations.ChoiceIsFirstLeastOverlap : Prop :=
  ∀ (p : Profile) (zones : List Zone) (kept : Placement),
    let at' := fun f : Nat => p.positions.map (fun q => p.fitted ⟨q.1, q.2, f⟩)
    let overlap := fun q : Placement => ((zones.filter (·.active)).map (fun z =>
      (min (q.x + p.cw / q.f) (z.window.x + z.window.w) - max q.x z.window.x) *
        (min (q.y + p.ch / q.f) (z.window.y + z.window.h) - max q.y z.window.y))).sum
    p.candidates = at' p.fp ++ (p.ff.map at').getD [] ∧
    (p.positions ≠ [] → ∃ (i : Nat) (q : Placement), p.candidates[i]? = some q ∧ (p.choose zones kept).1 = q ∧
      (∀ (j : Nat) (r : Placement), p.candidates[j]? = some r → overlap q ≤ overlap r) ∧
      (∀ (j : Nat) (r : Placement), j < i → p.candidates[j]? = some r → overlap q < overlap r) ∧
      ((p.choose zones kept).2 = true ↔ overlap q ≠ 0))

/-- After every frame start of a channel its box, at the size in force, lies wholly within the picture at an even column (R72); and a
CONFLICT notice is raised exactly where the frame start set the zone conflict flag (R69). -/
def Obligations.BoxLiesInPicture : Prop :=
  ∀ (s : State) (c : ChanNo) (i : Instr) (f : InputFrame), FrameStarts s c i f → s.LayoutLaws →
    ∃ t, exec i s = .next t ∧ (t.currentProfile c).boxInPicture (t.chan c).place.shown ∧
      ∀ p : PortNo, (t.port p).pending.conflict.getLsbD c =
        ((s.port p).pending.conflict.getLsbD c || ((s.port p).role.any (fun r => r.hears (.conflict c)) &&
          ((t.chan c).place.conflict && !(s.chan c).place.conflict)))

/-- The placement step by the cases of R70: under a presenter that is visible and was at the previous frame start, a choice that is the
target of the move in progress, or no choice, lets the move take its next step; a choice that is the shown placement ends it; any
other begins or restarts a move from the shown placement, which takes its first step, or is a cut where the move frames are 0; under
any other presenter the box is at the choice at once. A step shows the rounded share of the way with the factor in force, fitted to
the picture, and the last arrives at the target. Every frame start whose list is empty takes one such step with the presenter as its
own step left it (R70 to R73, R75). -/
def Obligations.MoveTakesOneStepPerFrame : Prop :=
  (∀ (pl : Place) (p : Profile) (visible : Bool),
    let choice := p.choose pl.zones.toList pl.chosen
    let q := pl.step p visible
    (pl.replace = true → q.chosen = choice.1 ∧ q.conflict = choice.2 ∧ pl.Applies p visible (some choice.1) q) ∧
    (pl.replace = false → q.chosen = pl.chosen ∧ q.conflict = pl.conflict ∧ pl.Applies p visible none q) ∧
    q.zones = pl.zones ∧ q.profile = pl.profile ∧ q.replace = false ∧ q.visBefore = visible) ∧
  (∀ a b n : Nat, 0 < n → ((a : Int) + (2 * ((b : Int) - a) * n + n) / (2 * n)).toNat = b) ∧
  ∀ (s : State) (c : ChanNo) (i : Instr) (f : InputFrame), FrameStarts s c i f → (s.chan c).sched.cues = [] →
    ∃ t, exec i s = .next t ∧
      (t.chan c).place = (s.chan c).place.step (s.currentProfile c)
        (decide ((t.chan c).pres.state = .rising ∨ (t.chan c).pres.state = .on ∨ (t.chan c).pres.state = .falling))

/-- WRITE PROFILE is refused at the lowest index out of range, or for P0 undefined; taken, it stores the record with its crop
rounded down to multiples of 24, and where the record changed each channel that uses it has re-placement pending and a PROFILE
notice; nothing else changes (R59, R60, R61). -/
def Obligations.WriteProfileReplacesRecord : Prop :=
  ∀ (s : State) (p : PortNo) (b : Tail), s.Serves p .studio → Intact 0x38 b → b.params.length = 28 →
    let field := fun k => natAt b.params (1 + k)
    let defined := decide (field 26 % 2 = 1)
    (15 < natAt b.params 0 → exec (.writeProfile p b) s = .next (s.sendIllegal p 1)) ∧
    ∀ n : ProfNo, natAt b.params 0 = n →
      (∀ k : Nat, FirstFails (profileRanges field) k → exec (.writeProfile p b) s = .next (s.sendIllegal p (k + 2))) ∧
      ((profileRanges field).all id = true →
        (n = 0 → defined = false → exec (.writeProfile p b) s = .next (s.sendCheck p .conflict .profileZero (some 18))) ∧
        (n ≠ 0 ∨ defined = true →
          ∃ t, exec (.writeProfile p b) s = .next t ∧ t.profile n = profileOfRecord field defined ∧
            (∀ k, k ≠ n → t.profile k = s.profile k) ∧
            (∀ c, t.chan c = if (s.chan c).place.profile = n ∧ t.profile n ≠ s.profile n then
              { s.chan c with place := { (s.chan c).place with replace := true } } else s.chan c) ∧
            t = { s with profiles := t.profiles, chans := t.chans, ports := t.ports } ∧
            t.port p = ({ s.port p with pending := (t.port p).pending } : Port).sendGood
              (be16 (word field 0 / 24 * 24) ++ be16 (word field 2 / 24 * 24)) false ∧
            (∀ q, q ≠ p → t.port q = { s.port q with pending := (t.port q).pending }) ∧
            ∀ q : PortNo, (t.port q).pending = { (s.port q).pending with profile := (t.port q).pending.profile } ∧
              ∀ c : ChanNo, (t.port q).pending.profile.getLsbD c =
                ((s.port q).pending.profile.getLsbD c ||
                  ((s.port q).role.any (fun r => r.hears (.profile c)) &&
                    decide ((s.chan c).place.profile = n ∧ t.profile n ≠ s.profile n)))))

/-- The laws of the profile library and the placement units are kept by every step of the part (R57, R58, R60, R63 and section 4.1). -/
def Obligations.EveryStepKeepsLayoutLaws : Prop :=
  ∀ s t : State, s.LayoutLaws → step s = .next t → t.LayoutLaws

/-! ### Presenter and assignment (chapters 5 and 6) -/

/-- The arithmetic of a rise and of a fall of length n from level g0 (R86, R87). -/
def Obligations.FadeArithmetic : Prop :=
  ∀ n g0 i : Nat, n ≤ 250 → g0 ≤ 256 →
    (let m := riseSteps n g0
     let f : Fade := { rise := true, g0 := g0, n := n, m := m, i := i }
     m = max 1 ((n * (256 - g0) + 255) / 256) ∧ (g0 < 256 → m ≤ 256 - g0) ∧ f.level m = 256 ∧
     f.level i = g0 + (2 * (256 - g0) * i + m) / (2 * m) ∧
     (g0 < 256 → i < m → f.level i + 1 ≤ f.level (i + 1)) ∧ (i ≤ m → f.level i ≤ 256) ∧
     (g0 = 256 → m = 1) ∧ (g0 = 0 → 1 ≤ n → m = n) ∧ (n = 0 → m = 1)) ∧
    (let m := fallSteps n g0
     let f : Fade := { rise := false, g0 := g0, n := n, m := m, i := i }
     m = max 1 ((n * g0 + 255) / 256) ∧ f.level m = 0 ∧ f.level i = g0 - (2 * g0 * i + m) / (2 * m) ∧
     (0 < g0 → i < m → f.level (i + 1) + 1 ≤ f.level i) ∧ (g0 = 0 → m = 1) ∧ (g0 = 256 → 1 ≤ n → m = n))

/-- At a frame start with a usable feed: a rise or a fall takes one step and shows the level of that step, and at its last step a
rise is ON with g 256 and a fall is at rest with g 0, ending a pending release; a presenter in WAIT_FEED, and one that falls with
its intent ON and no release pending, begins a rise and takes its first step; one that is OFF or ON stays so (R90, R91, R92, R93,
R99, R113). No cue is in the channel's list, and no handover is in progress. -/
def Obligations.FadeTakesOneStepPerFrame : Prop :=
  ∀ (s : State) (c : ChanNo) (i : Instr) (f : InputFrame) (b : BoothNo) (releasing : Bool), FrameStarts s c i f →
    (s.chan c).sched.cues = [] →
    (s.chan c).assign = { assigned := some b, incoming := none, releasePending := releasing } →
    (s.booth b).health.usable = true →
    ∃ t, exec i s = .next t ∧
      (let x := (s.chan c).pres
       let n := (s.currentProfile c).fade
       let rest := if x.intent then PState.waitFeed else PState.off
       let started := fun (g0 : Nat) (seen : Bool) =>
         let m := riseSteps n g0
         let d : Fade := { rise := true, g0 := g0, n := n, m := m, i := 1 }
         if m ≤ 1 then { x with state := .on, g := 256, fade := none, frozen := false, visAtEntry := seen }
         else { x with state := .rising, g := d.level 1, fade := some d, frozen := false, visAtEntry := seen }
       (∀ d, x.state = .rising → x.fade = some d →
         (t.chan c).assign = (s.chan c).assign ∧
         (t.chan c).pres = if d.m ≤ d.i + 1 then { x with state := .on, g := 256, fade := none, frozen := false, visAtEntry := true }
           else { x with g := d.level (d.i + 1), fade := some { d with i := d.i + 1 }, frozen := false, visAtEntry := true }) ∧
       (∀ d, x.state = .falling → x.fade = some d → x.intent = false ∨ releasing = true →
         (d.m ≤ d.i + 1 →
           (t.chan c).pres = { x with state := rest, g := 0, fade := none, frozen := false, visAtEntry := true } ∧
           (t.chan c).assign = { assigned := if releasing then none else some b, incoming := none, releasePending := false }) ∧
         (d.i + 1 < d.m →
           (t.chan c).pres =
             { x with g := d.level (d.i + 1), fade := some { d with i := d.i + 1 }, frozen := false, visAtEntry := true } ∧
           (t.chan c).assign = (s.chan c).assign)) ∧
       (x.state = .falling → x.intent = true → releasing = false →
         (t.chan c).pres = started x.g true ∧ (t.chan c).assign = (s.chan c).assign) ∧
       (x.state = .waitFeed → (t.chan c).pres = started 0 false ∧ (t.chan c).assign = (s.chan c).assign) ∧
       (x.state = .off ∨ x.state = .on →
         (t.chan c).pres = { x with frozen := false, visAtEntry := decide (x.state = .on) } ∧
         (t.chan c).assign = (s.chan c).assign))

/-- At a frame start that finds the feed not usable. Under a visible presenter whose booth is LOST, HOLD_FADE makes one that rises or
is ON begin to fall from its g with its first step, and lets a fall run on; CUT takes it out of the frame; FREEZE lets a rise and a
fall take their steps and one that is ON stay, with the frozen flag set. A booth that is ABSENT takes it out of the frame whatever
the mode. A presenter that ceases to be visible ends a pending release, and one that is not visible stays where it is: OFF stays OFF
and WAIT_FEED waits, with a booth or with none (R90 to R97, R99, R113). No cue is in the channel's list, and no handover is in
progress. -/
def Obligations.LossModesReactAtTheFrameStart : Prop :=
  ∀ (s : State) (c : ChanNo) (i : Instr) (f : InputFrame) (a : Option BoothNo) (releasing : Bool), FrameStarts s c i f →
    (s.chan c).sched.cues = [] → (s.chan c).assign = { assigned := a, incoming := none, releasePending := releasing } →
    (∀ b, a = some b → (s.booth b).health = .lost ∨ (s.booth b).health = .absent) →
    ∃ t, exec i s = .next t ∧ t.booths = s.booths ∧
      (let x := (s.chan c).pres
       let y := (t.chan c).pres
       let n := (s.currentProfile c).fade
       let seen := fun q : Presenter => q.state = .rising ∨ q.state = .on ∨ q.state = .falling
       let out := { x with state := (if x.intent then PState.waitFeed else PState.off), g := 0, fade := none, frozen := false,
                           visAtEntry := true }
       let falls := fun (m : Nat) (k : Nat) (d : Fade) => if m ≤ k then out else
         { x with state := .falling, g := d.level k, fade := some { d with i := k }, frozen := decide (x.loss = .freeze),
                  visAtEntry := true }
       (t.chan c).assign = (if releasing = true ∧ seen x ∧ ¬seen y then
         { assigned := none, incoming := none, releasePending := false } else (s.chan c).assign) ∧
       (x.state = .off ∨ x.state = .waitFeed → y = { x with frozen := false, visAtEntry := false }) ∧
       (∀ b, a = some b → seen x → (s.booth b).health = .absent ∨ x.loss = .cut → y = out) ∧
       (∀ b, a = some b → (s.booth b).health = .lost →
         (x.loss = .holdFade → x.state = .rising ∨ x.state = .on →
           let m := max 1 ((n * x.g + 255) / 256)
           y = falls m 1 { rise := false, g0 := x.g, n := n, m := m, i := 0 }) ∧
         (x.loss = .freeze → x.state = .on → y = { x with frozen := true, visAtEntry := true }) ∧
         (∀ d, x.loss = .freeze → x.state = .rising → x.fade = some d →
           y = if d.m ≤ d.i + 1 then { x with state := .on, g := 256, fade := none, frozen := true, visAtEntry := true }
             else { x with g := d.level (d.i + 1), fade := some { d with i := d.i + 1 }, frozen := true, visAtEntry := true }) ∧
         (∀ d, x.loss = .holdFade ∨ x.loss = .freeze → x.state = .falling → x.fade = some d → y = falls d.m (d.i + 1) d)))

/-- The handover step of a frame start by the four cases of R110, in order, for a presenter that is visible: a cut completes; a
crossfade is abandoned when its incoming booth is not usable, forced to complete when its assigned booth is not, and otherwise takes
a step that completes it at n_x. The presenter step that follows reads the booth the handover step left: it takes the presenter out
of the visible states where that booth is ABSENT, or LOST under CUT, or at the last step of a fall that no usable feed reverses, or
where the fall that HOLD_FADE begins has one step; and its visibility report then completes a crossfade still in progress. An end of
the handover raises an ASSIGNMENT notice, and a step that does not end it raises none (R89 to R97, R110 to R113, R118). No cue is in the
channel's list, and no release is pending. -/
def Obligations.HandoverStepTakesFourCases : Prop :=
  ∀ (s : State) (c : ChanNo) (i : Instr) (f : InputFrame) (b : BoothNo) (inc : Incoming), FrameStarts s c i f →
    (s.chan c).sched.cues = [] →
    (s.chan c).assign = { assigned := some b, incoming := some inc, releasePending := false } →
    (s.chan c).pres.state = .rising ∨ (s.chan c).pres.state = .on ∨ (s.chan c).pres.state = .falling →
    ∃ t, exec i s = .next t ∧
      (let x := (s.chan c).pres
       let y := (t.chan c).pres
       let usable := fun o : BoothNo => (s.booth o).health = .live ∨ (s.booth o).health = .held
       let only := fun o : BoothNo => ({ assigned := some o, incoming := none, releasePending := false } : Assign)
       let h := (512 * (inc.i + 1) + inc.nx) / (2 * inc.nx)
       let stepped := if inc.nx = 0 then only inc.booth
         else if ¬usable inc.booth then only b
         else if ¬usable b ∨ inc.nx ≤ inc.i + 1 then only inc.booth
         else { assigned := some b, incoming := some { inc with i := inc.i + 1, h := h }, releasePending := false }
       let n := (s.currentProfile c).fade
       ∃ o : BoothNo, stepped.assigned = some o ∧
         (let leaves := (s.booth o).health = .absent ∨ (s.booth o).health = .lost ∧ x.loss = .cut ∨
            (s.booth o).health = .lost ∧ x.loss = .holdFade ∧ x.state ≠ .falling ∧ (n * x.g + 255) / 256 ≤ 1 ∨
            x.state = .falling ∧ (∃ d, x.fade = some d ∧ d.m ≤ d.i + 1) ∧ ¬(usable o ∧ x.intent = true)
          (leaves → y.state = (if x.intent then .waitFeed else .off) ∧ y.g = 0 ∧ y.fade = none ∧
            (t.chan c).assign = only ((stepped.incoming.map (·.booth)).getD o)) ∧
          (¬leaves → (y.state = .rising ∨ y.state = .on ∨ y.state = .falling) ∧ (t.chan c).assign = stepped) ∧
          (x.state = .on → usable o → y.state = .on)) ∧
         ∀ p, (t.port p).pending.assignment.getLsbD c =
           ((s.port p).pending.assignment.getLsbD c ||
             ((s.port p).role.any (fun r => r.hears (.assignment c)) && (t.chan c).assign.incoming.isNone)))

/-- The laws of presenter and assignment are kept by every step of the part (R80, R81, R104). -/
def Obligations.EveryStepKeepsAirLaws : Prop :=
  ∀ s t : State, s.AirLaws → step s = .next t → t.AirLaws

/-- SET SLEW, SET LATE LIMIT and SET LOSS MODE set the one item each names, or are refused at index 1 where the value is out of
range, and change nothing else (R12, R100, R145). -/
def Obligations.ChannelSettingCommands : Prop :=
  ∀ (s : State) (p : PortNo) (c : ChanNo) (b : Tail), s.Serves p (.channel c) →
    (Intact 0x29 b → b.params.length = 2 →
      let n := 256 * natAt b.params 0 + natAt b.params 1
      (1 ≤ n → n ≤ 255 → exec (.setSlew p b) s =
        .next ((s.setPath c { (s.chan c).path with slewInterval := n }).sendGood p [])) ∧
      (n = 0 ∨ 255 < n → exec (.setSlew p b) s = .next (s.sendIllegal p 1))) ∧
    (Intact 0x17 b → b.params.length = 1 →
      let n := natAt b.params 0
      (n ≤ 250 → exec (.setLateLimit p b) s =
        .next ((s.setSched c { (s.chan c).sched with lateLimit := n }).sendGood p [byteOf n])) ∧
      (250 < n → exec (.setLateLimit p b) s = .next (s.sendIllegal p 1))) ∧
    (Intact 0x20 b → b.params.length = 1 →
      let n := natAt b.params 0
      (∀ m : LossMode, n = (match m with | .holdFade => 0 | .cut => 1 | .freeze => 2) →
        exec (.setLossMode p b) s = .next ((s.setPres c { (s.chan c).pres with loss := m }).sendGood p [byteOf n])) ∧
      (2 < n → exec (.setLossMode p b) s = .next (s.sendIllegal p 1)))

/-- CLEAR CHANNEL: the presenter is OFF with intent OFF and g 0, the cues and outcomes are gone, the zones inactive, the move ended
and re-placement pending; the visibility report of a presenter that was visible ends a pending release or completes a handover;
which each port entitled is told by an ASSIGNMENT notice; the OUTCOME and CONFLICT notices for the channel leave the issuing port;
everything else is kept (R76, R101, R113, R118, R161). -/
def Obligations.ClearChannelQuietsTheChannel : Prop :=
  ∀ (s : State) (p : PortNo) (c : ChanNo) (b : Tail), s.Serves p (.channel c) → Intact 0x21 b → b.params.length = 1 →
    let x := s.chan c
    let seen := x.pres.state.visible
    let a := if seen = true ∧ x.assign.releasePending = true then { x.assign with assigned := none, releasePending := false }
      else match x.assign.incoming with
        | some inc => if seen then { x.assign with assigned := some inc.booth, incoming := none } else x.assign
        | none => x.assign
    ∃ t, exec (.clearChannel p b) s = .next t ∧
      (t.chan c).pres = { x.pres with state := .off, intent := false, g := 0, fade := none, frozen := false } ∧
      (t.chan c).assign = a ∧ (t.chan c).sched = { x.sched with cues := [], ring := [], lost := false } ∧
      (t.chan c).path = x.path ∧ (t.chan c).pool = x.pool ∧
      (t.chan c).place = { x.place with zones := (t.chan c).place.zones, move := none, replace := true } ∧
      (∀ z : ZoneNo, (t.chan c).place.zones[z] = { x.place.zones[z] with active := false }) ∧
      (∀ d, d ≠ c → t.chan d = s.chan d) ∧ t = { s with chans := t.chans, ports := t.ports } ∧
      (let was := (s.port p).pending
       let told := seen && (x.assign.releasePending || x.assign.incoming.isSome)
       t.port p = ({ s.port p with
         pending := { was with
           outcome := was.outcome &&& ~~~BitVec.twoPow 4 c,
           conflict := was.conflict &&& ~~~BitVec.twoPow 4 c,
           assignment := if told then was.assignment ||| BitVec.twoPow 4 c else was.assignment } } : Port).sendGood [] false) ∧
      ∀ q, q ≠ p →
        t.port q = { s.port q with pending := { (s.port q).pending with assignment := (t.port q).pending.assignment } } ∧
        ∀ e : ChanNo, (t.port q).pending.assignment.getLsbD e =
          ((s.port q).pending.assignment.getLsbD e || (decide (e = c) && seen &&
            (x.assign.releasePending || x.assign.incoming.isSome) && (s.port q).role.any (fun r => r.hears (.assignment c))))

/-- ASSIGN BOOTH by the rows of the table of section 6.2, in order (R105 to R109). -/
def Obligations.AssignBoothByTheTable : Prop :=
  ∀ (s : State) (p : PortNo) (b : Tail), s.Serves p .studio → Intact 0x40 b → b.params.length = 3 →
    let nx := natAt b.params 2
    (3 < natAt b.params 0 → exec (.assignBooth p b) s = .next (s.sendIllegal p 1)) ∧
    (natAt b.params 0 ≤ 3 → 5 < natAt b.params 1 → exec (.assignBooth p b) s = .next (s.sendIllegal p 2)) ∧
    (natAt b.params 0 ≤ 3 → natAt b.params 1 ≤ 5 → 100 < nx → exec (.assignBooth p b) s = .next (s.sendIllegal p 3)) ∧
    ∀ (c : ChanNo) (n : BoothNo), natAt b.params 0 = c → natAt b.params 1 = n → nx ≤ 100 →
      let a := (s.chan c).assign
      let seen := (s.chan c).pres.state.visible
      let byte := fun o : Option BoothNo => match o with | some k => byteOf k | none => (0xFF : Byte)
      let data := fun x : Assign => [byte x.assigned, byte (x.incoming.map (·.booth))]
      let taken := fun x : Assign => Host.Outcome.next (φ := Fault) (ρ := Refusal)
        (((s.setAssign c x).raise (.assignment c)).sendGood p (data x))
      exec (.assignBooth p b) s =
        if a.assigned = some n then .next (s.sendGood p (data a))
        else if a.incoming.isSome = true ∨ a.releasePending = true then
          .next (s.sendCheck p .conflict .inTransition (some 1) true)
        else if seen = false then taken { a with assigned := some n }
        else if nx = 0 ∨ (s.booth n).health = .live then
          taken { a with incoming := some { booth := n, nx := nx, i := 0, h := 0 } }
        else .next (s.sendCheck p .conflict .boothNotLive (some 2))

/-- RELEASE BOOTH: no effect where no booth is assigned or a release is pending; the booth cleared at once where the presenter is
not visible; otherwise the handover abandoned, the release pending and a presenter that rises or is ON made to fall from its g with
the profile's fade frames (R98, R115). -/
def Obligations.ReleaseBoothByWhatItFinds : Prop :=
  ∀ (s : State) (p : PortNo) (b : Tail), s.Serves p .studio → Intact 0x41 b → b.params.length = 1 →
    (3 < natAt b.params 0 → exec (.releaseBooth p b) s = .next (s.sendIllegal p 1)) ∧
    ∀ c : ChanNo, natAt b.params 0 = c →
      let x := s.chan c
      let byte := fun o : Option BoothNo => match o with | some k => byteOf k | none => (0xFF : Byte)
      let n := (s.currentProfile c).fade
      let fall := { x.pres with
        state := .falling
        fade := some { rise := false, g0 := x.pres.g, n := n, m := max 1 ((n * x.pres.g + 255) / 256), i := 0 } }
      exec (.releaseBooth p b) s =
        if x.assign.assigned = none then .next (s.sendGood p [0xFF, if x.assign.releasePending then 1 else 0])
        else if x.assign.releasePending = true then .next (s.sendGood p [byte x.assign.assigned, 1])
        else if x.pres.state.visible = false then
          .next (((s.setAssign c { x.assign with assigned := none }).raise (.assignment c)).sendGood p [0xFF, 0])
        else
          .next ((((s.setAssign c { x.assign with incoming := none, releasePending := true }).setPres c
            (if x.pres.state = .falling then x.pres else fall)).raise (.assignment c)).sendGood p [byte x.assign.assigned, 1])

/-! ### Cue lists (chapter 7) -/

/-- ADD CUES: its stages of checks in order, each over all records, and a block that passes inserted record by record behind every
cue whose offset is less than or equal to its own, with the number of cues as reply; and the cue a valid record stands for (R121,
R122, R124, R125, R126). -/
def Obligations.AddCuesStagesInOrder : Prop :=
  ∀ (s : State) (p : PortNo) (c : ChanNo) (b : Tail), s.Serves p (.channel c) → Intact 0x10 b →
    let n := natAt b.params 0
    let field := fun i k : Nat => natAt b.params (1 + 16 * i + k)
    let cues := (List.range n).map (fun i => (rawCueAt b.params (1 + 16 * i)).cue s.rate)
    let d := (s.chan c).sched
    let ahead := fun q : Cue => signedOffset s.rate q.due (((s.chan c).path.outTc + 1) % s.rate.day)
    let inUse := fun (q : Cue) (i : Nat) => q.tag ∈ d.cues.map (·.tag) ∨ q.tag ∈ (cues.take i).map (·.tag)
    ((n = 0 ∨ 4 < n) → 1 ≤ b.params.length → b.params.length ≤ 69 → exec (.addCues p b) s = .next (s.sendIllegal p 0)) ∧
    (1 ≤ n → n ≤ 4 → b.params.length = 1 + 16 * n →
      (∀ i k : Nat, i < n → FirstFails (cueRanges s.rate (field i)) k →
        (∀ j, j < i → (cueRanges s.rate (field j)).all id = true) →
        exec (.addCues p b) s = .next (s.sendIllegal p ((i + 1) * 256 + (k + 1)))) ∧
      ((∀ i, i < n → (cueRanges s.rate (field i)).all id = true) →
        (∀ (i : Nat) (q : Cue), cues[i]? = some q →
          let v := windowOfRecord (fun k => field i (8 + k))
          q.tag = word (field i) 0 ∧
          q.due = ((field i 2 * 60 + field i 3) * 60 + field i 4) * s.rate.fps + field i 5 ∧
          some q.guard = guardList[field i 14]? ∧ q.fade = (if field i 15 = 255 then none else some (field i 15)) ∧
          (match q.action with
            | .presenterOn => field i 6 = 0
            | .presenterOff => field i 6 = 1
            | .selectProfile m => field i 6 = 2 ∧ field i 7 = m
            | .setZone z w => field i 6 = 3 ∧ field i 7 = z ∧ w = v
            | .clearZone z => field i 6 = 4 ∧ field i 7 = z
            | .setDelay m => field i 6 = 5 ∧ field i 7 = m
            | .mark => field i 6 = 6)) ∧
        (∀ (i : Nat) (q : Cue), cues[i]? = some q → (s.rate.day / 4 : Nat) < ahead q →
          (∀ (j : Nat) (r : Cue), j < i → cues[j]? = some r → ahead r ≤ (s.rate.day / 4 : Nat)) →
          exec (.addCues p b) s = .next (s.sendCheck p .illegal .beyondHorizon (some ((i + 1) * 256 + 2)))) ∧
        ((∀ q ∈ cues, ahead q ≤ (s.rate.day / 4 : Nat)) →
          (∀ (i : Nat) (q : Cue), cues[i]? = some q → inUse q i →
            (∀ (j : Nat) (r : Cue), j < i → cues[j]? = some r → ¬inUse r j) →
            exec (.addCues p b) s = .next (s.sendCheck p .conflict .duplicateTag (some q.tag))) ∧
          ((∀ (i : Nat) (q : Cue), cues[i]? = some q → ¬inUse q i) →
            (∀ (i : Nat) (q : Cue), cues[i]? = some q → ahead q < -(d.lateLimit : Int) →
              (∀ (j : Nat) (r : Cue), j < i → cues[j]? = some r → -(d.lateLimit : Int) ≤ ahead r) →
              exec (.addCues p b) s = .next (s.sendCheck p .conflict .alreadyPast (some q.tag))) ∧
            ((∀ q ∈ cues, -(d.lateLimit : Int) ≤ ahead q) →
              (32 < d.cues.length + n →
                exec (.addCues p b) s = .next (s.sendCheck p .resource .listFull (some (32 - d.cues.length)))) ∧
              (d.cues.length + n ≤ 32 →
                exec (.addCues p b) s = .next ((s.setSched c { d with
                  cues := cues.foldl (fun l q => l.takeWhile (fun h => s.offset c h ≤ s.offset c q) ++ q ::
                    l.dropWhile (fun h => s.offset c h ≤ s.offset c q)) d.cues }).sendGood p [byteOf (d.cues.length + n)])))))))

/-- A CHANNEL port alone may issue DROP CUE and FLUSH CUES. DROP CUE removes the cue with the tag and replies with the count, refuses
a tag of 0 at index 1 and a tag not in the list with NO SUCH TAG; FLUSH CUES empties the list and replies with the number removed;
neither writes an outcome or raises a notice (R127, R128). -/
def Obligations.DropAndFlushRemoveCues : Prop :=
  (∀ r : Role, (mayIssue .dropCue r = true ↔ ∃ c, r = .channel c) ∧
    (mayIssue .flushCues r = true ↔ ∃ c, r = .channel c)) ∧
  ∀ (s : State) (p : PortNo) (c : ChanNo) (b : Tail), s.Serves p (.channel c) →
    (Intact 0x11 b → b.params.length = 2 →
      let d := (s.chan c).sched
      let tag := 256 * natAt b.params 0 + natAt b.params 1
      (tag = 0 → exec (.dropCue p b) s = .next (s.sendIllegal p 1)) ∧
      (tag ≠ 0 → (∀ q ∈ d.cues, q.tag ≠ tag) →
        exec (.dropCue p b) s = .next (s.sendCheck p .noTarget .noSuchTag (some tag))) ∧
      ∀ before q after, tag ≠ 0 → d.cues = before ++ q :: after → q.tag = tag → (∀ r ∈ before, r.tag ≠ tag) →
        exec (.dropCue p b) s = .next ((s.setSched c { d with cues := before ++ after }).sendGood p
          [byteOf (before.length + after.length)])) ∧
    (Intact 0x12 b → b.params.length = 1 →
      exec (.flushCues p b) s =
        .next ((s.setSched c { (s.chan c).sched with cues := [] }).sendGood p [byteOf (s.chan c).sched.cues.length]))

/-- LIST CUES, from the channel's port or from a MONITOR port that names the channel, and FIND CUE and READ OUTCOMES, from the
channel's port alone, report the list and the ring as they stand; LIST CUES and FIND CUE change nothing, and READ OUTCOMES removes
the oldest six records and clears the outcomes-lost flag when it leaves the ring empty; cue and outcome records stand byte by byte
(R139, R141, R142, R177 to R179, section 10.3). That the lowest index is
told where several parameters are out of range is notes/assumptions/30.md. -/
def Obligations.ListFindAndReadOutcomes : Prop :=
  (∀ r : Role, (mayIssue .listCues r = true ↔ (∃ c, r = .channel c) ∨ r = .monitor) ∧
    (mayIssue .findCue r = true ↔ ∃ c, r = .channel c) ∧ (mayIssue .readOutcomes r = true ↔ ∃ c, r = .channel c)) ∧
  guardList.map Guard.toByte = [0, 1, 2, 3, 4, 5, 6] ∧
  [OutcomeKind.done, .skipped, .missed, .failed].map OutcomeKind.toByte = [0, 1, 2, 3] ∧
  ∀ (s : State) (p : PortNo) (c : ChanNo) (b : Tail),
    let d := (s.chan c).sched
    let f := s.rate.fps
    let tc := fun n : Nat => [byteOf (n / (3600 * f)), byteOf (n / (60 * f) % 60), byteOf (n / f % 60), byteOf (n % f)]
    let what := fun a : Action => match a with
      | .presenterOn => [0, 0, 0, 0, 0, 0, 0, 0]
      | .presenterOff => [1, 0, 0, 0, 0, 0, 0, 0]
      | .selectProfile n => [2, byteOf n, 0, 0, 0, 0, 0, 0]
      | .setZone z w => [3, byteOf z, byteOf (w.x / 16), byteOf (w.x % 16 * 16 + w.w / 256), byteOf w.w, byteOf (w.y / 16),
          byteOf (w.y % 16 * 16 + w.h / 256), byteOf w.h]
      | .clearZone z => [4, byteOf z, 0, 0, 0, 0, 0, 0]
      | .setDelay n => [5, byteOf n, 0, 0, 0, 0, 0, 0]
      | .mark => [6, 0, 0, 0, 0, 0, 0, 0]
    let entry := fun q : Cue => be16 q.tag ++ tc q.due ++ what q.action ++
      [q.guard.toByte, (match q.fade with | some n => byteOf n | none => 0xFF)] ++
      be32 (BitVec.ofInt 32 (signedOffset s.rate q.due (s.chan c).path.outTc))
    (∀ i : Nat, s.Serves p (.channel c) ∧ i = 0 ∨ s.Serves p .monitor ∧ natAt b.params 0 = c ∧ i = 1 →
      Intact 0x13 b → b.params.length = i + 2 →
      let start := natAt b.params i
      let count := natAt b.params (i + 1)
      let shown := (d.cues.drop (start - 1)).take (if count = 0 then 4 else count)
      (start = 0 ∨ 32 < start → exec (.listCues p b) s = .next (s.sendIllegal p (i + 1))) ∧
      (1 ≤ start → start ≤ 32 → 4 < count → exec (.listCues p b) s = .next (s.sendIllegal p (i + 2))) ∧
      (1 ≤ start → start ≤ 32 → count ≤ 4 →
        exec (.listCues p b) s = .next (s.sendGood p
          ([byteOf d.cues.length, byteOf start, byteOf shown.length] ++ shown.flatMap entry)))) ∧
    (s.Serves p .monitor → Intact 0x13 b → b.params.length = 3 → 3 < natAt b.params 0 →
      exec (.listCues p b) s = .next (s.sendIllegal p 1)) ∧
    (s.Serves p (.channel c) → Intact 0x14 b → b.params.length = 3 →
      let kind := natAt b.params 0
      let guard := natAt b.params 1
      let invert := (b.params.getD 2 0).getLsbD 0
      let fits := fun q : Cue => (kind = 255 ∨ q.action.kind = kind) ∧ (guard = 255 ∨ q.guard.toByte.toNat = guard)
      (6 < kind → kind ≠ 255 → exec (.findCue p b) s = .next (s.sendIllegal p 1)) ∧
      (kind ≤ 6 ∨ kind = 255 → 6 < guard → guard ≠ 255 → exec (.findCue p b) s = .next (s.sendIllegal p 2)) ∧
      (kind ≤ 6 ∨ kind = 255 → guard ≤ 6 ∨ guard = 255 →
        (∀ before q after, d.cues = before ++ q :: after → (fits q ↔ invert = false) →
          (∀ r ∈ before, ¬(fits r ↔ invert = false)) →
          exec (.findCue p b) s = .next (s.sendGood p (byteOf (before.length + 1) :: entry q) true)) ∧
        ((∀ r ∈ d.cues, ¬(fits r ↔ invert = false)) → exec (.findCue p b) s = .next (s.sendGood p [0])))) ∧
    (s.Serves p (.channel c) → Intact 0x16 b → b.params.length = 1 →
      exec (.readOutcomes p b) s =
        .next ((s.setSched c { d with ring := d.ring.drop 6, lost := if d.ring.length ≤ 6 then false else d.lost }).sendGood p
          ([if d.lost then 1 else 0, byteOf (min 6 d.ring.length), byteOf (d.ring.length - 6)] ++
            (d.ring.take 6).flatMap (fun o => be16 o.tag ++ [o.outcome.toByte] ++ tc o.outTc ++ [byteOf o.lateness]))))

/-- TAKE NOW of a zone, profile, delay or MARK action: refused at the first field at fault, refused with GUARD FALSE, or carried out
at once; a SELECT PROFILE of an undefined profile is refused with PROFILE UNDEFINED and changes nothing; a SET DELAY grants as SET
DELAY does; and when each guard is true (R14 to R18, R63 to R65, R122, R131, R143). -/
def Obligations.TakeNowActsAtOnce : Prop :=
  ∀ (s : State) (p : PortNo) (c : ChanNo) (b : Tail), s.Serves p (.channel c) → Intact 0x15 b → b.params.length = 10 →
    let field := natAt b.params
    let v := windowOfRecord (fun k => field (2 + k))
    let x := s.chan c
    let pl := x.place
    let usable := x.assign.assigned.any (fun o => (s.booth o).health = .live ∨ (s.booth o).health = .held)
    let seen := x.pres.state = .rising ∨ x.pres.state = .on ∨ x.pres.state = .falling
    (s.guardHolds c .always = true ∧ (s.guardHolds c .feedUsable = usable) ∧ (s.guardHolds c .feedNotUsable = !usable) ∧
      (s.guardHolds c .assigned = x.assign.assigned.isSome) ∧ (s.guardHolds c .visible = decide seen) ∧
      (s.guardHolds c .notVisible = !decide seen) ∧ (s.guardHolds c .noConflict = !pl.conflict)) ∧
    (∀ k, FirstFails (actionRanges field) k → exec (.takeNow p b) s = .next (s.sendIllegal p (k + 1))) ∧
    ∀ g : Guard, (actionRanges field).all id = true → guardList[field 8]? = some g →
      (s.guardHolds c g = false → exec (.takeNow p b) s = .next (s.sendCheck p .conflict .guardFalse (some 7))) ∧
      (s.guardHolds c g = true →
        (field 0 = 6 → exec (.takeNow p b) s = .next (s.sendGood p [])) ∧
        (∀ z : ZoneNo, field 0 = 3 → field 1 = z → exec (.takeNow p b) s = .next ((s.setPlace c { pl with
          zones := pl.zones.set z { active := true, window := ⟨v.x, v.y, min v.w (1920 - v.x), min v.h (1080 - v.y)⟩ },
          replace := true }).sendGood p [])) ∧
        (∀ z : ZoneNo, field 0 = 4 → field 1 = z → exec (.takeNow p b) s = .next ((s.setPlace c { pl with
          zones := pl.zones.set z { pl.zones[z] with active := false }, replace := true }).sendGood p [])) ∧
        (∀ n : ProfNo, field 0 = 2 → field 1 = n →
          ((s.profile n).defined = true →
            exec (.takeNow p b) s = .next ((s.setPlace c { pl with profile := n, replace := true }).sendGood p [])) ∧
          ((s.profile n).defined = false →
            exec (.takeNow p b) s = .next (s.sendCheck p .noTarget .profileUndefined (some n)))) ∧
        (field 0 = 5 → ∃ t, exec (.takeNow p b) s = .next t ∧ s.SetsTarget c (field 1) t ∧
          t = { s with chans := t.chans, ports := t.ports } ∧
          t.port p = ({ s.port p with pending := (t.port p).pending } : Port).sendGood
            [byteOf (field 1), byteOf (t.chan c).pool.granted] false ∧
          ∀ o, o ≠ p → t.port o = { s.port o with pending := (t.port o).pending }))

/-- TAKE NOW of a presenter action sets the intent and changes the presenter state by the tables of R82 and R83; a fade it begins
takes the override where present, else the profile's fade frames, and its step count by R86 or R87 (R82, R83, R84, R143). -/
def Obligations.TakeNowPresenterActions : Prop :=
  ∀ (s : State) (p : PortNo) (c : ChanNo) (b : Tail) (g : Guard), s.Serves p (.channel c) → Intact 0x15 b → b.params.length = 10 →
    (actionRanges (natAt b.params)).all id = true → guardList[natAt b.params 8]? = some g → s.guardHolds c g = true →
    let x := (s.chan c).pres
    let pending := (s.chan c).assign.releasePending
    let n := if natAt b.params 9 = 255 then (s.currentProfile c).fade else natAt b.params 9
    let usable := s.feedUsable c
    let rise := fun from' : Nat => { x with
      intent := true, state := .rising, g := from',
      fade := some { rise := true, g0 := from', n := n, m := max 1 ((n * (256 - from') + 255) / 256), i := 0 } }
    let result := fun q : Presenter => Host.Outcome.next (φ := Fault) (ρ := Refusal) ((s.setPres c q).sendGood p [])
    (natAt b.params 0 = 0 → exec (.takeNow p b) s = result
      (match x.state with
       | .off => if usable then rise 0 else { x with intent := true, state := .waitFeed }
       | .waitFeed => { x with intent := true }
       | .rising => { x with intent := true }
       | .on => { x with intent := true }
       | .falling => if usable = true ∧ pending = false then rise x.g else { x with intent := true })) ∧
    (natAt b.params 0 = 1 → exec (.takeNow p b) s = result
      (match x.state with
       | .off => { x with intent := false }
       | .waitFeed => { x with intent := false, state := .off }
       | .falling => { x with intent := false }
       | _ => { x with intent := false, state := .falling,
                       fade := some { rise := false, g0 := x.g, n := n, m := max 1 ((n * x.g + 255) / 256), i := 0 } }))

/-- After every dispatch each cue that remains is ahead of T by between 1 and D/4 + 1 frames, stands in order of offset, and was in
the list before; and of each number of frames ahead from 1 to D/4 + 1 every cue remains, in the order in which they stood. The signed
offset lies in -D/2 to D/2 - 1 and is congruent to the due frame less T mod D (00_scope.md; R123, R129, R130, R133). -/
def Obligations.DispatchLeavesCuesAhead : Prop :=
  (∀ (r : Rate) (u n : Nat),
    let o := signedOffset r u n
    let d : Int := if r = .f25 then 2160000 else 4320000
    o ≤ d / 2 - 1 ∧ -(d / 2) ≤ o ∧ (o - ((u : Int) - n)) % d = 0) ∧
  (∀ (s : State) (c : ChanNo) (q : Cue), s.offset c q = signedOffset s.rate q.due (s.chan c).path.outTc) ∧
  ∀ (s : State) (c : ChanNo) (i : Instr) (f : InputFrame), FrameStarts s c i f →
    ∃ t, exec i s = .next t ∧ (t.chan c).sched.cues.Pairwise (fun a b => t.offset c a ≤ t.offset c b) ∧
      (∀ q ∈ (t.chan c).sched.cues, q ∈ (s.chan c).sched.cues ∧ 1 ≤ t.offset c q ∧ t.offset c q ≤ (s.rate.day / 4 : Nat) + 1) ∧
      ∀ k : Int, 1 ≤ k → k ≤ (s.rate.day / 4 : Nat) + 1 →
        (t.chan c).sched.cues.filter (fun q => t.offset c q = k) = (s.chan c).sched.cues.filter (fun q => t.offset c q = k)

/-- A dispatch deals with every cue due in order of offset, cues of equal offset as they stood, and then with every cue stranded beyond
D/4 + 1 frames: each has one outcome, MISSED past the late limit, MISSED with lateness 0 where it is stranded, else DONE, SKIPPED or
FAILED. The records go behind the ring while it holds fewer than 16, and from then on they are lost and the outcomes-lost flag is set;
an OUTCOME notice tells any outcome. The first cue due, if it is not past the late limit, is SKIPPED on a false guard, else FAILED for
a SELECT PROFILE of an undefined profile and DONE for every other action. The action of a cue that is due alone acts where its outcome
is DONE, on the zones, the profile, the delay target or the intent and presenter state, and nothing of them changes where it is not
(R129 to R133, R137, R138, R140). -/
def Obligations.DueCueHasOneOutcome : Prop :=
  ∀ (s : State) (c : ChanNo) (i : Instr) (f : InputFrame), FrameStarts s c i f →
    ∃ t out, exec i s = .next t ∧
      (let x := s.chan c
       let y := t.chan c
       let late := fun q : Cue => (-(t.offset c q)).toNat
       let sorted := x.sched.cues.insertionSort (fun a b => t.offset c a ≤ t.offset c b)
       let due := sorted.filter (fun q => t.offset c q ≤ 0)
       let refused := fun a : Action => ∃ n, a = .selectProfile n ∧ (s.profile n).defined = false
       DispatchWrites x.sched.lateLimit y.path.outTc late due (sorted.filter (fun q => (s.rate.day / 4 : Nat) + 1 < t.offset c q)) out ∧
       y.sched.ring = (x.sched.ring ++ out).take (max 16 x.sched.ring.length) ∧
       (y.sched.lost = true ↔ x.sched.lost = true ∨ out ≠ [] ∧ 16 < x.sched.ring.length + out.length) ∧
       y.sched.lateLimit = x.sched.lateLimit ∧
       (∀ p : PortNo, (t.port p).pending.outcome.getLsbD c = ((s.port p).pending.outcome.getLsbD c ||
         ((s.port p).role.any (fun r => r.hears (.outcome c)) && !out.isEmpty))) ∧
       (∀ q, due.head? = some q → late q ≤ x.sched.lateLimit →
         (s.guardHolds c q.guard = false → out.head?.map (·.outcome) = some .skipped) ∧
         (s.guardHolds c q.guard = true → refused q.action → out.head?.map (·.outcome) = some .failed) ∧
         (s.guardHolds c q.guard = true → ¬refused q.action → out.head?.map (·.outcome) = some .done)) ∧
       ∀ q, due = [q] →
         let placed := fun pl : Place => y.place = pl.step (s.profile pl.profile)
           (decide (y.pres.state = .rising ∨ y.pres.state = .on ∨ y.pres.state = .falling))
         (out.head?.map (·.outcome) ≠ some .done →
           placed x.place ∧ y.pool.target = x.pool.target ∧ y.pres.intent = x.pres.intent) ∧
         (out.head?.map (·.outcome) = some .done →
           (∀ z w, q.action = .setZone z w → placed { x.place with
             zones := x.place.zones.set z { active := true, window := ⟨w.x, w.y, min w.w (1920 - w.x), min w.h (1080 - w.y)⟩ }
             replace := true }) ∧
           (∀ z, q.action = .clearZone z → placed { x.place with
             zones := x.place.zones.set z { x.place.zones[z] with active := false }, replace := true }) ∧
           (∀ n, q.action = .selectProfile n → placed { x.place with profile := n, replace := true }) ∧
           (q.action.kind = 0 ∨ q.action.kind = 1 ∨ q.action.kind = 5 ∨ q.action.kind = 6 → placed x.place) ∧
           (∀ d, q.action = .setDelay d → y.pool.target = d ∧ y.pool.clamped = decide (y.pool.granted < d) ∧
             (x.path.bypass = true ∨ x.path.line.length = x.pool.granted →
               y.pool.granted = min d (480 - (s.reserved - x.reservation)))) ∧
           (q.action.kind ≠ 5 → y.pool.target = x.pool.target) ∧
           (q.action.kind = 0 → y.pres.intent = true) ∧ (q.action.kind = 1 → y.pres.intent = false) ∧
           (2 ≤ q.action.kind → y.pres.intent = x.pres.intent) ∧
           let n := q.fade.getD (s.currentProfile c).fade
           (q.action = .presenterOn → x.pres.state = .off → x.assign.incoming = none →
             (s.feedUsable c = false → y.pres.state = .waitFeed) ∧
             (s.feedUsable c = true → n ≤ 1 → y.pres.state = .on ∧ y.pres.g = 256 ∧ y.pres.fade = none) ∧
             (s.feedUsable c = true → 2 ≤ n → y.pres.state = .rising ∧ y.pres.g = (512 + n) / (2 * n) ∧
               y.pres.fade = some { rise := true, g0 := 0, n := n, m := n, i := 1 })) ∧
           (q.action = .presenterOff → x.pres.state = .on → x.pres.g = 256 → x.assign.incoming = none → s.feedUsable c = true →
             (n ≤ 1 → y.pres.state = .off ∧ y.pres.g = 0 ∧ y.pres.fade = none) ∧
             (2 ≤ n → y.pres.state = .falling ∧ y.pres.g = 256 - (512 + n) / (2 * n) ∧
               y.pres.fade = some { rise := false, g0 := 256, n := n, m := n, i := 1 }))))

/-- The laws of the cue schedulers are kept by every step of the part (R121, R123, R138, R139, R146). -/
def Obligations.EveryStepKeepsCueLaws : Prop :=
  ∀ s t : State, s.CueLaws → step s = .next t → t.CueLaws

/-! ### Control ports (chapter 8) -/

/-- The tests of an accepted block in the order of R151, for every command row, for a block of an unknown command and for one with
length byte 0, with what each test answers. A refused block sets the port's sense record, and nothing else in the part changes. Test 7
asks the table of the commands by role (R155), and test 8 the body lengths of section 10.2, which stand here command by command. -/
def Obligations.BlockTestsInOrder : Prop :=
  (∀ (k : Command) (r : Role), mayIssue k r = true ↔
    r ≠ .idle ∧ (k ∈ [Command.identify, .readSense, .readNotices, .setNoticeMask, .channelState] ∨
      (k ∈ [Command.addCues, .dropCue, .flushCues, .findCue, .takeNow, .readOutcomes, .setLateLimit, .listCues, .setDelay, .setSlew,
        .setLossMode, .clearChannel] ∧ ∃ c, r = .channel c) ∨
      (k ∈ [Command.writeBooth, .setSlotMask, .assignBooth, .releaseBooth, .readBooth, .boothState, .writeProfile, .readProfile,
        .writePortRoles, .storeSettings, .resetUnit] ∧ r = .studio) ∨
      (k ∈ [Command.listCues, .readBooth, .boothState, .readProfile] ∧ r = .monitor))) ∧
  (∀ (k : Command) (r : Role) (l : List Byte), mayIssue k r = true → formLength k r l =
    if k = .addCues then (if 1 ≤ natAt l 0 ∧ natAt l 0 ≤ 4 then [none, some 18, some 34, some 50, some 66].getD (natAt l 0) none else none)
    else if k = .listCues ∧ r = .monitor then some 4
    else if k ∈ [Command.setNoticeMask, .dropCue, .listCues, .setSlew] then some 3
    else if k ∈ [Command.findCue, .assignBooth] then some 4
    else if k = .writePortRoles then some 7
    else if k = .takeNow then some 11
    else if k = .writeBooth then some 18
    else if k = .writeProfile then some 29
    else some 2) ∧
  ∀ (s : State) (p : PortNo) (code : Byte) (b : Tail), (s.port p).trans = .free → b.params.length ≤ 254 →
    let role := (s.port p).role.getD .idle
    let len := b.params.length + 1
    let refused := fun (k : SenseKey) (e : SenseCode) (info : Option Nat) (busy : Bool) =>
      Host.Outcome.next (φ := Fault) (ρ := Refusal) (s.sendCheck p k e info busy)
    let early :=
      if s.loader.phase = .starting then some (refused .notReady .starting none true)
      else if role = .idle then some (refused .notPermitted .portIdle none false)
      else if b.damaged = true then some (refused .link .byteFraming none false)
      else if (tailBlock code b).sum ≠ 0 then some (refused .link .badCheck none false)
      else if len < 2 ∨ 70 < len then some (refused .illegal .badLength (some len) false)
      else none
    (Command.ofCode code = none →
      exec (.unknownCommand p code b) s = early.getD (refused .illegal .unknownCommand (some code.toNat) false)) ∧
    (∀ (check : Byte) (damaged : Bool),
      exec (.badLengthBlock p check damaged) s =
        if s.loader.phase = .starting then refused .notReady .starting none true
        else if role = .idle then refused .notPermitted .portIdle none false
        else if damaged = true then refused .link .byteFraming none false
        else if check ≠ 0 then refused .link .badCheck none false
        else refused .illegal .badLength (some 0) false) ∧
    ∀ k : Command, code = k.code →
      (∀ o, early = some o → exec (k.instr p b) s = o) ∧
      (early = none →
        (mayIssue k role = false → exec (k.instr p b) s = refused .notPermitted .wrongRole (some code.toNat) false) ∧
        (mayIssue k role = true → (∃ n, formLength k role b.params = some n ∧ n ≠ len) →
          exec (k.instr p b) s = refused .illegal .badLength (some len) false))

/-- A block refused at its port has not acted: where a command row completes at a port that was FREE and leaves that port's sense
record other than NONE, the state is as it was but for the port's receive state, its reply and its sense record (R151, R153). -/
def Obligations.RefusedBlockHasNotActed : Prop :=
  ∀ (s t : State) (p : PortNo) (k : Command) (b : Tail), (s.port p).trans = .free → exec (k.instr p b) s = .next t →
    (t.port p).sense ≠ senseNone →
    t = s.setPort p { s.port p with recv := .seek, trans := (t.port p).trans, sense := (t.port p).sense }

/-- A block that completes while its port is ANSWERING is discarded whole, a gap inside a block abandons it, and each changes the
receive state alone (R149, R150). That a reply's end, a start-up's end and a store's end change nothing where none is under way is
notes/assumptions/14.md. -/
def Obligations.OverlapAndGapDiscard : Prop :=
  ∀ (s : State) (p : PortNo),
    (∀ (r : Option (List Byte)) (code : Byte) (b : Tail), (s.port p).trans = .answering r →
      exec (.overlappedBlock p code b) s = .next (s.setPort p { s.port p with recv := .seek })) ∧
    exec (.blockGapTimeout p) s = .next (s.setPort p { s.port p with recv := .seek }) ∧
    ((s.port p).trans = .free ∨ (s.port p).trans = .answering none → exec (.replySent p) s = .next s) ∧
    (s.loader.phase.isStarting = false → ∀ m, exec (.startUpComplete m) s = .next s) ∧
    ((∀ q k, s.loader.phase ≠ .storing q k) → ∀ m, exec (.storeComplete m) s = .next s)

/-- The start byte, the length byte, the code, the parameters and the check byte, received one after another at a port in SEEK, leave
the part as the row of that block does: its command's, UNKNOWN_COMMAND's, or with length byte 0 BAD_LENGTH_BLOCK's; a framing fault in
any byte after the start byte makes it a damaged block. Any other byte received in SEEK, or one with a framing fault, is discarded
(R147, R148). That a block's row is its last byte and everything that follows from it, in one step, is notes/assumptions/12.md. -/
def Obligations.BytesReceivedMakeABlock : Prop :=
  ∀ (s : State) (p : PortNo), (s.port p).recv = .seek →
    (∀ (code : Byte) (b : Tail) (noStop : List Bool), b.params.length ≤ 254 → noStop.length = b.params.length + 3 →
      b.damaged = noStop.any id →
      let bytes := (0xA5, false) :: (byteOf (b.params.length + 1) :: code :: (b.params ++ [b.check])).zip noStop
      (∀ k : Command, code = k.code → receiveBytes p bytes s = exec (k.instr p b) s) ∧
      (Command.ofCode code = none → receiveBytes p bytes s = exec (.unknownCommand p code b) s)) ∧
    (∀ (check : Byte) (f g : Bool),
      receiveBytes p [(0xA5, false), (0x00, f), (check, g)] s = exec (.badLengthBlock p check (f || g)) s) ∧
    ∀ (x : Byte) (noStop : Bool), x ≠ 0xA5 ∨ noStop = true → exec (.controlByteReceived p x noStop) s = .next s

/-- IDENTIFY, READ SENSE and CHANNEL STATE report and change nothing: the identification, the sense record the previous block left,
and the state of the port's own channel, or of the channel a STUDIO or MONITOR port names, with its flags byte bit by bit; and the
numbers of every enumeration in them (R154, R162, R163, R178, R179, sections 10.3 and 10.4). That h is sent as 0 while there is no incoming booth is notes/assumptions/29.md. -/
def Obligations.PortReportsChangeNothing : Prop :=
  [PState.off, .rising, .on, .falling, .waitFeed].map PState.toByte = [0, 1, 2, 3, 4] ∧
  [LossMode.holdFade, .cut, .freeze].map LossMode.toByte = [0, 1, 2] ∧ roleList.map Role.toByte = [0, 1, 2, 3, 4, 5, 6] ∧
  [SenseKey.none, .notReady, .illegal, .notPermitted, .noTarget, .conflict, .resource, .link, .storeFailed].map SenseKey.toByte =
    [0, 1, 2, 3, 4, 5, 6, 7, 8] ∧
  [SenseCode.none, .starting, .unknownCommand, .badLength, .outOfRange, .beyondHorizon, .portIdle, .wrongRole, .noSuchTag,
    .profileUndefined, .duplicateTag, .alreadyPast, .guardFalse, .slotInUse, .profileZero, .inTransition, .boothNotLive,
    .duplicateRole, .listFull, .byteFraming, .badCheck, .verifyFailed].map SenseCode.toByte =
    [0x00, 0x01, 0x10, 0x11, 0x12, 0x13, 0x20, 0x21, 0x30, 0x31, 0x40, 0x41, 0x42, 0x43, 0x44, 0x45, 0x46, 0x47, 0x50, 0x60, 0x61,
      0x70] ∧
  ∀ (s : State) (p : PortNo) (role : Role) (b : Tail), role ≠ .idle → s.Serves p role → b.params.length = 1 →
    (Intact 0x01 b → exec (.identify p b) s = .next (s.sendGood p
      [0x4B, 0x02, 0x80, 0x01, byteOf p, role.toByte, byteOf s.rate.fps,
        (if s.loader.defaulted then 1 else 0) ||| (if s.loader.rolesPending then 2 else 0)])) ∧
    (Intact 0x02 b → exec (.readSense p b) s =
      let e := (s.port p).sense
      .next (s.sendGood p ([e.key.toByte, e.code.toByte, if e.info.isSome then 1 else 0] ++ be32 (e.info.getD 0)))) ∧
    (Intact 0x05 b →
      (∀ c : ChanNo, (role = .channel c ∨ (role = .studio ∨ role = .monitor) ∧ natAt b.params 0 = c) →
        let x := s.chan c
        let byte := fun o : Option BoothNo => match o with | some k => byteOf k | none => (0xFF : Byte)
        let n := x.path.outTc
        let r := s.rate.fps
        (∀ k : Fin 8, x.flags.getLsbD k = [x.pres.intent, x.pres.frozen, x.assign.releasePending, x.place.move.isSome,
          x.place.conflict, x.sched.lost, x.path.locked, x.path.flywheel].getD k false) ∧
        exec (.channelState p b) s = .next (s.sendGood p
          ([x.pres.state.toByte, x.flags] ++ be16 x.pres.g ++
            [x.pres.loss.toByte, byte x.assign.assigned, byte (x.assign.incoming.map (·.booth))] ++
            be16 ((x.assign.incoming.map (·.h)).getD 0) ++ [byteOf x.place.profile] ++ be16 x.place.shown.x ++
            be16 x.place.shown.y ++ [byteOf x.place.shown.f, byteOf x.sched.cues.length, byteOf x.sched.ring.length,
              byteOf x.pool.target, byteOf x.pool.granted, byteOf x.path.line.length, byteOf (n / (3600 * r)),
              byteOf (n / (60 * r) % 60), byteOf (n / r % 60), byteOf (n % r)]))) ∧
      (role = .studio ∨ role = .monitor → 3 < natAt b.params 0 → exec (.channelState p b) s = .next (s.sendIllegal p 1)))

/-- READ NOTICES returns the pending set and empties it, so the attention line is released; SET NOTICE MASK sets the enabled set, or
refuses a kind the part does not have at index 1; neither touches anything else; a reply's status byte has bits CHECK, BUSY,
MATCH and NOTICE, the last, with the attention line, while the pending and the enabled set share a kind; and which notices a port of
each role is entitled to (R152, R157, R158, R159, R160). -/
def Obligations.NoticeCommands : Prop :=
  (∀ (r : Role) (c : ChanNo) (o : BoothNo), r.hears .start = true ∧
    (∀ e ∈ [Notice.outcome c, .feed c, .profile c, .delay c, .conflict c],
      r.hears e = true ↔ r = .channel c ∨ r = .monitor) ∧
    (r.hears (.assignment c) = true ↔ r = .channel c ∨ r = .studio ∨ r = .monitor) ∧
    (r.hears (.booth o) = true ↔ r = .studio ∨ r = .monitor)) ∧
  ∀ (s : State) (p : PortNo) (role : Role) (b : Tail), role ≠ .idle → s.Serves p role →
    (∀ (q : Port) (busy found : Bool) (k : Fin 8), (q.status busy found).getLsbD k =
      [decide (q.sense.key ≠ .none), busy, found, q.attention].getD k false) ∧
    (∀ q : Port, q.attention = true ↔ ∃ k : Fin 8, q.enabled.getLsbD k = true ∧
      [q.pending.start, q.pending.outcome != 0, q.pending.feed != 0, q.pending.assignment != 0, q.pending.profile != 0,
        q.pending.delay != 0, q.pending.conflict != 0, q.pending.booth != 0].getD k false = true) ∧
    (Intact 0x03 b → b.params.length = 1 →
      let n := (s.port p).pending
      ∃ t, exec (.readNotices p b) s = .next t ∧
        t = (s.setPort p { s.port p with pending := noNotices }).sendGood p
          [n.kinds, n.outcome.zeroExtend 8, n.feed.zeroExtend 8, n.assignment.zeroExtend 8, n.profile.zeroExtend 8,
            n.delay.zeroExtend 8, n.conflict.zeroExtend 8, n.booth.zeroExtend 8] ∧
        (t.port p).attention = false) ∧
    (Intact 0x04 b → b.params.length = 2 →
      (natAt b.params 0 = 0 → ∃ t, exec (.setNoticeMask p b) s = .next t ∧
        t = (s.setPort p { s.port p with enabled := b.params.getD 1 0 }).sendGood p b.params ∧
        (t.port p).attention = ((s.port p).pending.kinds &&& b.params.getD 1 0 != 0)) ∧
      (natAt b.params 0 ≠ 0 → exec (.setNoticeMask p b) s = .next (s.sendIllegal p 1)))

/-- The laws of the ports are kept by every step of the part (R155, R167, R169, R174). -/
def Obligations.EveryStepKeepsPortLaws : Prop :=
  ∀ s t : State, s.PortLaws → step s = .next t → t.PortLaws

/-- The configuration memory keeps its canonical form in every step of the part. -/
def Obligations.EveryStepKeepsMemoryForm : Prop :=
  ∀ s t : State, Memory.wf s.memory = true → step s = .next t → Memory.wf t.memory = true
end

