-- ==== Sys2Proof/Laws/State.lean ====
section
/-!
SUPPORT. What each update of the state leaves in each field, so that no later proof unfolds a record update; and when two states
are equal.
-/
namespace Sys2Proof.Machine

/-- Two states are equal when every accessor reads the same in both. -/
theorem State.ext_accessors {s t : State} (rate : s.rate = t.rate) (chan : ∀ c, s.chan c = t.chan c)
    (booth : ∀ b, s.booth b = t.booth b) (slotMask : s.slotMask = t.slotMask) (linkInFrame : s.linkInFrame = t.linkInFrame)
    (profile : ∀ n, s.profile n = t.profile n) (port : ∀ p, s.port p = t.port p) (loader : s.loader = t.loader)
    (memory : s.memory = t.memory) (pending : s.pending = t.pending) : s = t := by
  obtain ⟨r, cs, bs, m, l, ps, qs, ld, mem, pd⟩ := s
  obtain ⟨r', cs', bs', m', l', ps', qs', ld', mem', pd'⟩ := t
  have hc : cs = cs' := Vector.ext fun i h => chan ⟨i, h⟩
  have hb : bs = bs' := Vector.ext fun i h => booth ⟨i, h⟩
  have hp : ps = ps' := Vector.ext fun i h => profile ⟨i, h⟩
  have hq : qs = qs' := Vector.ext fun i h => port ⟨i, h⟩
  simp_all

/-- Reading a vector of any of the repeated blocks after one of them was replaced. -/
theorem vector_set_get {α : Type} {n : Nat} (v : Vector α n) (i j : Fin n) (x : α) :
    (v.set i x)[j] = if j = i then x else v[j] := by
  by_cases h : j = i
  · subst h; simp
  · have : i.val ≠ j.val := fun e => h (Fin.ext e.symm)
    simp [h, this]


/-! ### setChan -/

@[simp] theorem State.rate_setChan (s : State) (i : ChanNo) (x : Channel) : (s.setChan i x).rate = s.rate := rfl
@[simp] theorem State.booths_setChan (s : State) (i : ChanNo) (x : Channel) : (s.setChan i x).booths = s.booths := rfl
@[simp] theorem State.booth_setChan (s : State) (i : ChanNo) (x : Channel) (j : BoothNo) : (s.setChan i x).booth j = s.booth j := rfl
@[simp] theorem State.slotMask_setChan (s : State) (i : ChanNo) (x : Channel) : (s.setChan i x).slotMask = s.slotMask := rfl
@[simp] theorem State.linkInFrame_setChan (s : State) (i : ChanNo) (x : Channel) : (s.setChan i x).linkInFrame = s.linkInFrame := rfl
@[simp] theorem State.profiles_setChan (s : State) (i : ChanNo) (x : Channel) : (s.setChan i x).profiles = s.profiles := rfl
@[simp] theorem State.profile_setChan (s : State) (i : ChanNo) (x : Channel) (j : ProfNo) : (s.setChan i x).profile j = s.profile j := rfl
@[simp] theorem State.ports_setChan (s : State) (i : ChanNo) (x : Channel) : (s.setChan i x).ports = s.ports := rfl
@[simp] theorem State.port_setChan (s : State) (i : ChanNo) (x : Channel) (j : PortNo) : (s.setChan i x).port j = s.port j := rfl
@[simp] theorem State.loader_setChan (s : State) (i : ChanNo) (x : Channel) : (s.setChan i x).loader = s.loader := rfl
@[simp] theorem State.memory_setChan (s : State) (i : ChanNo) (x : Channel) : (s.setChan i x).memory = s.memory := rfl
@[simp] theorem State.pending_setChan (s : State) (i : ChanNo) (x : Channel) : (s.setChan i x).pending = s.pending := rfl

theorem State.chan_setChan (s : State) (i : ChanNo) (x : Channel) (j : ChanNo) :
    (s.setChan i x).chan j = if j = i then x else s.chan j := vector_set_get s.chans i j x

@[simp] theorem State.chan_setChan_self (s : State) (i : ChanNo) (x : Channel) : (s.setChan i x).chan i = x := by
  simp [State.chan_setChan]

@[simp] theorem State.chan_setChan_ne (s : State) {i j : ChanNo} (h : j ≠ i) (x : Channel) : (s.setChan i x).chan j = s.chan j := by
  simp [State.chan_setChan, h]

/-! ### setBooth -/

@[simp] theorem State.rate_setBooth (s : State) (i : BoothNo) (x : Booth) : (s.setBooth i x).rate = s.rate := rfl
@[simp] theorem State.chans_setBooth (s : State) (i : BoothNo) (x : Booth) : (s.setBooth i x).chans = s.chans := rfl
@[simp] theorem State.chan_setBooth (s : State) (i : BoothNo) (x : Booth) (j : ChanNo) : (s.setBooth i x).chan j = s.chan j := rfl
@[simp] theorem State.slotMask_setBooth (s : State) (i : BoothNo) (x : Booth) : (s.setBooth i x).slotMask = s.slotMask := rfl
@[simp] theorem State.linkInFrame_setBooth (s : State) (i : BoothNo) (x : Booth) : (s.setBooth i x).linkInFrame = s.linkInFrame := rfl
@[simp] theorem State.profiles_setBooth (s : State) (i : BoothNo) (x : Booth) : (s.setBooth i x).profiles = s.profiles := rfl
@[simp] theorem State.profile_setBooth (s : State) (i : BoothNo) (x : Booth) (j : ProfNo) : (s.setBooth i x).profile j = s.profile j := rfl
@[simp] theorem State.ports_setBooth (s : State) (i : BoothNo) (x : Booth) : (s.setBooth i x).ports = s.ports := rfl
@[simp] theorem State.port_setBooth (s : State) (i : BoothNo) (x : Booth) (j : PortNo) : (s.setBooth i x).port j = s.port j := rfl
@[simp] theorem State.loader_setBooth (s : State) (i : BoothNo) (x : Booth) : (s.setBooth i x).loader = s.loader := rfl
@[simp] theorem State.memory_setBooth (s : State) (i : BoothNo) (x : Booth) : (s.setBooth i x).memory = s.memory := rfl
@[simp] theorem State.pending_setBooth (s : State) (i : BoothNo) (x : Booth) : (s.setBooth i x).pending = s.pending := rfl

theorem State.booth_setBooth (s : State) (i : BoothNo) (x : Booth) (j : BoothNo) :
    (s.setBooth i x).booth j = if j = i then x else s.booth j := vector_set_get s.booths i j x

@[simp] theorem State.booth_setBooth_self (s : State) (i : BoothNo) (x : Booth) : (s.setBooth i x).booth i = x := by
  simp [State.booth_setBooth]

@[simp] theorem State.booth_setBooth_ne (s : State) {i j : BoothNo} (h : j ≠ i) (x : Booth) : (s.setBooth i x).booth j = s.booth j := by
  simp [State.booth_setBooth, h]

/-! ### setProfile -/

@[simp] theorem State.rate_setProfile (s : State) (i : ProfNo) (x : Profile) : (s.setProfile i x).rate = s.rate := rfl
@[simp] theorem State.chans_setProfile (s : State) (i : ProfNo) (x : Profile) : (s.setProfile i x).chans = s.chans := rfl
@[simp] theorem State.chan_setProfile (s : State) (i : ProfNo) (x : Profile) (j : ChanNo) : (s.setProfile i x).chan j = s.chan j := rfl
@[simp] theorem State.booths_setProfile (s : State) (i : ProfNo) (x : Profile) : (s.setProfile i x).booths = s.booths := rfl
@[simp] theorem State.booth_setProfile (s : State) (i : ProfNo) (x : Profile) (j : BoothNo) : (s.setProfile i x).booth j = s.booth j := rfl
@[simp] theorem State.slotMask_setProfile (s : State) (i : ProfNo) (x : Profile) : (s.setProfile i x).slotMask = s.slotMask := rfl
@[simp] theorem State.linkInFrame_setProfile (s : State) (i : ProfNo) (x : Profile) : (s.setProfile i x).linkInFrame = s.linkInFrame := rfl
@[simp] theorem State.ports_setProfile (s : State) (i : ProfNo) (x : Profile) : (s.setProfile i x).ports = s.ports := rfl
@[simp] theorem State.port_setProfile (s : State) (i : ProfNo) (x : Profile) (j : PortNo) : (s.setProfile i x).port j = s.port j := rfl
@[simp] theorem State.loader_setProfile (s : State) (i : ProfNo) (x : Profile) : (s.setProfile i x).loader = s.loader := rfl
@[simp] theorem State.memory_setProfile (s : State) (i : ProfNo) (x : Profile) : (s.setProfile i x).memory = s.memory := rfl
@[simp] theorem State.pending_setProfile (s : State) (i : ProfNo) (x : Profile) : (s.setProfile i x).pending = s.pending := rfl

theorem State.profile_setProfile (s : State) (i : ProfNo) (x : Profile) (j : ProfNo) :
    (s.setProfile i x).profile j = if j = i then x else s.profile j := vector_set_get s.profiles i j x

@[simp] theorem State.profile_setProfile_self (s : State) (i : ProfNo) (x : Profile) : (s.setProfile i x).profile i = x := by
  simp [State.profile_setProfile]

@[simp] theorem State.profile_setProfile_ne (s : State) {i j : ProfNo} (h : j ≠ i) (x : Profile) : (s.setProfile i x).profile j = s.profile j := by
  simp [State.profile_setProfile, h]

/-! ### setPort -/

@[simp] theorem State.rate_setPort (s : State) (i : PortNo) (x : Port) : (s.setPort i x).rate = s.rate := rfl
@[simp] theorem State.chans_setPort (s : State) (i : PortNo) (x : Port) : (s.setPort i x).chans = s.chans := rfl
@[simp] theorem State.chan_setPort (s : State) (i : PortNo) (x : Port) (j : ChanNo) : (s.setPort i x).chan j = s.chan j := rfl
@[simp] theorem State.booths_setPort (s : State) (i : PortNo) (x : Port) : (s.setPort i x).booths = s.booths := rfl
@[simp] theorem State.booth_setPort (s : State) (i : PortNo) (x : Port) (j : BoothNo) : (s.setPort i x).booth j = s.booth j := rfl
@[simp] theorem State.slotMask_setPort (s : State) (i : PortNo) (x : Port) : (s.setPort i x).slotMask = s.slotMask := rfl
@[simp] theorem State.linkInFrame_setPort (s : State) (i : PortNo) (x : Port) : (s.setPort i x).linkInFrame = s.linkInFrame := rfl
@[simp] theorem State.profiles_setPort (s : State) (i : PortNo) (x : Port) : (s.setPort i x).profiles = s.profiles := rfl
@[simp] theorem State.profile_setPort (s : State) (i : PortNo) (x : Port) (j : ProfNo) : (s.setPort i x).profile j = s.profile j := rfl
@[simp] theorem State.loader_setPort (s : State) (i : PortNo) (x : Port) : (s.setPort i x).loader = s.loader := rfl
@[simp] theorem State.memory_setPort (s : State) (i : PortNo) (x : Port) : (s.setPort i x).memory = s.memory := rfl
@[simp] theorem State.pending_setPort (s : State) (i : PortNo) (x : Port) : (s.setPort i x).pending = s.pending := rfl

theorem State.port_setPort (s : State) (i : PortNo) (x : Port) (j : PortNo) :
    (s.setPort i x).port j = if j = i then x else s.port j := vector_set_get s.ports i j x

@[simp] theorem State.port_setPort_self (s : State) (i : PortNo) (x : Port) : (s.setPort i x).port i = x := by
  simp [State.port_setPort]

@[simp] theorem State.port_setPort_ne (s : State) {i j : PortNo} (h : j ≠ i) (x : Port) : (s.setPort i x).port j = s.port j := by
  simp [State.port_setPort, h]

/-! ### setPath -/

@[simp] theorem State.rate_setPath (s : State) (c : ChanNo) (x : Path) : (s.setPath c x).rate = s.rate := rfl
@[simp] theorem State.booths_setPath (s : State) (c : ChanNo) (x : Path) : (s.setPath c x).booths = s.booths := rfl
@[simp] theorem State.booth_setPath (s : State) (c : ChanNo) (x : Path) (j : BoothNo) : (s.setPath c x).booth j = s.booth j := rfl
@[simp] theorem State.slotMask_setPath (s : State) (c : ChanNo) (x : Path) : (s.setPath c x).slotMask = s.slotMask := rfl
@[simp] theorem State.linkInFrame_setPath (s : State) (c : ChanNo) (x : Path) : (s.setPath c x).linkInFrame = s.linkInFrame := rfl
@[simp] theorem State.profiles_setPath (s : State) (c : ChanNo) (x : Path) : (s.setPath c x).profiles = s.profiles := rfl
@[simp] theorem State.profile_setPath (s : State) (c : ChanNo) (x : Path) (j : ProfNo) : (s.setPath c x).profile j = s.profile j := rfl
@[simp] theorem State.ports_setPath (s : State) (c : ChanNo) (x : Path) : (s.setPath c x).ports = s.ports := rfl
@[simp] theorem State.port_setPath (s : State) (c : ChanNo) (x : Path) (j : PortNo) : (s.setPath c x).port j = s.port j := rfl
@[simp] theorem State.loader_setPath (s : State) (c : ChanNo) (x : Path) : (s.setPath c x).loader = s.loader := rfl
@[simp] theorem State.memory_setPath (s : State) (c : ChanNo) (x : Path) : (s.setPath c x).memory = s.memory := rfl
@[simp] theorem State.pending_setPath (s : State) (c : ChanNo) (x : Path) : (s.setPath c x).pending = s.pending := rfl

theorem State.chan_setPath (s : State) (c : ChanNo) (x : Path) (d : ChanNo) :
    (s.setPath c x).chan d = if d = c then { s.chan c with path := x } else s.chan d := State.chan_setChan s c _ d

@[simp] theorem State.chan_setPath_self (s : State) (c : ChanNo) (x : Path) :
    (s.setPath c x).chan c = { s.chan c with path := x } := by simp [State.chan_setPath]

@[simp] theorem State.chan_setPath_ne (s : State) {c d : ChanNo} (h : d ≠ c) (x : Path) : (s.setPath c x).chan d = s.chan d := by
  simp [State.chan_setPath, h]

@[simp] theorem State.pool_setPath (s : State) (c : ChanNo) (x : Path) (d : ChanNo) : ((s.setPath c x).chan d).pool = (s.chan d).pool := by
  by_cases h : d = c
  · subst h; simp
  · simp [h]

@[simp] theorem State.pres_setPath (s : State) (c : ChanNo) (x : Path) (d : ChanNo) : ((s.setPath c x).chan d).pres = (s.chan d).pres := by
  by_cases h : d = c
  · subst h; simp
  · simp [h]

@[simp] theorem State.place_setPath (s : State) (c : ChanNo) (x : Path) (d : ChanNo) : ((s.setPath c x).chan d).place = (s.chan d).place := by
  by_cases h : d = c
  · subst h; simp
  · simp [h]

@[simp] theorem State.assign_setPath (s : State) (c : ChanNo) (x : Path) (d : ChanNo) : ((s.setPath c x).chan d).assign = (s.chan d).assign := by
  by_cases h : d = c
  · subst h; simp
  · simp [h]

@[simp] theorem State.sched_setPath (s : State) (c : ChanNo) (x : Path) (d : ChanNo) : ((s.setPath c x).chan d).sched = (s.chan d).sched := by
  by_cases h : d = c
  · subst h; simp
  · simp [h]

/-! ### setPool -/

@[simp] theorem State.rate_setPool (s : State) (c : ChanNo) (x : Pool) : (s.setPool c x).rate = s.rate := rfl
@[simp] theorem State.booths_setPool (s : State) (c : ChanNo) (x : Pool) : (s.setPool c x).booths = s.booths := rfl
@[simp] theorem State.booth_setPool (s : State) (c : ChanNo) (x : Pool) (j : BoothNo) : (s.setPool c x).booth j = s.booth j := rfl
@[simp] theorem State.slotMask_setPool (s : State) (c : ChanNo) (x : Pool) : (s.setPool c x).slotMask = s.slotMask := rfl
@[simp] theorem State.linkInFrame_setPool (s : State) (c : ChanNo) (x : Pool) : (s.setPool c x).linkInFrame = s.linkInFrame := rfl
@[simp] theorem State.profiles_setPool (s : State) (c : ChanNo) (x : Pool) : (s.setPool c x).profiles = s.profiles := rfl
@[simp] theorem State.profile_setPool (s : State) (c : ChanNo) (x : Pool) (j : ProfNo) : (s.setPool c x).profile j = s.profile j := rfl
@[simp] theorem State.ports_setPool (s : State) (c : ChanNo) (x : Pool) : (s.setPool c x).ports = s.ports := rfl
@[simp] theorem State.port_setPool (s : State) (c : ChanNo) (x : Pool) (j : PortNo) : (s.setPool c x).port j = s.port j := rfl
@[simp] theorem State.loader_setPool (s : State) (c : ChanNo) (x : Pool) : (s.setPool c x).loader = s.loader := rfl
@[simp] theorem State.memory_setPool (s : State) (c : ChanNo) (x : Pool) : (s.setPool c x).memory = s.memory := rfl
@[simp] theorem State.pending_setPool (s : State) (c : ChanNo) (x : Pool) : (s.setPool c x).pending = s.pending := rfl

theorem State.chan_setPool (s : State) (c : ChanNo) (x : Pool) (d : ChanNo) :
    (s.setPool c x).chan d = if d = c then { s.chan c with pool := x } else s.chan d := State.chan_setChan s c _ d

@[simp] theorem State.chan_setPool_self (s : State) (c : ChanNo) (x : Pool) :
    (s.setPool c x).chan c = { s.chan c with pool := x } := by simp [State.chan_setPool]

@[simp] theorem State.chan_setPool_ne (s : State) {c d : ChanNo} (h : d ≠ c) (x : Pool) : (s.setPool c x).chan d = s.chan d := by
  simp [State.chan_setPool, h]

@[simp] theorem State.path_setPool (s : State) (c : ChanNo) (x : Pool) (d : ChanNo) : ((s.setPool c x).chan d).path = (s.chan d).path := by
  by_cases h : d = c
  · subst h; simp
  · simp [h]

@[simp] theorem State.pres_setPool (s : State) (c : ChanNo) (x : Pool) (d : ChanNo) : ((s.setPool c x).chan d).pres = (s.chan d).pres := by
  by_cases h : d = c
  · subst h; simp
  · simp [h]

@[simp] theorem State.place_setPool (s : State) (c : ChanNo) (x : Pool) (d : ChanNo) : ((s.setPool c x).chan d).place = (s.chan d).place := by
  by_cases h : d = c
  · subst h; simp
  · simp [h]

@[simp] theorem State.assign_setPool (s : State) (c : ChanNo) (x : Pool) (d : ChanNo) : ((s.setPool c x).chan d).assign = (s.chan d).assign := by
  by_cases h : d = c
  · subst h; simp
  · simp [h]

@[simp] theorem State.sched_setPool (s : State) (c : ChanNo) (x : Pool) (d : ChanNo) : ((s.setPool c x).chan d).sched = (s.chan d).sched := by
  by_cases h : d = c
  · subst h; simp
  · simp [h]

/-! ### setPres -/

@[simp] theorem State.rate_setPres (s : State) (c : ChanNo) (x : Presenter) : (s.setPres c x).rate = s.rate := rfl
@[simp] theorem State.booths_setPres (s : State) (c : ChanNo) (x : Presenter) : (s.setPres c x).booths = s.booths := rfl
@[simp] theorem State.booth_setPres (s : State) (c : ChanNo) (x : Presenter) (j : BoothNo) : (s.setPres c x).booth j = s.booth j := rfl
@[simp] theorem State.slotMask_setPres (s : State) (c : ChanNo) (x : Presenter) : (s.setPres c x).slotMask = s.slotMask := rfl
@[simp] theorem State.linkInFrame_setPres (s : State) (c : ChanNo) (x : Presenter) : (s.setPres c x).linkInFrame = s.linkInFrame := rfl
@[simp] theorem State.profiles_setPres (s : State) (c : ChanNo) (x : Presenter) : (s.setPres c x).profiles = s.profiles := rfl
@[simp] theorem State.profile_setPres (s : State) (c : ChanNo) (x : Presenter) (j : ProfNo) : (s.setPres c x).profile j = s.profile j := rfl
@[simp] theorem State.ports_setPres (s : State) (c : ChanNo) (x : Presenter) : (s.setPres c x).ports = s.ports := rfl
@[simp] theorem State.port_setPres (s : State) (c : ChanNo) (x : Presenter) (j : PortNo) : (s.setPres c x).port j = s.port j := rfl
@[simp] theorem State.loader_setPres (s : State) (c : ChanNo) (x : Presenter) : (s.setPres c x).loader = s.loader := rfl
@[simp] theorem State.memory_setPres (s : State) (c : ChanNo) (x : Presenter) : (s.setPres c x).memory = s.memory := rfl
@[simp] theorem State.pending_setPres (s : State) (c : ChanNo) (x : Presenter) : (s.setPres c x).pending = s.pending := rfl

theorem State.chan_setPres (s : State) (c : ChanNo) (x : Presenter) (d : ChanNo) :
    (s.setPres c x).chan d = if d = c then { s.chan c with pres := x } else s.chan d := State.chan_setChan s c _ d

@[simp] theorem State.chan_setPres_self (s : State) (c : ChanNo) (x : Presenter) :
    (s.setPres c x).chan c = { s.chan c with pres := x } := by simp [State.chan_setPres]

@[simp] theorem State.chan_setPres_ne (s : State) {c d : ChanNo} (h : d ≠ c) (x : Presenter) : (s.setPres c x).chan d = s.chan d := by
  simp [State.chan_setPres, h]

@[simp] theorem State.path_setPres (s : State) (c : ChanNo) (x : Presenter) (d : ChanNo) : ((s.setPres c x).chan d).path = (s.chan d).path := by
  by_cases h : d = c
  · subst h; simp
  · simp [h]

@[simp] theorem State.pool_setPres (s : State) (c : ChanNo) (x : Presenter) (d : ChanNo) : ((s.setPres c x).chan d).pool = (s.chan d).pool := by
  by_cases h : d = c
  · subst h; simp
  · simp [h]

@[simp] theorem State.place_setPres (s : State) (c : ChanNo) (x : Presenter) (d : ChanNo) : ((s.setPres c x).chan d).place = (s.chan d).place := by
  by_cases h : d = c
  · subst h; simp
  · simp [h]

@[simp] theorem State.assign_setPres (s : State) (c : ChanNo) (x : Presenter) (d : ChanNo) : ((s.setPres c x).chan d).assign = (s.chan d).assign := by
  by_cases h : d = c
  · subst h; simp
  · simp [h]

@[simp] theorem State.sched_setPres (s : State) (c : ChanNo) (x : Presenter) (d : ChanNo) : ((s.setPres c x).chan d).sched = (s.chan d).sched := by
  by_cases h : d = c
  · subst h; simp
  · simp [h]

/-! ### setPlace -/

@[simp] theorem State.rate_setPlace (s : State) (c : ChanNo) (x : Place) : (s.setPlace c x).rate = s.rate := rfl
@[simp] theorem State.booths_setPlace (s : State) (c : ChanNo) (x : Place) : (s.setPlace c x).booths = s.booths := rfl
@[simp] theorem State.booth_setPlace (s : State) (c : ChanNo) (x : Place) (j : BoothNo) : (s.setPlace c x).booth j = s.booth j := rfl
@[simp] theorem State.slotMask_setPlace (s : State) (c : ChanNo) (x : Place) : (s.setPlace c x).slotMask = s.slotMask := rfl
@[simp] theorem State.linkInFrame_setPlace (s : State) (c : ChanNo) (x : Place) : (s.setPlace c x).linkInFrame = s.linkInFrame := rfl
@[simp] theorem State.profiles_setPlace (s : State) (c : ChanNo) (x : Place) : (s.setPlace c x).profiles = s.profiles := rfl
@[simp] theorem State.profile_setPlace (s : State) (c : ChanNo) (x : Place) (j : ProfNo) : (s.setPlace c x).profile j = s.profile j := rfl
@[simp] theorem State.ports_setPlace (s : State) (c : ChanNo) (x : Place) : (s.setPlace c x).ports = s.ports := rfl
@[simp] theorem State.port_setPlace (s : State) (c : ChanNo) (x : Place) (j : PortNo) : (s.setPlace c x).port j = s.port j := rfl
@[simp] theorem State.loader_setPlace (s : State) (c : ChanNo) (x : Place) : (s.setPlace c x).loader = s.loader := rfl
@[simp] theorem State.memory_setPlace (s : State) (c : ChanNo) (x : Place) : (s.setPlace c x).memory = s.memory := rfl
@[simp] theorem State.pending_setPlace (s : State) (c : ChanNo) (x : Place) : (s.setPlace c x).pending = s.pending := rfl

theorem State.chan_setPlace (s : State) (c : ChanNo) (x : Place) (d : ChanNo) :
    (s.setPlace c x).chan d = if d = c then { s.chan c with place := x } else s.chan d := State.chan_setChan s c _ d

@[simp] theorem State.chan_setPlace_self (s : State) (c : ChanNo) (x : Place) :
    (s.setPlace c x).chan c = { s.chan c with place := x } := by simp [State.chan_setPlace]

@[simp] theorem State.chan_setPlace_ne (s : State) {c d : ChanNo} (h : d ≠ c) (x : Place) : (s.setPlace c x).chan d = s.chan d := by
  simp [State.chan_setPlace, h]

@[simp] theorem State.path_setPlace (s : State) (c : ChanNo) (x : Place) (d : ChanNo) : ((s.setPlace c x).chan d).path = (s.chan d).path := by
  by_cases h : d = c
  · subst h; simp
  · simp [h]

@[simp] theorem State.pool_setPlace (s : State) (c : ChanNo) (x : Place) (d : ChanNo) : ((s.setPlace c x).chan d).pool = (s.chan d).pool := by
  by_cases h : d = c
  · subst h; simp
  · simp [h]

@[simp] theorem State.pres_setPlace (s : State) (c : ChanNo) (x : Place) (d : ChanNo) : ((s.setPlace c x).chan d).pres = (s.chan d).pres := by
  by_cases h : d = c
  · subst h; simp
  · simp [h]

@[simp] theorem State.assign_setPlace (s : State) (c : ChanNo) (x : Place) (d : ChanNo) : ((s.setPlace c x).chan d).assign = (s.chan d).assign := by
  by_cases h : d = c
  · subst h; simp
  · simp [h]

@[simp] theorem State.sched_setPlace (s : State) (c : ChanNo) (x : Place) (d : ChanNo) : ((s.setPlace c x).chan d).sched = (s.chan d).sched := by
  by_cases h : d = c
  · subst h; simp
  · simp [h]

/-! ### setAssign -/

@[simp] theorem State.rate_setAssign (s : State) (c : ChanNo) (x : Assign) : (s.setAssign c x).rate = s.rate := rfl
@[simp] theorem State.booths_setAssign (s : State) (c : ChanNo) (x : Assign) : (s.setAssign c x).booths = s.booths := rfl
@[simp] theorem State.booth_setAssign (s : State) (c : ChanNo) (x : Assign) (j : BoothNo) : (s.setAssign c x).booth j = s.booth j := rfl
@[simp] theorem State.slotMask_setAssign (s : State) (c : ChanNo) (x : Assign) : (s.setAssign c x).slotMask = s.slotMask := rfl
@[simp] theorem State.linkInFrame_setAssign (s : State) (c : ChanNo) (x : Assign) : (s.setAssign c x).linkInFrame = s.linkInFrame := rfl
@[simp] theorem State.profiles_setAssign (s : State) (c : ChanNo) (x : Assign) : (s.setAssign c x).profiles = s.profiles := rfl
@[simp] theorem State.profile_setAssign (s : State) (c : ChanNo) (x : Assign) (j : ProfNo) : (s.setAssign c x).profile j = s.profile j := rfl
@[simp] theorem State.ports_setAssign (s : State) (c : ChanNo) (x : Assign) : (s.setAssign c x).ports = s.ports := rfl
@[simp] theorem State.port_setAssign (s : State) (c : ChanNo) (x : Assign) (j : PortNo) : (s.setAssign c x).port j = s.port j := rfl
@[simp] theorem State.loader_setAssign (s : State) (c : ChanNo) (x : Assign) : (s.setAssign c x).loader = s.loader := rfl
@[simp] theorem State.memory_setAssign (s : State) (c : ChanNo) (x : Assign) : (s.setAssign c x).memory = s.memory := rfl
@[simp] theorem State.pending_setAssign (s : State) (c : ChanNo) (x : Assign) : (s.setAssign c x).pending = s.pending := rfl

theorem State.chan_setAssign (s : State) (c : ChanNo) (x : Assign) (d : ChanNo) :
    (s.setAssign c x).chan d = if d = c then { s.chan c with assign := x } else s.chan d := State.chan_setChan s c _ d

@[simp] theorem State.chan_setAssign_self (s : State) (c : ChanNo) (x : Assign) :
    (s.setAssign c x).chan c = { s.chan c with assign := x } := by simp [State.chan_setAssign]

@[simp] theorem State.chan_setAssign_ne (s : State) {c d : ChanNo} (h : d ≠ c) (x : Assign) : (s.setAssign c x).chan d = s.chan d := by
  simp [State.chan_setAssign, h]

@[simp] theorem State.path_setAssign (s : State) (c : ChanNo) (x : Assign) (d : ChanNo) : ((s.setAssign c x).chan d).path = (s.chan d).path := by
  by_cases h : d = c
  · subst h; simp
  · simp [h]

@[simp] theorem State.pool_setAssign (s : State) (c : ChanNo) (x : Assign) (d : ChanNo) : ((s.setAssign c x).chan d).pool = (s.chan d).pool := by
  by_cases h : d = c
  · subst h; simp
  · simp [h]

@[simp] theorem State.pres_setAssign (s : State) (c : ChanNo) (x : Assign) (d : ChanNo) : ((s.setAssign c x).chan d).pres = (s.chan d).pres := by
  by_cases h : d = c
  · subst h; simp
  · simp [h]

@[simp] theorem State.place_setAssign (s : State) (c : ChanNo) (x : Assign) (d : ChanNo) : ((s.setAssign c x).chan d).place = (s.chan d).place := by
  by_cases h : d = c
  · subst h; simp
  · simp [h]

@[simp] theorem State.sched_setAssign (s : State) (c : ChanNo) (x : Assign) (d : ChanNo) : ((s.setAssign c x).chan d).sched = (s.chan d).sched := by
  by_cases h : d = c
  · subst h; simp
  · simp [h]

/-! ### setSched -/

@[simp] theorem State.rate_setSched (s : State) (c : ChanNo) (x : Sched) : (s.setSched c x).rate = s.rate := rfl
@[simp] theorem State.booths_setSched (s : State) (c : ChanNo) (x : Sched) : (s.setSched c x).booths = s.booths := rfl
@[simp] theorem State.booth_setSched (s : State) (c : ChanNo) (x : Sched) (j : BoothNo) : (s.setSched c x).booth j = s.booth j := rfl
@[simp] theorem State.slotMask_setSched (s : State) (c : ChanNo) (x : Sched) : (s.setSched c x).slotMask = s.slotMask := rfl
@[simp] theorem State.linkInFrame_setSched (s : State) (c : ChanNo) (x : Sched) : (s.setSched c x).linkInFrame = s.linkInFrame := rfl
@[simp] theorem State.profiles_setSched (s : State) (c : ChanNo) (x : Sched) : (s.setSched c x).profiles = s.profiles := rfl
@[simp] theorem State.profile_setSched (s : State) (c : ChanNo) (x : Sched) (j : ProfNo) : (s.setSched c x).profile j = s.profile j := rfl
@[simp] theorem State.ports_setSched (s : State) (c : ChanNo) (x : Sched) : (s.setSched c x).ports = s.ports := rfl
@[simp] theorem State.port_setSched (s : State) (c : ChanNo) (x : Sched) (j : PortNo) : (s.setSched c x).port j = s.port j := rfl
@[simp] theorem State.loader_setSched (s : State) (c : ChanNo) (x : Sched) : (s.setSched c x).loader = s.loader := rfl
@[simp] theorem State.memory_setSched (s : State) (c : ChanNo) (x : Sched) : (s.setSched c x).memory = s.memory := rfl
@[simp] theorem State.pending_setSched (s : State) (c : ChanNo) (x : Sched) : (s.setSched c x).pending = s.pending := rfl

theorem State.chan_setSched (s : State) (c : ChanNo) (x : Sched) (d : ChanNo) :
    (s.setSched c x).chan d = if d = c then { s.chan c with sched := x } else s.chan d := State.chan_setChan s c _ d

@[simp] theorem State.chan_setSched_self (s : State) (c : ChanNo) (x : Sched) :
    (s.setSched c x).chan c = { s.chan c with sched := x } := by simp [State.chan_setSched]

@[simp] theorem State.chan_setSched_ne (s : State) {c d : ChanNo} (h : d ≠ c) (x : Sched) : (s.setSched c x).chan d = s.chan d := by
  simp [State.chan_setSched, h]

@[simp] theorem State.path_setSched (s : State) (c : ChanNo) (x : Sched) (d : ChanNo) : ((s.setSched c x).chan d).path = (s.chan d).path := by
  by_cases h : d = c
  · subst h; simp
  · simp [h]

@[simp] theorem State.pool_setSched (s : State) (c : ChanNo) (x : Sched) (d : ChanNo) : ((s.setSched c x).chan d).pool = (s.chan d).pool := by
  by_cases h : d = c
  · subst h; simp
  · simp [h]

@[simp] theorem State.pres_setSched (s : State) (c : ChanNo) (x : Sched) (d : ChanNo) : ((s.setSched c x).chan d).pres = (s.chan d).pres := by
  by_cases h : d = c
  · subst h; simp
  · simp [h]

@[simp] theorem State.place_setSched (s : State) (c : ChanNo) (x : Sched) (d : ChanNo) : ((s.setSched c x).chan d).place = (s.chan d).place := by
  by_cases h : d = c
  · subst h; simp
  · simp [h]

@[simp] theorem State.assign_setSched (s : State) (c : ChanNo) (x : Sched) (d : ChanNo) : ((s.setSched c x).chan d).assign = (s.chan d).assign := by
  by_cases h : d = c
  · subst h; simp
  · simp [h]

/-! ### raise -/

@[simp] theorem State.rate_raise (s : State) (e : Notice) : (s.raise e).rate = s.rate := rfl
@[simp] theorem State.chans_raise (s : State) (e : Notice) : (s.raise e).chans = s.chans := rfl
@[simp] theorem State.chan_raise (s : State) (e : Notice) (j : ChanNo) : (s.raise e).chan j = s.chan j := rfl
@[simp] theorem State.booths_raise (s : State) (e : Notice) : (s.raise e).booths = s.booths := rfl
@[simp] theorem State.booth_raise (s : State) (e : Notice) (j : BoothNo) : (s.raise e).booth j = s.booth j := rfl
@[simp] theorem State.slotMask_raise (s : State) (e : Notice) : (s.raise e).slotMask = s.slotMask := rfl
@[simp] theorem State.linkInFrame_raise (s : State) (e : Notice) : (s.raise e).linkInFrame = s.linkInFrame := rfl
@[simp] theorem State.profiles_raise (s : State) (e : Notice) : (s.raise e).profiles = s.profiles := rfl
@[simp] theorem State.profile_raise (s : State) (e : Notice) (j : ProfNo) : (s.raise e).profile j = s.profile j := rfl
@[simp] theorem State.loader_raise (s : State) (e : Notice) : (s.raise e).loader = s.loader := rfl
@[simp] theorem State.memory_raise (s : State) (e : Notice) : (s.raise e).memory = s.memory := rfl
@[simp] theorem State.pending_raise (s : State) (e : Notice) : (s.raise e).pending = s.pending := rfl

@[simp] theorem State.port_raise (s : State) (e : Notice) (p : PortNo) : (s.raise e).port p = (s.port p).hear e := by
  simp [State.raise, State.port]

/-! ### raiseIf -/

@[simp] theorem State.rate_raiseIf (s : State) (b : Bool) (e : Notice) : (s.raiseIf b e).rate = s.rate := by
  cases b <;> rfl
@[simp] theorem State.chans_raiseIf (s : State) (b : Bool) (e : Notice) : (s.raiseIf b e).chans = s.chans := by
  cases b <;> rfl
@[simp] theorem State.chan_raiseIf (s : State) (b : Bool) (e : Notice) (j : ChanNo) : (s.raiseIf b e).chan j = s.chan j := by
  cases b <;> rfl
@[simp] theorem State.booths_raiseIf (s : State) (b : Bool) (e : Notice) : (s.raiseIf b e).booths = s.booths := by
  cases b <;> rfl
@[simp] theorem State.booth_raiseIf (s : State) (b : Bool) (e : Notice) (j : BoothNo) : (s.raiseIf b e).booth j = s.booth j := by
  cases b <;> rfl
@[simp] theorem State.slotMask_raiseIf (s : State) (b : Bool) (e : Notice) : (s.raiseIf b e).slotMask = s.slotMask := by
  cases b <;> rfl
@[simp] theorem State.linkInFrame_raiseIf (s : State) (b : Bool) (e : Notice) : (s.raiseIf b e).linkInFrame = s.linkInFrame := by
  cases b <;> rfl
@[simp] theorem State.profiles_raiseIf (s : State) (b : Bool) (e : Notice) : (s.raiseIf b e).profiles = s.profiles := by
  cases b <;> rfl
@[simp] theorem State.profile_raiseIf (s : State) (b : Bool) (e : Notice) (j : ProfNo) : (s.raiseIf b e).profile j = s.profile j := by
  cases b <;> rfl
@[simp] theorem State.loader_raiseIf (s : State) (b : Bool) (e : Notice) : (s.raiseIf b e).loader = s.loader := by
  cases b <;> rfl
@[simp] theorem State.memory_raiseIf (s : State) (b : Bool) (e : Notice) : (s.raiseIf b e).memory = s.memory := by
  cases b <;> rfl
@[simp] theorem State.pending_raiseIf (s : State) (b : Bool) (e : Notice) : (s.raiseIf b e).pending = s.pending := by
  cases b <;> rfl

theorem State.port_raiseIf (s : State) (b : Bool) (e : Notice) (p : PortNo) :
    (s.raiseIf b e).port p = if b then (s.port p).hear e else s.port p := by
  cases b <;> simp [State.raiseIf]

@[simp] theorem State.raiseIf_false (s : State) (e : Notice) : s.raiseIf false e = s := rfl

@[simp] theorem State.raiseIf_true (s : State) (e : Notice) : s.raiseIf true e = s.raise e := rfl

/-! ### What a port keeps when a notice is raised (R156) -/

@[simp] theorem Port.role_hear (q : Port) (e : Notice) : (q.hear e).role = q.role := by
  unfold Port.hear; split
  · rfl
  · split <;> rfl

@[simp] theorem State.role_raiseIf (s : State) (b : Bool) (e : Notice) (p : PortNo) :
    ((s.raiseIf b e).port p).role = (s.port p).role := by
  cases b <;> simp

@[simp] theorem Port.recv_hear (q : Port) (e : Notice) : (q.hear e).recv = q.recv := by
  unfold Port.hear; split
  · rfl
  · split <;> rfl

@[simp] theorem State.recv_raiseIf (s : State) (b : Bool) (e : Notice) (p : PortNo) :
    ((s.raiseIf b e).port p).recv = (s.port p).recv := by
  cases b <;> simp

@[simp] theorem Port.trans_hear (q : Port) (e : Notice) : (q.hear e).trans = q.trans := by
  unfold Port.hear; split
  · rfl
  · split <;> rfl

@[simp] theorem State.trans_raiseIf (s : State) (b : Bool) (e : Notice) (p : PortNo) :
    ((s.raiseIf b e).port p).trans = (s.port p).trans := by
  cases b <;> simp

@[simp] theorem Port.sense_hear (q : Port) (e : Notice) : (q.hear e).sense = q.sense := by
  unfold Port.hear; split
  · rfl
  · split <;> rfl

@[simp] theorem State.sense_raiseIf (s : State) (b : Bool) (e : Notice) (p : PortNo) :
    ((s.raiseIf b e).port p).sense = (s.port p).sense := by
  cases b <;> simp

@[simp] theorem Port.enabled_hear (q : Port) (e : Notice) : (q.hear e).enabled = q.enabled := by
  unfold Port.hear; split
  · rfl
  · split <;> rfl

@[simp] theorem State.enabled_raiseIf (s : State) (b : Bool) (e : Notice) (p : PortNo) :
    ((s.raiseIf b e).port p).enabled = (s.port p).enabled := by
  cases b <;> simp

/-- What a raised notice does to a pending set depends on the port's role alone. -/
theorem Port.hear_eq (q : Port) (e : Notice) :
    q.hear e = { q with pending := if (q.role.any fun r => r.hears e) = true then q.pending.add e else q.pending } := by
  obtain ⟨role, _, _, _, _, _⟩ := q
  cases role with
  | none => simp [Port.hear]
  | some r => cases hr : r.hears e <;> simp [Port.hear, hr]

/-- No port hears a notice while it has no role in force (R169). -/
theorem Port.hear_of_role_none {q : Port} (h : q.role = none) (e : Notice) : q.hear e = q := by
  simp [Port.hear, h]

end Sys2Proof.Machine
end

