-- ==== Sys2Proof/Laws/Notices.lean ====
section
/-!
SUPPORT. Which notices are pending after one was raised.
-/
namespace Sys2Proof.Machine

/-- The notice stands in the pending set. -/
def Notices.has (n : Notices) : Notice → Bool
  | .start => n.start
  | .outcome c => n.outcome.getLsbD c
  | .feed c => n.feed.getLsbD c
  | .assignment c => n.assignment.getLsbD c
  | .profile c => n.profile.getLsbD c
  | .delay c => n.delay.getLsbD c
  | .conflict c => n.conflict.getLsbD c
  | .booth b => n.booth.getLsbD b

/-- Two pending sets in which the same notices stand are equal. -/
theorem Notices.ext_has {m n : Notices} (h : ∀ e, m.has e = n.has e) : m = n := by
  have four : ∀ x y : BitVec 4, (∀ c : ChanNo, x.getLsbD c = y.getLsbD c) → x = y := fun x y hb =>
    BitVec.eq_of_getLsbD_eq fun i hi => hb ⟨i, hi⟩
  have six : ∀ x y : BitVec 6, (∀ b : BoothNo, x.getLsbD b = y.getLsbD b) → x = y := fun x y hb =>
    BitVec.eq_of_getLsbD_eq fun i hi => hb ⟨i, hi⟩
  obtain ⟨a, b, c, d, e, f, g, i⟩ := m
  obtain ⟨a', b', c', d', e', f', g', i'⟩ := n
  have h0 : a = a' := h .start
  have h1 := four b b' fun c => h (.outcome c)
  have h2 := four c c' fun c => h (.feed c)
  have h3 := four d d' fun c => h (.assignment c)
  have h4 := four e e' fun c => h (.profile c)
  have h5 := four f f' fun c => h (.delay c)
  have h6 := four g g' fun c => h (.conflict c)
  have h7 := six i i' fun b => h (.booth b)
  subst h0 h1 h2 h3 h4 h5 h6 h7; rfl

/-- A notice added to a pending set stands in it, and every other notice stands as before. -/
theorem Notices.has_add (n : Notices) (e f : Notice) : (n.add e).has f = (n.has f || decide (f = e)) := by
  have four : ∀ (x : BitVec 4) (c d : ChanNo), (x ||| BitVec.twoPow 4 c).getLsbD d = (x.getLsbD d || decide (d = c)) := by
    intro x c d
    revert c d; revert x; decide
  have six : ∀ (x : BitVec 6) (c d : BoothNo), (x ||| BitVec.twoPow 6 c).getLsbD d = (x.getLsbD d || decide (d = c)) := by
    intro x c d
    rw [BitVec.getLsbD_or, BitVec.getLsbD_twoPow]
    congr 1
    by_cases h : d = c
    · subst h; simp
    · have : c.val ≠ d.val := fun hh => h (Fin.ext hh.symm)
      simp [h, this]
  cases e <;> cases f <;> simp only [Notices.add, Notices.has, four, six, reduceCtorEq, decide_false, Bool.or_false,
    Notice.outcome.injEq, Notice.feed.injEq, Notice.assignment.injEq, Notice.profile.injEq, Notice.delay.injEq,
    Notice.conflict.injEq, Notice.booth.injEq, decide_true, Bool.or_true]

/-- A notice stands pending at a port after another was heard there. -/
theorem Port.has_hear (q : Port) (e f : Notice) :
    (q.hear e).pending.has f = (q.pending.has f || (q.role.any (fun r => r.hears f) && decide (f = e))) := by
  rw [Port.hear_eq]; dsimp only
  by_cases h : f = e
  · subst h
    split
    · rename_i hh; simp [Notices.has_add, hh]
    · rename_i hh; simp [Bool.not_eq_true] at hh; simp_all
  · split <;> simp [Notices.has_add, h]

/-- A notice stands pending at a port after another was raised. -/
theorem State.has_raiseIf (s : State) (b : Bool) (e f : Notice) (p : PortNo) :
    ((s.raiseIf b e).port p).pending.has f =
      ((s.port p).pending.has f || ((s.port p).role.any (fun r => r.hears f) && (b && decide (f = e)))) := by
  rw [State.port_raiseIf]
  cases b
  · simp
  · simp [Port.has_hear]

end Sys2Proof.Machine
end

