-- ==== Sys2Proof/Laws/Booths.lean ====
section
/-!
SUPPORT. The booth store: a slot result applied to a booth by the tables of section 2.4, landed pictures are legal, and the laws every
operation of the store keeps; what replacing a booth does to the rest of the state.
-/
namespace Sys2Proof.Machine

/-! ### Landing (R29) -/

theorem landSample_mem (w : Width) {high : Nat} (h : 64 ≤ high) (v : Nat) : 64 ≤ landSample w high v ∧ landSample w high v ≤ high := by
  unfold landSample; simp only [Config.legalLow]; omega

theorem planeWithin_planeMap {lo hi : Nat} {g : Nat → Nat} (h : ∀ v, lo ≤ g v ∧ g v ≤ hi) (p : Sys2Proof.Plane) :
    planeWithin lo hi (planeMap g p) = true := by
  unfold planeWithin
  rw [Bool.and_eq_true, decide_eq_true_eq, List.all_eq_true]
  refine ⟨h _, fun x hx => decide_eq_true ?_⟩
  obtain ⟨y, -, rfl⟩ := List.mem_map.1 (List.mem_filter.1 hx).1
  exact h _

/-- Every landed picture is legal. -/
theorem pictureLegal_land (w : Width) (p : Sys2Proof.Picture) : pictureLegal (land w p) = true := by
  simp only [pictureLegal, land, Bool.and_eq_true]
  exact ⟨⟨planeWithin_planeMap (landSample_mem w (by decide)) _, planeWithin_planeMap (landSample_mem w (by decide)) _⟩,
    planeWithin_planeMap (landSample_mem w (by decide)) _⟩

theorem pictureLegal_black : pictureLegal blackPicture = true := by decide

/-! ### A slot result (R32, R33) -/

/-- A result of a slot applied to a booth is what the tables of section 2.4 make of it. -/
theorem applyResult_takes (b : Booth) {r : SlotResult} (hr : r ≠ .none) (pic : Sys2Proof.Picture) :
    b.Takes r pic (b.applyResult r pic) := by
  have hrec : (b.applyResult r pic).record = b.record := by
    unfold Booth.applyResult Booth.onGood Booth.onMiss Booth.promote
    cases r <;> cases b.health <;> dsimp only <;> (try split) <;> rfl
  refine ⟨⟨rfl, hrec⟩, ?_, ?_, ?_, ?_, ?_, ?_, ?_⟩
  · rintro rfl; rfl
  · rintro rfl hl
    cases hb : b.health <;> simp_all [Booth.applyResult, Booth.onGood, Booth.promote, Booth.promotes]
  · rintro rfl hl
    simp only [Booth.applyResult, Booth.onGood, hl]
    split <;> simp_all [Booth.promote, Booth.promotes, Booth.keepsReady]
  · rintro (rfl | rfl) hl <;> simp [Booth.applyResult, Booth.onMiss, hl]
  · rintro (rfl | rfl) hl <;> simp [Booth.applyResult, Booth.onMiss, hl, Booth.keepsReady]
  · rintro (rfl | rfl) hl <;> simp only [Booth.applyResult, Booth.onMiss, hl] <;> split <;> simp_all [Booth.keepsReady]
  · rintro (rfl | rfl) hl <;> simp [Booth.applyResult, Booth.onMiss, hl, Booth.keepsReady]

/-- No slot gives the result NONE. -/
theorem slotResult_ne_none (on : Bool) (w : Width) (rx : Option Sys2Proof.SlotRx) : slotResult on w rx ≠ .none := by
  unfold slotResult
  split
  · simp
  · split
    · simp
    · split
      · simp
      · simp
      · split <;> simp

/-! ### The laws of one booth -/

/-- A slot result that is not MASKED keeps a booth's laws; so does MASKED. -/
theorem laws_applyResult {mask : BitVec 8} {b : Booth} (h : b.laws mask = true) {r : SlotResult} {pic : Sys2Proof.Picture}
    (hp : pictureLegal pic = true)
    (hm : r = .good → match b.record.slot with
      | none => False
      | some n => mask.getLsbD n = true) : (b.applyResult r pic).laws mask = true := by
  obtain ⟨rec, health, ready, cand, missed, good, seq, last, aw⟩ := b
  simp only [Booth.laws, Bool.and_eq_true, decide_eq_true_eq] at h
  obtain ⟨⟨⟨⟨⟨hh, hrd⟩, hcd⟩, hseq⟩, hrange⟩, hslot⟩ := h
  have hlim : 1 ≤ rec.hold ∧ 1 ≤ rec.recovery := by
    simp only [BoothRecord.inRange, decide_eq_true_eq] at hrange; omega
  have hs : (seq + 1) % 65536 < 65536 := Nat.mod_lt _ (by decide)
  have hslot' : r = .good → (match rec.slot with
      | none => false
      | some n => mask.getLsbD n || false) = true := by
    intro e; have := hm e
    cases hsl : rec.slot <;> simp_all
  cases r
  case none => cases health <;> simp_all [Booth.applyResult, Booth.laws, Booth.healthLaw]
  case masked => cases health <;> simp_all [Booth.applyResult, Booth.laws, Booth.healthLaw]
  case good =>
    cases health <;> simp only [Booth.applyResult, Booth.onGood, Booth.promote]
    · cases hsl : rec.slot <;> simp_all [Booth.laws, Booth.healthLaw]
    · cases hsl : rec.slot <;> simp_all [Booth.laws, Booth.healthLaw]
    · cases hsl : rec.slot <;> simp_all [Booth.laws, Booth.healthLaw]
    · split
      · cases hsl : rec.slot <;> simp_all [Booth.laws, Booth.healthLaw]
      · cases hsl : rec.slot <;> simp_all [Booth.laws, Booth.healthLaw]
  all_goals
    cases health <;> simp only [Booth.applyResult, Booth.onMiss]
    · cases hsl : rec.slot <;> simp_all [Booth.laws, Booth.healthLaw]
    · cases hsl : rec.slot with
      | none => simp_all
      | some k =>
        by_cases h1 : rec.hold ≤ 1
        · have : rec.hold = 1 := by omega
          simp_all [Booth.laws, Booth.healthLaw]; omega
        · have : 1 < rec.hold := by omega
          rw [if_neg h1]
          simp_all [Booth.laws, Booth.healthLaw]
    · cases hsl : rec.slot with
      | none => simp_all
      | some k =>
        by_cases h1 : missed + 1 ≥ rec.hold
        · have : 0 < rec.recovery := by omega
          simp_all [Booth.laws, Booth.healthLaw]; omega
        · rw [if_neg h1]
          simp_all [Booth.laws, Booth.healthLaw]
    · cases hsl : rec.slot with
      | none => simp_all
      | some k =>
        have : 0 < rec.recovery := by omega
        simp_all [Booth.laws, Booth.healthLaw]

/-- A booth sent to ABSENT keeps its laws, whatever the mask and with any record in range (R35). -/
theorem laws_toAbsent (mask : BitVec 8) (b : Booth) {r : BoothRecord} (hr : r.inRange = true) (aw : Bool) :
    ({ b.toAbsent with record := r, awaiting := aw } : Booth).laws mask = true := by
  cases hsl : r.slot <;> simp [Booth.laws, Booth.toAbsent, Booth.healthLaw, hr, hsl]

/-- WRITE BOOTH keeps a booth's laws: a record in range, its slot enabled wherever the health is kept (R27, R34, R35). -/
theorem laws_rewrite {mask : BitVec 8} {b : Booth} (h : b.laws mask = true) {r : BoothRecord} (hr : r.inRange = true) :
    (b.rewrite r).laws mask = true := by
  unfold Booth.rewrite
  split
  · exact laws_toAbsent mask b hr true
  · rename_i hsame
    rw [not_or, not_not, not_not] at hsame
    obtain ⟨rec, health, ready, cand, missed, good, seq, last, aw⟩ := b
    obtain ⟨hs1, hs2⟩ := hsame
    dsimp only at hs1 hs2
    simp only [Booth.laws, Bool.and_eq_true, decide_eq_true_eq, ← hs1] at h
    obtain ⟨⟨⟨⟨⟨hh, hrd⟩, hcd⟩, hseq⟩, -⟩, hslot⟩ := h
    clear hs1 hs2
    have hlim : 1 ≤ r.hold ∧ 1 ≤ r.recovery := by
      simp only [BoothRecord.inRange, decide_eq_true_eq] at hr; omega
    have hs : (seq + 1) % 65536 < 65536 := Nat.mod_lt _ (by decide)
    have hpos : 0 < r.recovery := hlim.2
    split
    · cases health
      · cases hsl : r.slot <;> simp_all [Booth.laws, Booth.healthLaw, Booth.reexamine]
      · cases hsl : r.slot <;> simp_all [Booth.laws, Booth.healthLaw, Booth.reexamine]
      · cases hsl : r.slot with
        | none => simp_all
        | some k =>
          by_cases h1 : missed ≥ r.hold
          · simp_all [Booth.laws, Booth.healthLaw, Booth.reexamine]
          · simp only [Booth.reexamine]; rw [if_neg h1]
            simp_all [Booth.laws, Booth.healthLaw]
      · cases hsl : r.slot with
        | none => simp_all
        | some k =>
          by_cases h1 : good ≥ r.recovery
          · simp only [Booth.reexamine]; rw [if_pos h1]
            cases cand with
            | none =>
              exfalso
              simp [Booth.healthLaw] at hh; omega
            | some pic => simp_all [Booth.laws, Booth.healthLaw, Booth.promote]
          · simp only [Booth.reexamine]; rw [if_neg h1]
            simp_all [Booth.laws, Booth.healthLaw]
    · rename_i hlimits
      rw [not_or, not_not, not_not] at hlimits
      dsimp only at hlimits
      cases health <;> cases hsl : r.slot <;> simp_all [Booth.laws, Booth.healthLaw]

/-! ### A booth replaced (R36) -/

theorem booth_putBooth (s : State) (b o : BoothNo) (x : Booth) : (s.putBooth b x).booth o = if o = b then x else s.booth o := by
  simp only [State.putBooth, State.raiseFeed, State.booth_raiseIf, State.booth_setBooth]

/-- Replacing a booth changes nothing but that booth and the BOOTH and FEED notices of the ports. -/
theorem putBooth_eq (s : State) (b : BoothNo) (x : Booth) :
    s.putBooth b x = { s with booths := (s.putBooth b x).booths, ports := (s.putBooth b x).ports } := by
  apply State.ext_accessors <;> intros <;> simp [State.putBooth, State.raiseFeed] <;> rfl

/-- The ports after a booth was replaced: a BOOTH notice where its health changed, and a FEED notice for each channel it is assigned
to where its usability changed. -/
theorem has_putBooth (s : State) (b : BoothNo) (x : Booth) (p : PortNo) (e : Notice) :
    ((s.putBooth b x).port p).pending.has e = ((s.port p).pending.has e || ((s.port p).role.any (fun r => r.hears e) &&
      (match e with
       | .booth o => decide (o = b) && x.health != (s.booth b).health
       | .feed c => (x.health.usable != (s.booth b).health.usable) && (s.chan c).assign.assigned == some b
       | _ => false))) := by
  simp only [State.putBooth, State.raiseFeed, State.has_raiseIf, State.role_raiseIf, State.port_setBooth, State.chan_raiseIf,
    State.chan_setBooth]
  cases e with
  | booth o => simp [Bool.and_comm]
  | feed c =>
    simp only [Notice.feed.injEq, reduceCtorEq, decide_false, Bool.and_false, Bool.or_false]
    match c with
    | 0 => simp
    | 1 => simp
    | 2 => simp
    | 3 => simp
  | _ => simp

end Sys2Proof.Machine
end

