-- ==== Sys2Proof/Laws/Cells.lean ====
section
/-!
SUPPORT. Sparse contents: a read after a write, and the canonical form every operation on the configuration memory and on the
planes of pictures keeps.
-/
namespace Sys2Proof.Machine

section
variable {α : Type} [DecidableEq α] {fill : α}

/-- The canonical form from a bound holds from every lower bound. -/
theorem cellsCanon_mono {lo lo' : Nat} {l : List (Nat × α)} (h : cellsCanon fill lo l = true) (hl : lo' ≤ lo) :
    cellsCanon fill lo' l = true := by
  cases l with
  | nil => rfl
  | cons x t =>
    obtain ⟨a, v⟩ := x
    simp only [cellsCanon, Bool.and_eq_true, decide_eq_true_eq] at h ⊢
    exact ⟨⟨hl.trans h.1.1, h.1.2⟩, h.2⟩

/-- Below the bound of a canonical list nothing is listed. -/
theorem cellsRead_below {lo : Nat} {l : List (Nat × α)} (h : cellsCanon fill lo l = true) {a : Nat} (ha : a < lo) :
    cellsRead fill l a = fill := by
  induction l generalizing lo with
  | nil => rfl
  | cons x t ih =>
    obtain ⟨b, v⟩ := x
    simp only [cellsCanon, Bool.and_eq_true, decide_eq_true_eq] at h
    have : a ≠ b := by omega
    simp only [cellsRead, this, if_false]
    exact ih h.2 (by omega)

/-- A read after a write: the value written at its address, and what was there at every other. -/
theorem cellsRead_cellsWrite {lo : Nat} {l : List (Nat × α)} (h : cellsCanon fill lo l = true) (a : Nat) (v : α) (b : Nat) :
    cellsRead fill (cellsWrite fill l a v) b = if b = a then v else cellsRead fill l b := by
  induction l generalizing lo with
  | nil =>
    by_cases hv : v = fill
    · simp [cellsWrite, hv, cellsRead]
    · simp [cellsWrite, hv, cellsRead]
  | cons x t ih =>
    obtain ⟨c, w⟩ := x
    have hc := h
    simp only [cellsCanon, Bool.and_eq_true, decide_eq_true_eq] at h
    unfold cellsWrite
    by_cases h1 : a < c
    · by_cases hv : v = fill
      · simp only [h1, if_true, hv]
        by_cases hb : b = a
        · simp only [hb, if_true]
          rw [cellsRead, if_neg (by omega : a ≠ c)]
          exact cellsRead_below h.2 (by omega)
        · simp [hb]
      · simp only [h1, if_true, hv, if_false, cellsRead]
    · by_cases h2 : a = c
      · subst h2
        by_cases hv : v = fill
        · simp only [lt_irrefl, if_false, if_true, hv, cellsRead]
          by_cases hb : b = a
          · simp only [hb, if_true]; exact cellsRead_below h.2 (by omega)
          · simp [hb]
        · simp only [lt_irrefl, if_false, if_true, hv, cellsRead]
          by_cases hb : b = a <;> simp [hb]
      · simp only [h1, h2, if_false, cellsRead, ih h.2]
        by_cases hb : b = c
        · subst hb; simp [Ne.symm h2]
        · simp [hb]

/-- A write keeps the canonical form. -/
theorem cellsCanon_cellsWrite {lo : Nat} {l : List (Nat × α)} (h : cellsCanon fill lo l = true) {a : Nat} (ha : lo ≤ a) (v : α) :
    cellsCanon fill lo (cellsWrite fill l a v) = true := by
  induction l generalizing lo with
  | nil =>
    by_cases hv : v = fill
    · simp [cellsWrite, hv, cellsCanon]
    · simp [cellsWrite, hv, cellsCanon, ha]
  | cons x t ih =>
    obtain ⟨c, w⟩ := x
    have hc := h
    simp only [cellsCanon, Bool.and_eq_true, decide_eq_true_eq] at h
    unfold cellsWrite
    by_cases h1 : a < c
    · by_cases hv : v = fill
      · simp only [h1, if_true, hv]; exact hc
      · simp only [h1, if_true, hv, if_false, cellsCanon, Bool.and_eq_true, decide_eq_true_eq]
        exact ⟨⟨ha, hv⟩, ⟨by omega, h.1.2⟩, h.2⟩
    · by_cases h2 : a = c
      · subst h2
        by_cases hv : v = fill
        · simp only [lt_irrefl, if_false, if_true, hv]; exact cellsCanon_mono h.2 (by omega)
        · simp only [lt_irrefl, if_false, if_true, hv, cellsCanon, Bool.and_eq_true, decide_eq_true_eq]
          exact ⟨⟨ha, hv⟩, h.2⟩
      · simp only [h1, h2, if_false, cellsCanon, Bool.and_eq_true, decide_eq_true_eq]
        exact ⟨h.1, ih h.2 (by omega)⟩

/-- Two canonical lists that read the same everywhere are equal, so equal contents are equal data. -/
theorem cells_ext {lo : Nat} {l m : List (Nat × α)} (hl : cellsCanon fill lo l = true) (hm : cellsCanon fill lo m = true)
    (h : ∀ a, cellsRead fill l a = cellsRead fill m a) : l = m := by
  induction l generalizing lo m with
  | nil =>
    cases m with
    | nil => rfl
    | cons y u =>
      obtain ⟨b, w⟩ := y
      simp only [cellsCanon, Bool.and_eq_true, decide_eq_true_eq] at hm
      have := h b
      simp [cellsRead] at this
      exact absurd this.symm hm.1.2
  | cons x t ih =>
    obtain ⟨a, v⟩ := x
    simp only [cellsCanon, Bool.and_eq_true, decide_eq_true_eq] at hl
    cases m with
    | nil =>
      have := h a
      simp [cellsRead] at this
      exact absurd this hl.1.2
    | cons y u =>
      obtain ⟨b, w⟩ := y
      simp only [cellsCanon, Bool.and_eq_true, decide_eq_true_eq] at hm
      have hab : a = b := by
        rcases lt_trichotomy a b with hlt | he | hgt
        · exfalso
          have h1 := h a
          have h2 := cellsRead_below hm.2 (a := a) (by omega)
          simp only [cellsRead, if_true, if_neg (by omega : a ≠ b), h2] at h1
          exact hl.1.2 h1
        · exact he
        · exfalso
          have h1 := h b
          have h2 := cellsRead_below hl.2 (a := b) (by omega)
          simp only [cellsRead, if_true, if_neg (by omega : b ≠ a), h2] at h1
          exact hm.1.2 h1.symm
      subst hab
      have hvw : v = w := by simpa [cellsRead] using h a
      subst hvw
      have : t = u := by
        apply ih hl.2 hm.2
        intro c
        by_cases hc : c = a
        · rw [cellsRead_below hl.2 (by omega), cellsRead_below hm.2 (by omega)]
        · simpa [cellsRead, hc] using h c
      rw [this]

end

/-! ### The configuration memory -/

/-- A byte read after a byte written. -/
theorem memRead_memWrite {m : List Host.Cell} (h : Memory.wf m = true) (a : Nat) (v : Byte) (b : Nat) :
    memRead (memWrite m a v) b = if b = a then v else memRead m b := cellsRead_cellsWrite h a v b

/-- A byte written keeps the memory's canonical form. -/
theorem wf_memWrite {m : List Host.Cell} (h : Memory.wf m = true) (a : Nat) (v : Byte) : Memory.wf (memWrite m a v) = true :=
  cellsCanon_cellsWrite h (Nat.zero_le a) v

/-- Bytes written one after another keep the memory's canonical form. -/
theorem wf_memWriteAll {m : List Host.Cell} (h : Memory.wf m = true) (w : List Host.Cell) :
    Memory.wf (memWriteAll m w) = true := by
  unfold memWriteAll
  induction w generalizing m with
  | nil => exact h
  | cons x t ih => exact ih (wf_memWrite h x.1 x.2)

/-- An address that no write names reads as before. -/
theorem memRead_memWriteAll_of_not_mem {m : List Host.Cell} (h : Memory.wf m = true) {w : List Host.Cell} {a : Nat}
    (ha : ∀ x ∈ w, x.1 ≠ a) : memRead (memWriteAll m w) a = memRead m a := by
  unfold memWriteAll
  induction w generalizing m with
  | nil => rfl
  | cons x t ih =>
    have hx := ha x (by simp)
    rw [List.foldl_cons, ih (wf_memWrite h x.1 x.2) (fun y hy => ha y (by simp [hy])), memRead_memWrite h, if_neg (Ne.symm hx)]

/-- Writes at distinct addresses: each address named reads as the value written to it. -/
theorem memRead_memWriteAll_of_mem {m : List Host.Cell} (h : Memory.wf m = true) {w : List Host.Cell}
    (hd : (w.map (·.1)).Nodup) {x : Host.Cell} (hx : x ∈ w) : memRead (memWriteAll m w) x.1 = x.2 := by
  unfold memWriteAll
  induction w generalizing m with
  | nil => simp at hx
  | cons y t ih =>
    rw [List.map_cons, List.nodup_cons] at hd
    rcases List.mem_cons.1 hx with rfl | ht
    · rw [List.foldl_cons]
      have := memRead_memWriteAll_of_not_mem (wf_memWrite h x.1 x.2) (w := t) (a := x.1)
        (fun z hz e => hd.1 (e ▸ List.mem_map_of_mem hz))
      unfold memWriteAll at this
      rw [this, memRead_memWrite h, if_pos rfl]
    · exact ih (wf_memWrite h y.1 y.2) hd.2 ht

/-! ### Planes -/

/-- A plane in canonical form. -/
def planeCanon (p : Plane) : Prop := cellsCanon p.fill 0 p.cells = true

/-- A sample written keeps a plane's canonical form. -/
theorem canon_planeWrite {p : Plane} (h : planeCanon p) (a v : Nat) : planeCanon (planeWrite p a v) :=
  cellsCanon_cellsWrite h (Nat.zero_le a) v

/-- A sample read after a sample written. -/
theorem planeGet_planeWrite {p : Plane} (h : planeCanon p) (a v b : Nat) :
    planeGet (planeWrite p a v) b = if b = a then v else planeGet p b := cellsRead_cellsWrite h a v b

/-- One line painted: the canonical form is kept, and each sample of the line reads as painted. -/
theorem planeGet_paintLine {p : Plane} (h : planeCanon p) (base bw : Nat) (val : Nat → Nat) :
    let q := (List.range bw).foldr (fun u r => planeWrite r (base + u) (val u)) p
    planeCanon q ∧ ∀ a, planeGet q a = if base ≤ a ∧ a < base + bw then val (a - base) else planeGet p a := by
  have key : ∀ (l : List Nat), l.Nodup →
      planeCanon (l.foldr (fun u r => planeWrite r (base + u) (val u)) p) ∧
        ∀ a, planeGet (l.foldr (fun u r => planeWrite r (base + u) (val u)) p) a =
          if base ≤ a ∧ a - base ∈ l then val (a - base) else planeGet p a := by
    intro l
    induction l with
    | nil => intro _; exact ⟨h, by simp⟩
    | cons u t ih =>
      intro hn
      rw [List.nodup_cons] at hn
      obtain ⟨hc, hg⟩ := ih hn.2
      refine ⟨canon_planeWrite hc _ _, fun a => ?_⟩
      rw [List.foldr_cons, planeGet_planeWrite hc, hg]
      by_cases ha : a = base + u
      · subst ha; simp
      · have : base ≤ a → a - base ≠ u := by omega
        by_cases hb : base ≤ a
        · simp [ha, hb, this hb]
        · simp [ha, hb]
  obtain ⟨hc, hg⟩ := key (List.range bw) List.nodup_range
  refine ⟨hc, fun a => ?_⟩
  rw [hg]
  have : (base ≤ a ∧ a - base ∈ List.range bw) ↔ (base ≤ a ∧ a < base + bw) := by
    rw [List.mem_range]; omega
  simp only [this]

/-- A rectangle painted on a plane `w` samples wide keeps the canonical form, and each sample at column `i` of line `j` reads as
painted inside the rectangle and as before outside it. -/
theorem planeGet_planePaint {p : Plane} (h : planeCanon p) {w x y bw bh : Nat} (hw : x + bw ≤ w) (val : Nat → Nat → Nat) :
    planeCanon (planePaint p w x y bw bh val) ∧
    ∀ i j, i < w → planeGet (planePaint p w x y bw bh val) (j * w + i) =
      if x ≤ i ∧ i < x + bw ∧ y ≤ j ∧ j < y + bh then val (i - x) (j - y) else planeGet p (j * w + i) := by
  have key : ∀ (l : List Nat), l.Nodup →
      let q := l.foldr (fun v q => (List.range bw).foldr (fun u r => planeWrite r ((y + v) * w + (x + u)) (val u v)) q) p
      planeCanon q ∧ ∀ i j, i < w → planeGet q (j * w + i) =
        if x ≤ i ∧ i < x + bw ∧ y ≤ j ∧ j - y ∈ l then val (i - x) (j - y) else planeGet p (j * w + i) := by
    intro l
    induction l with
    | nil => intro _; exact ⟨h, by simp⟩
    | cons v t ih =>
      intro hn
      rw [List.nodup_cons] at hn
      obtain ⟨hc, hg⟩ := ih hn.2
      have hl := planeGet_paintLine hc ((y + v) * w + x) bw (fun u => val u v)
      simp only [Nat.add_assoc] at hl
      refine ⟨hl.1, fun i j hi => ?_⟩
      rw [List.foldr_cons, hl.2, hg i j hi]
      by_cases hj : j = y + v
      · subst hj
        have e : ((y + v) * w + x ≤ (y + v) * w + i ∧ (y + v) * w + i < (y + v) * w + (x + bw)) ↔ (x ≤ i ∧ i < x + bw) := by
          constructor <;> intro h <;> omega
        have e2 : (y + v) * w + i - ((y + v) * w + x) = i - x := by omega
        simp only [e, e2, Nat.le_add_right, Nat.add_sub_cancel_left, true_and, List.mem_cons, true_or, and_true]
        by_cases hin : x ≤ i ∧ i < x + bw
        · simp [hin]
        · rw [if_neg hin, if_neg (fun hh => hin ⟨hh.1, hh.2.1⟩), if_neg hin]
      · have hout : ¬((y + v) * w + x ≤ j * w + i ∧ j * w + i < (y + v) * w + (x + bw)) := by
          rintro ⟨h1, h2⟩
          rcases Nat.lt_or_gt_of_ne hj with hlt | hgt
          · have : (j + 1) * w ≤ (y + v) * w := Nat.mul_le_mul_right w hlt
            rw [Nat.add_mul, Nat.one_mul] at this; omega
          · have : (y + v + 1) * w ≤ j * w := Nat.mul_le_mul_right w hgt
            rw [Nat.add_mul, Nat.one_mul] at this; omega
        rw [if_neg hout]
        have : y ≤ j → (j - y ∈ v :: t ↔ j - y ∈ t) := by
          intro hyj
          rw [List.mem_cons]
          constructor
          · rintro (he | ht)
            · omega
            · exact ht
          · exact Or.inr
        by_cases hyj : y ≤ j
        · simp only [this hyj]
        · simp [hyj]
  obtain ⟨hc, hg⟩ := key (List.range bh) List.nodup_range
  refine ⟨hc, fun i j hi => ?_⟩
  have := hg i j hi
  unfold planePaint
  rw [this]
  have e : (x ≤ i ∧ i < x + bw ∧ y ≤ j ∧ j - y ∈ List.range bh) ↔ (x ≤ i ∧ i < x + bw ∧ y ≤ j ∧ j < y + bh) := by
    rw [List.mem_range]; omega
  simp only [e]

/-- Every sample of a canonical plane passed through a function. -/
theorem planeGet_planeMap {p : Plane} (h : planeCanon p) (f : Nat → Nat) :
    planeCanon (planeMap f p) ∧ ∀ a, planeGet (planeMap f p) a = f (planeGet p a) := by
  obtain ⟨fill, cells⟩ := p
  have key : ∀ lo, cellsCanon fill lo cells = true →
      cellsCanon (f fill) lo ((cells.map (fun x => (x.1, f x.2))).filter (fun x => x.2 != f fill)) = true ∧
      ∀ a, cellsRead (f fill) ((cells.map (fun x => (x.1, f x.2))).filter (fun x => x.2 != f fill)) a =
        f (cellsRead fill cells a) := by
    induction cells with
    | nil => intro lo _; exact ⟨rfl, fun _ => rfl⟩
    | cons x t ih =>
      obtain ⟨b, v⟩ := x
      intro lo hlo
      simp only [cellsCanon, Bool.and_eq_true, decide_eq_true_eq] at hlo
      have ht : planeCanon ⟨fill, t⟩ := cellsCanon_mono hlo.2 (Nat.zero_le _)
      obtain ⟨hc, hg⟩ := ih ht (b + 1) hlo.2
      by_cases hv : f v = f fill
      · simp only [List.map_cons, List.filter_cons, hv, bne_self_eq_false, Bool.false_eq_true, if_false]
        refine ⟨cellsCanon_mono hc (by omega), fun a => ?_⟩
        rw [hg, cellsRead]
        by_cases ha : a = b
        · simp only [ha, if_true, hv]
          rw [cellsRead_below hlo.2 (by omega)]
        · simp [ha]
      · have hb : (f v != f fill) = true := by simp [hv]
        simp only [List.map_cons, List.filter_cons, hb, if_true, cellsCanon, Bool.and_eq_true, decide_eq_true_eq]
        refine ⟨⟨⟨hlo.1.1, hv⟩, hc⟩, fun a => ?_⟩
        simp only [cellsRead]
        by_cases ha : a = b
        · simp [ha]
        · simp [ha, hg]
  exact ⟨(key 0 h).1, (key 0 h).2⟩

end Sys2Proof.Machine
end

