-- ==== Sys2Proof/Laws/Moves.lean ====
section
/-!
SUPPORT. What each step of a frame start can touch: that it stays within State.Moves, and which items of its own channel it leaves.
-/
namespace Sys2Proof.Machine

theorem State.Moves.refl (s : State) (c : ChanNo) : s.Moves c s := ⟨rfl, rfl, rfl, rfl, rfl, rfl, rfl, rfl, fun _ => rfl, fun _ _ => rfl⟩

theorem State.Moves.trans {s t u : State} {c : ChanNo} (h : s.Moves c t) (k : t.Moves c u) : s.Moves c u where
  rate := k.rate.trans h.rate
  booths := k.booths.trans h.booths
  slotMask := k.slotMask.trans h.slotMask
  linkInFrame := k.linkInFrame.trans h.linkInFrame
  profiles := k.profiles.trans h.profiles
  loader := k.loader.trans h.loader
  memory := k.memory.trans h.memory
  pending := k.pending.trans h.pending
  ports p := by rw [k.ports p, h.ports p]
  others d hd := by rw [k.others d hd, h.others d hd]

/-- A booth reads the same after a move. -/
theorem State.Moves.booth {s t : State} {c : ChanNo} (h : s.Moves c t) (b : BoothNo) : t.booth b = s.booth b := by
  unfold State.booth; rw [h.booths]

/-- A profile reads the same after a move. -/
theorem State.Moves.profile {s t : State} {c : ChanNo} (h : s.Moves c t) (n : ProfNo) : t.profile n = s.profile n := by
  unfold State.profile; rw [h.profiles]

/-- A move's ports keep their roles. -/
theorem State.Moves.role {s t : State} {c : ChanNo} (h : s.Moves c t) (p : PortNo) : (t.port p).role = (s.port p).role := by
  rw [h.ports p]

/-- A move changes nothing but the channels and the ports. -/
theorem State.Moves.eq {s t : State} {c : ChanNo} (h : s.Moves c t) : t = { s with chans := t.chans, ports := t.ports } := by
  obtain ⟨h1, h2, h3, h4, h5, h6, h7, h8, -, -⟩ := h
  cases s; cases t; simp_all

/-! ### Replacing an item of the channel, and raising notices -/

theorem moves_setPath (s : State) (c : ChanNo) (x : Path) : s.Moves c (s.setPath c x) :=
  ⟨rfl, rfl, rfl, rfl, rfl, rfl, rfl, rfl, fun _ => rfl, fun d hd => by simp [hd]⟩
theorem moves_setPool (s : State) (c : ChanNo) (x : Pool) : s.Moves c (s.setPool c x) :=
  ⟨rfl, rfl, rfl, rfl, rfl, rfl, rfl, rfl, fun _ => rfl, fun d hd => by simp [hd]⟩
theorem moves_setPres (s : State) (c : ChanNo) (x : Presenter) : s.Moves c (s.setPres c x) :=
  ⟨rfl, rfl, rfl, rfl, rfl, rfl, rfl, rfl, fun _ => rfl, fun d hd => by simp [hd]⟩
theorem moves_setPlace (s : State) (c : ChanNo) (x : Place) : s.Moves c (s.setPlace c x) :=
  ⟨rfl, rfl, rfl, rfl, rfl, rfl, rfl, rfl, fun _ => rfl, fun d hd => by simp [hd]⟩
theorem moves_setAssign (s : State) (c : ChanNo) (x : Assign) : s.Moves c (s.setAssign c x) :=
  ⟨rfl, rfl, rfl, rfl, rfl, rfl, rfl, rfl, fun _ => rfl, fun d hd => by simp [hd]⟩
theorem moves_setSched (s : State) (c : ChanNo) (x : Sched) : s.Moves c (s.setSched c x) :=
  ⟨rfl, rfl, rfl, rfl, rfl, rfl, rfl, rfl, fun _ => rfl, fun d hd => by simp [hd]⟩
theorem moves_raiseIf (s : State) (c : ChanNo) (b : Bool) (e : Notice) : s.Moves c (s.raiseIf b e) := by
  refine ⟨by simp, by simp, by simp, by simp, by simp, by simp, by simp, by simp, fun p => ?_, fun _ _ => by simp⟩
  rw [State.port_raiseIf]; split
  · rw [Port.hear_eq]
  · rfl
theorem moves_setGrant (s : State) (c d : ChanNo) (g : Nat) : s.Moves c (s.setGrant d g) := by
  refine State.Moves.trans (t := s.setPool d { (s.chan d).pool with granted := g, clamped := decide (g < (s.chan d).pool.target) })
    ⟨rfl, rfl, rfl, rfl, rfl, rfl, rfl, rfl, fun _ => rfl, fun e _ => ?_⟩ (moves_raiseIf _ _ _ _)
  by_cases h : e = d
  · subst h; simp
  · simp [h]
theorem moves_regrant (s : State) (c d : ChanNo) : s.Moves c (s.regrant d) := by
  unfold State.regrant; dsimp only; split
  · exact moves_setGrant s c d _
  · exact .refl s c
theorem moves_poolPass (s : State) (c : ChanNo) : s.Moves c s.poolPass :=
  (((moves_regrant s c 0).trans (moves_regrant _ c 1)).trans (moves_regrant _ c 2)).trans (moves_regrant _ c 3)
theorem moves_poolPassIfFell (s : State) (c d : ChanNo) (n : Nat) : s.Moves c (s.poolPassIfFell d n) := by
  unfold State.poolPassIfFell; split
  · exact moves_poolPass s c
  · exact .refl s c
theorem moves_setTarget (s : State) (c : ChanNo) (d : Nat) : s.Moves c (s.setTarget c d) :=
  ((moves_setPool _ _ _).trans (moves_setGrant _ _ _ _)).trans (moves_poolPassIfFell _ _ _ _)

/-! ### The steps of a frame start -/

theorem moves_pathStep (s : State) (c : ChanNo) (pic : Picture) (a : Audio) (t : Option Timecode) :
    s.Moves c (s.pathStep c pic a t) := (moves_setPath _ _ _).trans (moves_poolPassIfFell _ _ _ _)
theorem moves_presenterOn (s : State) (c : ChanNo) (n : Option Nat) : s.Moves c (s.presenterOn c n) := moves_setPres _ _ _
theorem moves_presenterOff (s : State) (c : ChanNo) (n : Option Nat) : s.Moves c (s.presenterOff c n) := moves_setPres _ _ _
theorem moves_perform (s : State) (c : ChanNo) (n : Option Nat) (a : Action) : s.Moves c (s.perform c n a).1 := by
  cases a with
  | presenterOn => exact moves_presenterOn s c n
  | presenterOff => exact moves_presenterOff s c n
  | selectProfile k =>
    simp only [State.perform]; split
    · exact moves_setPlace _ _ _
    · exact .refl s c
  | setZone z w => exact moves_setPlace _ _ _
  | clearZone z => exact moves_setPlace _ _ _
  | setDelay d => exact moves_setTarget s c d
  | mark => exact .refl s c
theorem moves_writeOutcome (s : State) (c : ChanNo) (tag : Nat) (k : OutcomeKind) (l : Nat) :
    s.Moves c (s.writeOutcome c tag k l) := moves_setSched _ _ _
theorem moves_takeCue (s : State) (c : ChanNo) (q : Cue) : s.Moves c (s.takeCue c q) := by
  unfold State.takeCue; dsimp only; split
  · exact moves_writeOutcome _ _ _ _ _
  · split
    · exact (moves_perform s c q.fade q.action).trans (moves_writeOutcome _ _ _ _ _)
    · exact moves_writeOutcome _ _ _ _ _
theorem moves_takeDue (c : ChanNo) (l : List Cue) (s : State) : s.Moves c (State.takeDue c l s) := by
  induction l generalizing s with
  | nil => exact moves_setSched _ _ _
  | cons q t ih =>
    unfold State.takeDue; split
    · exact ((moves_setSched _ _ _).trans (moves_takeCue _ c q)).trans (ih _)
    · exact moves_setSched _ _ _
theorem moves_removeStranded (s : State) (c : ChanNo) : s.Moves c (s.removeStranded c) := by
  unfold State.removeStranded; dsimp only
  generalize (s.chan c).sched.cues.filter (s.stranded c) = l
  refine State.Moves.trans (t := s.setCues c ((s.chan c).sched.cues.filter (fun q => !s.stranded c q)))
    (moves_setSched _ _ _) ?_
  generalize s.setCues c _ = u
  induction l generalizing u with
  | nil => exact .refl u c
  | cons q t ih => exact (moves_writeOutcome _ _ _ _ _).trans (ih _)
theorem moves_dispatch (s : State) (c : ChanNo) : s.Moves c (s.dispatch c) :=
  ((moves_takeDue c _ s).trans (moves_removeStranded _ c)).trans (moves_raiseIf _ _ _ _)
theorem moves_handoverStep (s : State) (c : ChanNo) : s.Moves c (s.handoverStep c) := by
  unfold State.handoverStep; dsimp only; split
  · exact .refl s c
  · exact (moves_setAssign _ _ _).trans (moves_raiseIf _ _ _ _)
theorem moves_visibilityReport (s : State) (c : ChanNo) : s.Moves c (s.visibilityReport c) :=
  (moves_setAssign _ _ _).trans (moves_raiseIf _ _ _ _)
theorem moves_presenterStep (s : State) (c : ChanNo) : s.Moves c (s.presenterStep c) := by
  unfold State.presenterStep; dsimp only; split
  · exact (moves_setPres _ _ _).trans (moves_visibilityReport _ c)
  · exact moves_setPres _ _ _
theorem moves_placementStep (s : State) (c : ChanNo) : s.Moves c (s.placementStep c) :=
  (moves_setPlace _ _ _).trans (moves_raiseIf _ _ _ _)
theorem moves_transitions (s : State) (c : ChanNo) : s.Moves c (s.transitions c) :=
  ((moves_handoverStep s c).trans (moves_presenterStep _ c)).trans (moves_placementStep _ c)
theorem moves_composeStep (s : State) (c : ChanNo) : s.Moves c (s.composeStep c) := by
  unfold State.composeStep; dsimp only; split
  · exact .refl s c
  · exact moves_setPath _ _ _
theorem moves_frameStart (s : State) (c : ChanNo) (pic : Picture) (a : Audio) (t : Option Timecode) :
    s.Moves c (s.frameStart c pic a t) :=
  (((moves_pathStep s c pic a t).trans (moves_dispatch _ c)).trans (moves_transitions _ c)).trans (moves_composeStep _ c)

/-! ### What the pool's operations leave of every channel -/

/-- The pool's pass changes no more of any channel than its grant and its clamped flag. -/
theorem chan_poolPass (s : State) (d : ChanNo) : s.poolPass.chan d = { s.chan d with
    pool := { (s.chan d).pool with granted := (s.poolPass.chan d).pool.granted, clamped := (s.poolPass.chan d).pool.clamped } } :=
  (moves_poolPass s (d + 1)).others d (by revert d; decide)

theorem chan_poolPassIfFell (s : State) (c d : ChanNo) (n : Nat) : (s.poolPassIfFell c n).chan d = { s.chan d with
    pool := { (s.chan d).pool with
      granted := ((s.poolPassIfFell c n).chan d).pool.granted, clamped := ((s.poolPassIfFell c n).chan d).pool.clamped } } :=
  (moves_poolPassIfFell s (d + 1) c n).others d (by revert d; decide)

@[simp] theorem path_poolPassIfFell (s : State) (c d : ChanNo) (n : Nat) :
    ((s.poolPassIfFell c n).chan d).path = (s.chan d).path := by rw [chan_poolPassIfFell]
@[simp] theorem pres_poolPassIfFell (s : State) (c d : ChanNo) (n : Nat) :
    ((s.poolPassIfFell c n).chan d).pres = (s.chan d).pres := by rw [chan_poolPassIfFell]
@[simp] theorem place_poolPassIfFell (s : State) (c d : ChanNo) (n : Nat) :
    ((s.poolPassIfFell c n).chan d).place = (s.chan d).place := by rw [chan_poolPassIfFell]
@[simp] theorem assign_poolPassIfFell (s : State) (c d : ChanNo) (n : Nat) :
    ((s.poolPassIfFell c n).chan d).assign = (s.chan d).assign := by rw [chan_poolPassIfFell]
@[simp] theorem sched_poolPassIfFell (s : State) (c d : ChanNo) (n : Nat) :
    ((s.poolPassIfFell c n).chan d).sched = (s.chan d).sched := by rw [chan_poolPassIfFell]
@[simp] theorem target_poolPassIfFell (s : State) (c d : ChanNo) (n : Nat) :
    ((s.poolPassIfFell c n).chan d).pool.target = (s.chan d).pool.target := by rw [chan_poolPassIfFell]

@[simp] theorem path_setGrant (s : State) (c d : ChanNo) (g : Nat) : ((s.setGrant c g).chan d).path = (s.chan d).path := by
  simp [State.setGrant]
@[simp] theorem pres_setGrant (s : State) (c d : ChanNo) (g : Nat) : ((s.setGrant c g).chan d).pres = (s.chan d).pres := by
  simp [State.setGrant]
@[simp] theorem place_setGrant (s : State) (c d : ChanNo) (g : Nat) : ((s.setGrant c g).chan d).place = (s.chan d).place := by
  simp [State.setGrant]
@[simp] theorem assign_setGrant (s : State) (c d : ChanNo) (g : Nat) : ((s.setGrant c g).chan d).assign = (s.chan d).assign := by
  simp [State.setGrant]
@[simp] theorem sched_setGrant (s : State) (c d : ChanNo) (g : Nat) : ((s.setGrant c g).chan d).sched = (s.chan d).sched := by
  simp [State.setGrant]

@[simp] theorem path_setTarget (s : State) (c d : ChanNo) (n : Nat) : ((s.setTarget c n).chan d).path = (s.chan d).path := by
  simp [State.setTarget]
@[simp] theorem pres_setTarget (s : State) (c d : ChanNo) (n : Nat) : ((s.setTarget c n).chan d).pres = (s.chan d).pres := by
  simp [State.setTarget]
@[simp] theorem place_setTarget (s : State) (c d : ChanNo) (n : Nat) : ((s.setTarget c n).chan d).place = (s.chan d).place := by
  simp [State.setTarget]
@[simp] theorem assign_setTarget (s : State) (c d : ChanNo) (n : Nat) :
    ((s.setTarget c n).chan d).assign = (s.chan d).assign := by simp [State.setTarget]
@[simp] theorem sched_setTarget (s : State) (c d : ChanNo) (n : Nat) : ((s.setTarget c n).chan d).sched = (s.chan d).sched := by
  simp [State.setTarget]

/-! ### What each step leaves of its own channel -/

/-- Step 1 fixes the path, by Path.enter. -/
theorem path_pathStep (s : State) (c : ChanNo) (pic : Picture) (a : Audio) (t : Option Timecode) :
    ((s.pathStep c pic a t).chan c).path = (s.chan c).path.enter s.rate (s.chan c).pool.granted pic a t := by
  simp [State.pathStep]
@[simp] theorem pres_pathStep (s : State) (c d : ChanNo) (pic : Picture) (a : Audio) (t : Option Timecode) :
    ((s.pathStep c pic a t).chan d).pres = (s.chan d).pres := by simp [State.pathStep]
@[simp] theorem place_pathStep (s : State) (c d : ChanNo) (pic : Picture) (a : Audio) (t : Option Timecode) :
    ((s.pathStep c pic a t).chan d).place = (s.chan d).place := by simp [State.pathStep]
@[simp] theorem assign_pathStep (s : State) (c d : ChanNo) (pic : Picture) (a : Audio) (t : Option Timecode) :
    ((s.pathStep c pic a t).chan d).assign = (s.chan d).assign := by simp [State.pathStep]
@[simp] theorem sched_pathStep (s : State) (c d : ChanNo) (pic : Picture) (a : Audio) (t : Option Timecode) :
    ((s.pathStep c pic a t).chan d).sched = (s.chan d).sched := by simp [State.pathStep]

/-- An action changes neither path, assignment nor cue list. -/
theorem kept_perform (s : State) (c : ChanNo) (n : Option Nat) (a : Action) (d : ChanNo) :
    (((s.perform c n a).1).chan d).path = (s.chan d).path ∧ (((s.perform c n a).1).chan d).assign = (s.chan d).assign ∧
    (((s.perform c n a).1).chan d).sched = (s.chan d).sched := by
  cases a with
  | selectProfile k => simp only [State.perform]; split <;> simp
  | _ => simp [State.perform, State.presenterOn, State.presenterOff]

@[simp] theorem path_writeOutcome (s : State) (c : ChanNo) (tag : Nat) (k : OutcomeKind) (l : Nat) (d : ChanNo) :
    ((s.writeOutcome c tag k l).chan d).path = (s.chan d).path := by simp [State.writeOutcome]
@[simp] theorem assign_writeOutcome (s : State) (c : ChanNo) (tag : Nat) (k : OutcomeKind) (l : Nat) (d : ChanNo) :
    ((s.writeOutcome c tag k l).chan d).assign = (s.chan d).assign := by simp [State.writeOutcome]
@[simp] theorem pres_writeOutcome (s : State) (c : ChanNo) (tag : Nat) (k : OutcomeKind) (l : Nat) (d : ChanNo) :
    ((s.writeOutcome c tag k l).chan d).pres = (s.chan d).pres := by simp [State.writeOutcome]
@[simp] theorem place_writeOutcome (s : State) (c : ChanNo) (tag : Nat) (k : OutcomeKind) (l : Nat) (d : ChanNo) :
    ((s.writeOutcome c tag k l).chan d).place = (s.chan d).place := by simp [State.writeOutcome]
@[simp] theorem pool_writeOutcome (s : State) (c : ChanNo) (tag : Nat) (k : OutcomeKind) (l : Nat) (d : ChanNo) :
    ((s.writeOutcome c tag k l).chan d).pool = (s.chan d).pool := by simp [State.writeOutcome]
@[simp] theorem cues_writeOutcome (s : State) (c : ChanNo) (tag : Nat) (k : OutcomeKind) (l : Nat) (d : ChanNo) :
    ((s.writeOutcome c tag k l).chan d).sched.cues = (s.chan d).sched.cues := by
  by_cases h : d = c
  · subst h; simp [State.writeOutcome, Sched.write]; split <;> rfl
  · simp [State.writeOutcome, h]
@[simp] theorem lateLimit_writeOutcome (s : State) (c : ChanNo) (tag : Nat) (k : OutcomeKind) (l : Nat) (d : ChanNo) :
    ((s.writeOutcome c tag k l).chan d).sched.lateLimit = (s.chan d).sched.lateLimit := by
  by_cases h : d = c
  · subst h; simp [State.writeOutcome, Sched.write]; split <;> rfl
  · simp [State.writeOutcome, h]

/-- A cue taken changes neither path, assignment, cue list nor late limit. -/
theorem kept_takeCue (s : State) (c : ChanNo) (q : Cue) (d : ChanNo) :
    ((s.takeCue c q).chan d).path = (s.chan d).path ∧ ((s.takeCue c q).chan d).assign = (s.chan d).assign ∧
    ((s.takeCue c q).chan d).sched.cues = (s.chan d).sched.cues ∧
    ((s.takeCue c q).chan d).sched.lateLimit = (s.chan d).sched.lateLimit := by
  have h := kept_perform s c q.fade q.action d
  unfold State.takeCue; dsimp only; split
  · simp
  · split <;> simp [h]

theorem kept_takeDue (c : ChanNo) (l : List Cue) (s : State) (d : ChanNo) :
    ((State.takeDue c l s).chan d).path = (s.chan d).path ∧ ((State.takeDue c l s).chan d).assign = (s.chan d).assign ∧
    ((State.takeDue c l s).chan d).sched.lateLimit = (s.chan d).sched.lateLimit := by
  have hset : ∀ (u : State) (m : List Cue), ((u.setCues c m).chan d).path = (u.chan d).path ∧
      ((u.setCues c m).chan d).assign = (u.chan d).assign ∧
      ((u.setCues c m).chan d).sched.lateLimit = (u.chan d).sched.lateLimit := by
    intro u m
    by_cases h : d = c
    · subst h; simp [State.setCues]
    · simp [State.setCues, h]
  induction l generalizing s with
  | nil => exact hset s []
  | cons q t ih =>
    unfold State.takeDue; split
    · have h1 := ih ((s.setCues c t).takeCue c q)
      have h2 := kept_takeCue (s.setCues c t) c q d
      have h3 := hset s t
      exact ⟨h1.1.trans (h2.1.trans h3.1), h1.2.1.trans (h2.2.1.trans h3.2.1), h1.2.2.trans (h2.2.2.2.trans h3.2.2)⟩
    · exact hset s _

theorem kept_removeStranded (s : State) (c d : ChanNo) :
    ((s.removeStranded c).chan d).path = (s.chan d).path ∧ ((s.removeStranded c).chan d).assign = (s.chan d).assign ∧
    ((s.removeStranded c).chan d).pres = (s.chan d).pres ∧ ((s.removeStranded c).chan d).place = (s.chan d).place ∧
    ((s.removeStranded c).chan d).pool = (s.chan d).pool ∧
    ((s.removeStranded c).chan d).sched.lateLimit = (s.chan d).sched.lateLimit := by
  unfold State.removeStranded; dsimp only
  generalize (s.chan c).sched.cues.filter (s.stranded c) = l
  generalize (s.chan c).sched.cues.filter (fun q => !s.stranded c q) = m
  have h : ((s.setCues c m).chan d).path = (s.chan d).path ∧ ((s.setCues c m).chan d).assign = (s.chan d).assign ∧
      ((s.setCues c m).chan d).pres = (s.chan d).pres ∧ ((s.setCues c m).chan d).place = (s.chan d).place ∧
      ((s.setCues c m).chan d).pool = (s.chan d).pool ∧
      ((s.setCues c m).chan d).sched.lateLimit = (s.chan d).sched.lateLimit := by
    by_cases h : d = c
    · subst h; simp [State.setCues]
    · simp [State.setCues, h]
  generalize s.setCues c m = u at h ⊢
  induction l generalizing u with
  | nil => exact h
  | cons q t ih => exact ih _ (by simpa using h)

/-- Dispatch changes neither path, assignment nor late limit. -/
theorem kept_dispatch (s : State) (c d : ChanNo) :
    ((s.dispatch c).chan d).path = (s.chan d).path ∧ ((s.dispatch c).chan d).assign = (s.chan d).assign ∧
    ((s.dispatch c).chan d).sched.lateLimit = (s.chan d).sched.lateLimit := by
  have h1 := kept_takeDue c (sortCues (s.offset c) (s.chan c).sched.cues) s d
  have h2 := kept_removeStranded (State.takeDue c (sortCues (s.offset c) (s.chan c).sched.cues) s) c d
  simp only [State.dispatch, State.chan_raiseIf]
  exact ⟨h2.1.trans h1.1, h2.2.1.trans h1.2.1, h2.2.2.2.2.2.trans h1.2.2⟩

/-- The handover step changes nothing of its channel but the assignment. -/
theorem kept_handoverStep (s : State) (c d : ChanNo) :
    ((s.handoverStep c).chan d) = { s.chan d with assign := ((s.handoverStep c).chan d).assign } := by
  unfold State.handoverStep; dsimp only; split
  · rfl
  · by_cases h : d = c
    · subst h; simp
    · simp [h]

/-- The visibility report changes nothing of its channel but the assignment, by Assign.onReport. -/
theorem chan_visibilityReport (s : State) (c : ChanNo) :
    (s.visibilityReport c).chan c = { s.chan c with assign := (s.chan c).assign.onReport } := by
  simp [State.visibilityReport]

/-- The presenter step of its channel: the presenter by Presenter.step, and the visibility report where it left visibility. -/
theorem chan_presenterStep (s : State) (c : ChanNo) :
    let p := (s.chan c).pres.step (s.assignedHealth c) (s.chan c).assign.releasePending (s.currentProfile c).fade
    (s.presenterStep c).chan c = { s.chan c with
      pres := p
      assign := if p.visAtEntry && !p.state.visible then (s.chan c).assign.onReport else (s.chan c).assign } := by
  unfold State.presenterStep; dsimp only; split <;> simp_all [chan_visibilityReport]

/-- The placement step of its channel. -/
theorem chan_placementStep (s : State) (c : ChanNo) :
    (s.placementStep c).chan c = { s.chan c with
      place := (s.chan c).place.step (s.currentProfile c) (s.chan c).pres.state.visible } := by
  simp [State.placementStep]

/-- Step 4 changes nothing but the frame sent. -/
theorem chan_composeStep (s : State) (c : ChanNo) :
    (s.composeStep c).chan c = { s.chan c with path := { (s.chan c).path with
      sent := match (s.chan c).path.lastOut with
        | none => (s.chan c).path.sent
        | some f => some ⟨compose f.picture (s.frameInput c), f.audio, some (tcOfFrame s.rate f.tc)⟩ } } := by
  unfold State.composeStep
  cases h : (s.chan c).path.lastOut with
  | none => simp only [h]; rw [← h]
  | some f => simp [h]

end Sys2Proof.Machine
end

