-- ==== Sys2Proof/Laws/Cues.lean ====
section
/-!
SUPPORT. Cue lists: where a cue is inserted, what a sorted list is, and what the dispatch of a frame start leaves in the list (R126,
R129, R130, R133).
-/
namespace Sys2Proof.Machine

/-! ### Order -/

/-- A cue goes behind every cue at the front whose key is no greater than its own (R126). -/
theorem insertCue_eq (key : Cue → Int) (q : Cue) (l : List Cue) :
    insertCue key q l = l.takeWhile (fun h => key h ≤ key q) ++ q :: l.dropWhile (fun h => key h ≤ key q) := by
  induction l with
  | nil => rfl
  | cons h t ih =>
    unfold insertCue
    by_cases hk : key h ≤ key q
    · simp [hk, ih]
    · simp [hk]

theorem mem_insertCue {key : Cue → Int} {q r : Cue} {l : List Cue} : r ∈ insertCue key q l ↔ r = q ∨ r ∈ l := by
  rw [insertCue_eq]
  conv_rhs => rw [← List.takeWhile_append_dropWhile (p := fun h => decide (key h ≤ key q)) (l := l)]
  simp only [List.mem_append, List.mem_cons]
  tauto

theorem length_insertCue (key : Cue → Int) (q : Cue) (l : List Cue) : (insertCue key q l).length = l.length + 1 := by
  rw [insertCue_eq]
  conv_rhs => rw [← List.takeWhile_append_dropWhile (p := fun h => decide (key h ≤ key q)) (l := l)]
  simp only [List.length_append, List.length_cons]; omega

/-- Insertion keeps a list in order. -/
theorem sorted_insertCue {key : Cue → Int} {q : Cue} {l : List Cue} (h : l.Pairwise (fun a b => key a ≤ key b)) :
    (insertCue key q l).Pairwise (fun a b => key a ≤ key b) := by
  induction l with
  | nil => simp [insertCue]
  | cons x t ih =>
    rw [List.pairwise_cons] at h
    unfold insertCue
    split
    · rename_i hx
      rw [List.pairwise_cons]
      refine ⟨fun r hr => ?_, ih h.2⟩
      rcases mem_insertCue.1 hr with rfl | hr
      · exact hx
      · exact h.1 r hr
    · rename_i hx
      rw [List.pairwise_cons, List.pairwise_cons]
      refine ⟨fun r hr => ?_, h⟩
      rcases List.mem_cons.1 hr with rfl | hr
      · omega
      · have := h.1 r hr; omega

/-- The re-sorted list is in order and holds the same cues (R129). -/
theorem sorted_sortCues (key : Cue → Int) (l : List Cue) : (sortCues key l).Pairwise (fun a b => key a ≤ key b) := by
  have : Std.Total (fun a b : Cue => key a ≤ key b) := ⟨fun a b => by omega⟩
  have : IsTrans Cue (fun a b : Cue => key a ≤ key b) := ⟨fun a b c => by omega⟩
  exact List.pairwise_insertionSort _ l

theorem perm_sortCues (key : Cue → Int) (l : List Cue) : (sortCues key l).Perm l := List.perm_insertionSort _ l

/-! ### Dispatch -/

theorem cues_setCues (s : State) (c : ChanNo) (l : List Cue) : ((s.setCues c l).chan c).sched.cues = l := by
  simp [State.setCues]

theorem outTc_setCues (s : State) (c : ChanNo) (l : List Cue) : ((s.setCues c l).chan c).path = (s.chan c).path := by
  simp [State.setCues]

/-- The offset of a cue depends on the frame rate and T alone. -/
theorem offset_congr {s t : State} {c : ChanNo} (hr : t.rate = s.rate) (hp : (t.chan c).path = (s.chan c).path) (q : Cue) :
    t.offset c q = s.offset c q := by unfold State.offset; rw [hr, hp]

/-- Taking the due cues from a list in order leaves exactly those of its cues that are ahead (R130). -/
theorem cues_takeDue (c : ChanNo) (l : List Cue) (s : State) (h : l.Pairwise (fun a b => s.offset c a ≤ s.offset c b)) :
    ((State.takeDue c l s).chan c).sched.cues = l.filter (fun q => 0 < s.offset c q) := by
  induction l generalizing s with
  | nil => exact cues_setCues s c []
  | cons q t ih =>
    rw [List.pairwise_cons] at h
    unfold State.takeDue
    split
    · rename_i hd
      have hk := kept_takeCue (s.setCues c t) c q c
      have ho : ∀ r, ((s.setCues c t).takeCue c q).offset c r = s.offset c r :=
        offset_congr ((moves_takeCue _ c q).rate.trans (by simp [State.setCues])) (hk.1.trans (outTc_setCues s c t))
      rw [ih _ (by simpa only [ho] using h.2)]
      simp only [ho]
      rw [List.filter_cons_of_neg (by simp; omega)]
    · rename_i hd
      rw [cues_setCues, List.filter_eq_self.2]
      intro r hr
      rcases List.mem_cons.1 hr with rfl | hr
      · simp; omega
      · have := h.1 r hr; simp; omega

theorem cues_removeStranded (s : State) (c : ChanNo) :
    ((s.removeStranded c).chan c).sched.cues = (s.chan c).sched.cues.filter (fun q => !s.stranded c q) := by
  unfold State.removeStranded; dsimp only
  have h := cues_setCues s c ((s.chan c).sched.cues.filter (fun q => !s.stranded c q))
  generalize s.setCues c _ = u at h ⊢
  generalize (s.chan c).sched.cues.filter (s.stranded c) = l
  induction l generalizing u with
  | nil => exact h
  | cons q t ih => exact ih _ (by simpa using h)

/-- What a dispatch leaves: the cues that are ahead by no more than D/4 + 1, in order of offset (R129, R130, R133). -/
theorem cues_dispatch (s : State) (c : ChanNo) :
    ((s.dispatch c).chan c).sched.cues =
      (sortCues (s.offset c) (s.chan c).sched.cues).filter
        (fun q => decide (0 < s.offset c q ∧ s.offset c q ≤ (s.rate.horizon : Int) + 1)) := by
  simp only [State.dispatch, State.chan_raiseIf]
  rw [cues_removeStranded, cues_takeDue c _ s (sorted_sortCues _ _), List.filter_filter]
  have hk := kept_takeDue c (sortCues (s.offset c) (s.chan c).sched.cues) s c
  have hm := moves_takeDue c (sortCues (s.offset c) (s.chan c).sched.cues) s
  have ho := offset_congr (c := c) hm.rate hk.1
  congr 1
  funext q
  simp only [State.stranded, ho, hm.rate]
  by_cases h1 : 0 < s.offset c q <;> by_cases h2 : s.offset c q ≤ (s.rate.horizon : Int) + 1 <;> simp [h1, h2]
  all_goals omega

end Sys2Proof.Machine
end

