-- ==== Sys2Proof/Laws/Fades.lean ====
section
/-!
SUPPORT. The arithmetic of fades and crossfades: rounding, step counts, and the levels between them (R86, R87, R110); and what each
operation of the presenter controller and of the assignment map does to the laws that bind them.
-/
namespace Sys2Proof.Machine

/-! ### Rounding -/

/-- A rounded share of a whole is no more than the whole. -/
theorem roundDiv_le {a b m : Nat} (hm : 0 < m) (h : a ≤ b * m) : roundDiv a m ≤ b := by
  unfold roundDiv
  have h1 : 2 * a + m < (b + 1) * (2 * m) := by nlinarith
  exact Nat.lt_succ_iff.1 ((Nat.div_lt_iff_lt_mul (by omega)).2 h1)

/-- The whole, rounded, is the whole. -/
theorem roundDiv_mul (b m : Nat) (hm : 0 < m) : roundDiv (b * m) m = b := by
  unfold roundDiv
  have : 2 * (b * m) + m = m + b * (2 * m) := by ring
  rw [this, Nat.add_mul_div_right _ _ (by omega), Nat.div_eq_of_lt (by omega), Nat.zero_add]

theorem roundDiv_mono {a b m : Nat} (h : a ≤ b) : roundDiv a m ≤ roundDiv b m := by
  unfold roundDiv; exact Nat.div_le_div_right (by omega)

/-- Shares that grow by at least the divisor grow by at least one when rounded. -/
theorem roundDiv_succ_le {a b m : Nat} (hm : 0 < m) (h : a + m ≤ b) : roundDiv a m + 1 ≤ roundDiv b m := by
  unfold roundDiv
  have : 2 * a + m + 1 * (2 * m) ≤ 2 * b + m := by omega
  calc (2 * a + m) / (2 * m) + 1 = (2 * a + m + 1 * (2 * m)) / (2 * m) := by
        rw [Nat.add_mul_div_right _ _ (by omega)]
    _ ≤ _ := Nat.div_le_div_right this

/-! ### Step counts -/

theorem riseSteps_pos (n g0 : Nat) : 0 < riseSteps n g0 := by unfold riseSteps; omega
theorem fallSteps_pos (n g0 : Nat) : 0 < fallSteps n g0 := by unfold fallSteps; omega

/-- A rise of at most 250 frames takes no more steps than there are levels to pass. -/
theorem riseSteps_le {n g0 : Nat} (hn : n ≤ 256) (hg : g0 < 256) : riseSteps n g0 ≤ 256 - g0 := by
  unfold riseSteps ceilDiv
  simp only [Config.whole]
  have : n * (256 - g0) ≤ 256 * (256 - g0) := Nat.mul_le_mul_right _ hn
  omega

theorem fallSteps_le {n g0 : Nat} (hn : n ≤ 256) (hg : 0 < g0) : fallSteps n g0 ≤ g0 := by
  unfold fallSteps ceilDiv
  simp only [Config.whole]
  have : n * g0 ≤ 256 * g0 := Nat.mul_le_mul_right _ hn
  omega

/-! ### Levels -/

/-- A rise's level is never below its start nor above the whole. -/
theorem level_rise {f : Fade} (hr : f.rise = true) (hg : f.g0 ≤ 256) (hm : 0 < f.m) {i : Nat} (hi : i ≤ f.m) :
    f.g0 ≤ f.level i ∧ f.level i ≤ 256 := by
  unfold Fade.level; rw [if_pos hr]; simp only [Config.whole]
  have := roundDiv_le (a := (256 - f.g0) * i) (b := 256 - f.g0) hm (Nat.mul_le_mul_left _ hi)
  omega

/-- A fall's level is never above its start. -/
theorem level_fall {f : Fade} (hr : f.rise = false) (i : Nat) : f.level i ≤ f.g0 := by
  unfold Fade.level; rw [if_neg (by simp [hr])]; exact Nat.sub_le _ _

/-- Any level of a fade that starts within the whole is within the whole. -/
theorem level_le {f : Fade} (hg : f.g0 ≤ 256) (hm : 0 < f.m) {i : Nat} (hi : i ≤ f.m) : f.level i ≤ 256 := by
  cases hr : f.rise
  · exact (level_fall hr i).trans hg
  · exact (level_rise hr hg hm hi).2

/-- The progress of a crossfade within its length is within the whole. -/
theorem crossfadeProgress_le {nx i : Nat} (hn : 0 < nx) (hi : i ≤ nx) : crossfadeProgress nx i ≤ 256 := by
  unfold crossfadeProgress; simp only [Config.whole]
  exact roundDiv_le hn (Nat.mul_le_mul_left _ hi)

/-! ### The laws of presenter and assignment -/

theorem stateLaw_beginRise {p : Presenter} {g0 n : Nat} (h : g0 ≤ 256) : (p.beginRise g0 n).stateLaw = true := by
  simp [Presenter.beginRise, Presenter.stateLaw, h, Config.whole, riseSteps_pos]

theorem stateLaw_beginFall {p : Presenter} {n : Nat} (h : p.g ≤ 256) : (p.beginFall n).stateLaw = true := by
  simp [Presenter.beginFall, Presenter.stateLaw, h, Config.whole, fallSteps_pos]

theorem stateLaw_cutToZero (p : Presenter) : p.cutToZero.stateLaw = true := by
  cases h : p.intent <;> simp [Presenter.cutToZero, Presenter.restState, Presenter.stateLaw, h, Config.whole]

theorem stateLaw_g {p : Presenter} (h : p.stateLaw = true) : p.g ≤ 256 := by
  simp only [Presenter.stateLaw, Config.whole, Bool.and_eq_true, decide_eq_true_eq] at h; exact h.1

/-- A fade's step keeps what goes with the presenter's state, and leaves it RISING, FALLING or at one of their ends. -/
theorem stateLaw_fadeStep {p : Presenter} (h : p.stateLaw = true) :
    p.fadeStep.stateLaw = true ∧
    (p.state = .rising → p.fadeStep.state = .rising ∨ p.fadeStep.state = .on) ∧
    (p.state = .falling → p.fadeStep.state = .falling ∨ p.fadeStep.state = .off ∨ p.fadeStep.state = .waitFeed) ∧
    (p.state ≠ .rising → p.state ≠ .falling → p.fadeStep = p) := by
  obtain ⟨st, intent, g, fd, loss, fr, va⟩ := p
  cases st <;> simp_all [Presenter.fadeStep]
  all_goals
    cases fd with
    | none => simp [Presenter.stateLaw] at h
    | some f =>
      simp only [Presenter.stateLaw, Option.any_some, Bool.and_eq_true, decide_eq_true_eq, Bool.not_eq_true', Config.whole] at h
      dsimp only
      split
      · cases intent <;> simp [Presenter.cutToZero, Presenter.restState, Presenter.stateLaw, Config.whole]
      · have := level_le (f := f) h.2.2.1 (by omega) (i := f.i + 1) (by omega)
        simp [Presenter.stateLaw, Config.whole, h.2.1, h.2.2.1, this]; omega

/-- The visibility report leaves nothing that only a visible presenter may have. -/
theorem airLaw_onReport {p : Presenter} {a : Assign} (hp : p.stateLaw = true) (hv : p.state.visible = false)
    (ha : a.releasePending = true → a.incoming = none) : airLaw p a.onReport = true := by
  have hf : (p.state == PState.falling) = false := by
    cases hs : p.state <;> simp_all [PState.visible]
  cases hr : a.releasePending
  · cases hi : a.incoming <;> simp [Assign.onReport, Assign.complete, airLaw, hp, hv, hr, hi]
  · simp [Assign.onReport, airLaw, hp, hv, hr, ha hr]

/-- Part 1 of the presenter step keeps what goes with the presenter's state. -/
theorem stateLaw_react {p : Presenter} (h : p.stateLaw = true) (health : Option Health) (rp : Bool) (n : Nat) :
    (p.react health rp n).stateLaw = true ∧
    (p.state.visible = true → (p.react health rp n).state.visible = true ∨ (p.react health rp n) = p.cutToZero) ∧
    (rp = true → p.state = .falling → (p.react health rp n) = p ∨ (p.react health rp n) = p.cutToZero) := by
  have hg := stateLaw_g h
  have rise : ∀ g0, g0 ≤ 256 → (p.beginRise g0 n).stateLaw = true := fun g0 => stateLaw_beginRise
  have fall : (p.beginFall n).stateLaw = true := stateLaw_beginFall hg
  have onFeed : (p.riseOnFeed rp n).stateLaw = true ∧
      (p.state.visible = true → (p.riseOnFeed rp n).state.visible = true ∨ (p.riseOnFeed rp n) = p.cutToZero) ∧
      (rp = true → p.state = .falling → (p.riseOnFeed rp n) = p ∨ (p.riseOnFeed rp n) = p.cutToZero) := by
    cases hs : p.state <;> simp [Presenter.riseOnFeed, hs, h, rise, PState.visible]
    split
    · rename_i hc
      refine ⟨rise _ hg, by simp [Presenter.beginRise], fun hr => ?_⟩
      simp [hc.2] at hr
    · rename_i hc
      exact ⟨h, by simp [hs], fun hr => .inl (fun _ hf => by simp [hr] at hf)⟩
  have lost : p.state.visible = true → (p.onLost n).stateLaw = true ∧
      (p.state.visible = true → (p.onLost n).state.visible = true ∨ (p.onLost n) = p.cutToZero) ∧
      (rp = true → p.state = .falling → (p.onLost n) = p ∨ (p.onLost n) = p.cutToZero) := by
    intro hv
    cases hl : p.loss <;> cases hs : p.state <;>
      simp_all [Presenter.onLost, Presenter.fallForRelease, stateLaw_cutToZero, PState.visible, Presenter.beginFall]
  cases health with
  | none => exact ⟨h, .inl, fun _ _ => .inl rfl⟩
  | some k =>
    cases k with
    | absent =>
      simp only [Presenter.react]; split
      · exact ⟨stateLaw_cutToZero p, fun _ => .inr rfl, fun _ _ => .inr rfl⟩
      · exact ⟨h, .inl, fun _ _ => .inl rfl⟩
    | live => exact onFeed
    | held => exact onFeed
    | lost =>
      simp only [Presenter.react]; split
      · exact lost ‹_›
      · exact ⟨h, .inl, fun _ _ => .inl rfl⟩

/-- The presenter step with its visibility report keeps the laws of the channel (R89, R92, R113). -/
theorem airLaw_step {p : Presenter} {a : Assign} (h : airLaw p a = true) {health : Option Health}
    (hh : health.isSome = true → a.assigned.isSome = true) (n : Nat) :
    airLaw (p.step health a.releasePending n)
      (if (p.step health a.releasePending n).visAtEntry && !(p.step health a.releasePending n).state.visible then a.onReport
       else a) = true := by
  simp only [airLaw, Bool.and_eq_true, Bool.or_eq_true, Bool.not_eq_true', beq_iff_eq] at h
  obtain ⟨⟨⟨hs, hva⟩, hrp⟩, hinc⟩ := h
  have hentry : ({ p with visAtEntry := p.state.visible } : Presenter).stateLaw = true := hs
  obtain ⟨r1, r2, r3⟩ := stateLaw_react hentry health a.releasePending n
  obtain ⟨f1, f2, f3, f4⟩ := stateLaw_fadeStep r1
  have hvis0 : (p.step health a.releasePending n).visAtEntry = p.state.visible := by
    have hb : ∀ (q : Presenter) k, (q.beginFall k).visAtEntry = q.visAtEntry := fun _ _ => rfl
    have hr : ∀ (q : Presenter) g k, (q.beginRise g k).visAtEntry = q.visAtEntry := fun _ _ _ => rfl
    have hc : ∀ (q : Presenter), q.cutToZero.visAtEntry = q.visAtEntry := fun _ => rfl
    have hf : ∀ (q : Presenter), q.fadeStep.visAtEntry = q.visAtEntry := by
      intro q; unfold Presenter.fadeStep; split
      · split <;> rfl
      · split <;> rfl
      · rfl
    have hre : ∀ (q : Presenter), (q.react health a.releasePending n).visAtEntry = q.visAtEntry := by
      intro q; unfold Presenter.react
      split
      · rfl
      · unfold Presenter.riseOnFeed; split <;> (try rfl); split <;> rfl
      · unfold Presenter.riseOnFeed; split <;> (try rfl); split <;> rfl
      · split
        · unfold Presenter.onLost Presenter.fallForRelease; split
          · split <;> rfl
          · rfl
          · rfl
        · rfl
      · split <;> rfl
    show (Presenter.fadeStep _).visAtEntry = _
    rw [hf, hre]
  generalize hq : p.step health a.releasePending n = q at hvis0 ⊢
  have hqs : q.stateLaw = true ∧ q.state =
      ((({ p with visAtEntry := p.state.visible } : Presenter).react health a.releasePending n).fadeStep).state := by
    rw [← hq]; exact ⟨f1, rfl⟩
  generalize hreact : ({ p with visAtEntry := p.state.visible } : Presenter).react health a.releasePending n = r at *
  have incAll : a.incoming.isSome = true → p.state.visible = true ∧ a.releasePending = false := by
    cases hi : a.incoming with
    | none => simp
    | some i => intro _; rw [hi] at hinc; simp at hinc; exact ⟨hinc.1.1.1, hinc.1.1.2⟩
  have visOfVis : q.state.visible = true → a.assigned.isSome = true := by
    intro hv
    rcases hva with hnv | ha
    · -- it was not visible, so it rose on a usable feed
      cases hk : health with
      | none =>
        rw [hk] at hreact
        have : r = ({ p with visAtEntry := p.state.visible } : Presenter) := hreact.symm
        rw [hqs.2, f4 (by rw [this]; intro e; simp_all [PState.visible]) (by rw [this]; intro e; simp_all [PState.visible]),
          this] at hv
        simp_all
      | some k => exact hh (by simp [hk])
    · exact ha
  cases hv : q.state.visible
  · cases hpv : p.state.visible
    · have hn : a.incoming = none := by
        cases hi : a.incoming with
        | none => rfl
        | some i => have := incAll (by simp [hi]); simp_all
      have hr' : a.releasePending = false := by
        rcases hrp with h1 | h1
        · exact h1
        · rw [h1] at hpv; simp [PState.visible] at hpv
      simp [hvis0, hpv, airLaw, hqs.1, hv, hr', hn]
    · simp only [hvis0, hpv, Bool.not_false, Bool.and_self, if_true]
      refine airLaw_onReport hqs.1 hv fun hr => ?_
      cases hi : a.incoming with
      | none => rfl
      | some i => have := incAll (by simp [hi]); simp_all
  · simp only [Bool.not_true, Bool.and_false, Bool.false_eq_true, if_false]
    have hfall : a.releasePending = true → q.state = .falling := by
      intro hr
      have hpf : p.state = .falling := by simpa [hr] using hrp
      rcases r3 hr hpf with e | e
      · have : r.state = .falling := by rw [e]; exact hpf
        rcases f3 this with e3 | e3 | e3
        · rw [hqs.2, e3]
        · rw [hqs.2, e3] at hv; simp [PState.visible] at hv
        · rw [hqs.2, e3] at hv; simp [PState.visible] at hv
      · have : r.state = .off ∨ r.state = .waitFeed := by
          rw [e]; unfold Presenter.cutToZero Presenter.restState; dsimp only; split <;> simp
        have hne : r.fadeStep = r := f4 (by rcases this with e | e <;> simp [e]) (by rcases this with e | e <;> simp [e])
        rw [hqs.2, hne] at hv
        rcases this with e | e <;> simp [e, PState.visible] at hv
    have hinc' : a.incoming.all (fun i => !a.releasePending && a.assigned != some i.booth &&
        decide (i.nx ≤ 100 ∧ i.i ≤ i.nx ∧ i.h ≤ Config.whole)) = true := by
      cases hi : a.incoming with
      | none => rfl
      | some i => rw [hi] at hinc; simp at hinc ⊢; exact ⟨⟨hinc.1.1.2, hinc.1.2⟩, hinc.2⟩
    simp only [airLaw, hqs.1, hv, visOfVis hv, Bool.not_true, Bool.false_or, Bool.and_true, Bool.true_and, Bool.and_eq_true,
      Bool.or_eq_true, Bool.not_eq_true', beq_iff_eq]
    refine ⟨?_, hinc'⟩
    cases hr : a.releasePending
    · exact .inl rfl
    · exact .inr (hfall hr)

/-- The handover step keeps the laws of the channel (R110). -/
theorem airLaw_handover {p : Presenter} {a : Assign} {inc : Incoming} (h : airLaw p a = true) (hi : a.incoming = some inc)
    (x : Health) (y : Option Health) : airLaw p (a.handover inc x y) = true := by
  simp only [airLaw, hi, Option.all_some, Bool.and_eq_true, Bool.or_eq_true, Bool.not_eq_true', beq_iff_eq,
    decide_eq_true_eq] at h
  obtain ⟨⟨⟨hs, hva⟩, hrp⟩, ⟨⟨⟨hv, hr⟩, hne⟩, hb⟩⟩ := h
  have done : airLaw p (a.complete inc.booth) = true := by simp [airLaw, Assign.complete, hs, hr]
  unfold Assign.handover
  split
  · exact done
  · split
    · simp [airLaw, hs, hr, hv] at *; exact hva
    · split
      · exact done
      · split
        · exact done
        · have := crossfadeProgress_le (nx := inc.nx) (i := inc.i + 1) (by omega) (by omega)
          simp only [airLaw, hs, hv, hr, Bool.not_true, Bool.not_false, Bool.true_and, Bool.true_or, Bool.and_true,
            Option.all_some, Bool.and_eq_true, Bool.or_eq_true, decide_eq_true_eq, hne, Config.whole]
          refine ⟨?_, ?_⟩
          · simpa [hv] using hva
          · exact ⟨hb.1, by omega, this⟩

/-- PRESENTER ON keeps the laws of the channel: it makes a presenter visible only on a usable feed (R82). -/
theorem airLaw_actionOn {p : Presenter} {a : Assign} (h : airLaw p a = true) {usable : Bool}
    (hu : usable = true → a.assigned.isSome = true) (n : Nat) : airLaw (p.actionOn usable a.releasePending n) a = true := by
  have h0 := h
  simp only [airLaw, Bool.and_eq_true] at h
  obtain ⟨⟨⟨hs, hva⟩, hrp⟩, hinc⟩ := h
  have hg := stateLaw_g hs
  obtain ⟨st, intent, g, fd, loss, fr, va⟩ := p
  cases st <;> simp only [Presenter.actionOn]
  · -- OFF
    have hr : a.releasePending = false := by simpa [PState.visible] using hrp
    have hi : a.incoming = none := by
      cases hi : a.incoming with
      | none => rfl
      | some i => rw [hi] at hinc; simp [PState.visible] at hinc
    split
    · have := hu ‹_›
      simp [airLaw, Presenter.beginRise, Presenter.stateLaw, PState.visible, hr, hi, this, Config.whole, riseSteps_pos]
    · simp_all [airLaw, Presenter.stateLaw, PState.visible]
  · simp_all [airLaw, Presenter.stateLaw, PState.visible]
  · simp_all [airLaw, Presenter.stateLaw, PState.visible]
  · split
    · rename_i hc
      simp only [Bool.and_eq_true, Bool.not_eq_true'] at hc
      simp only [Presenter.stateLaw, PState.visible] at *
      simp_all [airLaw, Presenter.beginRise, Presenter.stateLaw, PState.visible, riseSteps_pos]
    · simp_all [airLaw, Presenter.stateLaw, PState.visible]
  · simp_all [airLaw, Presenter.stateLaw, PState.visible]

/-- PRESENTER OFF keeps the laws of the channel (R83). -/
theorem airLaw_actionOff {p : Presenter} {a : Assign} (h : airLaw p a = true) (n : Nat) : airLaw (p.actionOff n) a = true := by
  simp only [airLaw, Bool.and_eq_true] at h
  obtain ⟨⟨⟨hs, hva⟩, hrp⟩, hinc⟩ := h
  have hg := stateLaw_g hs
  obtain ⟨st, intent, g, fd, loss, fr, va⟩ := p
  cases st <;> simp only [Presenter.actionOff] <;>
    simp_all [airLaw, Presenter.beginFall, Presenter.stateLaw, PState.visible, fallSteps_pos]

/-- ASSIGN BOOTH, where it acts, keeps the laws of the channel (R106 to R108). -/
theorem airLaw_assign {p : Presenter} {a a' : Assign} (h : airLaw p a = true) {b : BoothNo} {nx : Nat} {k : Health}
    (hn : nx ≤ 100) (ha : a.assign b nx p.state.visible k = .taken a') : airLaw p a' = true := by
  simp only [airLaw, Bool.and_eq_true] at h
  obtain ⟨⟨⟨hs, hva⟩, hrp⟩, hinc⟩ := h
  unfold Assign.assign at ha
  split at ha
  · cases ha
  · rename_i hne
    split at ha
    · cases ha
    · rename_i hb
      simp only [Bool.or_eq_true, not_or, Bool.not_eq_true, Option.isSome_eq_false_iff, Option.isNone_iff_eq_none] at hb
      split at ha
      · cases ha; simp_all [airLaw]
      · split at ha
        · cases ha; simp_all [airLaw]
        · cases ha

/-- RELEASE BOOTH keeps the laws of the channel, with the presenter told where the release becomes pending (R98, R115). -/
theorem airLaw_release {p : Presenter} {a : Assign} (h : airLaw p a = true) (n : Nat) :
    airLaw (if (a.release p.state.visible).2 && (a.release p.state.visible).1.releasePending then p.fallForRelease n else p)
      (a.release p.state.visible).1 = true := by
  have h0 := h
  simp only [airLaw, Bool.and_eq_true] at h
  obtain ⟨⟨⟨hs, hva⟩, hrp⟩, hinc⟩ := h
  have hg := stateLaw_g hs
  unfold Assign.release
  split
  · simpa using h0
  · rename_i hc
    simp only [Bool.or_eq_true, not_or, Bool.not_eq_true, Option.isNone_eq_false_iff] at hc
    split
    · rename_i hv
      obtain ⟨st, intent, g, fd, loss, fr, va⟩ := p
      cases st <;> simp_all [airLaw, Presenter.fallForRelease, Presenter.beginFall, Presenter.stateLaw, PState.visible,
        fallSteps_pos]
    · rename_i hv
      have hi : a.incoming = none := by
        cases hi : a.incoming with
        | none => rfl
        | some i => rw [hi] at hinc; simp_all
      simp_all [airLaw]

end Sys2Proof.Machine
end

