-- ==== Sys2Proof/Laws/Layout.lean ====
section
/-!
SUPPORT. Placement: a fitted box lies in the picture, the choice among candidates, the steps of a move between its ends, and the laws
every operation of a placement unit keeps (R67 to R72).
-/
namespace Sys2Proof.Machine

theorem evenDown_le (n : Nat) : evenDown n ≤ n := Nat.sub_le _ _
theorem evenDown_even (n : Nat) : evenDown n % 2 = 0 := by unfold evenDown; omega

/-- A placement fitted with a profile whose crop is no larger than a booth picture lies in the picture, at an even column. -/
theorem fit_inPicture {p : Profile} (h : p.inRange = true) (q : Placement) : p.boxInPicture (p.fit q) := by
  simp only [Profile.inRange, Bool.and_eq_true, decide_eq_true_eq] at h
  have hw : p.boxW q.f ≤ 960 := (Nat.div_le_self _ _).trans h.1.1.1.1.1.2.1
  have hh : p.boxH q.f ≤ 528 := (Nat.div_le_self _ _).trans h.1.1.1.1.1.2.2.2.2.1
  refine ⟨evenDown_even _, ?_, ?_⟩
  · have := evenDown_le (min q.x (Config.picWidth - p.boxW q.f))
    simp only [Profile.fit, Config.picWidth] at *; omega
  · simp only [Profile.fit, Config.picHeight] at *; omega

/-! ### The choice (R69) -/

/-- Of a list and one candidate before it, the earliest with the least score: it is among them, no other scores less, and those
before it score more. -/
theorem leastOverlap_spec (score : Placement → Nat) (best : Placement) (l : List Placement) :
    ∃ i, (best :: l)[i]? = some (leastOverlap score best l) ∧
      (∀ (j : Nat) (r : Placement), (best :: l)[j]? = some r → score (leastOverlap score best l) ≤ score r) ∧
      ∀ (j : Nat) (r : Placement), j < i → (best :: l)[j]? = some r → score (leastOverlap score best l) < score r := by
  induction l generalizing best with
  | nil =>
    refine ⟨0, rfl, fun j r hj => ?_, fun j r hj => absurd hj (by omega)⟩
    cases j with
    | zero => simp at hj; subst hj; exact le_refl _
    | succ j => simp at hj
  | cons q t ih =>
    unfold leastOverlap
    by_cases h : score q < score best
    · simp only [h, if_true]
      obtain ⟨i, h1, h2, h3⟩ := ih q
      have hb : score (leastOverlap score q t) < score best := (h2 0 q rfl).trans_lt h
      refine ⟨i + 1, by simpa using h1, fun j r hj => ?_, fun j r hj hr => ?_⟩
      · cases j with
        | zero => simp at hj; subst hj; exact hb.le
        | succ j => exact h2 j r (by simpa using hj)
      · cases j with
        | zero => simp at hr; subst hr; exact hb
        | succ j => exact h3 j r (by omega) (by simpa using hr)
    · simp only [h, if_false]
      obtain ⟨i, h1, h2, h3⟩ := ih best
      have hq : score (leastOverlap score best t) ≤ score q := (h2 0 best rfl).trans (Nat.le_of_not_lt h)
      cases i with
      | zero =>
        refine ⟨0, h1, fun j r hj => ?_, fun j r hj => absurd hj (by omega)⟩
        match j with
        | 0 => exact h2 0 r hj
        | 1 => simp at hj; subst hj; exact hq
        | j + 2 => exact h2 (j + 1) r (by simpa using hj)
      | succ i =>
        refine ⟨i + 2, by simpa using h1, fun j r hj => ?_, fun j r hj hr => ?_⟩
        · match j with
          | 0 => exact h2 0 r hj
          | 1 => simp at hj; subst hj; exact hq
          | j + 2 => exact h2 (j + 1) r (by simpa using hj)
        · have hlt := h3 0 best (by omega) rfl
          match j with
          | 0 => simp at hr; subst hr; exact hlt
          | 1 => simp at hr; subst hr; exact hlt.trans_le (Nat.le_of_not_lt h)
          | j + 2 => exact h3 (j + 1) r (by omega) (by simpa using hr)

/-- A profile with a position has a candidate. -/
theorem candidates_ne_nil {p : Profile} (h : p.positions ≠ []) : p.candidates ≠ [] := by
  unfold Profile.candidates
  cases hp : p.positions with
  | nil => exact absurd hp h
  | cons a t => simp

/-- Every candidate's factor is the preferred factor or the fallback factor. -/
theorem candidate_factor {p : Profile} {q : Placement} (h : q ∈ p.candidates) : q.f = p.fp ∨ p.ff = some q.f := by
  unfold Profile.candidates at h
  rcases List.mem_append.1 h with h | h
  · obtain ⟨x, -, rfl⟩ := List.mem_map.1 h; exact .inl rfl
  · cases hf : p.ff with
    | none => rw [hf] at h; simp at h
    | some f => rw [hf] at h; obtain ⟨x, -, rfl⟩ := List.mem_map.1 h; exact .inr rfl

/-- The choice is a candidate, or the placement kept where there is none. -/
theorem choose_mem (p : Profile) (zones : List Zone) (kept : Placement) :
    (p.choose zones kept).1 ∈ p.candidates ∨ (p.choose zones kept).1 = kept := by
  unfold Profile.choose
  cases hc : p.candidates with
  | nil => exact .inr rfl
  | cons q t =>
    obtain ⟨i, h, -⟩ := leastOverlap_spec (p.overlap zones) q t
    exact .inl (List.mem_of_getElem? h)

/-- A choice made with a profile in range has a factor of a placement. -/
theorem choose_factorOk {p : Profile} (h : p.inRange = true) {zones : List Zone} {kept : Placement} (hk : factorOk kept.f = true) :
    factorOk (p.choose zones kept).1.f = true := by
  rcases choose_mem p zones kept with hm | he
  · simp only [Profile.inRange, Bool.and_eq_true, decide_eq_true_eq] at h
    obtain ⟨⟨⟨⟨⟨hcrop, hfp⟩, hff⟩, -⟩, -⟩, -⟩ := h
    rcases candidate_factor hm with hf | hf
    · rw [hf]; simpa [factorOk] using hfp
    · rw [hf] at hff; simp at hff; simp [factorOk]; omega
  · rw [he]; exact hk

/-! ### Moves (R71) -/

/-- At its last step a move is at its target. -/
theorem move_along_end (a b n : Nat) (hn : 0 < n) : (a : Int) + (2 * ((b : Int) - a) * n + n) / (2 * n) = b := by
  have h : (2 * ((b : Int) - a) * n + n) = n + ((b : Int) - a) * (2 * n) := by ring
  rw [h, Int.add_mul_ediv_right _ _ (by omega), Int.ediv_eq_zero_of_lt (by omega) (by omega)]
  omega

/-! ### The laws of a placement unit -/

/-- The placement step keeps the unit's laws when the profile in force is in range. -/
theorem laws_placeStep {pl : Place} {p : Profile} (h : pl.laws = true) (hp : p.inRange = true) (v : Bool) :
    (pl.step p v).laws = true := by
  have moveStep : ∀ (x : Place) (m : Move), x.laws = true → factorOk m.origin.f = true → factorOk m.target.f = true →
      m.i < m.n → (x.moveStep m).laws = true := by
    intro x m hx ho ht hi
    simp only [Place.laws, Bool.and_eq_true] at hx
    unfold Place.moveStep
    split
    · simp [Place.laws, hx, ht]
    · have : factorOk (m.at (m.i + 1)).f = true := by unfold Move.at; dsimp only; split <;> assumption
      simp only [Place.laws, hx.1.1.1, hx.1.2, this, ho, ht, Option.all_some, Bool.and_self, Bool.true_and,
        decide_eq_true_eq]
      omega
  have advance : ∀ x : Place, x.laws = true → x.advance.laws = true := by
    intro x hx
    unfold Place.advance
    split
    · rename_i m hm
      have hx' := hx
      simp only [Place.laws, hm, Option.all_some, Bool.and_eq_true, decide_eq_true_eq] at hx'
      exact moveStep x m hx hx'.2.1.1 hx'.2.1.2 hx'.2.2
    · exact hx
  have choice : (pl.makeChoice p).laws = true := by
    unfold Place.makeChoice
    split
    · simp only [Place.laws, Bool.and_eq_true] at h ⊢
      exact ⟨⟨⟨choose_factorOk hp h.1.1.1, h.1.1.2⟩, h.1.2⟩, h.2⟩
    · exact h
  generalize hx : pl.makeChoice p = x at choice
  have applied : (x.apply pl.replace v p.move).laws = true := by
    have hx' := choice
    simp only [Place.laws, Bool.and_eq_true] at hx'
    unfold Place.apply
    split
    · split
      · unfold Place.applyChoice
        split
        · exact advance x choice
        · split
          · simp [Place.laws, hx']
          · split
            · simp [Place.laws, hx']
            · exact moveStep x _ choice hx'.1.1.2 hx'.1.1.1 (by dsimp only; omega)
      · exact advance x choice
    · simp [Place.laws, hx']
  unfold Place.step
  rw [hx]
  simpa [Place.laws, Profile.fit] using applied

/-- A window that begins in the picture and is trimmed to it ends in it (R63). -/
theorem trim_inPicture {w : Window} (hx : w.x ≤ 1919) (hy : w.y ≤ 1079) : w.trim.inPicture = true := by
  unfold Window.inPicture; rw [decide_eq_true_eq]; simp only [Window.trim, Config.picWidth, Config.picHeight]; omega

end Sys2Proof.Machine
end

