-- ==== Sys2Proof/Laws/Pool.lean ====
section
/-!
SUPPORT. The frame pool: what setting a grant, the pass over the clamped channels and setting a target come to, and that each keeps
the reservations within the pool (R13 to R15).
-/
namespace Sys2Proof.Machine

/-- No channel's reservation is more than the sum. -/
theorem reservation_le_reserved (s : State) (c : ChanNo) : (s.chan c).reservation ≤ s.reserved := by
  unfold State.reserved
  match c with
  | 0 => omega
  | 1 => omega
  | 2 => omega
  | 3 => omega

/-- The sum of the reservations when one channel's alone changes. -/
theorem reserved_of_one {s t : State} {c : ChanNo} (h : ∀ d, d ≠ c → (t.chan d).reservation = (s.chan d).reservation) :
    t.reserved + (s.chan c).reservation = s.reserved + (t.chan c).reservation := by
  unfold State.reserved
  match c with
  | 0 => have := h 1 (by decide); have := h 2 (by decide); have := h 3 (by decide); omega
  | 1 => have := h 0 (by decide); have := h 2 (by decide); have := h 3 (by decide); omega
  | 2 => have := h 0 (by decide); have := h 1 (by decide); have := h 3 (by decide); omega
  | 3 => have := h 0 (by decide); have := h 1 (by decide); have := h 2 (by decide); omega

/-- The sums of two states whose reservations do not fall from one to the other. -/
theorem reserved_mono {s t : State} (h : ∀ d, (s.chan d).reservation ≤ (t.chan d).reservation) : s.reserved ≤ t.reserved := by
  have := h 0; have := h 1; have := h 2; have := h 3
  unfold State.reserved; omega

/-- What the other channels reserve. -/
theorem others_of_one {s t : State} {c : ChanNo} (h : ∀ d, d ≠ c → (t.chan d).reservation = (s.chan d).reservation) :
    t.reserved - (t.chan c).reservation = s.reserved - (s.chan c).reservation := by
  have := reserved_of_one h
  have := reservation_le_reserved s c
  have := reservation_le_reserved t c
  omega

/-! ### Setting a grant -/

/-- A grant set, channel by channel. -/
theorem chan_setGrant (s : State) (c d : ChanNo) (g : Nat) :
    (s.setGrant c g).chan d = if d = c then { s.chan c with
      pool := { (s.chan c).pool with granted := g, clamped := decide (g < (s.chan c).pool.target) } } else s.chan d := by
  unfold State.setGrant; by_cases h : d = c
  · subst h; simp
  · simp [h]

theorem reservation_setGrant (s : State) (c d : ChanNo) (g : Nat) :
    ((s.setGrant c g).chan d).reservation =
      if d = c then max g (s.chan c).actual else (s.chan d).reservation := by
  rw [chan_setGrant]; split <;> rfl

/-- A grant that the pool allows keeps the sum within the pool. -/
theorem reserved_setGrant {s : State} {c : ChanNo} {g t : Nat} (h : s.reserved ≤ Config.poolFrames) (hg : g = s.grantFor c t) :
    (s.setGrant c g).reserved ≤ Config.poolFrames := by
  have h1 := reserved_of_one (s := s) (t := s.setGrant c g) (c := c) (fun d hd => by rw [reservation_setGrant, if_neg hd])
  rw [reservation_setGrant, if_pos rfl] at h1
  have h2 := reservation_le_reserved s c
  have h3 : (s.chan c).actual ≤ (s.chan c).reservation := Nat.le_max_right _ _
  unfold State.grantFor at hg
  simp only [Config.poolFrames] at *
  omega

/-! ### The pass -/

/-- One channel's turn in the pass: its grant is raised to what the pool allows, where it was clamped below that; no other
channel changes. -/
theorem chan_regrant (s : State) (c d : ChanNo) :
    (s.regrant c).chan d = if d = c ∧ (s.chan c).pool.clamped = true ∧
        (s.chan c).pool.granted < s.grantFor c (s.chan c).pool.target then
      { s.chan c with pool := { (s.chan c).pool with
          granted := s.grantFor c (s.chan c).pool.target
          clamped := decide (s.grantFor c (s.chan c).pool.target < (s.chan c).pool.target) } }
    else s.chan d := by
  unfold State.regrant
  by_cases h : (s.chan c).pool.clamped = true ∧ (s.chan c).pool.granted < s.grantFor c (s.chan c).pool.target
  · simp only [h, decide_true, Bool.and_self, if_true, chan_setGrant, and_true, and_self]
  · have : ((s.chan c).pool.clamped && decide ((s.chan c).pool.granted < s.grantFor c (s.chan c).pool.target)) = false := by
      simpa using h
    simp only [this, Bool.false_eq_true, if_false, h, and_false]

theorem reserved_regrant {s : State} (c : ChanNo) (h : s.reserved ≤ Config.poolFrames) :
    (s.regrant c).reserved ≤ Config.poolFrames := by
  unfold State.regrant; dsimp only; split
  · exact reserved_setGrant h rfl
  · exact h

/-- A turn never lowers a grant, and leaves the grant and flag of a channel that is not clamped. -/
theorem regrant_mono (s : State) (c d : ChanNo) :
    (s.chan d).pool.granted ≤ ((s.regrant c).chan d).pool.granted ∧
    ((s.chan d).pool.clamped = false → ((s.regrant c).chan d).pool = (s.chan d).pool) ∧
    (((s.regrant c).chan d).pool.clamped = true → (s.chan d).pool.clamped = true) := by
  rw [chan_regrant]
  split
  · rename_i h
    obtain ⟨rfl, h1, h2⟩ := h
    dsimp only
    exact ⟨by omega, fun hc => absurd (h1.symm.trans hc) (by decide), fun _ => h1⟩
  · exact ⟨le_refl _, fun _ => rfl, id⟩

theorem actual_regrant (s : State) (c d : ChanNo) : ((s.regrant c).chan d).actual = (s.chan d).actual := by
  rw [chan_regrant]; split
  · rename_i h; obtain ⟨rfl, -⟩ := h; rfl
  · rfl

/-- After its turn a clamped channel has what the pool allows it. -/
theorem regrant_done (s : State) (c : ChanNo) (hc : ((s.regrant c).chan c).pool.clamped = true) :
    (s.regrant c).grantFor c ((s.regrant c).chan c).pool.target ≤ ((s.regrant c).chan c).pool.granted := by
  have hch := chan_regrant s c
  have hne : ∀ d, d ≠ c → (s.regrant c).chan d = s.chan d := fun d hd => by rw [hch d, if_neg (fun h => hd h.1)]
  have ho := others_of_one (s := s) (t := s.regrant c) (c := c) (fun d hd => by rw [hne d hd])
  unfold State.grantFor
  rw [ho]
  by_cases h : (s.chan c).pool.clamped = true ∧ (s.chan c).pool.granted < s.grantFor c (s.chan c).pool.target
  · rw [hch c, if_pos ⟨rfl, h⟩]; exact le_refl _
  · have he : (s.regrant c).chan c = s.chan c := by rw [hch c, if_neg (fun hh => h hh.2)]
    rw [he] at hc ⊢
    have h2 := fun h2 => h ⟨hc, h2⟩
    exact Nat.le_of_not_lt h2

/-- What the pool allows a channel does not rise when reservations rise. -/
theorem grantFor_anti {s t : State} {c : ChanNo} (h : ∀ d, d ≠ c → (s.chan d).reservation ≤ (t.chan d).reservation) (n : Nat) :
    t.grantFor c n ≤ s.grantFor c n := by
  have key : s.reserved - (s.chan c).reservation ≤ t.reserved - (t.chan c).reservation := by
    unfold State.reserved
    match c with
    | 0 => have := h 1 (by decide); have := h 2 (by decide); have := h 3 (by decide); omega
    | 1 => have := h 0 (by decide); have := h 2 (by decide); have := h 3 (by decide); omega
    | 2 => have := h 0 (by decide); have := h 1 (by decide); have := h 3 (by decide); omega
    | 3 => have := h 0 (by decide); have := h 1 (by decide); have := h 2 (by decide); omega
  unfold State.grantFor; omega

theorem reservation_regrant_le (s : State) (c d : ChanNo) : (s.chan d).reservation ≤ ((s.regrant c).chan d).reservation := by
  have h1 := (regrant_mono s c d).1
  have h2 := actual_regrant s c d
  unfold Channel.reservation; omega

/-- A channel's grant that is all the pool allows it stays so through another channel's turn. -/
theorem done_regrant {s : State} {c d : ChanNo}
    (h : (s.chan d).pool.clamped = true → s.grantFor d (s.chan d).pool.target ≤ (s.chan d).pool.granted) :
    ((s.regrant c).chan d).pool.clamped = true →
      (s.regrant c).grantFor d ((s.regrant c).chan d).pool.target ≤ ((s.regrant c).chan d).pool.granted := by
  by_cases hd : d = c
  · subst hd; exact regrant_done s d
  · intro hc
    have he : (s.regrant c).chan d = s.chan d := by rw [chan_regrant, if_neg (fun h => hd h.1)]
    rw [he] at hc ⊢
    exact (grantFor_anti (fun e _ => reservation_regrant_le s c e) _).trans (h hc)

/-- The pass never lowers a grant, leaves a channel that is not clamped as it is, and leaves no clamped channel that the pool
would still allow more. -/
theorem poolPass_spec (s : State) :
    (s.reserved ≤ Config.poolFrames → s.poolPass.reserved ≤ Config.poolFrames) ∧
    ∀ d, (s.chan d).pool.granted ≤ (s.poolPass.chan d).pool.granted ∧
      ((s.chan d).pool.clamped = false → (s.poolPass.chan d).pool = (s.chan d).pool) ∧
      ((s.poolPass.chan d).pool.clamped = true →
        s.poolPass.grantFor d (s.poolPass.chan d).pool.target ≤ (s.poolPass.chan d).pool.granted) := by
  unfold State.poolPass
  generalize h0 : s.regrant 0 = s0
  generalize h1 : s0.regrant 1 = s1
  generalize h2 : s1.regrant 2 = s2
  refine ⟨fun h => ?_, fun d => ?_⟩
  · rw [← h2, ← h1, ← h0]
    exact reserved_regrant _ (reserved_regrant _ (reserved_regrant _ (reserved_regrant _ h)))
  · have m0 := regrant_mono s 0 d
    have m1 := regrant_mono s0 1 d
    have m2 := regrant_mono s1 2 d
    have m3 := regrant_mono s2 3 d
    rw [h0] at m0; rw [h1] at m1; rw [h2] at m2
    refine ⟨by omega, fun hc => ?_, ?_⟩
    · have e0 := m0.2.1 hc
      have e1 := m1.2.1 (by rw [e0]; exact hc)
      have e2 := m2.2.1 (by rw [e1, e0]; exact hc)
      have e3 := m3.2.1 (by rw [e2, e1, e0]; exact hc)
      rw [e3, e2, e1, e0]
    · match d with
      | 0 =>
        have a := regrant_done s 0; rw [h0] at a
        have b := done_regrant (c := 1) a; rw [h1] at b
        have c := done_regrant (c := 2) b; rw [h2] at c
        exact done_regrant (c := 3) c
      | 1 =>
        have b := regrant_done s0 1; rw [h1] at b
        have c := done_regrant (c := 2) b; rw [h2] at c
        exact done_regrant (c := 3) c
      | 2 =>
        have c := regrant_done s1 2; rw [h2] at c
        exact done_regrant (c := 3) c
      | 3 => exact regrant_done s2 3

/-- The pass keeps a grant within its target. -/
theorem granted_le_target_poolPass {s : State} (h : ∀ d, (s.chan d).pool.granted ≤ (s.chan d).pool.target) (d : ChanNo) :
    (s.poolPass.chan d).pool.granted ≤ (s.poolPass.chan d).pool.target := by
  have step : ∀ (u : State) (c : ChanNo), (∀ e, (u.chan e).pool.granted ≤ (u.chan e).pool.target) →
      ∀ e, ((u.regrant c).chan e).pool.granted ≤ ((u.regrant c).chan e).pool.target := by
    intro u c hu e
    rw [chan_regrant]; split
    · exact Nat.min_le_left _ _
    · exact hu e
  exact step _ 3 (step _ 2 (step _ 1 (step _ 0 h))) d

/-! ### Setting a target -/

/-- A target set: the channel's own grant is what the pool allows it, even where the pass is made, since the pass leaves a channel
that is granted all the pool allows (R14, R15). -/
theorem pool_setTarget (s : State) (c : ChanNo) (d : Nat) :
    ((s.setTarget c d).chan c).pool =
      { target := d, granted := s.grantFor c d, clamped := decide (s.grantFor c d < d) } := by
  unfold State.setTarget; dsimp only
  generalize hs1 : s.setPool c { (s.chan c).pool with target := d } = s1
  have hch : ∀ e, e ≠ c → s1.chan e = s.chan e := fun e he => by rw [← hs1]; simp [he]
  have hself : (s1.chan c).pool = { (s.chan c).pool with target := d } := by rw [← hs1]; simp
  generalize hs2 : s1.setGrant c (s.grantFor c d) = s2
  have hp : (s2.chan c).pool = { target := d, granted := s.grantFor c d, clamped := decide (s.grantFor c d < d) } := by
    rw [← hs2, chan_setGrant, if_pos rfl]; simp [hself]
  have hothers : s2.reserved - (s2.chan c).reservation = s.reserved - (s.chan c).reservation :=
    others_of_one (fun e he => by rw [← hs2, chan_setGrant, if_neg he, hch e he])
  unfold State.poolPassIfFell
  split
  · have h := poolPass_spec s2
    by_cases hcl : (s2.chan c).pool.clamped = false
    · rw [((h.2 c).2.1 hcl), hp]
    · -- clamped: every turn finds nothing more to grant
      have hdone : (s2.chan c).pool.clamped = true → s2.grantFor c (s2.chan c).pool.target ≤ (s2.chan c).pool.granted := by
        intro _
        rw [hp]; unfold State.grantFor; rw [hothers]
      have stays : ∀ (u : State) (x : ChanNo), (u.chan c).pool = (s2.chan c).pool →
          u.grantFor c (u.chan c).pool.target ≤ (u.chan c).pool.granted →
          ((u.regrant x).chan c).pool = (s2.chan c).pool ∧
          (u.regrant x).grantFor c ((u.regrant x).chan c).pool.target ≤ ((u.regrant x).chan c).pool.granted := by
        intro u x hu hd
        have he : (u.regrant x).chan c = u.chan c := by
          rw [chan_regrant]; split
          · rename_i hh; obtain ⟨rfl, -, h2⟩ := hh; omega
          · rfl
        rw [he]
        exact ⟨hu, (grantFor_anti (fun e _ => reservation_regrant_le u x e) _).trans hd⟩
      have a := stays s2 0 rfl (hdone (by simpa using hcl))
      have b := stays _ 1 a.1 a.2
      have e := stays _ 2 b.1 b.2
      have f := stays _ 3 e.1 e.2
      exact f.1.trans hp
  · exact hp

/-! ### The DELAY notices (R16) -/

/-- A DELAY notice is raised where a grant is set to another value. -/
theorem delay_setGrant (s : State) (c : ChanNo) (g : Nat) (e : ChanNo) (q : PortNo) :
    ((s.setGrant c g).port q).pending.has (.delay e) = ((s.port q).pending.has (.delay e) ||
      ((s.port q).role.any (fun r => r.hears (.delay e)) && decide (e = c ∧ g ≠ (s.chan c).pool.granted))) := by
  unfold State.setGrant; dsimp only
  rw [State.has_raiseIf]
  by_cases h : e = c <;> by_cases h2 : g = (s.chan c).pool.granted <;> simp [h, h2, bne, beq_eq_decide]

theorem delay_regrant (s : State) (c e : ChanNo) (q : PortNo) :
    ((s.regrant c).port q).pending.has (.delay e) = ((s.port q).pending.has (.delay e) ||
      ((s.port q).role.any (fun r => r.hears (.delay e)) &&
       decide (((s.regrant c).chan e).pool.granted ≠ (s.chan e).pool.granted))) := by
  rw [chan_regrant]
  by_cases h : (s.chan c).pool.clamped = true ∧ (s.chan c).pool.granted < s.grantFor c (s.chan c).pool.target
  · unfold State.regrant; simp only [h, decide_true, Bool.and_self, if_true, and_true, and_self, delay_setGrant]
    by_cases he : e = c
    · subst he; simp
    · simp [he]
  · unfold State.regrant
    have : ((s.chan c).pool.clamped && decide ((s.chan c).pool.granted < s.grantFor c (s.chan c).pool.target)) = false := by
      simpa using h
    simp [this, h]

/-- The pass raises a DELAY notice for exactly the channels whose grants it changes. -/
theorem delay_poolPass (s : State) (e : ChanNo) (q : PortNo) :
    (s.poolPass.port q).pending.has (.delay e) = ((s.port q).pending.has (.delay e) ||
      ((s.port q).role.any (fun r => r.hears (.delay e)) &&
       decide ((s.poolPass.chan e).pool.granted ≠ (s.chan e).pool.granted))) := by
  unfold State.poolPass
  have m := fun (u : State) (c : ChanNo) => (regrant_mono u c e).1
  have r := fun (u : State) (c : ChanNo) => (moves_regrant u c c).role q
  rw [delay_regrant, delay_regrant, delay_regrant, delay_regrant]
  simp only [r]
  have m0 := m s 0
  have m1 := m (s.regrant 0) 1
  have m2 := m ((s.regrant 0).regrant 1) 2
  have m3 := m (((s.regrant 0).regrant 1).regrant 2) 3
  generalize (s.port q).role.any _ = a
  generalize (s.port q).pending.has _ = b
  generalize (s.chan e).pool.granted = x0 at *
  generalize ((s.regrant 0).chan e).pool.granted = x1 at *
  generalize (((s.regrant 0).regrant 1).chan e).pool.granted = x2 at *
  generalize ((((s.regrant 0).regrant 1).regrant 2).chan e).pool.granted = x3 at *
  generalize (((((s.regrant 0).regrant 1).regrant 2).regrant 3).chan e).pool.granted = x4 at *
  have key : (x4 ≠ x0) ↔ (x1 ≠ x0 ∨ x2 ≠ x1 ∨ x3 ≠ x2 ∨ x4 ≠ x3) := by omega
  cases a <;> cases b <;> simp [key, Bool.or_assoc]

end Sys2Proof.Machine
end

