-- ==== Sys2Proof/Laws/Ports.lean ====
section
/-!
SUPPORT. What a complete block comes to at its port: the one equation for a block that its command's owner sees, the one for a
block the tests of R151 answer, and the reply in the terms of Safety.lean.
-/
namespace Sys2Proof.Machine

/-- A command's code byte names the command. -/
theorem ofCode_code (k : Command) : Command.ofCode k.code = some k := by cases k <;> decide

/-- The row of a command is the completion of its block at its port. -/
theorem exec_instr (k : Command) (p : PortNo) (b : Tail) (s : State) :
    exec (k.instr p b) s = .next (s.blockCompletes p (tailBlock k.code b)) := by cases k <;> rfl

/-- The length byte of a block with at most 254 parameter bytes. -/
theorem tailBlock_len {code : Byte} {b : Tail} (h : b.params.length ≤ 254) :
    (tailBlock code b).len.toNat = b.params.length + 1 := by
  simp only [tailBlock, Block.ofBytes, byteOf, List.length_cons, BitVec.toNat_ofNat]
  omega

/-- A block with at most 69 parameter bytes is kept whole. -/
theorem tailBlock_body {code : Byte} {b : Tail} (h : b.params.length ≤ 69) : (tailBlock code b).body = code :: b.params := by
  simp only [tailBlock, Block.ofBytes, Config.maxBody]
  exact List.take_of_length_le (by simp only [List.length_cons]; omega)

@[simp] theorem tailBlock_damaged (code : Byte) (b : Tail) : (tailBlock code b).damaged = b.damaged := rfl

/-- A block that completes in FREE is accepted (R150). -/
theorem blockCompletes_free {s : State} {p : PortNo} (h : (s.port p).trans = .free) (b : Block) :
    s.blockCompletes p b = s.acceptBlock p b := by simp [State.blockCompletes, h]

/-- A block that completes in ANSWERING is discarded (R150). -/
theorem blockCompletes_answering {s : State} {p : PortNo} {r : Option (List Byte)} (h : (s.port p).trans = .answering r)
    (b : Block) : s.blockCompletes p b = s.setPort p { s.port p with recv := .seek } := by simp [State.blockCompletes, h]

/-- A block that passes the eight tests is carried out by the command's owner, which answers it (R151, R152). -/
theorem blockCompletes_command {s : State} {p : PortNo} {r : Role} {k : Command} {b : Tail} (hs : s.Serves p r)
    (hr : r ≠ .idle) (hb : Intact k.code b) (h1 : 1 ≤ b.params.length) (h2 : b.params.length ≤ 69)
    (hm : mayIssue k r = true) (hl : ∀ n, formLength k r b.params = some n → n = b.params.length + 1) :
    s.blockCompletes p (tailBlock k.code b) =
      (act k r (s.setPort p (s.port p).accept) p (s.port p).sense b.params).1.answer p
        (act k r (s.setPort p (s.port p).accept) p (s.port p).sense b.params).2 := by
  obtain ⟨hst, hf, hrole⟩ := hs
  have hlen := tailBlock_len (code := k.code) (b := b) (by omega)
  have hbody := tailBlock_body (code := k.code) (b := b) h2
  have hj : judge s.loader.phase.isStarting (s.port p).role (tailBlock k.code b) = .command k r := by
    have hform : (formLength k r b.params).any (fun n => n != b.params.length + 1) = false := by
      cases hq : formLength k r b.params with
      | none => rfl
      | some n => simp [hl n hq]
    unfold judge
    simp only [hst, hrole, Option.getD_some, hr, hb.1, hb.2, tailBlock_damaged, hlen, hbody, List.getD_cons_zero, ofCode_code,
      hm, List.tail_cons, hform, Bool.false_eq_true, if_false, ne_eq, not_true_eq_false, Bool.not_true]
    rw [if_neg (by omega)]
  rw [blockCompletes_free hf, State.acceptBlock, hj]
  simp only [hbody, List.tail_cons]

/-- A block the tests answer is refused at once, and no owning block sees it (R151). -/
theorem acceptBlock_refused {s : State} {p : PortNo} {b : Block} {a : Answer}
    (h : judge s.loader.phase.isStarting (s.port p).role b = .refused a) :
    s.acceptBlock p b = (s.setPort p (s.port p).accept).answer p a := by simp [State.acceptBlock, h]

/-- A reply without CHECK at a port that has accepted a block. -/
theorem reply_accept_good (q : Port) (d : List Byte) (m : Bool) : q.accept.reply (.good d m) = q.sendGood d m := rfl

/-- A refusal at a port that has accepted a block. -/
theorem reply_accept_check (q : Port) (k : SenseKey) (c : SenseCode) (i : Option Nat) (busy : Bool) :
    q.accept.reply (.check k c i busy) = q.sendCheck (senseOf k c i) busy := rfl

/-- Replacing a port twice leaves the second. -/
@[simp] theorem setPort_setPort (s : State) (p : PortNo) (x y : Port) : (s.setPort p x).setPort p y = s.setPort p y := by
  apply State.ext_accessors <;> intros <;> try rfl
  simp only [State.port_setPort]; split <;> rfl

/-- A command that leaves the accepted state as it is and is answered GOOD. -/
theorem answer_good (s : State) (p : PortNo) (d : List Byte) (m : Bool) :
    (s.setPort p (s.port p).accept).answer p (.good d m) = s.sendGood p d m := by
  simp [State.answer, reply_accept_good, State.sendGood]

/-- A command that leaves the accepted state as it is and is refused. -/
theorem answer_check (s : State) (p : PortNo) (k : SenseKey) (c : SenseCode) (i : Option Nat) (busy : Bool) :
    (s.setPort p (s.port p).accept).answer p (.check k c i busy) = s.sendCheck p k c i busy := by
  simp [State.answer, reply_accept_check, State.sendCheck]

/-- A reply without CHECK at a port that accepted a block and whose pending set alone has changed since. -/
theorem reply_moved (q : Port) (n : Notices) (d : List Byte) (m : Bool) :
    ({ q.accept with pending := n } : Port).reply (.good d m) = ({ q with pending := n } : Port).sendGood d m := rfl

/-- The ports after a command whose owner left every port but for its pending set, answered GOOD. -/
theorem port_answer_moved {s v : State} {p : PortNo} (d : List Byte) (m : Bool)
    (h : ∀ q, v.port q = { (s.setPort p (s.port p).accept).port q with pending := (v.port q).pending }) (q : PortNo) :
    (v.answer p (.good d m)).port q =
      if q = p then ({ s.port p with pending := (v.port p).pending } : Port).sendGood d m
      else { s.port q with pending := (v.port q).pending } := by
  unfold State.answer
  rw [State.port_setPort]
  split
  · have := h p
    rw [State.port_setPort_self] at this
    rw [this, reply_moved]
  · rename_i hq
    have := h q
    rwa [State.port_setPort_ne _ hq] at this

/-- Raising a notice commutes with a port's accepting a block, and with its sending a reply: neither touches the role. -/
theorem hear_accept (q : Port) (e : Notice) : q.accept.hear e = (q.hear e).accept := by
  simp only [Port.hear_eq, Port.accept]

end Sys2Proof.Machine
end

