-- ==== Sys2Proof/Laws/Records.lean ====
section
/-!
SUPPORT. Received records: the machine's tests and readings are the ranges and the records of Safety.lean, and the first test that
fails is the one whose index a refusal tells.
-/
namespace Sys2Proof.Machine

theorem nat16At_eq_word (bs : List Byte) (i k : Nat) : nat16At bs (i + k) = word (fun j => natAt bs (i + j)) k := by
  simp only [nat16At, word, Nat.add_assoc, Nat.mul_comm]

theorem windowAt_eq (bs : List Byte) (i : Nat) : windowAt bs i = windowOfRecord (fun k => natAt bs (i + k)) := by
  simp only [windowAt, windowOfRecord, upper12, lower12, Nat.add_zero, Nat.add_assoc, Nat.reduceAdd, Window.mk.injEq]
  omega

/-- Tests with consecutive indices from `a` on. -/
def numbered (a : Nat) (l : List Bool) : List (Nat × Bool) := (l.zipIdx a).map (fun x => (x.2, x.1))

@[simp] theorem numbered_nil (a : Nat) : numbered a [] = [] := rfl
@[simp] theorem numbered_cons (a : Nat) (b : Bool) (l : List Bool) : numbered a (b :: l) = (a, b) :: numbered (a + 1) l := rfl

theorem firstFault_numbered_none (a : Nat) (l : List Bool) : firstFault (numbered a l) = none ↔ l.all id = true := by
  induction l generalizing a with
  | nil => simp [firstFault]
  | cons b l ih => cases b <;> simp [firstFault, ih]

theorem firstFault_numbered {a k : Nat} {l : List Bool} (h : FirstFails l k) : firstFault (numbered a l) = some (a + k) := by
  induction l generalizing a k with
  | nil => exact absurd h.1 (by simp)
  | cons b l ih =>
    cases k with
    | zero =>
      have hb : b = false := by simpa using h.1
      simp [hb, firstFault]
    | succ k =>
      have hb : b = true := by simpa using h.2 0 (by omega)
      have hl : FirstFails l k := ⟨by simpa using h.1, fun j hj => by simpa using h.2 (j + 1) (by omega)⟩
      simp only [numbered_cons, hb, firstFault, if_true, ih hl]
      congr 1; omega

theorem boothTests_eq (bs : List Byte) (i : Nat) : boothTests bs i = numbered 2 (boothRanges (fun k => natAt bs (i + k))) := by
  simp only [boothTests, boothRanges, numbered_cons, numbered_nil, nat16At_eq_word, Config.noneByte, List.cons.injEq, Prod.mk.injEq,
    Nat.reduceAdd, true_and, and_true, Nat.add_zero]
  repeat' apply And.intro
  all_goals
    rw [Bool.eq_iff_iff]
    simp only [Bool.or_eq_true, decide_eq_true_eq, beq_iff_eq]
    try omega

theorem profileTests_eq (bs : List Byte) (i : Nat) :
    profileTests bs i = numbered 2 (profileRanges (fun k => natAt bs (i + k))) := by
  have h : nat16At bs i = word (fun k => natAt bs (i + k)) 0 := nat16At_eq_word bs i 0
  simp only [profileTests, profileRanges, positionAt, List.cons_append, List.nil_append, numbered_cons, numbered_nil, h,
    nat16At_eq_word, Nat.add_assoc, Nat.reduceAdd, Nat.reduceMul, List.cons.injEq, Prod.mk.injEq, true_and, and_true]
  repeat' apply And.intro
  all_goals
    rw [Bool.eq_iff_iff]
    simp only [Bool.or_eq_true, decide_eq_true_eq, beq_iff_eq]
    try omega

theorem actionFault_eq (bs : List Byte) (i : Nat) :
    (rawActionAt bs i).fault = firstFault (numbered 6 (actionRanges (fun k => natAt bs (i + k)))) := by
  have hw : windowAt bs (i + 2) = windowOfRecord (fun k => natAt bs (i + (2 + k))) := by
    simp only [windowAt_eq, Nat.add_assoc]
  simp only [RawAction.fault, rawActionAt, actionRanges, hw, Config.noneByte, Config.maxTarget, numbered_cons, numbered_nil,
    Nat.add_zero, Nat.reduceAdd]
  generalize windowOfRecord (fun k => natAt bs (i + (2 + k))) = v
  congr 1
  simp only [List.cons.injEq, Prod.mk.injEq, true_and, and_true]
  repeat' apply And.intro
  all_goals
    rw [Bool.eq_iff_iff]
    try split_ifs
    all_goals
      simp only [Bool.or_eq_true, Bool.and_eq_true, Bool.not_eq_true', decide_eq_true_eq, beq_iff_eq, beq_eq_false_iff_ne,
        true_iff]
      try omega

theorem cueFault_eq (r : Rate) (bs : List Byte) (i : Nat) :
    (rawCueAt bs i).fault r = firstFault (numbered 1 (cueRanges r (fun k => natAt bs (i + k)))) := by
  have hw : word (fun k => natAt bs (i + k)) 0 = nat16At bs i := (nat16At_eq_word bs i 0).symm
  have hb : nat16At bs i ≤ 65535 := by
    simp only [nat16At, natAt]
    omega
  have ha : (rawActionAt bs (i + 6)).fault = firstFault (numbered 6 (actionRanges (fun k => natAt bs (i + (6 + k))))) := by
    simp only [actionFault_eq, Nat.add_assoc]
  simp only [RawCue.fault, rawCueAt, ha, cueRanges, List.cons_append, List.nil_append, numbered_cons, Nat.reduceAdd, hw, hb, and_true]
  by_cases h1 : 1 ≤ nat16At bs i <;> by_cases h2 : natAt bs (i + 2) ≤ 23 <;> by_cases h3 : natAt bs (i + 3) ≤ 59 <;>
    by_cases h4 : natAt bs (i + 4) ≤ 59 <;> by_cases h5 : natAt bs (i + 5) ≤ r.fps - 1 <;> simp [firstFault, h1, h2, h3, h4, h5]

theorem boothRecordAt_eq {bs : List Byte} {i : Nat} (h : (boothRanges (fun k => natAt bs (i + k))).all id = true) :
    boothRecordAt bs i = boothOfRecord (fun k => natAt bs (i + k)) := by
  have h0 : natAt bs i ≤ 7 ∨ natAt bs i = 255 := by
    simpa using List.all_eq_true.mp h _ (List.mem_cons_self ..)
  have hs : (if h : natAt bs i < 8 then some (⟨natAt bs i, h⟩ : SlotNo) else none)
      = if natAt bs i = 255 then none else some (Fin.ofNat 8 (natAt bs i)) := by
    by_cases h8 : natAt bs i < 8
    · rw [dif_pos h8, if_neg (by omega)]
      exact congrArg some (Fin.ext (by simp [Fin.ofNat, Nat.mod_eq_of_lt h8]))
    · rw [dif_neg h8, if_pos (by omega)]
  simp only [boothRecordAt, boothOfRecord, nat16At_eq_word, Nat.add_zero, hs]

theorem profileAt_eq {bs : List Byte} {i : Nat} (h : (profileRanges (fun k => natAt bs (i + k))).all id = true) (defined : Bool) :
    profileAt bs i defined = profileOfRecord (fun k => natAt bs (i + k)) defined := by
  have h6 : 1 ≤ natAt bs (i + 6) ∧ natAt bs (i + 6) ≤ 4 := by
    have := List.all_eq_true.mp h (decide (1 ≤ natAt bs (i + 6) ∧ natAt bs (i + 6) ≤ 4)) (by simp [profileRanges])
    simpa using this
  have h0 : nat16At bs i = word (fun k => natAt bs (i + k)) 0 := nat16At_eq_word bs i 0
  simp only [profileAt, profileOfRecord, crop24, h0, nat16At_eq_word, Profile.mk.injEq, true_and, and_true]
  obtain h6 | h6 | h6 | h6 : natAt bs (i + 6) = 1 ∨ natAt bs (i + 6) = 2 ∨ natAt bs (i + 6) = 3 ∨ natAt bs (i + 6) = 4 := by omega
  all_goals simp [h6, positionAt, List.range_succ, nat16At_eq_word, Nat.add_assoc]

theorem fit_eq_fitted (p : Profile) (q : Placement) : p.fit q = p.fitted q := rfl

end Sys2Proof.Machine
end

