-- ==== Sys2Proof/Laws/Settings.lean ====
section
/-!
SUPPORT. Bytes of records read back as they were written: numbers, booth and profile records, and the configuration memory after
the byte writes of a store.
-/
namespace Sys2Proof.Machine

/-! ### Numbers -/

theorem toNat_byteOf {n : Nat} (h : n < 256) : (byteOf n).toNat = n := by
  simp only [byteOf, BitVec.toNat_ofNat]; omega

theorem toNat_byteOf_mod (n : Nat) : (byteOf n).toNat = n % 256 := by simp [byteOf, BitVec.toNat_ofNat]

@[simp] theorem be16_length (n : Nat) : (be16 n).length = 2 := rfl

/-- A byte behind a front part is the byte of the rest. -/
theorem natAt_append (front l : List Byte) (i : Nat) : natAt (front ++ l) (front.length + i) = natAt l i := by
  simp [natAt, List.getD_eq_getElem?_getD, List.getElem?_append_right]

theorem nat16At_append (front l : List Byte) (i : Nat) : nat16At (front ++ l) (front.length + i) = nat16At l i := by
  simp only [nat16At, natAt_append, Nat.add_assoc]

/-- A byte within the front part is the front part's. -/
theorem natAt_append_left {l : List Byte} {i : Nat} (h : i < l.length) (rest : List Byte) : natAt (l ++ rest) i = natAt l i := by
  simp [natAt, List.getD_eq_getElem?_getD, List.getElem?_append_left h]

theorem nat16At_append_left {l : List Byte} {i : Nat} (h : i + 1 < l.length) (rest : List Byte) :
    nat16At (l ++ rest) i = nat16At l i := by
  simp only [nat16At, natAt_append_left h, natAt_append_left (show i < l.length by omega)]

theorem nat16_be16 {n : Nat} (h : n < 65536) : (byteOf (n / 256)).toNat * 256 + (byteOf n).toNat = n := by
  rw [toNat_byteOf (by omega), toNat_byteOf_mod]; omega

/-! ### Records -/

theorem boothBytes_length (r : BoothRecord) : r.bytes.length = 16 := rfl

theorem profileBytes_length (p : Profile) : p.bytes.length = 27 := rfl

theorem chanBytes_length (d : ChanDefaults) : d.bytes.length = 5 := rfl

theorem headerBytes_length (marker : Nat) (body : List Byte) : (headerBytes marker body).length = 8 := rfl

/-- A booth record in range reads back from its bytes, wherever they stand, and its fields pass their tests. -/
theorem boothRecordAt_bytes {r : BoothRecord} (h : r.inRange = true) (front rest : List Byte) :
    boothRecordAt (front ++ (r.bytes ++ rest)) front.length = r ∧
      firstFault (boothTests (front ++ (r.bytes ++ rest)) front.length) = none := by
  have hn := fun i => natAt_append front (r.bytes ++ rest) i
  have hm := fun i => nat16At_append front (r.bytes ++ rest) i
  have h0 := hn 0
  simp only [Nat.add_zero] at h0
  obtain ⟨slot, width, cb0, cr0, rIn, rOut, cx, cy, hold, recovery⟩ := r
  simp only [BoothRecord.inRange, decide_eq_true_eq] at h
  have b16 : ∀ n, n < 65536 → (byteOf (n / 256)).toNat * 256 + (byteOf n).toNat = n := fun n => nat16_be16
  have hcb := b16 cb0 (by omega)
  have hcr := b16 cr0 (by omega)
  have hri := b16 rIn (by omega)
  have hro := b16 rOut (by omega)
  have hcx := b16 cx (by omega)
  have hcy := b16 cy (by omega)
  have hho : (byteOf hold).toNat = hold := toNat_byteOf (by omega)
  have hre : (byteOf recovery).toNat = recovery := toNat_byteOf (by omega)
  have hs : (slotByte slot).toNat = (slot.map (·.val)).getD 255 := by
    cases slot with
    | none => rfl
    | some k => exact toNat_byteOf (Nat.lt_trans k.isLt (by decide))
  have hw : width.toByte.toNat = if width = .w8 then 8 else 10 := by cases width <;> rfl
  constructor
  · simp only [boothRecordAt, hn, hm, h0, BoothRecord.mk.injEq]
    simp only [nat16At, natAt, BoothRecord.bytes, be16, List.cons_append, List.nil_append, List.getD_cons_zero,
      List.getD_cons_succ, hcb, hcr, hri, hro, hcx, hcy, hho, hre, hs, hw, and_true]
    cases slot <;> cases width <;> simp
  · simp only [boothTests, hn, hm, h0]
    simp only [nat16At, natAt, BoothRecord.bytes, be16, List.cons_append, List.nil_append, List.getD_cons_zero,
      List.getD_cons_succ, hcb, hcr, hri, hro, hcx, hcy, hho, hre, hs, hw]
    have hs' : (decide ((slot.map (·.val)).getD 255 ≤ 7) || (slot.map (·.val)).getD 255 == Config.noneByte) = true := by
      cases slot with
      | none => rfl
      | some k => simp only [Option.map_some, Option.getD_some, Bool.or_eq_true, decide_eq_true_eq]; left; omega
    have hw' : ((if width = .w8 then 8 else 10) == 8 || (if width = .w8 then 8 else 10) == 10) = true := by
      cases width <;> rfl
    simp only [hs', hw', firstFault]
    simp [h]

/-- A profile record in range reads back from its bytes, wherever they stand, and its fields pass their tests. -/
theorem profileAt_bytes {p : Profile} (h : p.inRange = true) (front rest : List Byte) :
    profileAt (front ++ (p.bytes ++ rest)) front.length p.defined = p ∧
      firstFault (profileTests (front ++ (p.bytes ++ rest)) front.length) = none := by
  have hn := fun i => natAt_append front (p.bytes ++ rest) i
  have hm := fun i => nat16At_append front (p.bytes ++ rest) i
  have h0 := hm 0
  simp only [Nat.add_zero] at h0
  obtain ⟨cw, ch, fp, ff, positions, edge, fade, move, defined⟩ := p
  simp only [Profile.inRange, Bool.and_eq_true, decide_eq_true_eq] at h
  obtain ⟨⟨⟨⟨⟨hc, hf⟩, hff⟩, hl⟩, hp⟩, he⟩ := h
  have b16 : ∀ n, n < 65536 → (byteOf (n / 256)).toNat * 256 + (byteOf n).toNat = n := fun n => nat16_be16
  have hcw := b16 cw (by omega)
  have hch := b16 ch (by omega)
  have hfp : (byteOf fp).toNat = fp := toNat_byteOf (by omega)
  have hfo : (byteOf (ff.getD 0)).toNat = ff.getD 0 := by
    cases ff with
    | none => rfl
    | some f => simp only [Option.all_some, decide_eq_true_eq] at hff; exact toNat_byteOf (by simp only [Option.getD_some]; omega)
  have hed : (byteOf edge).toNat = edge := toNat_byteOf (by omega)
  have hfa : (byteOf fade).toNat = fade := toNat_byteOf (by omega)
  have hmo : (byteOf move).toNat = move := toNat_byteOf (by omega)
  have hlen : (byteOf positions.length).toNat = positions.length := toNat_byteOf (by omega)
  have hq : ∀ q : Nat × Nat, q ∈ positions → q.1 ≤ 1919 ∧ q.2 ≤ 1079 := fun q hq' => by
    simpa only [decide_eq_true_eq] using List.all_eq_true.1 hp q hq'
  have hcrop : ∀ n, n % 24 = 0 → crop24 n = n := fun n hz => by simp only [crop24]; omega
  have hgo : ff.getD 0 = 0 → ff = none := fun hz => by
    cases ff with
    | none => rfl
    | some f => simp only [Option.all_some, decide_eq_true_eq] at hff; simp only [Option.getD_some] at hz; omega
  have key : ∀ k, k < positions.length → positionAt (front ++ (Profile.bytes ⟨cw, ch, fp, ff, positions, edge, fade, move, defined⟩
      ++ rest)) front.length k = positions.getD k (0, 0) := fun k hk => by
    have hk4 : k < 4 := by omega
    have hr := hq (positions.getD k (0, 0)) (by
      rw [List.getD_eq_getElem?_getD, List.getElem?_eq_getElem hk]; exact List.getElem_mem hk)
    have hx := b16 (positions.getD k (0, 0)).1 (by omega)
    have hy := b16 (positions.getD k (0, 0)).2 (by omega)
    have e7 := hm (7 + 4 * k)
    have e9 := hm (9 + 4 * k)
    simp only [← Nat.add_assoc] at e7 e9
    simp only [positionAt, e7, e9]
    refine Prod.ext ?_ ?_
    · interval_cases k <;> simpa [nat16At, natAt, Profile.bytes, Profile.positionBytes, be16, List.range_succ] using hx
    · interval_cases k <;> simpa [nat16At, natAt, Profile.bytes, Profile.positionBytes, be16, List.range_succ] using hy
  have hpos : (List.range positions.length).map (positionAt (front ++ (Profile.bytes ⟨cw, ch, fp, ff, positions, edge, fade, move,
      defined⟩ ++ rest)) front.length) = positions := by
    apply List.ext_getElem (by simp)
    intro k h1 h2
    rw [List.getElem_map, List.getElem_range, key k h2, List.getD_eq_getElem?_getD, List.getElem?_eq_getElem h2]
    rfl
  have n4 := hn 4
  have n5 := hn 5
  have n6 := hn 6
  have n23 := hn 23
  have n24 := hn 24
  have n25 := hn 25
  have m2 := hm 2
  generalize front ++ (Profile.bytes ⟨cw, ch, fp, ff, positions, edge, fade, move, defined⟩ ++ rest) = w at *
  simp only [nat16At, natAt, Profile.bytes, Profile.positionBytes, be16, List.cons_append, List.nil_append, List.getD_cons_zero,
    List.getD_cons_succ, List.range_succ, List.range_zero, List.flatMap_cons, List.flatMap_nil, hcw, hch, hfp, hfo, hed, hfa, hmo,
    hlen] at h0 n4 n5 n6 n23 n24 n25 m2
  change nat16At w front.length = cw at h0
  change natAt w (front.length + 4) = fp at n4
  change natAt w (front.length + 5) = ff.getD 0 at n5
  change natAt w (front.length + 6) = positions.length at n6
  change natAt w (front.length + 23) = edge at n23
  change natAt w (front.length + 24) = fade at n24
  change natAt w (front.length + 25) = move at n25
  change nat16At w (front.length + 2) = ch at m2
  constructor
  · simp only [profileAt, h0, n4, n5, n6, n23, n24, n25, m2, hpos, hcrop cw (by omega), hcrop ch (by omega)]
    by_cases hz : ff.getD 0 = 0
    · simp [hgo hz]
    · cases ff <;> simp_all
  · have hx : ∀ k, (decide (positions.length ≤ k) || decide ((positionAt w front.length k).1 ≤ 1919)) = true := fun k => by
      by_cases hk : positions.length ≤ k
      · simp [hk]
      · have hr := hq (positions.getD k (0, 0)) (by
          rw [List.getD_eq_getElem?_getD, List.getElem?_eq_getElem (by omega)]; exact List.getElem_mem (by omega))
        rw [key k (by omega), decide_eq_true hr.1, Bool.or_true]
    have hy : ∀ k, (decide (positions.length ≤ k) || decide ((positionAt w front.length k).2 ≤ 1079)) = true := fun k => by
      by_cases hk : positions.length ≤ k
      · simp [hk]
      · have hr := hq (positions.getD k (0, 0)) (by
          rw [List.getD_eq_getElem?_getD, List.getElem?_eq_getElem (by omega)]; exact List.getElem_mem (by omega))
        rw [key k (by omega), decide_eq_true hr.2, Bool.or_true]
    have hfo' : (ff.getD 0 == 0 || decide (fp < ff.getD 0 ∧ ff.getD 0 ≤ 4)) = true := by
      cases ff with
      | none => rfl
      | some f => simp only [Option.all_some, decide_eq_true_eq] at hff; simp [hff]
    simp only [profileTests, h0, n4, n5, n6, n23, n24, n25, m2, hx, hy, hfo', firstFault, List.cons_append, List.nil_append]
    simp [hc, hf, hl, he]

theorem flatMap_length_const {α : Type} {f : α → List Byte} {n : Nat} (l : List α) (h : ∀ x ∈ l, (f x).length = n) :
    (l.flatMap f).length = n * l.length := by
  induction l with
  | nil => rfl
  | cons x t ih =>
    rw [List.flatMap_cons, List.length_append, h x (by simp), ih fun y hy => h y (by simp [hy]), List.length_cons]
    ring

/-- Every profile entry of a body has 28 bytes. -/
theorem entry_length {v : Vector Profile 16} {e : List Byte} (h : e ∈ profileEntriesBytes v) : e.length = 28 := by
  obtain ⟨n, -, hn⟩ := List.mem_filterMap.1 h
  dsimp only at hn
  split at hn
  · cases hn; rfl
  · cases hn

/-- At most sixteen entries. -/
theorem entries_length_le (v : Vector Profile 16) : (profileEntriesBytes v).length ≤ 16 :=
  (List.length_filterMap_le _ _).trans (by simp)

/-- The length of a body is the one its items call for (R180). -/
theorem body_length (t : Settings) : t.body.length = itemsLength (profileEntriesBytes t.profiles).length := by
  have hf : (profileEntriesBytes t.profiles).flatten.length = 28 * (profileEntriesBytes t.profiles).length := by
    rw [← List.flatMap_id]; exact flatMap_length_const (f := id) _ fun e he => entry_length he
  have hb := flatMap_length_const (f := BoothRecord.bytes) t.booths.toList fun r _ => boothBytes_length r
  have hc := flatMap_length_const (f := ChanDefaults.bytes) t.chans.toList fun d _ => chanBytes_length d
  simp only [Vector.length_toList] at hb hc
  simp only [Settings.body, List.length_append, List.length_map, List.length_cons, List.length_nil, Vector.length_toList, hf, hb,
    hc, itemsLength]
  omega

/-! ### The memory after the byte writes of a store -/

/-- Bytes written from an offset on: within them the memory reads as they are. -/
theorem memRead_placed {m : List Host.Cell} (h : Memory.wf m = true) (start : Nat) (bs : List Byte) {i : Nat} (hi : i < bs.length) :
    memRead (memWriteAll m (placed start bs)) (start + i) = bs.getD i 0 := by
  have hd : ((placed start bs).map (·.1)).Nodup := by
    have : (placed start bs).map (·.1) = (List.range bs.length).map (start + ·) := by simp [placed, Function.comp_def]
    rw [this]
    exact List.Nodup.map (fun a b e => by simpa using e) List.nodup_range
  exact memRead_memWriteAll_of_mem h hd (x := (start + i, bs.getD i 0))
    (List.mem_map.2 ⟨i, List.mem_range.2 hi, rfl⟩)

/-- Bytes written from an offset on: outside them the memory reads as before. -/
theorem memRead_placed_outside {m : List Host.Cell} (h : Memory.wf m = true) {start : Nat} {bs : List Byte} {a : Nat}
    (ha : a < start ∨ start + bs.length ≤ a) : memRead (memWriteAll m (placed start bs)) a = memRead m a := by
  refine memRead_memWriteAll_of_not_mem h fun x hx => ?_
  obtain ⟨i, hi, rfl⟩ := List.mem_map.1 hx
  have := List.mem_range.1 hi
  simp only
  omega

/-- Bytes written from an offset on are read back whole. -/
theorem memBytes_placed {m : List Host.Cell} (h : Memory.wf m = true) (start : Nat) (bs : List Byte) :
    memBytes (memWriteAll m (placed start bs)) start bs.length = bs := by
  refine List.ext_getElem (by simp [memBytes]) fun i h1 h2 => ?_
  simp only [memBytes, List.getElem_map, List.getElem_range]
  rw [memRead_placed h start bs h2, List.getD_eq_getElem?_getD, List.getElem?_eq_getElem h2]
  rfl

/-- Bytes read clear of those written are as before. -/
theorem memBytes_placed_outside {m : List Host.Cell} (h : Memory.wf m = true) {start : Nat} {bs : List Byte} {a n : Nat}
    (ha : a + n ≤ start ∨ start + bs.length ≤ a) : memBytes (memWriteAll m (placed start bs)) a n = memBytes m a n := by
  refine List.map_congr_left fun i hi => memRead_placed_outside h ?_
  have := List.mem_range.1 hi
  omega

/-- A header's fields read back from its bytes. -/
theorem header_fields {marker : Nat} {body : List Byte} (hm : marker < 65536) (hl : body.length < 65536) :
    nat16At (headerBytes marker body) 0 = marker ∧ nat16At (headerBytes marker body) 2 = Config.formatVersion ∧
      nat16At (headerBytes marker body) 4 = body.length ∧ nat16At (headerBytes marker body) 6 = bodySum body := by
  have hs : bodySum body < 65536 := Nat.mod_lt _ (by decide)
  refine ⟨?_, ?_, ?_, ?_⟩ <;>
    simp only [nat16At, natAt, headerBytes, be16, List.cons_append, List.nil_append, List.getD_cons_zero, List.getD_cons_succ]
  · exact nat16_be16 hm
  · exact nat16_be16 (n := Config.formatVersion) (by decide)
  · exact nat16_be16 hl
  · exact nat16_be16 hs

/-- The memory after a whole body and a whole header: the header's fields and the body are the ones written. -/
theorem memory_after_store {m : List Host.Cell} (h : Memory.wf m = true) {marker : Nat} {body : List Byte} (hm : marker < 65536)
    (hl : body.length < 65536) :
    let t := memWriteAll (memWriteAll m (placed Config.bodyOffset body)) (placed 0 (headerBytes marker body))
    memBytes t 0 8 = headerBytes marker body ∧ headerLength t = body.length ∧ memBody t = body := by
  have hw := wf_memWriteAll h (placed Config.bodyOffset body)
  have h8 := memBytes_placed hw 0 (headerBytes marker body)
  rw [headerBytes_length] at h8
  have hlen : headerLength (memWriteAll (memWriteAll m (placed Config.bodyOffset body)) (placed 0 (headerBytes marker body)))
      = body.length := by
    rw [headerLength, h8]; exact (header_fields hm hl).2.2.1
  refine ⟨h8, hlen, ?_⟩
  rw [memBody, hlen, memBytes_placed_outside hw (.inr (by rw [headerBytes_length]))]
  exact memBytes_placed h Config.bodyOffset body

end Sys2Proof.Machine
end

