-- ==== Sys2Proof/Laws/Steps.lean ====
section
/-!
SUPPORT. The frame starts and the link frame ends of Safety.lean as the one operation each of them is.
-/
namespace Sys2Proof.Machine

/-- The path at whose channel a frame start finds the event that brings it: its lock state and its reference for the next lock. -/
def Path.event (p : Path) (arrival timeout : Bool) : Path :=
  if arrival then { p with locked := true, prevValid := true }
  else if timeout then { p with locked := false, prevValid := false }
  else p

/-- Whether a command is an arrival, and whether it is a loss of lock. -/
def Instr.isArrival : Sys2Proof.Instr → Bool
  | .programmeFrameArrival _ _ _ => true
  | _ => false
def Instr.isTimeout : Sys2Proof.Instr → Bool
  | .lockLossTimeout _ => true
  | _ => false

/-- Every frame start of Safety.lean is State.frameStart on the state whose path the event has already told of the lock. -/
theorem exec_frameStarts {s : State} {c : ChanNo} {i : Sys2Proof.Instr} {f : Sys2Proof.InputFrame} (h : FrameStarts s c i f) :
    exec i s = .next ((s.setPath c ((s.chan c).path.event (Instr.isArrival i) (Instr.isTimeout i))).frameStart c
      f.picture f.audio f.timecode) := by
  cases h with
  | arrival f gap serving locks =>
    have hl : ((s.chan c).path.locked || (s.chan c).path.prevValid && onePeriod gap) = true := by
      simpa [onePeriod] using locks
    simp only [exec, execProgrammeFrameArrival, State.validArrival, Path.lockOnArrival, hl, serving, Bool.not_false,
      Bool.and_self, if_true, Instr.isArrival, Path.event]
  | freeRun serving unlocked =>
    simp only [exec, execFreeRunFrameStart, State.freeRun, unlocked, serving, Bool.or_self, Bool.false_eq_true, if_false,
      State.blackFrameStart, blackInput, Instr.isArrival, Instr.isTimeout, Path.event]
    congr 2
    apply State.ext_accessors <;> intros <;> try rfl
    rw [State.chan_setPath]; split
    · rename_i e; rw [e]
    · rfl
  | timeout serving locked ended =>
    simp only [exec, execLockLossTimeout, State.lockTimeout, locked, ended, if_true, Bool.false_eq_true, if_false,
      State.blackFrameStart, blackInput, Instr.isArrival, Instr.isTimeout, Path.event, Path.loseLock]

/-- Every link frame end of Safety.lean is State.linkEnd, with the reception of the next frame begun where that is what ended it. -/
theorem exec_linkEnds {s : State} {i : Sys2Proof.Instr} {slots : List Sys2Proof.SlotRx} (h : LinkEnds s i slots) :
    exec i s = .next (match i with
      | .linkNewFrameStart _ => (s.linkEnd slots).linkBegin
      | _ => s.linkEnd slots) := by
  cases h with
  | whole slots serving => simp [exec, execLinkFrameEnd, State.linkFrameEnds, serving]
  | gap slots serving inside => simp [exec, execLinkGapTimeout, State.linkGap, serving, inside]
  | cutShort slots serving inside => simp [exec, execLinkNewFrameStart, State.linkCutShort, serving, inside]
  | silence serving outside => simp [exec, execLinkSilenceTimeout, State.linkSilent, serving, outside]

end Sys2Proof.Machine
end

