-- ==== Sys2Proof/Tests/Slice0.lean ====
section
/-!
SUPPORT. The model's own tests: ill-formed operands refused, the command codes, single steps whose results are taken from the
worked examples of spec/, and for each statement with hypotheses a state and operands that meet them.
-/
namespace Sys2Proof.Tests
open Sys2Proof.Machine

/-! ### Well-formedness: each check refuses an ill-formed operand -/

def frameOf (y : Plane) : InputFrame := { picture := { blackPicture with y := y }, audio := .silent, timecode := none }

theorem test_wf_accepts_black_frame : (Instr.programmeFrameArrival 0 blackInput 1000).wellFormed = true := by decide
theorem test_wf_refuses_wide_fill : (Instr.programmeFrameArrival 0 (frameOf ⟨1024, []⟩) 1000).wellFormed = false := by decide
theorem test_wf_refuses_sample_outside :
    (Instr.programmeFrameArrival 0 (frameOf ⟨64, [(1920 * 1080, 65)]⟩) 1000).wellFormed = false := by decide
theorem test_wf_refuses_wide_sample :
    (Instr.programmeFrameArrival 0 (frameOf ⟨64, [(0, 1024)]⟩) 1000).wellFormed = false := by decide
theorem test_wf_refuses_listed_fill :
    (Instr.programmeFrameArrival 0 (frameOf ⟨64, [(0, 64)]⟩) 1000).wellFormed = false := by decide
theorem test_wf_refuses_falling_addresses :
    (Instr.programmeFrameArrival 0 (frameOf ⟨64, [(1, 65), (0, 65)]⟩) 1000).wellFormed = false := by decide
theorem test_wf_refuses_seven_slots : (Instr.linkFrameEnd (List.replicate 7 silentSlot)).wellFormed = false := by decide
theorem test_wf_refuses_eight_slots_before_a_gap :
    (Instr.linkGapTimeout (List.replicate 8 silentSlot)).wellFormed = false := by decide
theorem test_wf_refuses_eight_slots_before_a_new_frame :
    (Instr.linkNewFrameStart (List.replicate 8 silentSlot)).wellFormed = false := by decide
theorem test_wf_refuses_wide_check_word : (Instr.linkGapTimeout [{ silentSlot with check := 65536 }]).wellFormed = false := by
  decide
theorem test_wf_refuses_long_block : (Instr.identify 0 ⟨List.replicate 255 0, 0, false⟩).wellFormed = false := by
  decide +kernel
theorem test_wf_refuses_known_code : (Instr.unknownCommand 0 0x01 ⟨[0], 0, false⟩).wellFormed = false := by decide
theorem test_wf_refuses_large_image :
    (Instr.startUpComplete (.prepared (List.replicate 4097 0))).wellFormed = false := by decide +kernel
theorem test_wf_refuses_stuck_cell_outside : (Instr.storeComplete ⟨none, [(4096, 0)]⟩).wellFormed = false := by decide

/-! ### Command codes (section 10.2, Commands) -/

theorem test_codes_of_every_command : allCommands.map Command.code =
    [0x01, 0x02, 0x03, 0x04, 0x05, 0x10, 0x11, 0x12, 0x13, 0x14, 0x15, 0x16, 0x17, 0x20, 0x21, 0x28, 0x29, 0x30, 0x31, 0x32,
     0x33, 0x38, 0x39, 0x40, 0x41, 0x48, 0x49, 0x4A] := by decide
theorem test_code_without_command : Command.ofCode 0x06 = none ∧ Command.ofCode 0x4B = none ∧ Command.ofCode 0x00 = none := by
  decide
theorem test_no_word_spells_a_row : decodeTableWord 8 0x01 = none := rfl

/-! ### Small states -/

/-- The whole block's parameters with the check byte that makes it sum to 0. -/
def block (code : Byte) (params : List Byte) : Tail :=
  { params := params, check := checkByte (byteOf (params.length + 1)) (code :: params), damaged := false }

/-- The part once start-up has completed with every default (R166). -/
def serving : State :=
  { State.reset with
    loader := { powerOnLoader with phase := .serving }
    ports := Vector.ofFn (fun p => { restartPort with role := some defaultRoles[p] }) }

/-- One channel of the part replaced. -/
def withChan (c : ChanNo) (x : Channel) : State := serving.setChan c x

/-- A programme frame of black with a frame number. -/
def blackFrame (tc : Nat) : Frame := { picture := blackPicture, audio := .silent, tc := tc }

/-- A path whose bypass has ended, at an output timecode, with a line of so many black frames. -/
def pathAt (tc held : Nat) : Path :=
  { restartPath with bypass := false, outTc := tc, lastOut := some (blackFrame tc), lastTc := some (tc + held),
                     line := (List.range held).map (fun k => blackFrame (tc + 1 + k)) }

/-- A booth with a READY picture and this health. -/
def boothIn (h : Health) : Booth := { restartBooth defaultBoothRecord with health := h, ready := some blackPicture }

/-- C0 with this presenter and this assignment at T = 500, and booth B1 with this health. -/
def scene (pres : Presenter) (assign : Assign) (h : Health) : State :=
  (withChan 0 { restartChannel with path := pathAt 500 0, pres := pres, assign := assign }).setBooth 1 (boothIn h)

/-- The record of a channel that has B1. -/
def onB1 : Assign := { restartAssign with assigned := some 1 }

/-- A presenter fully up. -/
def presOn : Presenter := { restartPresenter with state := .on, intent := true, g := 256 }

/-- What one field of the state after a step reads. -/
def seen {α : Type} (o : Host.Outcome State Fault Refusal) (f : State → α) : Option α :=
  match o with
  | .next t => some (f t)
  | .fault _ => none
  | .refused _ => none

/-! ### Single steps, with the results the worked examples of spec/ give -/

/-- The slew upward of chapter 1, frame start 2: A rises to 1 by a repeat of frame 100 with silent audio. -/
theorem test_arrival_repeats_a_frame :
    seen (exec (.programmeFrameArrival 2 { blackInput with audio := .carried [1], timecode := some ⟨0, 0, 4, 1⟩ } 1000)
      (withChan 2 { restartChannel with
        path := { pathAt 100 0 with locked := true, prevValid := true, slewInterval := 2, slewCounter := 1,
                                    lastOut := some { blackFrame 100 with audio := .carried [0] } },
        pool := ⟨3, 3, false⟩ }))
      (fun t => ((t.chan 2).actual, (t.chan 2).path.slewCounter, (t.chan 2).path.outTc,
        (t.chan 2).path.lastOut.map (·.audio), (t.chan 2).path.line.map (·.tc)))
      = some (1, 0, 100, some .silent, [101]) := by decide

/-- R1: a valid frame one frame period after another, within a twentieth either way, locks the input (note 5 on the ends). -/
theorem test_arrival_locks_within_the_period :
    let s := withChan 0 { restartChannel with path := { restartPath with prevValid := true } }
    let lock := fun gap => seen (exec (.programmeFrameArrival 0 blackInput gap) s) (fun t => (t.chan 0).path.locked)
    (lock 949, lock 950, lock 1050, lock 1051) = (some false, some true, some true, some false) := by decide

/-- R1: one invalid frame unlocks the input. -/
theorem test_invalid_frame_unlocks :
    seen (exec (.invalidFrameArrival 0) (withChan 0 { restartChannel with path := { pathAt 9 0 with locked := true } }))
      (fun t => (t.chan 0).path.locked) = some false := by decide

/-- R1, R3: at the loss of lock a black frame enters the line, its timecode one after the last. -/
theorem test_timeout_enters_a_black_frame :
    seen (exec (.lockLossTimeout 0) (withChan 0 { restartChannel with path := { pathAt 9 0 with locked := true } }))
      (fun t => ((t.chan 0).path.locked, (t.chan 0).path.outTc, (t.chan 0).path.flywheel)) = some (false, 10, true) := by decide

/-- R5: the flywheel runs from the last frame of the day to 0. -/
theorem test_free_run_wraps_at_midnight :
    seen (exec (.freeRunFrameStart 0) (withChan 0 { restartChannel with path := pathAt 2159999 0 }))
      (fun t => (t.chan 0).path.outTc) = some 0 := by decide

/-- R6: under bypass an UNLOCKED input's output is black with no timecode. -/
theorem test_bypass_black_frame :
    seen (exec (.bypassBlackFrame 3) State.reset) (fun t => (t.chan 3).path.sent) = some (some ⟨blackPicture, .silent, none⟩) := by
  decide

/-- Booth B2 on slot S4 with hold limit 3 and recovery count 2, as the example of chapter 2 has it, assigned on C1. -/
def dropout (b : Booth) : State :=
  ({ withChan 1 { restartChannel with assign := { restartAssign with assigned := some 2 } } with
    slotMask := 0x10, linkInFrame := true }).setBooth 2
    { b with record := { defaultBoothRecord with slot := some 4, hold := 3, recovery := 2 } }

/-- A link frame whose slots all carry this marker; a black booth picture sums to its check word. -/
def linkFrame (m : Marker) : List SlotRx :=
  List.replicate 8 { marker := m, raw := blackPicture, check := (960 * 540 * 64 + 960 * 540 * 512) % 65536 }

/-- What the example's table gives for B2: health, missed, good, sequence number, and the sources of the BOOTH notice the STUDIO
port holds and of the FEED notice the port of C1 holds. -/
def boothRow (t : State) : Health × List Nat :=
  let b := t.booth 2
  (b.health, [b.missed, b.good, b.seq, (t.port 4).pending.booth.toNat, (t.port 1).pending.feed.toNat])

/-- Example of chapter 2, end 8: the third miss makes B2 LOST, with FEED for C1. -/
theorem test_link_frame_end_third_miss :
    seen (exec (.linkFrameEnd (linkFrame .noPicture)) (dropout { boothIn .held with missed := 2, seq := 3 })) boothRow
      = some (.lost, [3, 0, 3, 4, 2]) := by decide

/-- Example of chapter 2, end 12: the second good picture in a row brings B2 back. -/
theorem test_link_frame_end_second_good :
    seen (exec (.linkFrameEnd (linkFrame .picture))
      (dropout { boothIn .lost with missed := 3, good := 1, seq := 3, candidate := some blackPicture })) boothRow
      = some (.live, [0, 0, 4, 4, 2]) := by decide +kernel

/-- R23: the slots not received before a gap are DAMAGED; B2's is the first of them. -/
theorem test_link_gap_damages_the_rest :
    seen (exec (.linkGapTimeout (List.replicate 4 silentSlot)) (dropout (boothIn .live)))
      (fun t => ((t.booth 2).last, boothRow t)) = some (.damaged, .held, [1, 0, 0, 4, 0]) := by decide

/-- R23: a new frame's start ends the frame it cuts short, and the receiver is inside the new one. -/
theorem test_link_new_frame_start :
    seen (exec (.linkNewFrameStart []) (dropout (boothIn .live))) (fun t => (t.linkInFrame, (t.booth 2).missed)) = some (true, 1) := by
  decide

/-- R23: a silent link gives every slot EMPTY. -/
theorem test_link_silence_is_empty :
    seen (exec .linkSilenceTimeout { dropout (boothIn .live) with linkInFrame := false }) (fun t => (t.booth 2).last)
      = some .empty := by decide

/-- R27: the reception of a link frame lets a remapped booth take results again. -/
theorem test_link_frame_begin :
    seen (exec .linkFrameBegin { dropout { boothIn .absent with awaiting := true } with linkInFrame := false })
      (fun t => (t.linkInFrame, (t.booth 2).awaiting)) = some (true, false) := by decide

/-- Section 10.2: IDENTIFY is sent as A5, 02, 01, 00, FD; the STUDIO port of the example of chapter 8 has START pending. -/
theorem test_identify_block_and_reply :
    let s := serving.setPort 4 { serving.port 4 with pending := { noNotices with start := true } }
    block 0x01 [0x00] = ⟨[0x00], 0xFD, false⟩ ∧
    seen (exec (.identify 4 (block 0x01 [0])) s) (fun t => ((t.port 4).trans, (t.port 4).attention))
      = some (.answering (some (framed [0x08, 0x4B, 0x02, 0x80, 0x01, 4, 4, 25, 0])), true) := by decide

/-- R152, R154: READ SENSE returns the record the block before it left, and is itself answered without CHECK. -/
theorem test_read_sense_returns_the_record_before :
    seen (exec (.readSense 4 (block 0x02 [0]))
      (serving.setPort 4 { serving.port 4 with sense := ⟨.link, .badCheck, none⟩ })) (fun t => ((t.port 4).sense, (t.port 4).trans))
      = some (senseNone, .answering (some (framed [0, SenseKey.link.toByte, SenseCode.badCheck.toByte, 0, 0, 0, 0, 0]))) := by
  decide

/-- R160: READ NOTICES empties the pending set. -/
theorem test_read_notices_empties :
    seen (exec (.readNotices 4 (block 0x03 [0]))
      (serving.setPort 4 { serving.port 4 with pending := { noNotices with start := true, booth := 4 } }))
      (fun t => ((t.port 4).pending, (t.port 4).trans))
      = some (noNotices, .answering (some (framed [0, 0x81, 0, 0, 0, 0, 0, 0, 4]))) := by decide

/-- R158, R159: with START disabled, a pending START does not assert the attention line. -/
theorem test_set_notice_mask_releases_attention :
    seen (exec (.setNoticeMask 0 (block 0x04 [0, 0xFE]))
      (serving.setPort 0 { serving.port 0 with pending := { noNotices with start := true } }))
      (fun t => ((t.port 0).enabled, (t.port 0).attention)) = some (0xFE, false) := by decide

/-- Section 10.4: the CHANNEL STATE reply of a channel at rest, 26 bytes with the status byte. -/
theorem test_channel_state_at_rest :
    seen (exec (.channelState 0 (block 0x05 [0])) serving) (fun t => (t.port 0).trans) = some (.answering (some (framed
      [0, 0, 0, 0, 0, 0, 0xFF, 0xFF, 0, 0, 0, 0x06, 0x78, 0x02, 0xFA, 2, 0, 0, 0, 0, 0, 0, 0, 0, 0]))) := by decide

/-- A cue record as it is sent: tag, due timecode, kind, parameter, window, guard and fade. -/
def cueBytes (tag : Nat) (due : Sys2Proof.Timecode) (kind param guard fade : Nat) : List Byte :=
  be16 tag ++ [byteOf due.hh, byteOf due.mm, byteOf due.ss, byteOf due.ff, byteOf kind, byteOf param, 0, 0, 0, 0, 0, 0,
    byteOf guard, byteOf fade]

/-- The state of C1 in the example of chapter 7 when its first block is sent: T is 10:00:00:09 and the late limit 2. -/
def scheduleStart : State :=
  withChan 1 { restartChannel with path := pathAt 900009 0, sched := { restartSched with lateLimit := 2 } }

/-- Example of chapter 7: tags 14 and 11, added in this order, stand as 11, 14; tag 16 of the second block is within the horizon. -/
theorem test_add_cues_sorts_by_offset :
    seen (exec (.addCues 1 (block 0x10 ([2] ++ cueBytes 14 ⟨10, 0, 0, 20⟩ 1 0 0 255 ++ cueBytes 11 ⟨10, 0, 0, 10⟩ 0 0 1 255)))
      scheduleStart) (fun t => (t.chan 1).sched.cues.map (fun q => (q.tag, q.due))) = some [(11, 900010), (14, 900020)] ∧
    seen (exec (.addCues 1 (block 0x10 ([1] ++ cueBytes 16 ⟨16, 0, 0, 0⟩ 6 0 0 255))) scheduleStart)
      (fun t => ((t.chan 1).sched.cues.length, (t.port 1).sense)) = some (1, senseNone) := by decide

/-- R124, R126: one frame beyond the horizon is refused at record 1, field 2. -/
theorem test_add_cues_beyond_the_horizon :
    seen (exec (.addCues 1 (block 0x10 ([1] ++ cueBytes 16 ⟨16, 0, 0, 11⟩ 6 0 0 255))) scheduleStart)
      (fun t => (t.port 1).sense) = some ⟨.illegal, .beyondHorizon, some 0x102⟩ := by decide

/-- A MARK cue. -/
def markCue (tag due : Nat) : Cue := { tag := tag, due := due, action := .mark, guard := .always, fade := none }

/-- C0 with these cues and these outcomes, its presenter OFF, at T = 500. -/
def listed (cues : List Cue) (ring : List OutcomeRec) : State :=
  withChan 0 { restartChannel with path := pathAt 500 0, sched := { restartSched with cues := cues, ring := ring } }

theorem test_drop_cue_removes_one :
    seen (exec (.dropCue 0 (block 0x11 [0, 22])) (listed [markCue 21 502, markCue 22 504, markCue 23 504] []))
      (fun t => (t.chan 0).sched.cues.map (·.tag)) = some [21, 23] := by decide

theorem test_flush_cues_writes_no_outcome :
    seen (exec (.flushCues 0 (block 0x12 [0])) (listed [markCue 21 502, markCue 22 504] []))
      (fun t => ((t.chan 0).sched.cues, (t.chan 0).sched.ring, (t.port 0).trans))
      = some ([], [], .answering (some (framed [0, 2]))) := by decide

/-- R141: the second of two cues, with its signed offset from T. -/
theorem test_list_cues_from_the_second :
    seen (exec (.listCues 0 (block 0x13 [2, 0])) (listed [markCue 21 502, markCue 22 504] [])) (fun t => (t.port 0).trans)
      = some (.answering (some (framed ([0, 2, 2, 1] ++ cueBytes 22 ⟨0, 0, 20, 4⟩ 6 0 0 255 ++ [0, 0, 0, 4])))) := by decide

/-- R142: with the invert flag, the first cue that is not a PRESENTER ON, reported with MATCH. -/
theorem test_find_cue_inverted :
    seen (exec (.findCue 0 (block 0x14 [0, 0xFF, 1]))
      (listed [{ markCue 21 502 with action := .presenterOn }, markCue 22 504] [])) (fun t => (t.port 0).trans)
      = some (.answering (some (framed ([4, 2] ++ cueBytes 22 ⟨0, 0, 20, 4⟩ 6 0 0 255 ++ [0, 0, 0, 4])))) := by decide

/-- R82, R86: PRESENTER ON by TAKE NOW with an override of 20 from FALLING at 51 begins a rise of 17 steps, as chapter 5's example. -/
theorem test_take_now_reverses_a_fall :
    seen (exec (.takeNow 0 (block 0x15 [0, 0, 0, 0, 0, 0, 0, 0, 0, 20]))
      (scene { presOn with state := .falling, intent := false, g := 51, fade := some ⟨false, 102, 10, 4, 2⟩ } onB1 .live))
      (fun t => ((t.chan 0).pres.state, (t.chan 0).pres.fade)) = some (.rising, some ⟨true, 51, 20, 17, 0⟩) := by decide +kernel

/-- R65: SET ZONE trims the window to the picture: 320 wide from column 1700 is 220. -/
theorem test_take_now_trims_a_zone :
    seen (exec (.takeNow 0 (block 0x15 ([3, 1] ++ pack12 1700 320 ++ pack12 700 300 ++ [0, 0xFF]))) serving)
      (fun t => (t.chan 0).place.zones[1]) = some ⟨true, ⟨1700, 700, 220, 300⟩⟩ := by decide

/-- R139: seven outcomes: six are returned, one is left. -/
theorem test_read_outcomes_leaves_one :
    seen (exec (.readOutcomes 0 (block 0x16 [0])) (listed [] (List.replicate 7 ⟨1, .done, 500, 0⟩)))
      (fun t => (t.chan 0).sched.ring.length) = some 1 := by decide

theorem test_set_late_limit_at_its_bound :
    seen (exec (.setLateLimit 0 (block 0x17 [250])) serving) (fun t => (t.chan 0).sched.lateLimit) = some 250 ∧
    seen (exec (.setLateLimit 0 (block 0x17 [251])) serving) (fun t => (t.port 0).sense)
      = some ⟨.illegal, .outOfRange, some 1⟩ := by decide

theorem test_set_loss_mode_freeze :
    seen (exec (.setLossMode 0 (block 0x20 [2])) serving) (fun t => (t.chan 0).pres.loss) = some .freeze := by decide

/-- R101, R113: CLEAR CHANNEL under a release takes the presenter out and ends the release. -/
theorem test_clear_channel_ends_a_release :
    seen (exec (.clearChannel 0 (block 0x21 [0]))
      (scene { presOn with state := .falling, g := 149, fade := some ⟨false, 256, 12, 12, 5⟩ }
        { onB1 with releasePending := true } .live))
      (fun t => ((t.chan 0).pres.state, (t.chan 0).pres.g, (t.chan 0).assign)) = some (.off, 0, restartAssign) := by decide

/-- Section 11.3: C2 asks for 150 when the others reserve 350 and is granted 130; the reply carries NOTICE for its own DELAY. -/
theorem test_set_delay_is_clamped :
    let full := fun g => { restartChannel with
      path := { restartPath with line := List.replicate 100 (blackFrame 1) }, pool := ⟨g, g, false⟩ }
    seen (exec (.setDelay 2 (block 0x28 [150])) { serving with chans := #v[full 100, full 150, full 100, full 100] })
      (fun t => ((t.chan 2).pool, (t.port 2).trans, (t.port 2).pending.delay))
      = some (⟨150, 130, true⟩, .answering (some (framed [8, 150, 130])), 4) := by decide +kernel

theorem test_set_slew_of_0_is_refused :
    seen (exec (.setSlew 0 (block 0x29 [0, 0])) serving) (fun t => ((t.chan 0).path.slewInterval, (t.port 0).sense))
      = some (5, ⟨.illegal, .outOfRange, some 1⟩) := by decide

/-- R34, example of chapter 2: with recovery count 1 written while B2 is LOST with no candidate, B2 stays LOST with missed 3. -/
theorem test_write_booth_reexamines :
    seen (exec (.writeBooth 4 (block 0x30 ([2, 4, 10] ++ be16 512 ++ be16 512 ++ be16 0 ++ be16 1 ++ be16 0 ++ be16 0 ++ [3, 1])))
      (dropout { boothIn .lost with missed := 3, seq := 3 }))
      (fun t => ((t.booth 2).record.recovery, (t.booth 2).health, (t.booth 2).missed, (t.booth 2).ready.isSome))
      = some (1, .lost, 3, true) := by decide

theorem test_read_booth_default_record :
    seen (exec (.readBooth 4 (block 0x31 [5])) serving) (fun t => (t.port 4).trans)
      = some (.answering (some (framed [0, 5, 0xFF, 10, 2, 0, 2, 0, 0, 0, 0, 1, 0, 0, 0, 0, 12, 3]))) := by decide

/-- R35, example of chapter 2: masking S4 sends B2 to ABSENT with its picture and counts cleared, and raises BOOTH but no FEED. -/
theorem test_set_slot_mask_clears_a_booth :
    seen (exec (.setSlotMask 4 (block 0x32 [0]))
      (dropout { boothIn .lost with missed := 3, good := 1, seq := 3, candidate := some blackPicture })) boothRow
      = some (.absent, [0, 0, 0, 4, 0]) := by decide

theorem test_booth_state_of_a_live_booth :
    seen (exec (.boothState 4 (block 0x33 [2])) (dropout { boothIn .live with seq := 4, last := .good })) (fun t => (t.port 4).trans)
      = some (.answering (some (framed [0, 1, 0, 0, 0, 4, 4, 1]))) := by decide

/-- The parameters of WRITE PROFILE for P0's default record but for a crop width of 450, defined or not. -/
def profileParams (n defined : Nat) : List Byte :=
  [byteOf n] ++ be16 450 ++ be16 528 ++ [2, 3, 2] ++ be16 1656 ++ be16 762 ++ be16 48 ++ be16 762 ++ be16 0 ++ be16 0 ++ be16 0 ++
    be16 0 ++ [2, 12, 8, byteOf defined]

/-- R59: a crop width of 450 is stored as 432. -/
theorem test_write_profile_rounds_the_crop :
    seen (exec (.writeProfile 4 (block 0x38 (profileParams 7 1))) serving)
      (fun t => ((t.profile 7).cw, (t.profile 7).defined, (t.port 4).trans))
      = some (432, true, .answering (some (framed [0, 1, 0xB0, 2, 0x10]))) := by decide

/-- R61: P0 cannot be made undefined. -/
theorem test_write_profile_keeps_p0 :
    seen (exec (.writeProfile 4 (block 0x38 (profileParams 0 0))) serving) (fun t => (t.port 4).sense)
      = some ⟨.conflict, .profileZero, some 18⟩ := by decide

theorem test_read_profile_undefined :
    seen (exec (.readProfile 4 (block 0x39 [9])) serving) (fun t => (t.port 4).trans)
      = some (.answering (some (framed [0, 9, 1, 0xB0, 2, 0x10, 2, 3, 2, 6, 0x78, 2, 0xFA, 0, 48, 2, 0xFA, 0, 0, 0, 0, 0, 0, 0, 0,
          2, 12, 8, 0]))) := by decide

/-- Example of chapter 8: a crossfade to B3 of 6 steps begins; then ASSIGN BOOTH for B5 is BUSY, IN TRANSITION. -/
theorem test_assign_booth_begins_a_crossfade :
    seen (exec (.assignBooth 4 (block 0x40 [0, 3, 6])) ((scene presOn onB1 .live).setBooth 3 (boothIn .live)))
      (fun t => ((t.chan 0).assign.incoming, (t.port 4).pending.assignment)) = some (some ⟨3, 6, 0, 0⟩, 1) := by decide

theorem test_assign_booth_is_busy :
    seen (exec (.assignBooth 4 (block 0x40 [0, 5, 0])) (scene presOn { onB1 with incoming := some ⟨3, 6, 0, 0⟩ } .live))
      (fun t => ((t.port 4).sense, (t.port 4).trans))
      = some (⟨.conflict, .inTransition, some 1⟩, .answering (some (framed [3]))) := by decide

/-- Example of chapter 6: RELEASE BOOTH makes an ON presenter FALLING from 256 with m = 12. -/
theorem test_release_booth_falls :
    seen (exec (.releaseBooth 4 (block 0x41 [0])) (scene presOn onB1 .live))
      (fun t => ((t.chan 0).pres.state, (t.chan 0).pres.fade, (t.chan 0).assign.releasePending))
      = some (.falling, some ⟨false, 256, 12, 12, 0⟩, true) := by decide +kernel

/-- R171: two STUDIO roles are refused, the later parameter named. -/
theorem test_write_port_roles_duplicate :
    seen (exec (.writePortRoles 4 (block 0x48 [4, 5, 4, 6, 6, 0])) serving) (fun t => ((t.port 4).sense, t.loader.rolesPending))
      = some (⟨.conflict, .duplicateRole, some 3⟩, false) := by decide

theorem test_write_port_roles_pends :
    seen (exec (.writePortRoles 4 (block 0x48 [4, 5, 5, 6, 6, 0])) serving)
      (fun t => (t.loader.pendingRoles.map (·[0]), t.loader.rolesPending, (t.port 0).role))
      = some (some .studio, true, some (.channel 0)) := by decide

/-- R172, R174: STORE SETTINGS is not answered before the store has ended. -/
theorem test_store_settings_is_not_answered_yet :
    seen (exec (.storeSettings 4 (block 0x49 [0])) serving) (fun t => (t.port 4).trans) = some (.answering none) := by decide

theorem test_reset_unit_keeps_the_grants :
    seen (exec (.resetUnit 4 (block 0x4A [0])) serving) (fun t => (t.loader.resetPort, t.loader.grantsAtReset))
      = some (some 4, some #v[0, 0, 0, 0]) := by decide

/-- R151, test 6: the code is told in the sense info. -/
theorem test_unknown_command :
    seen (exec (.unknownCommand 0 0x7F (block 0x7F [0])) serving) (fun t => (t.port 0).sense)
      = some ⟨.illegal, .unknownCommand, some 0x7F⟩ := by decide

/-- R151, tests 2 and 3: at an IDLE port the role is judged before the framing. -/
theorem test_unknown_command_at_an_idle_port :
    seen (exec (.unknownCommand 0 0x7F { block 0x7F [0] with damaged := true })
      (serving.setPort 0 { serving.port 0 with role := some .idle })) (fun t => (t.port 0).sense)
      = some ⟨.notPermitted, .portIdle, none⟩ := by decide

/-- R151: a block with length byte 0 and check byte 0 fails on its length. -/
theorem test_bad_length_block :
    seen (exec (.badLengthBlock 0 0 false) serving) (fun t => (t.port 0).sense) = some ⟨.illegal, .badLength, some 0⟩ := by decide

/-- R150: a block over a reply is discarded, and the sense record stays. -/
theorem test_overlapped_block :
    seen (exec (.overlappedBlock 0 0x01 (block 0x01 [0]))
      (serving.setPort 0 { serving.port 0 with trans := .answering (some []), recv := .count }))
      (fun t => ((t.port 0).recv, (t.port 0).trans, (t.port 0).sense)) = some (.seek, .answering (some []), senseNone) := by decide

theorem test_block_gap_timeout :
    seen (exec (.blockGapTimeout 0) (serving.setPort 0 { serving.port 0 with recv := .count })) (fun t => (t.port 0).recv)
      = some .seek := by decide

theorem test_reply_sent_frees_the_port :
    seen (exec (.replySent 0) (serving.setPort 0 { serving.port 0 with trans := .answering (some []) }))
      (fun t => (t.port 0).trans) = some .free := by decide

/-- R148: an A5h inside a block is a byte like any other; in SEEK it begins a block. -/
theorem test_control_byte_begins_a_block :
    seen (exec (.controlByteReceived 0 0xA5 false) serving) (fun t => (t.port 0).recv) = some .count ∧
    seen (exec (.controlByteReceived 0 0xA5 false) (serving.setPort 0 { serving.port 0 with recv := .count }))
      (fun t => (t.port 0).recv) = some (.body 0xA5 [] 0 0xA5 false) := by decide

theorem test_unit_restart_drops_roles :
    seen (exec (.unitRestart .rstInput 0) serving) (fun t => (t.loader.phase, (t.port 4).role)) = some (.starting, none) := by
  decide

/-- R174: a store cut short in its body leaves a memory that does not check. -/
theorem test_unit_restart_abandons_a_store :
    seen (exec (.unitRestart .powerOn 20) { serving with loader := { serving.loader with phase := .storing 4 defaultSettings } })
      (fun t => (memoryValid t.memory, memRead t.memory 4, memRead t.memory 5)) = some (false, 0, 153) := by decide +kernel

/-- R165, R170: a blank memory starts the part on its defaults, with the configuration-defaulted flag set and START pending. -/
theorem test_start_up_on_a_blank_memory :
    seen (exec (.startUpComplete .held) State.reset)
      (fun t => (t.loader.phase, t.loader.defaulted, (t.port 4).role, (t.port 4).pending.start, t.rate))
      = some (.serving, true, some .studio, true, .f25) := by decide +kernel

/-- Section 10.5: a store into a memory that takes every byte writes marker 6B47h, version 1 and the length of a body with one
profile entry, 125 + 28 = 153. -/
theorem test_store_complete_writes_the_header :
    seen (exec (.storeComplete ⟨none, []⟩) { serving with loader := { serving.loader with phase := .storing 4 defaultSettings } })
      (fun t => (memBytes t.memory 0 6, t.loader.phase, (t.port 4).sense))
      = some ([0x6B, 0x47, 0, 1, 0, 153], .serving, senseNone) := by decide +kernel

/-- The front command goes first, and the queue keeps its rest. -/
theorem test_step_takes_the_front_command :
    seen (step { serving with pending := [.linkFrameBegin, .linkSilenceTimeout] }) (fun t => (t.pending, t.linkInFrame))
      = some ([.linkSilenceTimeout], true) := by decide

/-! ### Arithmetic, with the values of the worked examples -/

/-- Chapter 5's example: the rise of ten steps, the fall from 102 and the rise from 51 with n = 20. -/
theorem test_fade_levels :
    [1, 2, 3, 4].map (Fade.level ⟨true, 0, 10, 10, 0⟩) = [26, 51, 77, 102] ∧ fallSteps 10 102 = 4 ∧
    [1, 2, 3, 4].map (Fade.level ⟨false, 102, 10, 4, 0⟩) = [76, 51, 25, 0] ∧ riseSteps 20 51 = 17 ∧
    [1, 2, 3, 17].map (Fade.level ⟨true, 51, 20, 17, 0⟩) = [63, 75, 87, 256] := by decide

/-- Chapter 3: with full opacity and full level the weight is the edge factor, 85 at the border of a box with edge 2. -/
theorem test_weight_at_the_border : edgeFactor 216 264 2 0 5 = 85 ∧ weight 256 256 85 = 85 := by decide

/-- Chapter 4's ticker: candidate 1 shares 14,256 pixels with Z0, and candidate 3 is the first that shares none. -/
theorem test_choice_with_a_ticker :
    let p := defaultProfile true
    let z := [(⟨true, ⟨0, 960, 1920, 120⟩⟩ : Zone)]
    p.overlap z ⟨1656, 762, 2⟩ = 14256 ∧ p.choose z ⟨1656, 762, 2⟩ = (⟨1656, 762, 3⟩, false) := by decide

/-- Chapter 4's growing box: the move from (1776, 904, 3) to (1704, 816, 2) in four steps. -/
theorem test_growing_box :
    let m : Move := { origin := ⟨1776, 904, 3⟩, target := ⟨1704, 816, 2⟩, n := 4, i := 0 }
    [1, 2, 3, 4].map (fun i => (defaultProfile true).fit (m.at i))
      = [⟨1758, 882, 3⟩, ⟨1704, 816, 2⟩, ⟨1704, 816, 2⟩, ⟨1704, 816, 2⟩] := by decide

/-- Chapter 6's example: the crossfade of six steps. -/
theorem test_crossfade_progress : [1, 2, 3, 6].map (crossfadeProgress 6) = [43, 85, 128, 256] := by decide

/-- Chapter 7's example: the offset of tag 16 after the step back, beyond the horizon. -/
theorem test_signed_offset : signedOffset .f25 1440000 898500 = 541500 ∧ signedOffset .f25 900012 900021 = -9 := by decide

/-! ### Witnesses: for each statement with hypotheses, a state and operands that meet them, clause by clause -/

theorem witness_StepRunsFrontCommand : State.reset.pending = [] := rfl

theorem witness_UnitRestartStartsEveryBlockAfresh :
    RestartCause.resetReply = .resetReply ∧ RestartCause.rstInput ≠ .resetReply ∧ ∀ p k, serving.loader.phase ≠ .storing p k :=
  ⟨rfl, by decide, fun _ _ h => by cases h⟩

theorem reset_afterRestart : State.reset.AfterRestart := by decide

/-- The part STARTING with pending roles carried across RESET UNIT, after frames have locked C0's input and a block was answered
NOT READY at CP4. -/
def starting : State :=
  (({ State.reset with loader := { powerOnLoader with pendingRoles := some defaultRoles, rolesPending := true } } : State).setPath 0
    { restartPath with locked := true, prevValid := true, lastTc := some 100 }).setPort 4
    { restartPort with sense := ⟨.notReady, .starting, none⟩ }

/-- Roles pending and none; an image prepared and none. -/
theorem witness_StartUpPutsSettingsInPlace :
    starting.loader.phase = .starting ∧ starting.StartingLaws ∧ starting.loader.rolesPending = true ∧
    starting.loader.pendingRoles = some defaultRoles ∧ (starting.chan 0).path.locked = true ∧
    (starting.port 4).sense ≠ senseNone ∧ State.reset.StartingLaws ∧ State.reset.loader.rolesPending = false ∧
    (State.reset.currentProfile 0).positions.head? = some (1656, 762) := by decide

/-- State.reset with this image in the configuration memory. -/
def holding (m : List Host.Cell) : State := { State.reset with memory := m }

/-- A valid memory: what a store of the defaults leaves. -/
def storedDefaults : List Host.Cell :=
  memWriteAll (memWriteAll [] (placed 8 defaultSettings.body)) (placed 0 (headerBytes Config.validMarker defaultSettings.body))

/-- An image whose body is zeros but for its profile count: each booth record, profile entry and slew interval in it is out of
range, and every role is CHANNEL 0. -/
def zeroImage (count : Nat) : List Byte :=
  be16 0x6B47 ++ be16 1 ++ be16 (125 + 28 * count) ++ be16 count ++ List.replicate 104 0 ++ [byteOf count] ++
    List.replicate (20 + 28 * count) 0

/-- One header field at fault at a time: marker, version, length 0, length past the end, a body shorter than its entries, the sum;
then a profile count of 17 where 16 checks, and a memory that checks with every item in range and with items out of range. -/
theorem witness_InvalidMemoryGivesEveryDefault :
    State.reset.loader.phase = .starting ∧ State.reset.loader.rolesPending = false ∧ startBytes State.reset .unreadable = none ∧
    (∀ x ∈ [(0, 0), (3, 2), (5, 0), (4, 16), (5, 152), (8, 26)],
      BadImage (fun a => (memRead (memWrite storedDefaults x.1 x.2) a).toNat)) ∧
    BadImage (natAt (zeroImage 17)) ∧ ¬BadImage (natAt (zeroImage 16)) ∧
    ¬BadImage (fun a => (memRead storedDefaults a).toNat) ∧
    (∀ x ∈ [natAt (zeroImage 16), fun a => (memRead storedDefaults a).toNat],
      0 < x 112 ∧ x 113 = (0 : ProfNo) ∧ ∀ i, i < 0 → x (113 + 28 * i) ≠ (0 : ProfNo)) ∧
    (boothRanges (fun i => natAt (zeroImage 16) (16 + i))).all id = false ∧
    (boothRanges (fun i => (memRead storedDefaults (16 + i)).toNat)).all id = true ∧
    ∀ j, j < natAt (zeroImage 16) 112 → natAt (zeroImage 16) (113 + 28 * j) ≠ (15 : ProfNo) :=
  ⟨rfl, rfl, rfl, by decide +kernel, by decide +kernel, by decide +kernel, by decide +kernel, by decide +kernel,
    by decide +kernel, by decide +kernel, by decide +kernel⟩

theorem witness_LowestPortKeepsDuplicateRole :
    let v : Vector Role 6 := #v[.monitor, .studio, .studio, .monitor, .channel 0, .idle]
    v[(3 : PortNo)].plural = true ∧ v[(1 : PortNo)].plural = false ∧ v[(2 : PortNo)].plural = false ∧
    (∀ q : PortNo, q < 1 → v[q] ≠ v[(1 : PortNo)]) ∧ ((1 : PortNo) < 2 ∧ v[(1 : PortNo)] = v[(2 : PortNo)]) := by decide

/-- The part while it stores the defaults for CP4. -/
def storing : State :=
  { serving with
    loader := { serving.loader with phase := .storing 4 defaultSettings }
    ports := serving.ports.set 4 { serving.port 4 with trans := .answering none } }

theorem defaults_storable : defaultSettings.Storable := by decide +kernel

theorem witness_StoredSettingsLoadBack :
    storing.loader.phase = .storing 4 defaultSettings ∧ (storing.port 4).sense = senseNone ∧ defaultSettings.Storable ∧
    Memory.wf storing.memory = true :=
  ⟨rfl, rfl, defaults_storable, rfl⟩

/-- The first and the last byte of a body of 153 and of the header, and the first and last byte writes of each of the three steps of
a store, the last of step 4 before and after its marker among them. -/
theorem witness_FailedStoreIsReported :
    storing.loader.phase = .storing 4 defaultSettings ∧ Memory.wf storing.memory = true ∧
    defaultSettings.body.length = 153 ∧ defaultSettings.body[0]? ≠ some 0 ∧ defaultSettings.body[152]? ≠ some 1 ∧
    (be16 0x6B47)[0]? ≠ some (0 : Byte) ∧ (be16 ((defaultSettings.body.map BitVec.toNat).sum % 65536))[1]? ≠ some (0 : Byte) ∧
    ∀ n ∈ [0, 7, 8, 160, 161, 162, 163, 168], n < 16 + defaultSettings.body.length := by decide +kernel

/-- A body of 153: cut before the first byte write, after it, in the last of steps 2 and 3, in the marker of step 4, after the marker
and at the end. -/
theorem witness_AbandonedStoreLeavesInvalidMemory :
    storing.loader.phase = .storing 4 defaultSettings ∧ Memory.wf storing.memory = true ∧
    defaultSettings.body.length = 153 ∧ (1 ≤ 162 ∧ 162 ≤ 9 + 153) ∧ 8 + 153 ≤ 161 ∧ 10 + 153 ≤ 163 ∧
    seen (exec (.unitRestart .powerOn 161) storing) (fun t => memBytes t.memory 0 2) = some [0, 0] ∧
    seen (exec (.unitRestart .powerOn 162) storing) (fun t => memBytes t.memory 0 2) = some [0x6B, 0] ∧
    seen (exec (.unitRestart .powerOn 163) storing) (fun t => (memBytes t.memory 0 2, memoryValid t.memory))
      = some ([0x6B, 0x47], true) := by decide +kernel

theorem serving_studio : serving.Serves 4 .studio := by decide
theorem serving_monitor : serving.Serves 5 .monitor := by decide
theorem serving_channel (c : ChanNo) : serving.Serves ⟨c.val, by omega⟩ (.channel c) := by revert c; decide

theorem witness_StoreSettingsTakesSnapshot :
    serving.Serves 4 .studio ∧ serving.loader.phase = .serving ∧ Intact 0x49 (block 0x49 [0]) ∧
    (block 0x49 [0]).params.length = 1 := by decide

/-- Parameter 6 no role; parameter 3 the first duplicate; roles that stand. -/
theorem witness_WritePortRolesSetsPendingRoles :
    let bad := block 0x48 [0, 1, 2, 3, 4, 7]
    let twice := block 0x48 [4, 5, 4, 6, 6, 0]
    let good := block 0x48 [4, 5, 5, 6, 6, 0]
    (Intact 0x48 bad ∧ bad.params.length = 6 ∧ 6 < natAt bad.params 5 ∧ ∀ j, j < 5 → natAt bad.params j ≤ 6) ∧
    (Intact 0x48 twice ∧ twice.params.length = 6 ∧ (∀ i, i < 6 → natAt twice.params i ≤ 6) ∧ natAt twice.params 2 ≤ 4 ∧
      (∃ i, i < 2 ∧ natAt twice.params i = natAt twice.params 2) ∧
      ∀ j', j' < 2 → natAt twice.params j' ≤ 4 → ∀ i, i < j' → natAt twice.params i ≠ natAt twice.params j') ∧
    Intact 0x48 good ∧ good.params.length = 6 ∧ (∀ i, i < 6 → natAt good.params i ≤ 6) ∧
      ∀ j, j < 6 → natAt good.params j ≤ 4 → ∀ i, i < j → natAt good.params i ≠ natAt good.params j :=
  ⟨by decide, ⟨by decide, by decide, by decide, by decide, ⟨0, by decide⟩, by decide⟩, by decide, by decide, by decide, by decide⟩

theorem witness_ResetUnitRestartsAfterItsReply :
    (serving.Serves 4 .studio ∧ Intact 0x4A (block 0x4A [0]) ∧ (block 0x4A [0]).params.length = 1) ∧
    (let s := (serving.sendGood 4 []).sendGood 5 []
     let t := { s with loader := { s.loader with resetPort := some 4 } }
     (t.port 4).trans = (serving.sendGood 4 []).ports[4].trans ∧ (t.port 5).trans = (serving.sendGood 5 []).ports[5].trans ∧
       t.loader.resetPort = some 4 ∧ t.loader.resetPort ≠ some 5) := by decide

/-- C0 of the serving part with this path. -/
def withPath (p : Path) (pool : Pool) : State := withChan 0 { restartChannel with path := p, pool := pool }

/-- A path at A = 2 and T = 500, at the end of its slew interval. -/
def slewing (counter : Nat) : Path := { pathAt 500 2 with slewCounter := counter }

theorem frameStarts_freeRun (p : Path) (pool : Pool) (h : p.locked = false) :
    FrameStarts (withPath p pool) 0 (.freeRunFrameStart 0) blackInput := .freeRun rfl h

/-- The three frame starts: an arrival that locks at either end of the period and one at a LOCKED input, the expiry of an UNLOCKED
interval, a loss of lock. Then the cases of the slew: bypass, A = G, before the interval, a repeat and a drop; and the cases of the
lock state. -/
theorem witness_FrameStartFixesOutputFrame :
    (∀ gap ∈ [950, 1050], FrameStarts (withPath { restartPath with prevValid := true } restartPool) 0
      (.programmeFrameArrival 0 blackInput gap) blackInput) ∧
    FrameStarts (withPath { pathAt 500 2 with locked := true } restartPool) 0 (.programmeFrameArrival 0 blackInput 0) blackInput ∧
    FrameStarts (withPath { pathAt 500 2 with locked := true } restartPool) 0 (.lockLossTimeout 0) blackInput ∧
    FrameStarts (withPath restartPath restartPool) 0 (.freeRunFrameStart 0) blackInput ∧
    FrameStarts (withPath (slewing 4) ⟨3, 3, false⟩) 0 (.freeRunFrameStart 0) blackInput ∧
    (restartPath.bypass = true ∧ (slewing 4).bypass = false ∧ (slewing 4).line.length = 2 ∧
      (slewing 3).slewCounter + 1 < (slewing 3).slewInterval ∧ (slewing 4).slewInterval ≤ (slewing 4).slewCounter + 1 ∧
      (slewing 4).lastOut = some (blackFrame 500)) ∧ (1 : ChanNo) ≠ 0 := by
  refine ⟨?_, .arrival _ _ rfl (.inl rfl), .timeout rfl rfl rfl, .freeRun rfl rfl, .freeRun rfl rfl, by decide, by decide⟩
  intro gap h
  simp only [List.mem_cons, List.not_mem_nil, or_false] at h
  obtain rfl | rfl := h <;> exact .arrival _ _ rfl (.inr (by decide))

/-- The cases of the timecode of a frame that enters: present and valid, absent with a last timecode, absent with none; a drop with
an empty list that lowers the reservation from 2 to 1, and a frame start that lowers none. -/
theorem witness_FrameStartFixesOutputFrame_timecode :
    tcValid .f25 ⟨23, 59, 59, 24⟩ = true ∧ tcValid .f25 ⟨23, 59, 59, 25⟩ = false ∧ blackInput.timecode = none ∧
    (pathAt 2159999 0).lastTc = some 2159999 ∧ restartPath.lastTc = none ∧
    (let s := withPath (slewing 4) ⟨1, 1, false⟩
     (s.chan 0).sched.cues = [] ∧ (s.chan 0).reservation = 2 ∧
     seen (exec (.freeRunFrameStart 0) s) (fun t => max (s.chan 0).pool.granted (t.chan 0).path.line.length) = some 1) ∧
    max 3 2 = (withPath (slewing 4) ⟨3, 3, false⟩).chans[0].reservation := by decide

/-- During start-up, and after it at an UNLOCKED input that does not lock: under bypass with a valid and an invalid timecode, and
with bypass ended. -/
theorem witness_BypassPassesInputToOutput :
    State.reset.loader.phase = .starting ∧ (State.reset.chan 0).path.bypass = true ∧ (State.reset.chan 0).path.locked = false ∧
    ((State.reset.chan 0).path.prevValid && decide (950 ≤ 949 ∧ 949 ≤ 1050)) = false ∧
    (let s := withPath { pathAt 500 2 with prevValid := true } restartPool
     (s.chan 0).path.bypass = false ∧ ((s.chan 0).path.prevValid && decide (950 ≤ 1051 ∧ 1051 ≤ 1050)) = false) ∧
    tcValid .f25 ⟨23, 59, 59, 24⟩ = true ∧ tcValid .f25 ⟨24, 0, 0, 0⟩ = false := by decide

theorem witness_InvalidFrameLosesLock :
    (let s := withPath { restartPath with locked := true } restartPool
     (s.chan 0).path.locked = true ∧ (s.chan 0).path.bypass = true) ∧
    (serving.chan 0).path.locked = false ∧ State.reset.loader.phase = .starting ∧
    (let s := withPath (pathAt 500 0) restartPool
     (s.chan 0).path.bypass = false) := by decide

theorem scene_starts (x : Presenter) (a : Assign) (h : Health) : FrameStarts (scene x a h) 0 (.freeRunFrameStart 0) blackInput :=
  .freeRun rfl rfl

/-- A frame start at level 0 and one at level 256. -/
theorem witness_CompositedFrameIsSent :
    FrameStarts (scene restartPresenter onB1 .live) 0 (.freeRunFrameStart 0) blackInput ∧
    FrameStarts (scene presOn onB1 .live) 0 (.freeRunFrameStart 0) blackInput ∧
    seen (exec (.freeRunFrameStart 0) (scene restartPresenter onB1 .live)) (fun t => (t.chan 0).pres.g) = some 0 :=
  ⟨scene_starts .., scene_starts .., by decide⟩

theorem witness_SetDelayGrantsFromThePool :
    serving.Serves 0 (.channel 0) ∧
    (∀ d ∈ ([0, 150, 151, 255] : List Byte), Intact 0x28 (block 0x28 [d]) ∧ (block 0x28 [d]).params.length = 1) ∧
    natAt [150] 0 ≤ 150 ∧ 150 < natAt [151] 0 ∧ (1 : ChanNo) ≠ 0 ∧ (serving.chan 1).pool.clamped = false ∧ (5 : PortNo) ≠ 0 := by
  decide

/-- A clamped channel whose grant can rise, and one that is not clamped. -/
def clampedC3 : State := withChan 3 { restartChannel with pool := ⟨150, 30, true⟩ }

/-- Four channels that hold the whole pool, each below its target. -/
def fullPool : State := { serving with chans := Vector.replicate 4 { restartChannel with pool := ⟨150, 120, true⟩ } }

theorem witness_PassLeavesNothingToGrant :
    clampedC3.PoolLaws ∧ (clampedC3.chan 0).pool.clamped = false ∧ (clampedC3.chan 3).pool.clamped = true ∧
    (clampedC3.chan 3).pool.granted < (clampedC3.poolPass.chan 3).pool.granted ∧
    fullPool.PoolLaws ∧ (fullPool.poolPass.chan 2).pool.clamped = true := by decide

/-- The laws hold and nothing is left to grant; a step that sets one target to 0 lets the pass fill the others. While STARTING they
hold with frames come in. -/
theorem witness_EveryStepKeepsPoolLaws :
    fullPool.PoolLaws ∧ fullPool.StartingLaws ∧ fullPool.PoolSettled ∧
    seen (step { fullPool with pending := [.setDelay 0 (block 0x28 [0])] })
      (fun t => [0, 1, 2, 3].map (fun c => (t.chan c).pool)) = some [⟨0, 0, false⟩, ⟨150, 150, false⟩, ⟨150, 150, false⟩,
        ⟨150, 150, false⟩] ∧
    starting.PoolLaws ∧ starting.StartingLaws ∧ starting.PoolSettled := by decide

/-- The link frame ends: whole, broken by a gap, cut short by a new frame, silent; with a booth of no slot, one that awaits, one
whose slot was received and one whose slot was not. -/
theorem witness_LinkFrameEndAppliesSlotResults :
    LinkEnds (dropout (boothIn .live)) (.linkFrameEnd (linkFrame .picture)) (linkFrame .picture) ∧
    LinkEnds (dropout (boothIn .live)) (.linkGapTimeout []) [] ∧ LinkEnds (dropout (boothIn .live)) (.linkNewFrameStart []) [] ∧
    LinkEnds serving .linkSilenceTimeout (List.replicate 8 silentSlot) ∧
    (let s := dropout (boothIn .live)
     (s.booth 0).record.slot = none ∧ (s.booth 2).record.slot = some 4 ∧ (s.booth 2).awaiting = false) ∧
    (dropout { boothIn .live with awaiting := true }).booths[2].awaiting = true ∧
    (linkFrame .picture)[4]? = some ⟨.picture, blackPicture, (960 * 540 * 64 + 960 * 540 * 512) % 65536⟩ :=
  ⟨.whole _ rfl, .gap _ rfl rfl, .cutShort _ rfl rfl, .silence rfl rfl, by decide, by decide, by decide⟩

/-- What a slot result finds in a booth, at the boundaries of the limits: a hold limit of 1 and of 3, a recovery count of 2. -/
theorem witness_LinkFrameEndAppliesSlotResults_cases :
    [slotResult false .w10 none, slotResult true .w10 (some silentSlot), slotResult true .w10 none]
      = [.masked, .empty, .damaged] ∧
    [Health.absent, .live, .held, .lost].map (fun h => (boothIn h).health) = [.absent, .live, .held, .lost] ∧
    ({ boothIn .lost with good := 1 } : Booth).good + 1 ≥ 2 ∧ ({ boothIn .held with missed := 2 } : Booth).missed + 1 ≥ 3 := by decide

theorem witness_LinkFrameBeginEndsAwaiting :
    (serving.loader.phase.isStarting = false ∧ serving.linkInFrame = false) ∧ (dropout (boothIn .live)).linkInFrame = true ∧
    State.reset.loader.phase = .starting := by decide

/-- A black picture, and one with a sample at the bound of 255 and one above it. -/
theorem witness_SlotTestsAndLanding :
    blackPicture.ok 960 540 = true ∧ Picture.ok 960 540 ⟨⟨1023, [(0, 0)]⟩, ⟨0, []⟩, ⟨4, []⟩⟩ = true ∧
    Picture.ok 960 540 ⟨⟨255, [(960 * 540 - 1, 256)]⟩, ⟨0, []⟩, ⟨4, []⟩⟩ = true ∧
    rawAbove255 ⟨⟨255, [(960 * 540 - 1, 256)]⟩, ⟨0, []⟩, ⟨4, []⟩⟩ = true ∧ rawAbove255 ⟨⟨255, []⟩, ⟨0, []⟩, ⟨4, []⟩⟩ = false := by
  decide

theorem dropout_laws : (dropout (boothIn .live)).BoothLaws := by decide +kernel

theorem witness_EveryStepKeepsBoothLaws :
    (dropout (boothIn .live)).BoothLaws ∧ seen (step (dropout (boothIn .live))) (fun t => t.pending) = some [] :=
  ⟨dropout_laws, by decide⟩

/-- The parameters of WRITE BOOTH. -/
def boothParams (n slot width rIn rOut hold recovery : Nat) : List Byte :=
  [byteOf n, byteOf slot, byteOf width] ++ be16 512 ++ be16 512 ++ be16 rIn ++ be16 rOut ++ be16 0 ++ be16 0 ++
    [byteOf hold, byteOf recovery]

/-- The fields of the record in WRITE BOOTH or WRITE PROFILE's parameters. -/
def recordOf (l : List Byte) (k : Nat) : Nat := natAt l (1 + k)

/-- A booth number out of range; the first and the last field of the record out of range; a slot in use; and what stands. -/
theorem witness_WriteBoothReplacesRecord :
    let s := dropout (boothIn .live)
    s.Serves 4 .studio ∧
    (∀ l ∈ [boothParams 6 4 10 0 1 3 2, boothParams 2 8 10 0 1 3 2, boothParams 2 4 10 0 1 3 16,
      boothParams 3 4 10 0 1 3 2, boothParams 2 5 10 0 1 3 2, boothParams 2 4 8 0 1 3 2, boothParams 2 4 10 0 1 1 1],
      Intact 0x30 (block 0x30 l) ∧ l.length = 17) ∧
    5 < natAt (boothParams 6 4 10 0 1 3 2) 0 ∧ natAt (boothParams 2 4 10 0 1 1 1) 0 = (2 : BoothNo) ∧
    FirstFails (boothRanges (recordOf (boothParams 2 8 10 0 1 3 2))) 0 ∧
    FirstFails (boothRanges (recordOf (boothParams 2 4 10 0 1 3 16))) 9 ∧
    (let l := recordOf (boothParams 3 4 10 0 1 3 2)
     (boothRanges l).all id = true ∧ (boothOfRecord l).slot ≠ none ∧ (s.booth 2).record.slot = (boothOfRecord l).slot ∧
      ∀ o' : BoothNo, o' < 2 → o' ≠ 3 → (s.booth o').record.slot ≠ (boothOfRecord l).slot) ∧
    ∀ l ∈ [boothParams 2 4 10 0 1 1 1, boothParams 2 255 10 1022 1023 50 15], (boothRanges (recordOf l)).all id = true ∧
      ∀ o : BoothNo, o ≠ 2 → (boothOfRecord (recordOf l)).slot ≠ none →
        (s.booth o).record.slot ≠ (boothOfRecord (recordOf l)).slot := by decide +kernel

/-- The states a rewrite that keeps slot and width finds: LIVE; HELD below and at the new hold limit; LOST below and at the new
recovery count. -/
theorem witness_WriteBoothReplacesRecord_health :
    let r := boothOfRecord (recordOf (boothParams 2 4 10 0 1 2 1))
    let old := fun b => (dropout b).booth 2
    r.slot = (old (boothIn .live)).record.slot ∧ r.width = (old (boothIn .live)).record.width ∧
    (boothOfRecord (recordOf (boothParams 2 5 10 0 1 3 2))).slot ≠ (old (boothIn .live)).record.slot ∧
    (boothOfRecord (recordOf (boothParams 2 4 8 0 1 3 2))).width ≠ (old (boothIn .live)).record.width ∧
    r.hold ≠ (old (boothIn .live)).record.hold ∧ (old { boothIn .held with missed := 1 }).missed < r.hold ∧
    r.hold ≤ (old { boothIn .held with missed := 2 }).missed ∧ (old (boothIn .lost)).good < r.recovery ∧
    r.recovery ≤ (old { boothIn .lost with good := 1, candidate := some blackPicture }).good := by decide +kernel

theorem witness_ReadBoothReturnsRecord :
    serving.Serves 4 .studio ∧ serving.Serves 5 .monitor ∧
    (∀ n ∈ ([0, 5, 6, 255] : List Byte), Intact 0x31 (block 0x31 [n])) ∧ (block 0x31 [5]).params.length = 1 ∧
    natAt [5] 0 = (5 : BoothNo) ∧ 5 < natAt [6] 0 := by decide

theorem witness_BoothStateAndReadProfileReport :
    serving.Serves 4 .studio ∧ serving.Serves 5 .monitor ∧
    (∀ n ∈ ([5, 6, 15, 16] : List Byte), Intact 0x33 (block 0x33 [n]) ∧ Intact 0x39 (block 0x39 [n])) ∧
    (block 0x39 [15]).params.length = 1 ∧ natAt [5] 0 = (5 : BoothNo) ∧ 5 < natAt [6] 0 ∧ natAt [15] 0 = (15 : ProfNo) ∧
    15 < natAt [16] 0 := by decide

/-- B2 is masked by 00h; kept by 10h. -/
theorem witness_SetSlotMaskSendsBoothsAbsent :
    let s := dropout (boothIn .live)
    s.Serves 4 .studio ∧ Intact 0x32 (block 0x32 [0]) ∧ Intact 0x32 (block 0x32 [0x10]) ∧ (block 0x32 [0]).params.length = 1 ∧
    (s.booth 2).record.slot = some 4 ∧ s.slotMask.getLsbD (4 : SlotNo) = true ∧ (0x00 : Byte).getLsbD (4 : SlotNo) = false ∧
    (0x10 : Byte).getLsbD (4 : SlotNo) = true := by decide

/-- A box in the bottom right corner, at level 256 and at level 0. -/
def cornerBox (g : Nat) : FrameInput := { (scene presOn onB1 .live).frameInput 0 with g := g, box := ⟨1704, 816, 2⟩ }

theorem witness_ComposeChangesOnlyTheBox :
    blackPicture.ok 1920 1080 = true ∧ (cornerBox 256).box.x % 2 = 0 ∧ (cornerBox 256).bw % 2 = 0 ∧
    (cornerBox 256).box.x + (cornerBox 256).bw = 1920 ∧ (cornerBox 256).box.y + (cornerBox 256).bh = 1080 ∧
    (cornerBox 0).g = 0 ∧ (cornerBox 256).g ≠ 0 := by decide

theorem witness_BoxSamplesAreLegal :
    factorOk (cornerBox 256).box.f = true ∧ (cornerBox 256).g ≤ 256 ∧
    (cornerBox 256).assigned.map (fun b => b.picture.all pictureLegal) = some true ∧
    (let k := (scene presOn { onB1 with incoming := some ⟨1, 6, 6, 256⟩ } .live).frameInput 0
     k.incoming.map (fun b => (b.1.picture.all pictureLegal, b.2)) = some (true, 256)) := by decide

/-- Distances at, between and beyond the radii; the border and the inside of a box, with the widest edge; a booth with a picture and
one with none; a handover; the ends of the weights. -/
theorem witness_KeyEdgeWeightAndMix :
    (let r := { defaultBoothRecord with rIn := 10, rOut := 20 }
     r.rIn < r.rOut ∧ (522 - r.cb0) + (r.cb0 - 522) ≤ r.rIn ∧ r.rOut ≤ (532 - r.cb0) + (r.cb0 - 532) ∧
       r.rIn < (523 - r.cb0) + (r.cb0 - 523)) ∧
    (215 < 216 ∧ 263 < 264 ∧ 15 ≤ 15 ∧ min (min 215 263) (min (216 - 1 - 215) (264 - 1 - 263)) < 15 ∧
      15 ≤ min (min 15 15) (min (216 - 1 - 15) (264 - 1 - 15))) ∧
    (let k := cornerBox 256
     k.incoming = none ∧ k.assigned.map (fun b => b.picture) = some (some blackPicture) ∧ 1 % 2 ≠ 0 ∧ 214 % 2 = 0) ∧
    (let k := (scene presOn restartAssign .live).frameInput 0
     k.assigned = none ∧ k.incoming = none) ∧
    ((scene presOn { onB1 with incoming := some ⟨1, 6, 6, 256⟩ } .live).frameInput 0).incoming.map (·.2) = some 256 ∧
    (0 ≤ 256 ∧ 256 ≤ 256) := by decide

theorem witness_ChoiceIsFirstLeastOverlap : (defaultProfile true).positions ≠ [] := by decide

theorem serving_layoutLaws : serving.LayoutLaws := by decide +kernel

theorem witness_BoxLiesInPicture :
    FrameStarts serving 0 (.freeRunFrameStart 0) blackInput ∧ serving.LayoutLaws := ⟨.freeRun rfl rfl, serving_layoutLaws⟩

/-- Each case of a placement step for the default profile, whose choice is (1656, 762, 2): not visible; no choice with and without a
move; the target of the move; the shown placement; another, with move frames 8 and 0; and a move before and at its last step. -/
theorem witness_MoveTakesOneStepPerFrame :
    let p := defaultProfile true
    let away : Placement := ⟨48, 762, 2⟩
    let move := fun i => ({ origin := away, target := ⟨1656, 762, 2⟩, n := 8, i := i } : Move)
    let pl := { restartPlace with visBefore := true, replace := true }
    (p.choose pl.zones.toList pl.chosen).1 = ⟨1656, 762, 2⟩ ∧ restartPlace.visBefore = false ∧ restartPlace.replace = false ∧
    pl.shown = ⟨1656, 762, 2⟩ ∧ pl.move = none ∧ (move 6).i + 1 < (move 6).n ∧ (move 7).n ≤ (move 7).i + 1 ∧
    (move 6).target = (p.choose pl.zones.toList pl.chosen).1 ∧ away ≠ pl.shown ∧ 0 < p.move ∧ ({ p with move := 0 } : Profile).move = 0 ∧
    FrameStarts (scene presOn onB1 .live) 0 (.freeRunFrameStart 0) blackInput ∧
    ((scene presOn onB1 .live).chan 0).sched.cues = [] :=
  ⟨by decide, rfl, rfl, rfl, rfl, by decide, by decide, by decide, by decide, by decide, rfl, scene_starts .., rfl⟩

/-- Profile 16; a crop width and an edge out of range; P0 undefined; P0 defined; P7 undefined. -/
theorem witness_WriteProfileReplacesRecord :
    serving.Serves 4 .studio ∧
    (∀ l ∈ [profileParams 16 1, profileParams 0 0, profileParams 0 1, profileParams 7 0, (profileParams 7 1).set 24 16,
      (profileParams 7 1).set 1 4],
      Intact 0x38 (block 0x38 l) ∧ l.length = 28) ∧
    15 < natAt (profileParams 16 1) 0 ∧ natAt (profileParams 7 0) 0 = (7 : ProfNo) ∧
    FirstFails (profileRanges (recordOf ((profileParams 7 1).set 1 4))) 0 ∧
    FirstFails (profileRanges (recordOf ((profileParams 7 1).set 24 16))) 13 ∧
    (profileRanges (recordOf (profileParams 0 0))).all id = true ∧ decide (recordOf (profileParams 0 0) 26 % 2 = 1) = false ∧
    (profileRanges (recordOf (profileParams 0 1))).all id = true ∧ decide (recordOf (profileParams 0 1) 26 % 2 = 1) = true := by
  decide +kernel

theorem witness_EveryStepKeepsLayoutLaws : serving.LayoutLaws ∧ seen (step serving) (fun t => t.pending) = some [] :=
  ⟨serving_layoutLaws, by decide⟩

theorem witness_FadeArithmetic : (250 ≤ 250 ∧ 256 ≤ 256) ∧ (0 < 256 ∧ 249 < riseSteps 250 0) ∧ (0 < 256 ∧ 249 < fallSteps 250 256) := by
  decide

/-- The list of the scene's C0 is empty, and its booth B1 is usable while LIVE or HELD. -/
theorem scene_facts (x : Presenter) (a : Assign) :
    ((scene x a .held).chan 0).sched.cues = [] ∧ ((scene x a .held).booth 1).health.usable = true := ⟨rfl, rfl⟩

/-- The presenters of the clauses: a rise and a fall before and at the last step, a fall to reverse, a wait, OFF and ON. -/
theorem witness_FadeTakesOneStepPerFrame :
    let rise := fun i => { presOn with state := .rising, g := 102, fade := some ⟨true, 0, 10, 10, i⟩ }
    let fall := fun i w => { presOn with state := .falling, g := 76, intent := w, fade := some ⟨false, 102, 10, 4, i⟩ }
    let wait := { restartPresenter with state := .waitFeed, intent := true }
    (∀ x ∈ [rise 4, rise 9, fall 2 false, fall 3 false, fall 3 true, wait, restartPresenter, presOn],
      ((scene x onB1 .held).chan 0).sched.cues = [] ∧ ((scene x onB1 .held).booth 1).health.usable = true ∧
      ((scene x onB1 .held).chan 0).assign = { assigned := some 1, incoming := none, releasePending := false }) ∧
    FrameStarts (scene (rise 9) onB1 .held) 0 (.freeRunFrameStart 0) blackInput ∧
    ((scene (fall 3 true) { onB1 with releasePending := true } .held).chan 0).assign
      = { assigned := some 1, incoming := none, releasePending := true } :=
  ⟨by decide, scene_starts .., rfl⟩

/-- Each state of a presenter under each loss mode, with a booth that is LOST, one that is ABSENT and none, with and without a
release pending; the fades before and at their last step. -/
theorem witness_LossModesReactAtTheFrameStart :
    let rise := fun i => { presOn with state := .rising, g := 102, fade := some ⟨true, 0, 10, 10, i⟩ }
    let fall := fun i => { presOn with state := .falling, g := 76, fade := some ⟨false, 102, 10, 4, i⟩ }
    let wait := { restartPresenter with state := .waitFeed, intent := true }
    (∀ x ∈ [presOn, rise 4, rise 9, fall 2, fall 3, wait, restartPresenter], ∀ m ∈ [LossMode.holdFade, .cut, .freeze],
      ∀ a ∈ [none, some (1 : BoothNo)], ∀ r ∈ [false, true], ∀ h ∈ [Health.lost, .absent],
      let s := scene { x with loss := m } { assigned := a, incoming := none, releasePending := r } h
      (s.chan 0).sched.cues = [] ∧ (s.chan 0).assign = { assigned := a, incoming := none, releasePending := r } ∧
      (s.booth 1).health = h ∧ (s.chan 0).pres.state = x.state ∧ (s.chan 0).pres.loss = m) ∧
    FrameStarts (scene presOn onB1 .lost) 0 (.freeRunFrameStart 0) blackInput := ⟨by decide +kernel, scene_starts ..⟩

/-- A crossfade of 6 steps to B3 and a cut, under each visible state: the incoming booth usable or not, the assigned booth usable or
not, the last step. -/
theorem witness_HandoverStepTakesFourCases :
    let rise := { presOn with state := .rising, g := 102, fade := some ⟨true, 0, 10, 10, 9⟩ }
    let fall := { presOn with state := .falling, intent := false, g := 26, fade := some ⟨false, 102, 10, 4, 3⟩ }
    (∀ x ∈ [presOn, rise, fall], ∀ inc ∈ [(⟨3, 6, 0, 0⟩ : Incoming), ⟨3, 6, 5, 213⟩, ⟨3, 0, 0, 0⟩], ∀ h ∈ [Health.live, .lost, .absent],
      let s := (scene x { onB1 with incoming := some inc } h).setBooth 3 (boothIn .live)
      (s.chan 0).sched.cues = [] ∧ (s.chan 0).assign = { assigned := some 1, incoming := some inc, releasePending := false } ∧
      ((s.chan 0).pres.state = .rising ∨ (s.chan 0).pres.state = .on ∨ (s.chan 0).pres.state = .falling) ∧
      (s.booth 3).health = .live ∧ (s.booth 1).health = h ∧ ((scene x { onB1 with incoming := some inc } h).booth 3).health = .absent) ∧
    FrameStarts ((scene fall { onB1 with incoming := some ⟨3, 6, 0, 0⟩ } .live).setBooth 3 (boothIn .live)) 0
      (.freeRunFrameStart 0) blackInput :=
  ⟨by decide +kernel, .freeRun rfl rfl⟩

/-- R113: at the last step of a fall the visibility report completes the crossfade to B3, which the CHANNEL port is told. -/
theorem test_frame_start_report_completes_a_crossfade :
    let fall := { presOn with state := .falling, intent := false, g := 26, fade := some ⟨false, 102, 10, 4, 3⟩ }
    seen (exec (.freeRunFrameStart 0)
      ((scene fall { onB1 with incoming := some ⟨3, 6, 0, 0⟩ } .live).setBooth 3 (boothIn .live)))
      (fun t => ((t.chan 0).pres.state, (t.chan 0).assign, (t.port 0).pending.assignment))
      = some (.off, { assigned := some 3, incoming := none, releasePending := false }, 1) := by decide

theorem witness_EveryStepKeepsAirLaws :
    (scene presOn onB1 .live).AirLaws ∧ seen (step (scene presOn onB1 .live)) (fun t => t.pending) = some [] := by decide

/-- 0, 1, 255 and 256 for the slew interval; 250 and 251 for the late limit; each loss mode and 3. -/
theorem witness_ChannelSettingCommands :
    serving.Serves 0 (.channel 0) ∧
    (∀ n ∈ [0, 1, 255, 256], Intact 0x29 (block 0x29 (be16 n)) ∧ (be16 n).length = 2 ∧
      256 * natAt (be16 n) 0 + natAt (be16 n) 1 = n) ∧
    (∀ n ∈ ([250, 251] : List Byte), Intact 0x17 (block 0x17 [n])) ∧
    (∀ n ∈ ([0, 1, 2, 3] : List Byte), Intact 0x20 (block 0x20 [n])) ∧ natAt [250] 0 ≤ 250 ∧ 250 < natAt [251] 0 ∧
    natAt [2] 0 = 2 ∧ 2 < natAt [3] 0 := by decide

/-- With a crossfade that CLEAR CHANNEL completes: the STUDIO and MONITOR ports are told, C1's port is not. -/
theorem witness_ClearChannelQuietsTheChannel :
    let s := scene presOn { onB1 with incoming := some ⟨3, 6, 0, 0⟩ } .live
    s.Serves 0 (.channel 0) ∧ Intact 0x21 (block 0x21 [0]) ∧ (block 0x21 [0]).params.length = 1 ∧ (1 : ChanNo) ≠ 0 ∧
    seen (exec (.clearChannel 0 (block 0x21 [0])) s)
      (fun t => [1, 4, 5].map (fun q => (t.port q).pending.assignment)) = some [0, 1, 1] := by decide

/-- Channel 4, booth 6, crossfade 101; and a block within every range. -/
theorem witness_AssignBoothByTheTable :
    serving.Serves 4 .studio ∧
    (∀ l ∈ ([[4, 0, 0], [3, 6, 0], [3, 5, 101], [3, 5, 100]] : List (List Byte)), Intact 0x40 (block 0x40 l) ∧ l.length = 3) ∧
    3 < natAt [4, 0, 0] 0 ∧ 5 < natAt [3, 6, 0] 1 ∧ 100 < natAt [3, 5, 101] 2 ∧ natAt [3, 5, 100] 0 = (3 : ChanNo) ∧
    natAt [3, 5, 100] 1 = (5 : BoothNo) ∧ natAt [3, 5, 100] 2 ≤ 100 := by decide

theorem witness_ReleaseBoothByWhatItFinds :
    serving.Serves 4 .studio ∧ Intact 0x41 (block 0x41 [4]) ∧ Intact 0x41 (block 0x41 [3]) ∧ (block 0x41 [3]).params.length = 1 ∧
    3 < natAt [4] 0 ∧ natAt [3] 0 = (3 : ChanNo) := by decide

/-- The parameters of an ADD CUES of MARK cues, and the stage each block below comes to at `scheduleStart`. -/
def marks (l : List (Nat × Sys2Proof.Timecode)) : List Byte :=
  byteOf l.length :: l.flatMap (fun q => cueBytes q.1 q.2 6 0 0 255)

/-- No record and five records; tag 0 in record 2, and a fade of 1 for a MARK, its last field; a due beyond the horizon in record 2; a
tag twice; a due past the late limit; and a block that stands, with one cue at the horizon and one at the late limit. -/
theorem witness_AddCuesStagesInOrder :
    let record := fun (l : List (Nat × Sys2Proof.Timecode)) (i k : Nat) => natAt (marks l) (1 + 16 * i + k)
    let ahead := fun l => (List.range 2).map (fun i =>
      signedOffset .f25 ((rawCueAt (marks l) (1 + 16 * i)).cue .f25).due 900010)
    let valid := fun l => (List.range 2).all (fun i => (cueRanges .f25 (record l i)).all id)
    let a : Sys2Proof.Timecode := ⟨10, 0, 0, 10⟩
    scheduleStart.Serves 1 (.channel 1) ∧
    (Intact 0x10 (block 0x10 (marks [])) ∧ natAt (marks []) 0 = 0 ∧
      natAt ([5] ++ List.replicate 64 0 : List Byte) 0 = 5 ∧ ([5] ++ List.replicate 64 0 : List Byte).length ≤ 69) ∧
    (∀ l ∈ [[(1, a), (0, a)], [(1, a), (2, ⟨16, 0, 0, 11⟩)], [(1, a), (1, a)], [(1, a), (2, ⟨10, 0, 0, 7⟩)],
        [(1, ⟨16, 0, 0, 10⟩), (2, ⟨10, 0, 0, 8⟩)]],
      Intact 0x10 (block 0x10 (marks l)) ∧ (marks l).length = 1 + 16 * natAt (marks l) 0 ∧ natAt (marks l) 0 = 2) ∧
    ((cueRanges .f25 (record [(1, a), (0, a)] 0)).all id = true ∧ FirstFails (cueRanges .f25 (record [(1, a), (0, a)] 1)) 0) ∧
    FirstFails (cueRanges .f25 (natAt (cueBytes 1 a 6 0 0 1))) 12 ∧
    (valid [(1, a), (2, ⟨16, 0, 0, 11⟩)] = true ∧ ahead [(1, a), (2, ⟨16, 0, 0, 11⟩)] = [0, 540001]) ∧
    (valid [(1, a), (1, a)] = true ∧ ahead [(1, a), (1, a)] = [0, 0]) ∧
    (valid [(1, a), (2, ⟨10, 0, 0, 7⟩)] = true ∧ ahead [(1, a), (2, ⟨10, 0, 0, 7⟩)] = [0, -3]) ∧
    valid [(1, ⟨16, 0, 0, 10⟩), (2, ⟨10, 0, 0, 8⟩)] = true ∧ ahead [(1, ⟨16, 0, 0, 10⟩), (2, ⟨10, 0, 0, 8⟩)] = [540000, -2] := by
  decide +kernel

/-- The list that has room for no cue, and the list that has room for two. -/
theorem witness_AddCuesStagesInOrder_room :
    32 < (List.range 31).length + 2 ∧ (List.range 30).length + 2 ≤ 32 ∧ (scheduleStart.chan 1).sched.lateLimit = 2 := by decide

theorem witness_DropAndFlushRemoveCues :
    let s := listed [markCue 21 502, markCue 22 504] []
    s.Serves 0 (.channel 0) ∧
    (∀ l ∈ ([[0, 0], [0, 22], [0, 23]] : List (List Byte)), Intact 0x11 (block 0x11 l) ∧ l.length = 2) ∧
    256 * natAt [0, 0] 0 + natAt [0, 0] 1 = 0 ∧ (∀ q ∈ (s.chan 0).sched.cues, q.tag ≠ 23) ∧
    (s.chan 0).sched.cues = [markCue 21 502] ++ markCue 22 504 :: [] ∧ (markCue 22 504).tag = 22 ∧
    (∀ r ∈ [markCue 21 502], r.tag ≠ 22) ∧ Intact 0x12 (block 0x12 [0]) ∧ (block 0x12 [0]).params.length = 1 := by decide

theorem witness_ListFindAndReadOutcomes :
    let s := listed [markCue 21 502, markCue 22 504] []
    s.Serves 0 (.channel 0) ∧ s.Serves 5 .monitor ∧
    (∀ l ∈ ([[1, 4], [32, 0], [0, 1], [33, 1], [1, 5]] : List (List Byte)), Intact 0x13 (block 0x13 l) ∧ l.length = 2) ∧
    (∀ l ∈ ([[0, 1, 4], [4, 1, 4]] : List (List Byte)), Intact 0x13 (block 0x13 l) ∧ l.length = 3) ∧
    natAt [0, 1, 4] 0 = (0 : ChanNo) ∧ 3 < natAt [4, 1, 4] 0 ∧
    (∀ l ∈ ([[6, 255, 0], [255, 6, 1], [7, 0, 0], [254, 0, 0], [6, 7, 0]] : List (List Byte)),
      Intact 0x14 (block 0x14 l) ∧ l.length = 3) ∧
    (s.chan 0).sched.cues = [] ++ markCue 21 502 :: [markCue 22 504] ∧ (markCue 21 502).action.kind = 6 ∧
    (markCue 21 502).guard.toByte.toNat ≠ 6 ∧ Intact 0x16 (block 0x16 [0]) ∧ (block 0x16 [0]).params.length = 1 := by decide

/-- TAKE NOW's ten bytes for an action with no window. -/
def takeBytes (kind param guard fade : Nat) : List Byte :=
  [byteOf kind, byteOf param, 0, 0, 0, 0, 0, 0, byteOf guard, byteOf fade]

/-- A fault in the kind, the first field, and in the fade, the last; a false guard; and with a true guard each action at the bound of
its operand, a defined and an undefined profile among them. -/
theorem witness_TakeNowActsAtOnce :
    let zone : List Byte := [3, 5] ++ pack12 1919 1920 ++ pack12 1079 1080 ++ [0, 0xFF]
    serving.Serves 0 (.channel 0) ∧
    (∀ l ∈ [takeBytes 7 0 0 255, takeBytes 6 0 0 0, takeBytes 6 0 4 255, takeBytes 6 0 0 255, zone, takeBytes 4 5 0 255,
      takeBytes 2 0 0 255, takeBytes 2 15 0 255, takeBytes 5 150 0 255], Intact 0x15 (block 0x15 l) ∧ l.length = 10) ∧
    FirstFails (actionRanges (natAt (takeBytes 7 0 0 255))) 0 ∧ FirstFails (actionRanges (natAt (takeBytes 6 0 0 0))) 7 ∧
    (∀ l ∈ [takeBytes 6 0 4 255, takeBytes 6 0 0 255, zone, takeBytes 4 5 0 255, takeBytes 2 0 0 255, takeBytes 2 15 0 255,
      takeBytes 5 150 0 255], (actionRanges (natAt l)).all id = true) ∧
    guardList[natAt (takeBytes 6 0 4 255) 8]? = some .visible ∧ serving.guardHolds 0 .visible = false ∧
    guardList[natAt zone 8]? = some .always ∧ serving.guardHolds 0 .always = true ∧
    natAt zone 0 = 3 ∧ natAt zone 1 = (5 : ZoneNo) ∧ windowOfRecord (fun k => natAt zone (2 + k)) = ⟨1919, 1079, 1920, 1080⟩ ∧
    natAt (takeBytes 2 15 0 255) 1 = (15 : ProfNo) ∧ (serving.profile 15).defined = false ∧ (serving.profile 0).defined = true ∧
    natAt (takeBytes 5 150 0 255) 0 = 5 := by decide +kernel

theorem witness_TakeNowPresenterActions :
    serving.Serves 0 (.channel 0) ∧
    (∀ l ∈ [takeBytes 0 0 0 255, takeBytes 0 0 0 250, takeBytes 1 0 0 255], Intact 0x15 (block 0x15 l) ∧ l.length = 10 ∧
      (actionRanges (natAt l)).all id = true ∧ guardList[natAt l 8]? = some .always) ∧
    serving.guardHolds 0 .always = true ∧ natAt (takeBytes 0 0 0 255) 0 = 0 ∧ natAt (takeBytes 1 0 0 255) 0 = 1 := by decide

/-- A list with a cue before T, one at T, ones 1 and D/4 + 1 frames ahead and one stranded a frame further. -/
theorem witness_DispatchLeavesCuesAhead :
    let s := listed [markCue 20 499, markCue 21 501, markCue 22 502, markCue 23 540502, markCue 24 540503] []
    FrameStarts s 0 (.freeRunFrameStart 0) blackInput ∧
    seen (exec (.freeRunFrameStart 0) s) (fun t => (t.chan 0).sched.cues.map (fun q => (q.tag, t.offset 0 q)))
      = some [(22, 1), (23, 540001)] :=
  ⟨.freeRun rfl rfl, by decide⟩

/-- A cue past the late limit, one late by the limit, one due at T, one that stays and one stranded: their outcomes go behind a ring
with room for two of them, and the rest are lost. -/
theorem witness_DueCueHasOneOutcome :
    let s := listed [markCue 19 475, markCue 20 476, { markCue 21 501 with guard := .visible }, markCue 22 502, markCue 24 540503]
      (List.replicate 14 ⟨1, .done, 400, 0⟩)
    FrameStarts s 0 (.freeRunFrameStart 0) blackInput ∧
    seen (exec (.freeRunFrameStart 0) s) (fun t => ((t.chan 0).sched.ring.drop 14, (t.chan 0).sched.lost, (t.port 0).pending.outcome))
      = some ([⟨19, .missed, 501, 26⟩, ⟨20, .done, 501, 25⟩], true, 1) :=
  ⟨.freeRun rfl rfl, by decide⟩

/-- Each action due alone, with its outcome DONE, or FAILED for an undefined profile, or SKIPPED on a false guard. -/
theorem witness_DueCueHasOneOutcome_actions :
    let one := fun q : Cue => (scene presOn onB1 .live).setCues 0 [q]
    let done := fun (a : Action) (g : Guard) => seen (exec (.freeRunFrameStart 0) (one { markCue 21 501 with action := a, guard := g }))
      (fun t => (t.chan 0).sched.ring.map (·.outcome))
    (∀ a ∈ [Action.setZone 5 ⟨1919, 1079, 1920, 1080⟩, .clearZone 5, .selectProfile 0, .setDelay 150, .presenterOn, .presenterOff,
      .mark], done a .always = some [.done] ∧ done a .notVisible = some [.skipped]) ∧
    done (.selectProfile 15) .always = some [.failed] ∧ FrameStarts (one (markCue 21 501)) 0 (.freeRunFrameStart 0) blackInput ∧
    ((one (markCue 21 501)).chan 0).pres.g = 256 ∧ (one (markCue 21 501)).feedUsable 0 = true ∧
    ((one (markCue 21 501)).chan 0).path.line.length = ((one (markCue 21 501)).chan 0).pool.granted :=
  ⟨by decide, by decide, .freeRun rfl rfl, rfl, by decide, rfl⟩

theorem listed_cueLaws : (listed [markCue 21 502, markCue 22 504] [⟨20, .done, 500, 0⟩]).CueLaws := by decide

theorem witness_EveryStepKeepsCueLaws :
    (listed [markCue 21 502, markCue 22 504] [⟨20, .done, 500, 0⟩]).CueLaws ∧
    seen (step (listed [markCue 21 502, markCue 22 504] [⟨20, .done, 500, 0⟩])) (fun t => t.pending) = some [] :=
  ⟨listed_cueLaws, by decide⟩

/-- FREE ports during start-up and after it; a code that no command has; every early test passed with a command its role may not
issue and with one of a wrong length; each early test failed; and the lengths 1, 2, 70, 71 and 255. -/
theorem witness_BlockTestsInOrder :
    (serving.port 0).trans = .free ∧ (State.reset.port 0).trans = .free ∧ Command.ofCode 0x7F = none ∧
    State.reset.loader.phase = .starting ∧ serving.loader.phase ≠ .starting ∧ (serving.port 0).role.getD .idle ≠ .idle ∧
    (State.reset.port 0).role.getD .idle = .idle ∧ (block 0x30 [0]).damaged = false ∧
    (tailBlock 0x30 (block 0x30 [0])).sum = 0 ∧ (tailBlock 0x30 { block 0x30 [0] with check := 0 }).sum ≠ 0 ∧
    (0x30 : Byte) = Command.writeBooth.code ∧ mayIssue .writeBooth (.channel 0) = false ∧ mayIssue .writeBooth .studio = true ∧
    formLength .writeBooth .studio [0] = some 18 ∧
    ([0, 1, 69, 70, 254].map (fun n => (List.replicate n (0 : Byte)).length + 1)) = [1, 2, 70, 71, 255] := by
  decide +kernel

theorem witness_RefusedBlockHasNotActed :
    (serving.port 0).trans = .free ∧
    (seen (exec (Command.setDelay.instr 0 (block 0x28 [151])) serving) (fun t => (t.port 0).sense)).any (· != senseNone) = true := by
  decide

theorem witness_OverlapAndGapDiscard :
    (let s := serving.sendGood 0 []
     (s.port 0).trans = .answering (some (framed [0]))) ∧ (serving.port 0).trans = .free ∧ (storing.port 4).trans = .answering none ∧
    serving.loader.phase.isStarting = false := by decide

/-- The longest block, with no framing fault and with one in its last byte, a command's code and a code of none, and an A5h with no
stop bit. -/
theorem witness_BytesReceivedMakeABlock :
    (serving.port 0).recv = .seek ∧ (List.replicate 254 (0 : Byte)).length ≤ 254 ∧
    (List.replicate 256 false ++ [true]).length = (List.replicate 254 (0 : Byte)).length + 3 ∧
    (List.replicate 256 false ++ [true]).any id = true ∧ (List.replicate 4 false).any id = (block 0x01 [0]).damaged ∧
    (List.replicate 4 false).length = (block 0x01 [0]).params.length + 3 ∧
    (0x01 : Byte) = Command.identify.code ∧ Command.ofCode 0x7F = none ∧ (0x5A : Byte) ≠ 0xA5 := by decide +kernel

theorem witness_PortReportsChangeNothing :
    serving.Serves 0 (.channel 0) ∧ serving.Serves 4 .studio ∧ serving.Serves 5 .monitor ∧
    (∀ k ∈ ([0x01, 0x02, 0x05] : List Byte), ∀ n ∈ ([0, 3, 4] : List Byte), Intact k (block k [n])) ∧
    (block 0x05 [3]).params.length = 1 ∧ natAt [3] 0 = (3 : ChanNo) ∧ 3 < natAt [4] 0 := by decide

theorem witness_NoticeCommands :
    serving.Serves 0 (.channel 0) ∧ Intact 0x03 (block 0x03 [0]) ∧ (block 0x03 [0]).params.length = 1 ∧
    Intact 0x04 (block 0x04 [0, 0xFE]) ∧ Intact 0x04 (block 0x04 [1, 0]) ∧ (block 0x04 [1, 0]).params.length = 2 ∧
    natAt [0, 0xFE] 0 = 0 ∧ natAt [1, 0] 0 ≠ 0 := by decide

theorem witness_EveryStepKeepsPortLaws :
    storing.PortLaws ∧ seen (step storing) (fun t => t.pending) = some [] ∧ State.reset.PortLaws :=
  ⟨⟨by decide, by decide, rfl, rfl, rfl⟩, by decide, ⟨by decide, by decide, trivial⟩⟩

theorem witness_EveryStepKeepsMemoryForm :
    Memory.wf storedDefaults = true ∧ seen (step (holding storedDefaults)) (fun t => t.pending) = some [] := by decide +kernel

end Sys2Proof.Tests
end

