-- ==== Sys2Proof/Proofs/ReadBooth.lean ====
section
/-!
PROOF. READ BOOTH (R28).
-/
namespace Sys2Proof.Machine

/-- A booth's number names the booth. -/
@[simp] theorem boothOf_val (n : BoothNo) : boothOf n.val = some n := dif_pos n.isLt

/-- A number above 5 names no booth. -/
theorem boothOf_eq_none {n : Nat} (h : 5 < n) : boothOf n = none := dif_neg (by omega)

/-- READ BOOTH's row in the table of R155. -/
theorem mayIssue_readBooth (r : Role) : mayIssue .readBooth r = true ↔ r = .studio ∨ r = .monitor := by
  cases r <;> simp [mayIssue]

/-- The width byte of a booth record counts bits (R179). -/
theorem Width.toByte_eq (w : Width) : w.toByte = if w = .w8 then 8 else 10 := by cases w <;> rfl

theorem actReadBooth_booth {prm : List Byte} {n : BoothNo} (h : natAt prm 0 = n) (s : State) :
    actReadBooth s prm = (s, .ok (byteOf n :: (s.booth n).record.bytes)) := by simp [actReadBooth, h]

theorem actReadBooth_outOfRange {prm : List Byte} (h : 5 < natAt prm 0) (s : State) :
    actReadBooth s prm = (s, .illegal 1) := by simp [actReadBooth, boothOf_eq_none h]

/-- A READ BOOTH sent whole by a port of a role that may issue it passes the eight tests of R151, and its owner answers it. -/
theorem exec_readBooth {s : State} {p : PortNo} {role : Role} {b : Tail} (hrole : role = .studio ∨ role = .monitor)
    (hs : s.Serves p role) (hb : Intact 0x31 b) (hlen : b.params.length = 1) :
    let u := actReadBooth (s.setPort p (s.port p).accept) b.params
    exec (.readBooth p b) s = .next (u.1.answer p u.2) := by
  have hidle : role ≠ .idle := by rintro rfl; simp at hrole
  have hform : ∀ n, formLength .readBooth role b.params = some n → n = b.params.length + 1 := by
    intro n hn
    cases hn
    rw [hlen]
  exact (exec_instr .readBooth p b s).trans (congrArg _ (blockCompletes_command (k := .readBooth) hs hidle hb (by omega) (by omega)
    ((mayIssue_readBooth role).mpr hrole) hform))

end Sys2Proof.Machine

namespace Sys2Proof.Proofs
open Sys2Proof.Machine

/-- Settles O25: the owner's answer in each of its two cases, given on a state that differs from `s` at port `p` alone. -/
theorem readBoothReturnsRecord : Obligations.ReadBoothReturnsRecord := by
  refine ⟨mayIssue_readBooth, fun s p role b hrole hs hb hlen => ⟨fun n hn => ?record, fun hn => ?refused⟩⟩
  case record =>
    rw [exec_readBooth hrole hs hb hlen, actReadBooth_booth hn, Answer.ok, answer_good, State.booth_setPort, BoothRecord.bytes,
      Width.toByte_eq]
    rfl
  case refused =>
    rw [exec_readBooth hrole hs hb hlen, actReadBooth_outOfRange hn, Answer.illegal, answer_check]
    rfl

end Sys2Proof.Proofs
end

