-- ==== Sys2Proof/Proofs/FadeArithmetic.lean ====
section
/-!
PROOF. The arithmetic of a rise and of a fall (R86, R87).
-/
namespace Sys2Proof.Machine

/-! ### Step counts at the ends of the scale -/

/-- The step count of R86, with the ceiling as the floor that the spec's conventions give for it. -/
theorem riseSteps_eq (n g0 : Nat) : riseSteps n g0 = max 1 ((n * (256 - g0) + 255) / 256) := by
  simp [riseSteps, ceilDiv, Config.whole]

/-- The step count of R87, with the ceiling as a floor. -/
theorem fallSteps_eq (n g0 : Nat) : fallSteps n g0 = max 1 ((n * g0 + 255) / 256) := by
  simp [fallSteps, ceilDiv, Config.whole]

@[simp] theorem riseSteps_whole (n : Nat) : riseSteps n 256 = 1 := by simp [riseSteps_eq]

@[simp] theorem riseSteps_length_zero (g0 : Nat) : riseSteps 0 g0 = 1 := by simp [riseSteps_eq]

theorem riseSteps_from_zero {n : Nat} (hn : 1 ≤ n) : riseSteps n 0 = n := by rw [riseSteps_eq]; omega

@[simp] theorem fallSteps_zero (n : Nat) : fallSteps n 0 = 1 := by simp [fallSteps_eq]

theorem fallSteps_from_whole {n : Nat} (hn : 1 ≤ n) : fallSteps n 256 = n := by rw [fallSteps_eq]; omega

/-! ### The level of each step -/

section Rise
variable {f : Fade} (hr : f.rise = true)
include hr

theorem level_rise_eq (i : Nat) : f.level i = f.g0 + roundDiv ((256 - f.g0) * i) f.m := if_pos hr

/-- The last step of a rise lands on the whole. -/
theorem level_rise_last (hg : f.g0 ≤ 256) (hm : 0 < f.m) : f.level f.m = 256 := by
  rw [level_rise_eq hr, roundDiv_mul _ _ hm, Nat.add_sub_cancel' hg]

/-- A rise with no more steps than levels to pass gains a level at each step. -/
theorem level_rise_succ (hm : 0 < f.m) (hle : f.m ≤ 256 - f.g0) (i : Nat) : f.level i + 1 ≤ f.level (i + 1) := by
  rw [level_rise_eq hr, level_rise_eq hr, Nat.add_assoc, Nat.mul_succ]
  exact Nat.add_le_add_left (roundDiv_succ_le hm (Nat.add_le_add_left hle _)) _

end Rise

section Fall
variable {f : Fade} (hr : f.rise = false)
include hr

theorem level_fall_eq (i : Nat) : f.level i = f.g0 - roundDiv (f.g0 * i) f.m := if_neg (by simp [hr])

/-- The last step of a fall lands on 0. -/
theorem level_fall_last (hm : 0 < f.m) : f.level f.m = 0 := by
  rw [level_fall_eq hr, roundDiv_mul _ _ hm, Nat.sub_self]

/-- A fall with no more steps than levels to pass loses a level at each step: the part taken off grows by one and is still no more
than the start. -/
theorem level_fall_succ (hle : f.m ≤ f.g0) {i : Nat} (hi : i < f.m) : f.level (i + 1) + 1 ≤ f.level i := by
  have hm : 0 < f.m := Nat.zero_lt_of_lt hi
  have grows : roundDiv (f.g0 * i) f.m + 1 ≤ roundDiv (f.g0 * (i + 1)) f.m :=
    roundDiv_succ_le hm (Nat.add_le_add_left hle _)
  have within : roundDiv (f.g0 * (i + 1)) f.m ≤ f.g0 := roundDiv_le hm (Nat.mul_le_mul_left _ hi)
  rw [level_fall_eq hr, level_fall_eq hr]
  omega

end Fall

end Sys2Proof.Machine

namespace Sys2Proof.Proofs
open Sys2Proof.Machine

/-- Settles O36: n is at most 250, so neither fade has more steps than levels to pass, and so each step moves the level. -/
theorem fadeArithmetic : Obligations.FadeArithmetic := by
  intro n g0 i hn hg
  have hn' : n ≤ 256 := by omega
  refine ⟨?rise, ?fall⟩
  case rise =>
    intro m f
    have hm : 0 < m := riseSteps_pos n g0
    have few (h : g0 < 256) : m ≤ 256 - g0 := riseSteps_le hn' h
    have shown : f.level i = g0 + (2 * (256 - g0) * i + m) / (2 * m) := by
      rw [level_rise_eq rfl, roundDiv, ← Nat.mul_assoc]
    have reversed : g0 = 256 → m = 1 := by rintro rfl; exact riseSteps_whole n
    have full : g0 = 0 → 1 ≤ n → m = n := by rintro rfl; exact riseSteps_from_zero
    have cut : n = 0 → m = 1 := by rintro rfl; exact riseSteps_length_zero g0
    exact ⟨riseSteps_eq n g0, few, level_rise_last rfl hg hm, shown, fun h _ => level_rise_succ rfl hm (few h) i,
      level_le (f := f) hg hm, reversed, full, cut⟩
  case fall =>
    intro m f
    have hm : 0 < m := fallSteps_pos n g0
    have shown : f.level i = g0 - (2 * g0 * i + m) / (2 * m) := by
      rw [level_fall_eq rfl, roundDiv, ← Nat.mul_assoc]
    have reversed : g0 = 0 → m = 1 := by rintro rfl; exact fallSteps_zero n
    have full : g0 = 256 → 1 ≤ n → m = n := by rintro rfl; exact fallSteps_from_whole
    exact ⟨fallSteps_eq n g0, level_fall_last rfl hm, shown, fun h hi => level_fall_succ rfl (fallSteps_le hn' h) hi,
      reversed, full⟩

end Sys2Proof.Proofs
end

