-- ==== Sys2Proof/Proofs/DropFlushCues.lean ====
section
/-!
PROOF. DROP CUE and FLUSH CUES (R127, R128).
-/
namespace Sys2Proof.Machine

/-! ### A channel's command at its port -/

/-- DROP CUE's row in the table of R155. -/
theorem mayIssue_dropCue (r : Role) : mayIssue .dropCue r = true ↔ ∃ c, r = .channel c := by
  cases r <;> simp [mayIssue]

/-- FLUSH CUES' row in the table of R155. -/
theorem mayIssue_flushCues (r : Role) : mayIssue .flushCues r = true ↔ ∃ c, r = .channel c := by
  cases r <;> simp [mayIssue]

/-- A command that a CHANNEL port may issue, sent whole with the one length its form allows, passes the eight tests of R151, and its
owner answers it. -/
theorem exec_channelCommand {k : Command} {s : State} {p : PortNo} {c : ChanNo} {b : Tail} (hs : s.Serves p (.channel c))
    (hk : mayIssue k (.channel c) = true) (hb : Intact k.code b) (h1 : 1 ≤ b.params.length) (h2 : b.params.length ≤ 69)
    (hform : formLength k (.channel c) b.params = some (b.params.length + 1)) :
    let u := act k (.channel c) (s.setPort p (s.port p).accept) p (s.port p).sense b.params
    exec (k.instr p b) s = .next (u.1.answer p u.2) := by
  have hlen (n : Nat) (hn : formLength k (.channel c) b.params = some n) : n = b.params.length + 1 :=
    Option.some.inj (hn.symm.trans hform)
  exact (exec_instr k p b s).trans
    (congrArg _ (blockCompletes_command hs (by simp) hb h1 h2 hk hlen))

/-- Scheduling registers are no part of a port, so they may be written before or after the port is. -/
theorem setSched_setPort (s : State) (c : ChanNo) (x : Sched) (p : PortNo) (q : Port) :
    (s.setPort p q).setSched c x = (s.setSched c x).setPort p q := rfl

/-- A command that writes a channel's scheduling registers alone and is answered GOOD. -/
theorem answer_setSched_good (s : State) (p : PortNo) (c : ChanNo) (x : Sched) (d : List Byte) (m : Bool) :
    ((s.setPort p (s.port p).accept).setSched c x).answer p (.good d m) = (s.setSched c x).sendGood p d m := by
  rw [setSched_setPort]
  exact answer_good (s.setSched c x) p d m

/-- DROP CUE with its two bytes of tag, as a CHANNEL port sends it. -/
theorem exec_dropCue {s : State} {p : PortNo} {c : ChanNo} {b : Tail} (hs : s.Serves p (.channel c)) (hb : Intact 0x11 b)
    (hlen : b.params.length = 2) :
    let u := actDropCue (s.setPort p (s.port p).accept) c b.params
    exec (.dropCue p b) s = .next (u.1.answer p u.2) :=
  exec_channelCommand (k := .dropCue) hs rfl hb (by omega) (by omega) (by rw [hlen]; rfl)

/-- FLUSH CUES with its one reserved byte, as a CHANNEL port sends it. -/
theorem exec_flushCues {s : State} {p : PortNo} {c : ChanNo} {b : Tail} (hs : s.Serves p (.channel c)) (hb : Intact 0x12 b)
    (hlen : b.params.length = 1) :
    let u := actFlushCues (s.setPort p (s.port p).accept) c
    exec (.flushCues p b) s = .next (u.1.answer p u.2) :=
  exec_channelCommand (k := .flushCues) hs rfl hb (by omega) (by omega) (by rw [hlen]; rfl)

/-! ### The cue with a tag -/

/-- The cue a list holds first under a tag is the one that is dropped. -/
theorem eraseP_tag_append {before after : List Cue} {q : Cue} (hq : ∀ r ∈ before, r.tag ≠ q.tag) :
    (before ++ q :: after).eraseP (fun r => r.tag == q.tag) = before ++ after := by
  rw [List.eraseP_append_right _ (by simpa using hq), List.eraseP_cons_of_pos (by simp)]

/-! ### The owner's answers -/

/-- A DROP CUE whose tag is 0 is refused at index 1. -/
theorem actDropCue_zero {prm : List Byte} (h : nat16At prm 0 = 0) (s : State) (c : ChanNo) :
    actDropCue s c prm = (s, .illegal 1) := by simp [actDropCue, h]

/-- A DROP CUE whose tag no cue of the list has is refused with that tag. -/
theorem actDropCue_absent {s : State} {c : ChanNo} {prm : List Byte} (h : nat16At prm 0 ≠ 0)
    (ha : ∀ q ∈ (s.chan c).sched.cues, q.tag ≠ nat16At prm 0) :
    actDropCue s c prm = (s, .refuse .noTarget .noSuchTag (nat16At prm 0)) := by
  have none_tagged : (s.chan c).sched.cues.any (fun q => q.tag == nat16At prm 0) = false := by simpa using ha
  simp [actDropCue, h, none_tagged]

/-- A DROP CUE whose tag a cue of the list has takes the first such cue out and counts the others. -/
theorem actDropCue_present {s : State} {c : ChanNo} {prm : List Byte} {before after : List Cue} {q : Cue}
    (h : nat16At prm 0 ≠ 0) (hl : (s.chan c).sched.cues = before ++ q :: after) (hq : q.tag = nat16At prm 0)
    (hb : ∀ r ∈ before, r.tag ≠ nat16At prm 0) :
    actDropCue s c prm = (s.setSched c { (s.chan c).sched with cues := before ++ after },
      .ok [byteOf (before.length + after.length)]) := by
  rw [← hq] at h hb
  have tagged : (before ++ q :: after).any (fun r => r.tag == q.tag) = true := by simp
  simp [actDropCue, ← hq, h, hl, tagged, eraseP_tag_append hb, State.setCues, State.cueCount]

end Sys2Proof.Machine

namespace Sys2Proof.Proofs
open Sys2Proof.Machine

/-- Settles O46: the owner's answer in each case, given on a state that differs from `s` at port `p` and in the list of channel `c`
alone. -/
theorem dropAndFlushRemoveCues : Obligations.DropAndFlushRemoveCues := by
  refine ⟨fun r => ⟨mayIssue_dropCue r, mayIssue_flushCues r⟩, fun s p c b hs => ⟨fun hb hlen => ?drop, fun hb hlen => ?flush⟩⟩
  case drop =>
    intro d tag
    have htag : nat16At b.params 0 = tag := by simp only [nat16At, tag, Nat.mul_comm]
    rw [exec_dropCue hs hb hlen, ← htag]
    refine ⟨fun h0 => ?zero, fun h0 habsent => ?absent, fun before q after h0 hl hq hbefore => ?present⟩
    case zero => rw [actDropCue_zero h0, Answer.illegal, answer_check]; rfl
    case absent =>
      rw [actDropCue_absent (s := s.setPort p (s.port p).accept) h0 habsent, Answer.refuse, answer_check]
    case present =>
      rw [actDropCue_present (s := s.setPort p (s.port p).accept) h0 hl hq hbefore, Answer.ok, State.chan_setPort,
        answer_setSched_good]
  case flush =>
    rw [exec_flushCues hs hb hlen, actFlushCues, State.setCues, State.cueCount, State.chan_setPort, Answer.ok,
      answer_setSched_good]

end Sys2Proof.Proofs
end

section
/-!
PROOF. What a step of the part, an accepted block's command and a frame start are made of; so an invariant is a property that each of
their parts keeps.
-/
namespace Sys2Proof.Machine

/-! ### The parts of a step -/

/-- The path's lock, its reference for the next lock, its last timecode and the frame it sent may change, and nothing else of it: what an
event that is no frame start does to a path (R1, R6). -/
structure Path.Aside (p q : Path) : Prop where
  bypass : q.bypass = p.bypass
  line : q.line = p.line
  lastOut : q.lastOut = p.lastOut
  outTc : q.outTc = p.outTc
  slewInterval : q.slewInterval = p.slewInterval
  slewCounter : q.slewCounter = p.slewCounter

theorem Path.aside_lockOnArrival (p : Path) (gap : Nat) : p.Aside (p.lockOnArrival gap) := ⟨rfl, rfl, rfl, rfl, rfl, rfl⟩
theorem Path.aside_loseLock (p : Path) : p.Aside p.loseLock := ⟨rfl, rfl, rfl, rfl, rfl, rfl⟩
theorem Path.aside_sent (p : Path) (x : Option SentFrame) : p.Aside { p with sent := x } := ⟨rfl, rfl, rfl, rfl, rfl, rfl⟩

theorem Path.aside_passBy (p : Path) (r : Rate) (f : InputFrame) : p.Aside (p.passBy r f) := by
  have read : p.Aside (p.readUnderBypass r f.timecode) := by
    unfold Path.readUnderBypass
    split
    · exact ⟨rfl, rfl, rfl, rfl, rfl, rfl⟩
    · exact ⟨rfl, rfl, rfl, rfl, rfl, rfl⟩
  unfold Path.passBy
  split
  · dsimp only
    split
    · exact ⟨read.bypass, read.line, read.lastOut, read.outTc, read.slewInterval, read.slewCounter⟩
    · exact read
  · exact ⟨rfl, rfl, rfl, rfl, rfl, rfl⟩

/-- A property of the state that each part of a step keeps. A frame start is met once start-up has completed or bypass has ended. -/
structure StepKeeps (P : State → Prop) : Prop where
  queue : ∀ (s : State) (l : List Instr), P s → P { s with pending := l }
  recv : ∀ (s : State) (p : PortNo) (v : Recv), P s → P (s.setPort p { s.port p with recv := v })
  free : ∀ (s : State) (p : PortNo) (r : List Byte), (s.port p).trans = .answering (some r) → P s →
    P (s.setPort p { s.port p with trans := .free })
  block : ∀ (s : State) (p : PortNo) (b : Block), (s.port p).trans = .free → P s → P (s.acceptBlock p b)
  path : ∀ (s : State) (c : ChanNo) (q : Path), (s.chan c).path.Aside q → P s → P (s.setPath c q)
  frameStart : ∀ (s : State) (c : ChanNo) (pic : Picture) (a : Audio) (t : Option Timecode),
    s.loader.phase.isStarting = false ∨ (s.chan c).path.bypass = false → P s → P (s.frameStart c pic a t)
  linkEnd : ∀ (s : State) (slots : List SlotRx), s.loader.phase.isStarting = false → P s → P (s.linkEnd slots)
  linkBegin : ∀ s : State, P s → P s.linkBegin
  restart : ∀ (s : State) (cause : RestartCause) (n : Nat), P s → P (s.restart cause n)
  startUp : ∀ (s : State) (m : MemoryAnswer), s.loader.phase = .starting → P s → P (s.startUp m)
  storeDone : ∀ (s : State) (m : StoreMemory) (p : PortNo) (k : Settings), s.loader.phase = .storing p k → P s →
    P (s.storeDone m)

section
variable {P : State → Prop} (h : StepKeeps P)
include h

theorem StepKeeps.blockCompletes {s : State} (hs : P s) (p : PortNo) (b : Block) : P (s.blockCompletes p b) := by
  unfold State.blockCompletes
  split
  · exact h.block s p b ‹_› hs
  · exact h.recv s p .seek hs

theorem StepKeeps.byteArrives {s : State} (hs : P s) (p : PortNo) (x : Byte) (noStop : Bool) : P (s.byteArrives p x noStop) := by
  have taken := h.recv s p ((s.port p).recv.take x noStop).1 hs
  unfold State.byteArrives
  dsimp only
  split
  · exact taken
  · exact h.blockCompletes taken p _

theorem StepKeeps.replyEnds {s : State} (hs : P s) (p : PortNo) : P (s.replyEnds p) := by
  unfold State.replyEnds
  split
  · exact hs
  · exact hs
  · split
    · exact h.restart s _ _ hs
    · exact h.free s p _ ‹_› hs

theorem StepKeeps.validArrival {s : State} (hs : P s) (c : ChanNo) (f : InputFrame) (gap : Nat) : P (s.validArrival c f gap) := by
  have lock := h.path s c _ ((s.chan c).path.aside_lockOnArrival gap) hs
  unfold State.validArrival
  dsimp only
  split
  · rename_i hc
    rw [Bool.and_eq_true, Bool.not_eq_true'] at hc
    exact h.frameStart _ c _ _ _ (.inl hc.2) lock
  · exact h.path _ c _ (by simpa using Path.aside_passBy _ _ _) lock

theorem StepKeeps.lockTimeout {s : State} (hs : P s) (c : ChanNo) : P (s.lockTimeout c) := by
  have lost := h.path s c _ ((s.chan c).path.aside_loseLock) hs
  unfold State.lockTimeout
  dsimp only
  split
  · split
    · exact lost
    · rename_i hb
      exact h.frameStart _ c _ _ _ (.inr (by simpa [Path.loseLock] using hb)) lost
  · exact hs

theorem StepKeeps.linkCutShort {s : State} (hs : P s) (slots : List SlotRx) : P (s.linkCutShort slots) := by
  unfold State.linkCutShort
  split
  · exact hs
  · rename_i serving
    split
    · exact h.linkBegin _ (h.linkEnd s slots (by simpa using serving) hs)
    · exact h.linkBegin s hs

theorem StepKeeps.startUp_any {s : State} (hs : P s) (m : MemoryAnswer) : P (s.startUp m) := by
  cases hp : s.loader.phase with
  | starting => exact h.startUp s m hp hs
  | serving => simpa [State.startUp, hp] using hs
  | storing p k => simpa [State.startUp, hp] using hs

theorem StepKeeps.storeDone_any {s : State} (hs : P s) (m : StoreMemory) : P (s.storeDone m) := by
  cases hp : s.loader.phase with
  | starting => simpa [State.storeDone, hp] using hs
  | serving => simpa [State.storeDone, hp] using hs
  | storing p k => exact h.storeDone s m p k hp hs

/-- A command carried out keeps what the parts of a step keep. -/
theorem StepKeeps.exec {s t : State} (hs : P s) {i : Instr} (he : exec i s = .next t) : P t := by
  cases i
  case programmeFrameArrival c f gap => cases he; exact h.validArrival hs c f gap
  case invalidFrameArrival c =>
    cases he; unfold State.invalidArrival; split
    · exact h.path s c _ (s.chan c).path.aside_loseLock hs
    · exact hs
  case lockLossTimeout c => cases he; exact h.lockTimeout hs c
  case freeRunFrameStart c =>
    cases he; unfold State.freeRun; split
    · exact hs
    · rename_i hc
      exact h.frameStart s c _ _ _ (.inl (by simp at hc; exact hc.2)) hs
  case bypassBlackFrame c =>
    cases he; unfold State.bypassBlack; dsimp only; split
    · exact h.path s c _ ((s.chan c).path.aside_sent _) hs
    · exact hs
  case linkFrameEnd slots =>
    cases he; unfold State.linkFrameEnds; split
    · exact hs
    · exact h.linkEnd s _ (by simp_all) hs
  case linkGapTimeout slots =>
    cases he; unfold State.linkGap; split
    · exact hs
    · exact h.linkEnd s _ (by simp_all) hs
  case linkNewFrameStart slots => cases he; exact h.linkCutShort hs slots
  case linkSilenceTimeout =>
    cases he; unfold State.linkSilent; split
    · exact hs
    · exact h.linkEnd s _ (by simp_all) hs
  case linkFrameBegin => cases he; unfold State.linkBegins; split <;> [exact hs; exact h.linkBegin s hs]
  case blockGapTimeout p => cases he; exact h.recv s p .seek hs
  case replySent p => cases he; exact h.replyEnds hs p
  case unitRestart cause n => cases he; exact h.restart s cause n hs
  case startUpComplete m => cases he; exact h.startUp_any hs m
  case storeComplete m => cases he; exact h.storeDone_any hs m
  case controlByteReceived p x noStop => cases he; exact h.byteArrives hs p x noStop
  all_goals cases he; exact h.blockCompletes hs _ _

/-- A step keeps what its parts keep. -/
theorem StepKeeps.step {s t : State} (hs : P s) (he : step s = .next t) : P t := by
  unfold Machine.step at he
  split at he
  · cases he; exact hs
  · exact h.exec (h.queue s _ hs) he

end

end Sys2Proof.Machine
end

section
/-!
PROOF. Operations that replace several booths one after another, each from what it was: a link frame end and SET SLOT MASK (R21, R24).
-/
namespace Sys2Proof.Machine

/-- A raised notice changes pending sets alone at the ports. -/
theorem port_raiseIf_eq (s : State) (b : Bool) (e : Notice) (p : PortNo) :
    (s.raiseIf b e).port p = { s.port p with pending := ((s.raiseIf b e).port p).pending } :=
  (moves_raiseIf s 0 b e).ports p

theorem port_putBooth (s : State) (b : BoothNo) (x : Booth) (p : PortNo) :
    (s.putBooth b x).port p = { s.port p with pending := ((s.putBooth b x).port p).pending } := by
  have moved (c : ChanNo) : (s.setBooth b x).Moves c (s.putBooth b x) :=
    ((((moves_raiseIf _ c _ _).trans (moves_raiseIf _ c _ _)).trans (moves_raiseIf _ c _ _)).trans (moves_raiseIf _ c _ _)).trans
      (moves_raiseIf _ c _ _)
  exact (moved 0).ports p

@[simp] theorem loader_putBooth (s : State) (b : BoothNo) (x : Booth) : (s.putBooth b x).loader = s.loader := by rw [putBooth_eq]
@[simp] theorem slotMask_putBooth (s : State) (b : BoothNo) (x : Booth) : (s.putBooth b x).slotMask = s.slotMask := by
  rw [putBooth_eq]
@[simp] theorem chan_putBooth (s : State) (b : BoothNo) (x : Booth) (c : ChanNo) : (s.putBooth b x).chan c = s.chan c := by
  rw [putBooth_eq]; rfl

@[simp] theorem role_putBooth (s : State) (b : BoothNo) (x : Booth) (p : PortNo) :
    ((s.putBooth b x).port p).role = (s.port p).role := by rw [port_putBooth]

/-- A booth replaced by itself is no change, and tells nothing. -/
theorem putBooth_self (s : State) (b : BoothNo) : s.putBooth b (s.booth b) = s := by
  have same : s.setBooth b (s.booth b) = s := by
    apply State.ext_accessors <;> intros <;> try rfl
    rw [State.booth_setBooth]; split
    · rename_i e; rw [e]
    · rfl
  simp [State.putBooth, State.raiseFeed, same]

/-- The booths of a list replaced one after another, each by what `g` makes of it. -/
def State.putBooths (s : State) (g : BoothNo → Booth → Booth) (l : List BoothNo) : State :=
  l.foldl (fun t b => t.putBooth b (g b (t.booth b))) s

theorem putBooths_cons (s : State) (g : BoothNo → Booth → Booth) (b : BoothNo) (l : List BoothNo) :
    s.putBooths g (b :: l) = (s.putBooth b (g b (s.booth b))).putBooths g l := rfl

/-- Every booth of the part, in order. -/
abbrev allBooths : List BoothNo := [0, 1, 2, 3, 4, 5]

theorem mem_allBooths (b : BoothNo) : b ∈ allBooths := by revert b; decide

theorem booth_putBooths (s : State) (g : BoothNo → Booth → Booth) {l : List BoothNo} (hl : l.Nodup) (o : BoothNo) :
    (s.putBooths g l).booth o = if o ∈ l then g o (s.booth o) else s.booth o := by
  induction l generalizing s with
  | nil => simp [State.putBooths]
  | cons b l ih =>
    rw [List.nodup_cons] at hl
    rw [putBooths_cons, ih _ hl.2, booth_putBooth]
    by_cases h : o = b
    · subst h; simp [hl.1]
    · simp [h]

/-- Replacing booths changes nothing but the booths and the pending sets of the ports. -/
theorem putBooths_eq (s : State) (g : BoothNo → Booth → Booth) (l : List BoothNo) :
    s.putBooths g l = { s with booths := (s.putBooths g l).booths, ports := (s.putBooths g l).ports } := by
  induction l generalizing s with
  | nil => rfl
  | cons b l ih =>
    have one := putBooth_eq s b (g b (s.booth b))
    rw [putBooths_cons]
    generalize s.putBooth b (g b (s.booth b)) = u at one ⊢
    calc u.putBooths g l = _ := ih u
      _ = _ := by rw [one]

theorem port_putBooths (s : State) (g : BoothNo → Booth → Booth) (l : List BoothNo) (p : PortNo) :
    (s.putBooths g l).port p = { s.port p with pending := ((s.putBooths g l).port p).pending } := by
  induction l generalizing s with
  | nil => rfl
  | cons b l ih => rw [putBooths_cons, ih]; conv_lhs => rw [port_putBooth]

/-- The notices of booths replaced one after another: BOOTH for each whose health changed, FEED for each channel whose booth's
usability changed (R36). -/
theorem has_putBooths (s : State) (g : BoothNo → Booth → Booth) {l : List BoothNo} (hl : l.Nodup) (p : PortNo) (e : Notice) :
    ((s.putBooths g l).port p).pending.has e = ((s.port p).pending.has e || ((s.port p).role.any (fun r => r.hears e) &&
      (match e with
       | .booth o => decide (o ∈ l) && (g o (s.booth o)).health != (s.booth o).health
       | .feed c => (s.chan c).assign.assigned.any (fun b => decide (b ∈ l) &&
           (g b (s.booth b)).health.usable != (s.booth b).health.usable)
       | _ => false))) := by
  induction l generalizing s with
  | nil => cases e <;> simp [State.putBooths]
  | cons b l ih =>
    rw [List.nodup_cons] at hl
    have later (o : BoothNo) (ho : o ∈ l) : (s.putBooth b (g b (s.booth b))).booth o = s.booth o := by
      rw [booth_putBooth, if_neg (ne_of_mem_of_not_mem ho hl.1)]
    rw [putBooths_cons, ih _ hl.2, has_putBooth, role_putBooth]
    cases e with
    | booth o =>
      dsimp only
      by_cases ho : o ∈ l
      · have hne : o ≠ b := ne_of_mem_of_not_mem ho hl.1
        simp [later o ho, ho, hne]
      · simp only [ho, decide_false, Bool.false_and, Bool.and_false, Bool.or_false, List.mem_cons, or_false]
        by_cases hb : o = b
        · subst hb; simp
        · simp [hb]
    | feed c =>
      simp only [chan_putBooth]
      cases ha : (s.chan c).assign.assigned with
      | none => simp
      | some o =>
        simp only [Option.any_some]
        by_cases ho : o ∈ l
        · have hne : o ≠ b := ne_of_mem_of_not_mem ho hl.1
          simp [later o ho, ho, beq_eq_false_iff_ne.2 hne]
        · simp only [ho, decide_false, Bool.false_and, Bool.and_false, Bool.or_false, List.mem_cons, or_false]
          by_cases hb : o = b
          · subst hb; simp
          · simp [hb]
    | _ => simp

/-- Every booth replaced: the notices are those of Safety.lean. -/
theorem tellsBooths_putBooths (s : State) (g : BoothNo → Booth → Booth) : s.TellsBooths (s.putBooths g allBooths) where
  kinds p := by
    apply Notices.ext_has
    intro e
    have h := has_putBooths s g (l := allBooths) (by decide) p e
    cases e with
    | booth b => rfl
    | feed c => rfl
    | _ => rw [h]; simp [Notices.has]
  booth p b := by
    have h := has_putBooths s g (l := allBooths) (by decide) p (.booth b)
    rw [booth_putBooths s g (by decide), if_pos (mem_allBooths b)]
    simp only [mem_allBooths, decide_true, Bool.true_and] at h
    simpa [Notices.has, bne, beq_eq_decide] using h
  feed p c := by
    have h := has_putBooths s g (l := allBooths) (by decide) p (.feed c)
    have usable (k : Health) : decide (k = .live ∨ k = .held) = k.usable := by cases k <;> rfl
    simp only [booth_putBooths s g (by decide : allBooths.Nodup), mem_allBooths, if_true, usable]
    simp only [mem_allBooths, decide_true, Bool.true_and] at h
    exact h

/-- A booth after the end of a link frame (R21, R27). -/
def Booth.atLinkEnd (mask : BitVec 8) (slots : SlotNo → Option SlotRx) (x : Booth) : Booth :=
  match x.record.slot with
  | none => x
  | some n => if x.awaiting then x else
      x.applyResult (slotResult (mask.getLsbD n) x.record.width (slots n))
        (match slots n with
         | some rx => land x.record.width rx.raw
         | none => blackPicture)

theorem boothEnd_eq (s : State) (b : BoothNo) (slots : SlotNo → Option SlotRx) :
    s.boothEnd b slots = s.putBooth b ((s.booth b).atLinkEnd s.slotMask slots) := by
  unfold State.boothEnd Booth.atLinkEnd
  cases hr : (s.booth b).record.slot with
  | none => simp [hr, putBooth_self]
  | some n =>
    cases ha : (s.booth b).awaiting
    · simp only [hr, ha, Bool.false_eq_true, if_false] <;> rfl
    · simp [hr, ha, putBooth_self]

theorem boothEnds_eq (s : State) (slots : SlotNo → Option SlotRx) :
    s.boothEnds slots = s.putBooths (fun _ => Booth.atLinkEnd s.slotMask slots) allBooths := by
  have fold : ∀ (l : List BoothNo) (u : State), u.slotMask = s.slotMask →
      l.foldl (fun t b => t.boothEnd b slots) u = u.putBooths (fun _ => Booth.atLinkEnd s.slotMask slots) l := by
    intro l
    induction l with
    | nil => exact fun _ _ => rfl
    | cons b l ih =>
      intro u hu
      rw [putBooths_cons, ← hu, ← boothEnd_eq, hu]
      exact ih _ ((congrArg State.slotMask (boothEnd_eq u b slots)).trans ((slotMask_putBooth _ _ _).trans hu))
  exact fold _ s rfl

/-- A booth after the slot mask has changed (R24, R35). -/
def Booth.atMask (old new : BitVec 8) (x : Booth) : Booth :=
  match x.record.slot with
  | none => x
  | some n => if old.getLsbD n && !new.getLsbD n then x.toAbsent else x

theorem setMask_eq (s : State) (m : BitVec 8) :
    s.setMask m = ({ s with slotMask := m } : State).putBooths (fun _ => Booth.atMask s.slotMask m) allBooths := by
  have one (u : State) (b : BoothNo) : u.maskBooth s.slotMask m b = u.putBooth b ((u.booth b).atMask s.slotMask m) := by
    unfold State.maskBooth Booth.atMask
    cases hr : (u.booth b).record.slot with
    | none => simp [putBooth_self]
    | some n =>
      dsimp only
      split
      · rfl
      · exact (putBooth_self u b).symm
  unfold State.setMask State.putBooths
  simp only [one]

theorem chan_putBooths (s : State) (g : BoothNo → Booth → Booth) (l : List BoothNo) (c : ChanNo) :
    (s.putBooths g l).chan c = s.chan c := by rw [putBooths_eq]; rfl

theorem chan_setMask (s : State) (m : BitVec 8) (c : ChanNo) : (s.setMask m).chan c = s.chan c := by
  rw [setMask_eq, chan_putBooths]; rfl

theorem chan_linkEnd (s : State) (slots : List SlotRx) (c : ChanNo) : (s.linkEnd slots).chan c = s.chan c := by
  rw [State.linkEnd, boothEnds_eq, chan_putBooths]; rfl

end Sys2Proof.Machine
end

section
/-!
PROOF. What a command block can change: one case for each kind of change, with what its checks have made sure of.
-/
namespace Sys2Proof.Machine

/-- The states an owning block can leave, from the one it finds, for every command but STORE SETTINGS (chapters 1 to 9). -/
inductive Acts (s : State) : State → Prop where
  | none : Acts s s
  | pending (p : PortNo) (n : Notices) : Acts s (s.setPort p { s.port p with pending := n })
  | enabled (p : PortNo) (e : BitVec 8) : Acts s (s.setPort p { s.port p with enabled := e })
  | addCues (c : ChanNo) (l : List Cue) (checked : s.cueChecks c l = .none)
      (fields : ∀ q ∈ l, ∃ w : RawCue, w.fault s.rate = .none ∧ w.tag < 65536 ∧ q = w.cue s.rate) : Acts s (s.insertCues c l)
  | dropCues (c : ChanNo) (l : List Cue) (sub : l.Sublist (s.chan c).sched.cues) : Acts s (s.setCues c l)
  | perform (c : ChanNo) (n : Option Nat) (a : RawAction) (fields : a.fault = .none) :
      Acts s (s.perform c n (a.action.getD .mark)).1
  | readOutcomes (c : ChanNo) : Acts s (s.setSched c { (s.chan c).sched with
      ring := (s.chan c).sched.ring.drop Config.outcomesPerReply
      lost := (s.chan c).sched.lost && !((s.chan c).sched.ring.drop Config.outcomesPerReply).isEmpty })
  | lateLimit (c : ChanNo) (n : Nat) (range : n ≤ Config.maxLateness) :
      Acts s (s.setSched c { (s.chan c).sched with lateLimit := n })
  | loss (c : ChanNo) (m : LossMode) : Acts s (s.setPres c { (s.chan c).pres with loss := m })
  | clear (p : PortNo) (c : ChanNo) (n : Notices) :
      Acts s ((s.clearChannel c).setPort p { (s.clearChannel c).port p with pending := n })
  | target (c : ChanNo) (d : Nat) (range : d ≤ Config.maxTarget) : Acts s (s.setTarget c d)
  | slew (c : ChanNo) (n : Nat) (range : 1 ≤ n ∧ n ≤ 255) :
      Acts s (s.setPath c { (s.chan c).path with slewInterval := n })
  | writeBooth (b : BoothNo) (prm : List Byte) (fields : firstFault (boothTests prm 1) = .none)
      (unclaimed : s.slotHolder b (boothRecordAt prm 1).slot = .none) :
      Acts s (s.putBooth b ((s.booth b).rewrite (boothRecordAt prm 1)))
  | mask (m : BitVec 8) : Acts s (s.setMask m)
  | writeProfile (n : ProfNo) (prm : List Byte) (defined : Bool) (fields : firstFault (profileTests prm 1) = .none)
      (zero : n = 0 → defined = true) : Acts s (s.writeProfile n (profileAt prm 1 defined))
  | assign (c : ChanNo) (b : BoothNo) (nx : Nat) (a : Assign) (range : nx ≤ 100)
      (taken : (s.chan c).assign.assign b nx (s.chan c).pres.state.visible (s.booth b).health = .taken a) :
      Acts s ((s.setAssign c a).raise (.assignment c))
  | release (c : ChanNo) : Acts s (s.releaseBooth c)
  | pendingRoles (v : Vector Role 6) :
      Acts s { s with loader := { s.loader with pendingRoles := some v, rolesPending := true } }
  | reset (p : PortNo) (g : Vector Nat 4) :
      Acts s { s with loader := { s.loader with resetPort := some p, grantsAtReset := some g } }

/-- Tests that find no fault find none behind the first. -/
theorem firstFault_cons_none {i : Nat} {ok : Bool} {t : List (Nat × Bool)} (h : firstFault ((i, ok) :: t) = none) :
    ok = true ∧ firstFault t = none := by
  cases ok
  · simp [firstFault] at h
  · exact ⟨rfl, h⟩

/-- The fields of every record that stage 2 of ADD CUES passes are in range. -/
theorem fieldStage_none {r : Rate} {n : Nat} {l : List RawCue} (h : fieldStage r n l = none) : ∀ q ∈ l, q.fault r = none := by
  induction l generalizing n with
  | nil => simp
  | cons q t ih =>
    unfold fieldStage at h
    split at h
    · cases h
    · rw [List.forall_mem_cons]
      exact ⟨‹_›, ih h⟩

theorem natAt_lt (bs : List Byte) (i : Nat) : natAt bs i < 256 := (bs.getD i 0).isLt

theorem nat16At_lt (bs : List Byte) (i : Nat) : nat16At bs i < 65536 := by
  have := natAt_lt bs i
  have := natAt_lt bs (i + 1)
  unfold nat16At
  omega

theorem acts_addCues (s : State) (c : ChanNo) (prm : List Byte) : Acts s (actAddCues s c prm).1 := by
  unfold actAddCues
  dsimp only
  split
  · exact .none
  · split
    · exact .none
    · rename_i hf
      split
      · exact .none
      · rename_i hc
        refine .addCues c _ hc fun q hq => ?_
        obtain ⟨w, hw, rfl⟩ := List.mem_map.1 hq
        obtain ⟨k, -, hk⟩ := List.mem_map.1 hw
        exact ⟨w, fieldStage_none hf w hw, hk ▸ nat16At_lt _ _, rfl⟩

theorem acts_dropCue (s : State) (c : ChanNo) (prm : List Byte) : Acts s (actDropCue s c prm).1 := by
  unfold actDropCue
  dsimp only
  split
  · exact .none
  · split
    · exact .dropCues c _ List.eraseP_sublist
    · exact .none

theorem acts_takeNow (s : State) (c : ChanNo) (prm : List Byte) : Acts s (actTakeNow s c prm).1 := by
  unfold actTakeNow
  dsimp only
  split
  · exact .none
  · rename_i hf
    split
    · exact .none
    · split
      · exact .none
      · have : Acts s (s.perform c (fadeOf (rawActionAt prm 0).fade) ((rawActionAt prm 0).action.getD .mark)).1 :=
          .perform c _ _ hf
        split <;> exact this

theorem acts_writeBooth (s : State) (prm : List Byte) : Acts s (actWriteBooth s prm).1 := by
  unfold actWriteBooth
  split
  · exact .none
  · exact .none
  · rename_i b hf _
    dsimp only
    split
    · exact .none
    · exact .writeBooth b prm (firstFault_cons_none hf).2 ‹_›

theorem acts_writeProfile (s : State) (prm : List Byte) : Acts s (actWriteProfile s prm).1 := by
  unfold actWriteProfile
  split
  · exact .none
  · exact .none
  · rename_i n hf _
    dsimp only
    split
    · exact .none
    · rename_i hz
      exact .writeProfile n prm _ (firstFault_cons_none hf).2 (by simpa using hz)

theorem acts_assignBooth (s : State) (prm : List Byte) : Acts s (actAssignBooth s prm).1 := by
  unfold actAssignBooth
  dsimp only
  split
  · exact .none
  · exact .none
  · split
    · exact .none
    · rename_i hn
      split
      · exact .none
      · exact .none
      · exact .none
      · exact .assign _ _ _ _ (Nat.le_of_not_lt hn) ‹_›

theorem acts_listCues (s : State) (r : Option Role) (prm : List Byte) : (actListCues s r prm).1 = s := by
  have listed (c : ChanNo) (i : Nat) : (listFrom s c i prm).1 = s := by
    unfold listFrom; dsimp only; split
    · rfl
    · split <;> rfl
  unfold actListCues
  split
  · exact listed _ _
  · split
    · exact listed _ _
    · rfl

theorem acts_findCue (s : State) (c : ChanNo) (prm : List Byte) : (actFindCue s c prm).1 = s := by
  unfold actFindCue
  dsimp only
  split
  · rfl
  · split
    · rfl
    · split <;> rfl

/-- Whatever a command's owner does, but for STORE SETTINGS, is one of these changes. -/
theorem acts_act {k : Command} (hk : k ≠ .storeSettings) (r : Role) (s : State) (p : PortNo) (before : Sense) (prm : List Byte) :
    Acts s (act k r s p before prm).1 := by
  cases k
  case identify => exact .none
  case readSense => exact .none
  case readNotices => exact .pending p _
  case setNoticeMask => simp only [act, actSetNoticeMask]; split <;> [exact .none; exact .enabled p _]
  case channelState => simp only [act, actChannelState]; split <;> exact .none
  case addCues => exact acts_addCues s _ prm
  case dropCue => exact acts_dropCue s _ prm
  case flushCues => exact .dropCues _ [] (List.nil_sublist _)
  case listCues => simp only [act, acts_listCues]; exact .none
  case findCue => simp only [act, acts_findCue]; exact .none
  case takeNow => exact acts_takeNow s _ prm
  case readOutcomes => exact .readOutcomes _
  case setLateLimit =>
    simp only [act, actSetLateLimit]
    split
    · exact .none
    · exact .lateLimit _ _ (by omega)
  case setLossMode => simp only [act, actSetLossMode]; split <;> [exact .loss _ _; exact .none]
  case clearChannel => exact .clear p _ _
  case setDelay =>
    simp only [act, actSetDelay]
    split
    · exact .none
    · exact .target _ _ (by omega)
  case setSlew =>
    simp only [act, actSetSlew]
    split
    · exact .none
    · exact .slew _ _ (by omega)
  case writeBooth => exact acts_writeBooth s prm
  case readBooth => simp only [act, actReadBooth]; split <;> exact .none
  case setSlotMask => exact .mask _
  case boothState => simp only [act, actBoothState]; split <;> exact .none
  case writeProfile => exact acts_writeProfile s prm
  case readProfile => simp only [act, actReadProfile]; split <;> exact .none
  case assignBooth => exact acts_assignBooth s prm
  case releaseBooth => simp only [act, actReleaseBooth]; split <;> [exact .none; exact .release _]
  case writePortRoles =>
    simp only [act, actWritePortRoles]
    split
    · exact .none
    · split <;> [exact .none; exact .pendingRoles _]
  case storeSettings => exact absurd rfl hk
  case resetUnit => exact .reset p _

end Sys2Proof.Machine
end

section
/-!
PROOF. Properties that read neither the ports nor the queue: what keeps them; and what a dispatch keeps.
-/
namespace Sys2Proof.Machine

theorem moves_clearChannel (s : State) (c : ChanNo) : s.Moves c (s.clearChannel c) := by
  unfold State.clearChannel
  dsimp only
  refine (State.Moves.trans (t := if (s.chan c).pres.state.visible then (s.setPres c (s.chan c).pres.clear).visibilityReport c
    else s.setPres c (s.chan c).pres.clear) ?_ (moves_setSched _ _ _)).trans (moves_setPlace _ _ _)
  split
  · exact (moves_setPres _ _ _).trans (moves_visibilityReport _ c)
  · exact moves_setPres _ _ _

theorem moves_raise (s : State) (c : ChanNo) (e : Notice) : s.Moves c (s.raise e) := moves_raiseIf s c true e

theorem moves_releaseBooth (s : State) (c : ChanNo) : s.Moves c (s.releaseBooth c) := by
  unfold State.releaseBooth
  dsimp only
  refine State.Moves.trans ?_ (moves_raiseIf _ _ _ _)
  split
  · exact (moves_setAssign _ _ _).trans (moves_setPres _ _ _)
  · exact moves_setAssign _ _ _

/-- A move changes pending sets alone at the ports, so with them put back it is a change of channels. -/
theorem State.Moves.phase {s t : State} {c : ChanNo} (h : s.Moves c t) : t.loader.phase = s.loader.phase := by rw [h.loader]

/-- The test of an accepted block that reaches its owner found the part serving, the role one that may issue the command. -/
theorem judge_command {starting : Bool} {role : Option Role} {b : Block} {k : Command} {r : Role}
    (h : judge starting role b = .command k r) : starting = false ∧ role = some r ∧ r ≠ .idle ∧ mayIssue k r = true := by
  unfold judge at h
  dsimp only at h
  split at h
  · cases h
  rename_i h1
  split at h
  · cases h
  rename_i h2
  iterate 3 (split at h; · cases h)
  split at h
  · cases h
  split at h
  · cases h
  rename_i h3
  split at h
  · cases h
  cases h
  cases role with
  | none => simp at h2
  | some r => exact ⟨by simpa using h1, rfl, h2, by simpa using h3⟩

/-- A rewrite of a profile does not touch the loader. -/
theorem loader_writeProfile (s : State) (n : ProfNo) (r : Profile) : (s.writeProfile n r).loader = s.loader := by
  have tell (u : State) (c : ChanNo) : (if (u.chan c).place.profile = n then
      (u.setPlace c { (u.chan c).place with replace := true }).raise (.profile c) else u).loader = u.loader := by
    split <;> rfl
  unfold State.writeProfile
  split
  · rfl
  · simp only [State.tellRewrite, tell, State.loader_setProfile]

/-- An owner's work leaves the phase as it is. -/
theorem Acts.phase {s t : State} (h : Acts s t) : t.loader.phase = s.loader.phase := by
  cases h with
  | perform c n a fields => rw [(moves_perform s c n _).loader]
  | clear p c n => rw [State.loader_setPort, (moves_clearChannel s c).loader]
  | target c d range => rw [(moves_setTarget s c d).loader]
  | release c => rw [(moves_releaseBooth s c).loader]
  | writeBooth b prm fields unclaimed => rw [putBooth_eq]
  | mask m => rw [setMask_eq, putBooths_eq]
  | writeProfile n prm defined fields zero => rw [loader_writeProfile]
  | _ => rfl

/-- An owner's work keeps a serving part serving. -/
theorem Acts.serving {s t : State} (h : Acts s t) (hs : s.loader.phase.isStarting = false) : t.loader.phase.isStarting = false := by
  rw [h.phase]
  exact hs

/-- Whatever the memory does during a store, it keeps its canonical form. -/
theorem wf_storeRun (k : StoreMemory) {m : List Host.Cell} (hm : Memory.wf m = true) (t : Settings) :
    Memory.wf (storeRun k m t).1 = true := by
  have put {m : List Host.Cell} (hm : Memory.wf m = true) (l : List Host.Cell) :
      Memory.wf (memWriteAll m (l.map (storeTakes k))) = true := wf_memWriteAll hm _
  unfold storeRun
  generalize t.writes = w
  dsimp only
  split
  · exact hm
  · split
    · exact put (put hm _) _
    · split
      · exact put (put hm _) _
      · split
        · exact put (put (put hm _) _) _
        · exact put (put (put hm _) _) _

/-- A property that reads neither ports nor queue, kept by an owner's work in a serving part and by every other part of a step. -/
structure OwnKeeps (P : State → Prop) : Prop where
  aside : ∀ (s : State) (ports : Vector Port 6) (queue : List Instr), P s → P { s with ports := ports, pending := queue }
  acts : ∀ s t : State, s.loader.phase.isStarting = false → Acts s t → P s → P t
  store : ∀ (s : State) (p : PortNo), s.loader.phase.isStarting = false → P s →
    P { s with loader := { s.loader with phase := .storing p s.snapshot } }
  path : ∀ (s : State) (c : ChanNo) (q : Path), (s.chan c).path.Aside q → P s → P (s.setPath c q)
  frameStart : ∀ (s : State) (c : ChanNo) (pic : Picture) (a : Audio) (t : Option Timecode),
    s.loader.phase.isStarting = false ∨ (s.chan c).path.bypass = false → P s → P (s.frameStart c pic a t)
  linkEnd : ∀ (s : State) (slots : List SlotRx), P s → P (s.linkEnd slots)
  linkBegin : ∀ s : State, P s → P s.linkBegin
  restart : ∀ (s : State) (cause : RestartCause) (n : Nat), P s → P (s.restart cause n)
  startUp : ∀ (s : State) (m : MemoryAnswer), s.loader.phase = .starting → P s → P (s.startUp m)
  served : ∀ (s : State) (m : List Host.Cell), (∃ p k, s.loader.phase = .storing p k) →
    (Memory.wf s.memory = true → Memory.wf m = true) → P s →
    P { s with memory := m, loader := { s.loader with phase := .serving } }

section
variable {P : State → Prop} (h : OwnKeeps P)
include h

theorem OwnKeeps.setPort {s : State} (hs : P s) (p : PortNo) (x : Port) : P (s.setPort p x) := h.aside s _ s.pending hs

theorem OwnKeeps.acceptBlock {s : State} (hs : P s) (p : PortNo) (b : Block) : P (s.acceptBlock p b) := by
  have accepted := h.setPort hs p (s.port p).accept
  unfold State.acceptBlock
  dsimp only
  split
  · exact h.setPort accepted p _
  · rename_i k r hj
    have serving := (judge_command hj).1
    by_cases hk : k = .storeSettings
    · subst hk
      exact h.setPort (h.store (s.setPort p (s.port p).accept) p serving accepted) p _
    · exact h.setPort (h.acts (s.setPort p (s.port p).accept) _ serving (acts_act hk _ _ _ _ _) accepted) p _

theorem OwnKeeps.storeDone {s : State} (hs : P s) (m : StoreMemory) {p : PortNo} {k : Settings}
    (hp : s.loader.phase = .storing p k) : P (s.storeDone m) := by
  simp only [State.storeDone, hp]
  exact h.setPort (h.served s _ ⟨p, k, hp⟩ (fun hm => wf_storeRun m hm k) hs) p _

theorem OwnKeeps.stepKeeps : StepKeeps P where
  queue s l := h.aside s s.ports l
  recv _ _ _ hs := h.setPort hs _ _
  free _ _ _ _ hs := h.setPort hs _ _
  block _ p b _ hs := h.acceptBlock hs p b
  path := h.path
  frameStart := h.frameStart
  linkEnd s slots _ := h.linkEnd s slots
  linkBegin := h.linkBegin
  restart := h.restart
  startUp := h.startUp
  storeDone _ m _ _ hp hs := h.storeDone hs m hp

end

/-! ### What a dispatch keeps -/

/-- A property of the state that each part of a channel's dispatch keeps; `Q` is what it says of each cue that waits. -/
structure DispatchKeeps (P : State → Prop) (Q : Cue → Prop) (c : ChanNo) : Prop where
  cues : ∀ (s : State) (l : List Cue), (∀ q ∈ l, Q q) → P s → P (s.setCues c l)
  perform : ∀ (s : State) (q : Cue), Q q → P s → P (s.perform c q.fade q.action).1
  outcome : ∀ (s : State) (tag : Nat) (k : OutcomeKind) (n : Nat), P s → P (s.writeOutcome c tag k n)
  raiseIf : ∀ (s : State) (b : Bool) (e : Notice), P s → P (s.raiseIf b e)

section
variable {P : State → Prop} {Q : Cue → Prop} {c : ChanNo} (h : DispatchKeeps P Q c)
include h

theorem DispatchKeeps.takeCue {s : State} (hs : P s) {q : Cue} (hq : Q q) : P (s.takeCue c q) := by
  unfold State.takeCue
  dsimp only
  split
  · exact h.outcome _ _ _ _ hs
  · split
    · exact h.outcome _ _ _ _ (h.perform s q hq hs)
    · exact h.outcome _ _ _ _ hs

theorem DispatchKeeps.takeDue {l : List Cue} (hl : ∀ q ∈ l, Q q) {s : State} (hs : P s) : P (State.takeDue c l s) := by
  induction l generalizing s with
  | nil => exact h.cues s [] hl hs
  | cons q t ih =>
    rw [List.forall_mem_cons] at hl
    unfold State.takeDue
    split
    · exact ih hl.2 (h.takeCue (h.cues s t hl.2 hs) hl.1)
    · exact h.cues s _ (List.forall_mem_cons.2 hl) hs

theorem DispatchKeeps.removeStranded {s : State} (hl : ∀ q ∈ (s.chan c).sched.cues, Q q) (hs : P s) :
    P (s.removeStranded c) := by
  have written : ∀ (l : List Cue) (u : State), P u → P (l.foldl (fun t q => t.writeOutcome c q.tag .missed 0) u) := by
    intro l
    induction l with
    | nil => exact fun _ hu => hu
    | cons q t ih => exact fun u hu => ih _ (h.outcome u _ _ _ hu)
  exact written _ _ (h.cues s _ (fun q hq => hl q (List.mem_filter.1 hq).1) hs)

theorem DispatchKeeps.dispatch {s : State} (hl : ∀ q ∈ (s.chan c).sched.cues, Q q) (hs : P s) : P (s.dispatch c) := by
  have sorted : ∀ q ∈ sortCues (s.offset c) (s.chan c).sched.cues, Q q := fun q hq =>
    hl q ((perm_sortCues _ _).mem_iff.1 hq)
  refine h.raiseIf _ _ _ (h.removeStranded (fun q hq => ?_) (h.takeDue sorted hs))
  rw [cues_takeDue c _ s (sorted_sortCues _ _)] at hq
  exact sorted q (List.mem_filter.1 hq).1

end

end Sys2Proof.Machine
end

section
/-!
PROOF. WRITE PROFILE on the library and the channels; the rate and the memory under a command; the memory keeps its form (R60, R61).
-/
namespace Sys2Proof.Machine

/-! ### A profile rewritten (R61) -/

/-- One channel told that its current profile was rewritten. -/
def State.tellRewriteOf (s : State) (n : ProfNo) (c : ChanNo) : State :=
  if (s.chan c).place.profile = n then (s.setPlace c { (s.chan c).place with replace := true }).raise (.profile c) else s

theorem tellRewrite_eq (s : State) (n : ProfNo) :
    s.tellRewrite n = (((s.tellRewriteOf n 0).tellRewriteOf n 1).tellRewriteOf n 2).tellRewriteOf n 3 := by
  unfold State.tellRewrite
  extract_lets tell
  have one : tell = fun t c => t.tellRewriteOf n c := rfl
  rw [one]

theorem moves_tellRewriteOf (s : State) (n : ProfNo) (c : ChanNo) : s.Moves c (s.tellRewriteOf n c) := by
  unfold State.tellRewriteOf
  split
  · exact (moves_setPlace _ _ _).trans (moves_raise _ _ _)
  · exact .refl s c

theorem chan_tellRewriteOf (s : State) (n : ProfNo) (c d : ChanNo) :
    (s.tellRewriteOf n c).chan d = if d = c ∧ (s.chan d).place.profile = n then
      { s.chan d with place := { (s.chan d).place with replace := true } } else s.chan d := by
  unfold State.tellRewriteOf
  by_cases h : (s.chan c).place.profile = n
  · rw [if_pos h, State.chan_raise, State.setPlace, State.chan_setChan]
    by_cases hd : d = c
    · subst hd; simp [h]
    · simp [hd]
  · rw [if_neg h, if_neg]
    rintro ⟨rfl, hp⟩
    exact h hp

/-- Every channel that uses the profile, and no other, has re-placement pending. -/
theorem chan_tellRewrite (s : State) (n : ProfNo) (c : ChanNo) :
    (s.tellRewrite n).chan c = if (s.chan c).place.profile = n then
      { s.chan c with place := { (s.chan c).place with replace := true } } else s.chan c := by
  simp only [tellRewrite_eq, chan_tellRewriteOf]
  match c with
  | 0 => simp
  | 1 => simp
  | 2 => simp
  | 3 => simp

/-- Telling the channels changes nothing but the channels and the pending sets. -/
theorem tellRewrite_frame (s : State) (n : ProfNo) :
    s.tellRewrite n = { s with chans := (s.tellRewrite n).chans, ports := (s.tellRewrite n).ports } := by
  have one (u : State) (c : ChanNo) : u.tellRewriteOf n c =
      { u with chans := (u.tellRewriteOf n c).chans, ports := (u.tellRewriteOf n c).ports } := (moves_tellRewriteOf u n c).eq
  rw [tellRewrite_eq]
  generalize h0 : s.tellRewriteOf n 0 = s0
  generalize h1 : s0.tellRewriteOf n 1 = s1
  generalize h2 : s1.tellRewriteOf n 2 = s2
  have e0 := one s 0
  have e1 := one s0 1
  have e2 := one s1 2
  rw [h0] at e0
  rw [h1] at e1
  rw [h2] at e2
  calc s2.tellRewriteOf n 3 = _ := one s2 3
    _ = _ := by rw [e2, e1, e0]

/-- A rewrite of a profile changes nothing but the library, the channels and the pending sets. -/
theorem writeProfile_eq (s : State) (n : ProfNo) (r : Profile) :
    s.writeProfile n r = { s with
      profiles := (s.writeProfile n r).profiles, chans := (s.writeProfile n r).chans, ports := (s.writeProfile n r).ports } := by
  unfold State.writeProfile
  split
  · rfl
  · have told := tellRewrite_frame (s.setProfile n r) n
    generalize (s.setProfile n r).tellRewrite n = u at told ⊢
    rw [told]
    rfl

theorem profile_tellRewrite (s : State) (n k : ProfNo) : (s.tellRewrite n).profile k = s.profile k := by
  have told := tellRewrite_frame s n
  generalize s.tellRewrite n = u at told ⊢
  rw [told]
  rfl

theorem profile_writeProfile (s : State) (n k : ProfNo) (r : Profile) :
    (s.writeProfile n r).profile k = if k = n then r else s.profile k := by
  unfold State.writeProfile
  split
  · split
    · rename_i h e; rw [e, h]
    · rfl
  · rw [profile_tellRewrite, State.profile_setProfile]

theorem chan_writeProfile (s : State) (n : ProfNo) (r : Profile) (c : ChanNo) :
    (s.writeProfile n r).chan c = if (s.chan c).place.profile = n ∧ r ≠ s.profile n then
      { s.chan c with place := { (s.chan c).place with replace := true } } else s.chan c := by
  unfold State.writeProfile
  by_cases h : s.profile n = r
  · rw [if_pos h, if_neg (fun hh => hh.2 h.symm)]
  · rw [if_neg h, chan_tellRewrite, State.chan_setProfile]
    simp only [ne_eq, Ne.symm h, not_false_eq_true, and_true]

/-- A rewrite of a profile touches no more of a channel than its pending re-placement. -/
theorem chan_writeProfile_replace (s : State) (n : ProfNo) (r : Profile) (c : ChanNo) :
    ∃ b, (s.writeProfile n r).chan c = { s.chan c with place := { (s.chan c).place with replace := b } } := by
  rw [chan_writeProfile]
  split
  · exact ⟨true, rfl⟩
  · exact ⟨(s.chan c).place.replace, rfl⟩

/-! ### The frame of an owner's work -/

/-- No command touches the frame rate or the memory. -/
theorem Acts.rate_memory {s t : State} (h : Acts s t) : t.rate = s.rate ∧ t.memory = s.memory := by
  have moved {c : ChanNo} {u : State} (m : s.Moves c u) : u.rate = s.rate ∧ u.memory = s.memory := ⟨m.rate, m.memory⟩
  cases h with
  | perform c n a fields => exact moved (moves_perform s c n _)
  | clear p c n => exact ⟨(moves_clearChannel s c).rate, (moves_clearChannel s c).memory⟩
  | target c d range => exact moved (moves_setTarget s c d)
  | release c => exact moved (moves_releaseBooth s c)
  | writeBooth b prm fields unclaimed => rw [putBooth_eq]; exact ⟨rfl, rfl⟩
  | mask m => rw [setMask_eq, putBooths_eq]; exact ⟨rfl, rfl⟩
  | writeProfile n prm defined fields zero => rw [writeProfile_eq]; exact ⟨rfl, rfl⟩
  | _ => exact ⟨rfl, rfl⟩

/-! ### The memory's canonical form -/

theorem wf_memoryAtRestart {s : State} (h : Memory.wf s.memory = true) (n : Nat) : Memory.wf (s.memoryAtRestart n) = true := by
  unfold State.memoryAtRestart
  split
  · exact wf_memWriteAll h _
  · exact h
  · exact h

theorem wf_memContents (a : MemoryAnswer) {m : List Host.Cell} (h : Memory.wf m = true) : Memory.wf (memContents a m) = true := by
  cases a with
  | unreadable => exact h
  | held => exact h
  | prepared image => exact wf_memWriteAll rfl _

theorem ownKeeps_memory : OwnKeeps (fun s => Memory.wf s.memory = true) where
  aside _ _ _ h := h
  acts _ _ _ ha h := by rw [ha.rate_memory.2]; exact h
  store _ _ _ h := h
  path _ _ _ _ h := h
  frameStart s c pic a t _ h := by rw [(moves_frameStart s c pic a t).memory]; exact h
  linkEnd s slots h := by rw [State.linkEnd, boothEnds_eq, putBooths_eq]; exact h
  linkBegin _ h := h
  restart _ _ n h := wf_memoryAtRestart h n
  startUp s m hp h := by
    have kept (u : State) (old : Option (Vector Nat 4)) : (u.resetDelays old).memory = u.memory := by
      cases old <;> simp [State.resetDelays]
    simp only [State.startUp, hp, kept]
    exact wf_memContents m h
  served _ _ _ hm h := hm h

end Sys2Proof.Machine

namespace Sys2Proof.Proofs
open Sys2Proof.Machine

/-- Settles O60: every write goes through `memWrite`, which keeps the form; nothing else touches the memory. -/
theorem everyStepKeepsMemoryForm : Obligations.EveryStepKeepsMemoryForm :=
  fun _ _ h hstep => ownKeeps_memory.stepKeeps.step h hstep

end Sys2Proof.Proofs
end

section
/-!
PROOF. The laws of presenter and assignment in every step (R80, R81, R104).
-/
namespace Sys2Proof.Machine

/-- A move that leaves its own channel within the laws keeps the laws: the others' presenters and assignments are as they were. -/
theorem State.Moves.airLaws {s t : State} {c : ChanNo} (h : s.Moves c t) (hs : s.AirLaws)
    (own : airLaw (t.chan c).pres (t.chan c).assign = true) : t.AirLaws := by
  intro d
  by_cases hd : d = c
  · rw [hd]; exact own
  · rw [h.others d hd]; exact hs d

/-- States whose presenters and assignments agree are within the laws together. -/
theorem airLaws_congr {s t : State}
    (h : ∀ c, (t.chan c).pres = (s.chan c).pres ∧ (t.chan c).assign = (s.chan c).assign) (hs : s.AirLaws) : t.AirLaws := by
  intro c
  rw [(h c).1, (h c).2]
  exact hs c

/-- A channel whose presenter is not visible has neither a release pending nor a handover in progress. -/
theorem airLaw_hidden {p : Presenter} {a : Assign} (h : airLaw p a = true) (hv : p.state.visible = false) :
    a.releasePending = false ∧ a.incoming = none := by
  simp only [airLaw, Bool.and_eq_true, Bool.or_eq_true, Bool.not_eq_true', beq_iff_eq] at h
  obtain ⟨⟨-, hrp⟩, hinc⟩ := h
  constructor
  · rcases hrp with hr | hf
    · exact hr
    · rw [hf] at hv; cases hv
  · cases hi : a.incoming with
    | none => rfl
    | some i => simp [hi, hv] at hinc

/-- A release and a handover do not stand together. -/
theorem airLaw_exclusive {p : Presenter} {a : Assign} (h : airLaw p a = true) (hr : a.releasePending = true) :
    a.incoming = none := by
  simp only [airLaw, Bool.and_eq_true] at h
  cases hi : a.incoming with
  | none => rfl
  | some i => simp [hi, hr] at h

theorem airLaw_loss {p : Presenter} {a : Assign} (h : airLaw p a = true) (m : LossMode) :
    airLaw { p with loss := m } a = true := h

theorem stateLaw_clear (p : Presenter) : p.clear.stateLaw = true := by simp [Presenter.clear, Presenter.stateLaw]

/-- A feed is usable only with a booth assigned (R81). -/
theorem assigned_of_feedUsable {s : State} {c : ChanNo} (h : s.feedUsable c = true) :
    (s.chan c).assign.assigned.isSome = true := by
  unfold State.feedUsable State.assignedHealth at h
  cases ha : (s.chan c).assign.assigned with
  | none => simp [ha] at h
  | some b => rfl

theorem airLaws_perform {s : State} (h : s.AirLaws) (c : ChanNo) (n : Option Nat) (a : Action) : (s.perform c n a).1.AirLaws := by
  have place (pl : Place) : (s.setPlace c pl).AirLaws := airLaws_congr (fun d => by simp) h
  cases a with
  | presenterOn =>
    refine (moves_presenterOn s c n).airLaws h ?_
    simp only [State.presenterOn, State.setPres, State.chan_setChan_self]
    exact airLaw_actionOn (h c) assigned_of_feedUsable _
  | presenterOff =>
    refine (moves_presenterOff s c n).airLaws h ?_
    simp only [State.presenterOff, State.setPres, State.chan_setChan_self]
    exact airLaw_actionOff (h c) _
  | selectProfile k =>
    simp only [State.perform]
    split
    · exact place _
    · exact h
  | setZone z w => exact place _
  | clearZone z => exact place _
  | setDelay d => exact airLaws_congr (fun e => by simp [State.perform]) h
  | mark => exact h

theorem airLaws_handoverStep {s : State} (h : s.AirLaws) (c : ChanNo) : (s.handoverStep c).AirLaws := by
  refine (moves_handoverStep s c).airLaws h ?_
  unfold State.handoverStep
  dsimp only
  split
  · exact h c
  · rename_i inc hi
    simp only [State.chan_raiseIf, State.setAssign, State.chan_setChan_self]
    exact airLaw_handover (h c) hi _ _

theorem airLaws_presenterStep {s : State} (h : s.AirLaws) (c : ChanNo) : (s.presenterStep c).AirLaws := by
  refine (moves_presenterStep s c).airLaws h ?_
  rw [chan_presenterStep]
  exact airLaw_step (h c) (fun hh => by simpa [State.assignedHealth] using hh) _

theorem airLaws_placementStep {s : State} (h : s.AirLaws) (c : ChanNo) : (s.placementStep c).AirLaws :=
  (moves_placementStep s c).airLaws h (by rw [chan_placementStep]; exact h c)

theorem airLaws_composeStep {s : State} (h : s.AirLaws) (c : ChanNo) : (s.composeStep c).AirLaws :=
  (moves_composeStep s c).airLaws h (by rw [chan_composeStep]; exact h c)

theorem airLaws_dispatchKeeps (c : ChanNo) : DispatchKeeps State.AirLaws (fun _ => True) c where
  cues _ _ _ h := airLaws_congr (fun d => by simp [State.setCues]) h
  perform _ q _ h := airLaws_perform h c q.fade q.action
  outcome _ _ _ _ h := airLaws_congr (fun d => by simp) h
  raiseIf _ _ _ h := airLaws_congr (fun d => by simp) h

theorem airLaws_frameStart {s : State} (h : s.AirLaws) (c : ChanNo) (pic : Picture) (a : Audio) (t : Option Timecode) :
    (s.frameStart c pic a t).AirLaws := by
  have entered : (s.pathStep c pic a t).AirLaws := airLaws_congr (fun d => by simp) h
  have dispatched := (airLaws_dispatchKeeps c).dispatch (fun _ _ => trivial) entered
  exact airLaws_composeStep (airLaws_placementStep (airLaws_presenterStep (airLaws_handoverStep dispatched c) c) c) c

/-- CLEAR CHANNEL on its channel (R76, R101, R113). -/
theorem chan_clearChannel (s : State) (c : ChanNo) :
    (s.clearChannel c).chan c = { s.chan c with
      pres := (s.chan c).pres.clear
      place := (s.chan c).place.clear
      assign := if (s.chan c).pres.state.visible then (s.chan c).assign.onReport else (s.chan c).assign
      sched := (s.chan c).sched.clear } := by
  unfold State.clearChannel
  dsimp only
  split <;> simp [chan_visibilityReport]

theorem airLaws_clearChannel {s : State} (h : s.AirLaws) (c : ChanNo) : (s.clearChannel c).AirLaws := by
  refine (moves_clearChannel s c).airLaws h ?_
  rw [chan_clearChannel]
  dsimp only
  have cleared := stateLaw_clear (s.chan c).pres
  split
  · exact airLaw_onReport cleared rfl (airLaw_exclusive (h c))
  · rename_i hv
    obtain ⟨hr, hi⟩ := airLaw_hidden (h c) (by simpa using hv)
    simp only [airLaw, hr, hi, cleared]
    rfl

theorem airLaws_releaseBooth {s : State} (h : s.AirLaws) (c : ChanNo) : (s.releaseBooth c).AirLaws := by
  refine (moves_releaseBooth s c).airLaws h ?_
  have released := airLaw_release (h c) (s.currentProfile c).fade
  unfold State.releaseBooth
  dsimp only
  rw [State.chan_raiseIf]
  split
  · rw [if_pos ‹_›] at released
    simpa using released
  · rw [if_neg ‹_›] at released
    simpa using released

theorem airLaws_acts {s t : State} (ha : Acts s t) (h : s.AirLaws) : t.AirLaws := by
  have kept {t : State} (e : ∀ c, (t.chan c).pres = (s.chan c).pres ∧ (t.chan c).assign = (s.chan c).assign) : t.AirLaws :=
    airLaws_congr e h
  cases ha with
  | addCues c l checked fields => exact kept fun d => by simp [State.insertCues, State.setCues]
  | dropCues c l sub => exact kept fun d => by simp [State.setCues]
  | perform c n a fields => exact airLaws_perform h c n _
  | readOutcomes c => exact kept fun d => by simp
  | lateLimit c n range => exact kept fun d => by simp
  | loss c m => exact (moves_setPres s c _).airLaws h (by simpa using airLaw_loss (h c) m)
  | clear p c n => exact airLaws_clearChannel h c
  | target c d range => exact kept fun d => by simp
  | slew c n range => exact kept fun d => by simp
  | writeBooth b prm fields unclaimed => exact kept fun d => by simp
  | mask m => exact kept fun d => by rw [chan_setMask]; exact ⟨rfl, rfl⟩
  | writeProfile n prm defined fields zero =>
    exact kept fun d => by
      obtain ⟨b, hb⟩ := chan_writeProfile_replace s n (profileAt prm 1 defined) d
      rw [hb]
      exact ⟨rfl, rfl⟩
  | assign c b nx a range taken =>
    refine State.Moves.airLaws (t := (s.setAssign c a).raise (.assignment c))
      ((moves_setAssign s c a).trans (moves_raise _ c _)) h ?_
    simpa using airLaw_assign (h c) range taken
  | release c => exact airLaws_releaseBooth h c
  | _ => exact h

end Sys2Proof.Machine
end

section
/-!
PROOF. What the unit restart and the completion of start-up leave in every item (R166 to R170); the laws of presenter and assignment.
-/
namespace Sys2Proof.Machine

/-! ### The grants of a start-up (R19) -/

theorem chan_startGrant (s : State) (c d : ChanNo) :
    (s.startGrant c).chan d = if d = c then { s.chan c with pool := { (s.chan c).pool with
      granted := s.grantFor c (s.chan c).pool.target
      clamped := decide (s.grantFor c (s.chan c).pool.target < (s.chan c).pool.target) } } else s.chan d :=
  State.chan_setPool s c _ d

theorem chan_startGrants_pool (s : State) (c : ChanNo) :
    s.startGrants.chan c = { s.chan c with pool := { (s.chan c).pool with
      granted := (s.startGrants.chan c).pool.granted, clamped := (s.startGrants.chan c).pool.clamped } } := by
  have one (u : State) (d : ChanNo) : (u.startGrant d).chan c = { u.chan c with pool := { (u.chan c).pool with
      granted := ((u.startGrant d).chan c).pool.granted, clamped := ((u.startGrant d).chan c).pool.clamped } } := by
    rw [chan_startGrant]
    split
    · rename_i e; rw [e]
    · rfl
  unfold State.startGrants
  generalize h0 : s.startGrant 0 = s0
  generalize h1 : s0.startGrant 1 = s1
  generalize h2 : s1.startGrant 2 = s2
  have e0 := one s 0
  have e1 := one s0 1
  have e2 := one s1 2
  rw [h0] at e0
  rw [h1] at e1
  rw [h2] at e2
  rw [one s2 3, e2, e1, e0]

/-! ### The state a start-up leaves -/

/-- The settings in place and the grants computed: what a start-up's placements are chosen in. -/
def State.settled (s : State) (m : MemoryAnswer) : State :=
  (({ s with memory := memContents m s.memory } : State).load (startSettings m s.memory)).startGrants

theorem chan_settled (s : State) (m : MemoryAnswer) (c : ChanNo) :
    (s.settled m).chan c = { (s.chan c).load (startSettings m s.memory).chans[c] with
      pool := { (s.chan c).pool with
        target := (startSettings m s.memory).chans[c].target
        granted := ((s.settled m).chan c).pool.granted, clamped := ((s.settled m).chan c).pool.clamped } } := by
  have loaded : (({ s with memory := memContents m s.memory } : State).load (startSettings m s.memory)).chan c =
      (s.chan c).load (startSettings m s.memory).chans[c] := by
    simp [State.load, State.chan]
  have granted := chan_startGrants_pool (({ s with memory := memContents m s.memory } : State).load (startSettings m s.memory)) c
  rw [loaded] at granted
  exact granted

theorem profile_settled (s : State) (m : MemoryAnswer) (n : ProfNo) :
    (s.settled m).profile n = (startSettings m s.memory).profiles[n] := rfl

theorem chan_startPlacements (s : State) (c : ChanNo) :
    s.startPlacements.chan c = { s.chan c with place := (s.chan c).place.startUp (s.currentProfile c) } := by
  simp [State.startPlacements, State.chan]

/-- The notices of a start-up change pending sets alone. -/
theorem resetDelays_frame (s : State) (old : Option (Vector Nat 4)) :
    s.resetDelays old = { s with ports := (s.resetDelays old).ports } := by
  cases old with
  | none => rfl
  | some v =>
    apply State.ext_accessors <;> intros <;> simp [State.resetDelays] <;> rfl

section
variable {s : State} (hp : s.loader.phase = .starting) (m : MemoryAnswer)
include hp

/-- A start-up leaves its settings, grants and placements in the blocks, its roles and notices at the ports, and the loader serving. -/
theorem startUp_eq : s.startUp m = { (s.settled m).startPlacements with
    linkInFrame := false
    ports := (s.startUp m).ports
    loader := { phase := .serving, pendingRoles := some (s.loader.roles (startSettings m s.memory)), rolesPending := false,
                defaulted := !memAnswerValid m s.memory, grantsAtReset := none, resetPort := none } } := by
  simp only [State.startUp, hp]
  rw [resetDelays_frame]
  rfl

theorem chan_startUp (c : ChanNo) : (s.startUp m).chan c = { (s.settled m).chan c with
    place := ((s.settled m).chan c).place.startUp ((s.settled m).currentProfile c) } := by
  rw [startUp_eq hp, ← chan_startPlacements]; rfl

theorem profile_startUp (n : ProfNo) : (s.startUp m).profile n = (startSettings m s.memory).profiles[n] := by
  rw [startUp_eq hp]; rfl

theorem booth_startUp (b : BoothNo) : (s.startUp m).booth b = restartBooth (startSettings m s.memory).booths[b] := by
  rw [startUp_eq hp]
  change (Vector.ofFn _)[b] = _
  simp

theorem rate_startUp : (s.startUp m).rate = (startSettings m s.memory).rate := by rw [startUp_eq hp]; rfl
theorem slotMask_startUp : (s.startUp m).slotMask = (startSettings m s.memory).mask := by rw [startUp_eq hp]; rfl
theorem phase_startUp : (s.startUp m).loader.phase = .serving := by rw [startUp_eq hp]

end

/-! ### The state a restart leaves -/

theorem chan_restart (s : State) (cause : RestartCause) (n : Nat) (c : ChanNo) : (s.restart cause n).chan c = restartChannel := by
  change (Vector.replicate 4 restartChannel)[c] = _
  simp

theorem booth_restart (s : State) (cause : RestartCause) (n : Nat) (b : BoothNo) :
    (s.restart cause n).booth b = restartBooth defaultBoothRecord := by
  change (Vector.replicate 6 (restartBooth defaultBoothRecord))[b] = _
  simp

theorem port_restart (s : State) (cause : RestartCause) (n : Nat) (p : PortNo) : (s.restart cause n).port p = restartPort := by
  change (Vector.replicate 6 restartPort)[p] = _
  simp

theorem profile_restart (s : State) (cause : RestartCause) (n : Nat) (k : ProfNo) :
    (s.restart cause n).profile k = defaultProfiles[k] := rfl

theorem phase_restarted (l : Loader) (cause : RestartCause) : (l.restarted cause).phase = .starting := by cases cause <;> rfl

theorem phase_restart (s : State) (cause : RestartCause) (n : Nat) : (s.restart cause n).loader.phase = .starting :=
  phase_restarted _ _

/-! ### Presenter and assignment -/

theorem airLaws_restart (s : State) (cause : RestartCause) (n : Nat) : (s.restart cause n).AirLaws := by
  intro c
  rw [chan_restart]
  decide

theorem ownKeeps_airLaws : OwnKeeps State.AirLaws where
  aside _ _ _ h := h
  acts _ _ _ ha h := airLaws_acts ha h
  store _ _ _ h := h
  path _ _ _ _ h := airLaws_congr (fun d => by simp) h
  frameStart _ c pic a t _ h := airLaws_frameStart h c pic a t
  linkEnd _ _ h := airLaws_congr (fun d => by rw [chan_linkEnd]; exact ⟨rfl, rfl⟩) h
  linkBegin _ h := h
  restart s cause n _ := airLaws_restart s cause n
  startUp s m hp h c := by
    rw [chan_startUp hp, chan_settled]
    exact h c
  served _ _ _ _ h := h

end Sys2Proof.Machine

namespace Sys2Proof.Proofs
open Sys2Proof.Machine

/-- Settles O40: of a step's parts, only frame starts, presenter actions and the assignment commands touch a presenter or an
assignment, and each keeps the laws of its channel. -/
theorem everyStepKeepsAirLaws : Obligations.EveryStepKeepsAirLaws :=
  fun _ _ h hstep => ownKeeps_airLaws.stepKeeps.step h hstep

end Sys2Proof.Proofs
end

section
/-!
PROOF. The laws of the profile library and the placement units in every step (R57, R58, R60, R63).
-/
namespace Sys2Proof.Machine
open scoped List

/-! ### Records received and loaded -/

/-- An action read from a record names a zone that begins in the picture, and a target of at most 150 (R122, fields 7 to 11). -/
theorem rawAction_ok (q : RawAction) : (q.action.getD .mark).zoneOk = true ∧ (q.action.getD .mark).delayOk = true := by
  unfold RawAction.action
  split
  · exact ⟨rfl, rfl⟩
  · exact ⟨rfl, rfl⟩
  · cases profOf q.param <;> exact ⟨rfl, rfl⟩
  · split
    · rename_i hw
      cases boothOf q.param with
      | none => exact ⟨rfl, rfl⟩
      | some z => exact ⟨decide_eq_true ⟨hw.1, hw.2.1⟩, rfl⟩
    · exact ⟨rfl, rfl⟩
  · cases boothOf q.param <;> exact ⟨rfl, rfl⟩
  · split
    · exact ⟨rfl, decide_eq_true ‹_›⟩
    · exact ⟨rfl, rfl⟩
  · exact ⟨rfl, rfl⟩
  · exact ⟨rfl, rfl⟩

/-- The cues of a block inserted one after another are added to the list's (R126). -/
theorem perm_insertCues (key : Cue → Int) (l acc : List Cue) :
    (l.foldl (fun acc q => insertCue key q acc) acc).Perm (l ++ acc) := by
  have one (q : Cue) (acc : List Cue) : (insertCue key q acc).Perm (q :: acc) := by
    rw [insertCue_eq]
    calc _ ~ q :: (acc.takeWhile _ ++ acc.dropWhile _) := List.perm_middle
      _ = q :: acc := by rw [List.takeWhile_append_dropWhile]
  induction l generalizing acc with
  | nil => exact .refl _
  | cons q l ih => exact (ih _).trans (((one q acc).append_left l).trans List.perm_middle)

theorem inRange_defaultProfile (d : Bool) : (defaultProfile d).inRange = true := by cases d <;> decide

/-- A crop rounded down to a multiple of 24 stays above 96, a multiple itself (R60). -/
theorem crop24_range {n lo hi : Nat} (h : 24 * lo ≤ n ∧ n ≤ hi) : 24 * lo ≤ crop24 n ∧ crop24 n ≤ hi ∧ crop24 n % 24 = 0 := by
  unfold crop24; omega

/-- Every test of a list that finds no fault passes. -/
theorem firstFault_none {l : List (Nat × Bool)} (h : firstFault l = none) : ∀ x ∈ l, x.2 = true := by
  induction l with
  | nil => simp
  | cons x t ih =>
    obtain ⟨hx, ht⟩ := firstFault_cons_none h
    exact List.forall_mem_cons.2 ⟨hx, ih ht⟩

/-- A profile record whose fields pass their tests is stored within the ranges (R59, R60). -/
theorem inRange_profileAt {bs : List Byte} {i : Nat} (h : firstFault (profileTests bs i) = none) (d : Bool) :
    (profileAt bs i d).inRange = true := by
  have tests := firstFault_none h
  have test (k : Nat) (ok : Bool) (hm : (k, ok) ∈ profileTests bs i) : ok = true := tests _ hm
  have cw := of_decide_eq_true (test 2 (decide (96 ≤ nat16At bs i ∧ nat16At bs i ≤ 960)) (by simp [profileTests]))
  have ch := of_decide_eq_true (test 3 (decide (96 ≤ nat16At bs (i + 2) ∧ nat16At bs (i + 2) ≤ 528)) (by simp [profileTests]))
  have fp := of_decide_eq_true (test 4 (decide (1 ≤ natAt bs (i + 4) ∧ natAt bs (i + 4) ≤ 4)) (by simp [profileTests]))
  have ff := test 5 (natAt bs (i + 5) == 0 || decide (natAt bs (i + 4) < natAt bs (i + 5) ∧ natAt bs (i + 5) ≤ 4))
    (by simp [profileTests])
  have count := of_decide_eq_true (test 6 (decide (1 ≤ natAt bs (i + 6) ∧ natAt bs (i + 6) ≤ 4)) (by simp [profileTests]))
  have edge := of_decide_eq_true (test 15 (decide (natAt bs (i + 23) ≤ 15)) (by simp [profileTests]))
  have fade := of_decide_eq_true (test 16 (decide (natAt bs (i + 24) ≤ 250)) (by simp [profileTests]))
  have move := of_decide_eq_true (test 17 (decide (natAt bs (i + 25) ≤ 100)) (by simp [profileTests]))
  have coord (k : Nat) (hk : k < natAt bs (i + 6)) : (positionAt bs i k).1 ≤ 1919 ∧ (positionAt bs i k).2 ≤ 1079 := by
    have hk4 : k < 4 := by omega
    have hx := test (7 + 2 * k) (decide (natAt bs (i + 6) ≤ k) || decide ((positionAt bs i k).1 ≤ 1919))
      (by interval_cases k <;> simp [profileTests])
    have hy := test (8 + 2 * k) (decide (natAt bs (i + 6) ≤ k) || decide ((positionAt bs i k).2 ≤ 1079))
      (by interval_cases k <;> simp [profileTests])
    simp only [Bool.or_eq_true, decide_eq_true_eq] at hx hy
    omega
  have hcw := crop24_range (lo := 4) cw
  have hch := crop24_range (lo := 4) ch
  have hff : (if natAt bs (i + 5) = 0 then none else some (natAt bs (i + 5))).all
      (fun f => decide (natAt bs (i + 4) < f ∧ f ≤ 4)) = true := by
    split
    · rfl
    · simp_all
  have hpos : ((List.range (natAt bs (i + 6))).map (positionAt bs i)).all (fun q => decide (q.1 ≤ 1919 ∧ q.2 ≤ 1079)) = true := by
    rw [List.all_eq_true]
    intro q hq
    obtain ⟨k, hk, rfl⟩ := List.mem_map.1 hq
    exact decide_eq_true (coord k (List.mem_range.1 hk))
  have fields : (96 ≤ crop24 (nat16At bs i) ∧ crop24 (nat16At bs i) ≤ 960 ∧ crop24 (nat16At bs i) % 24 = 0 ∧
      96 ≤ crop24 (nat16At bs (i + 2)) ∧ crop24 (nat16At bs (i + 2)) ≤ 528 ∧ crop24 (nat16At bs (i + 2)) % 24 = 0) :=
    ⟨hcw.1, hcw.2.1, hcw.2.2, hch⟩
  simp only [Profile.inRange, profileAt, fields, fp, count, hpos, edge, fade, move, decide_true, Bool.and_true, and_self,
    List.length_map, List.length_range]
  exact (Bool.true_and _).trans hff

/-- Every profile a start-up loads is in range, and P0 is defined (R58). -/
theorem inRange_loadProfile (body : List Byte) (n : ProfNo) :
    (loadProfile body n).inRange = true ∧ (n = 0 → (loadProfile body n).defined = true) := by
  have default : (defaultProfile (n == 0)).inRange = true ∧ (n = 0 → (defaultProfile (n == 0)).defined = true) :=
    ⟨inRange_defaultProfile _, fun h => by simp [h, defaultProfile]⟩
  unfold loadProfile
  split
  · split
    · rename_i ht
      exact ⟨inRange_profileAt (by simpa using ht) true, fun _ => rfl⟩
    · exact default
  · exact default

theorem defaultProfiles_get (n : ProfNo) : defaultProfiles[n] = defaultProfile (n == 0) := by
  revert n; decide

theorem inRange_startSettings (m : MemoryAnswer) (mem : List Host.Cell) (n : ProfNo) :
    (startSettings m mem).profiles[n].inRange = true ∧ (n = 0 → (startSettings m mem).profiles[n].defined = true) := by
  unfold startSettings
  split
  · simpa [loadBody] using inRange_loadProfile _ n
  · change (defaultProfiles[n]).inRange = true ∧ (n = 0 → (defaultProfiles[n]).defined = true)
    rw [defaultProfiles_get]
    exact ⟨inRange_defaultProfile _, fun h => by simp [h, defaultProfile]⟩

/-! ### The operations of a placement unit -/

theorem laws_setZone {pl : Place} (h : pl.laws = true) (z : ZoneNo) {w : Window} (hw : w.x ≤ 1919 ∧ w.y ≤ 1079) :
    (pl.setZone z w).laws = true := by
  simp only [Place.laws, Bool.and_eq_true, List.all_eq_true] at h ⊢
  obtain ⟨⟨hf, hz⟩, hm⟩ := h
  refine ⟨⟨hf, fun x hx => ?_⟩, hm⟩
  rcases Vector.mem_or_eq_of_mem_set (hi := z.isLt) (Vector.mem_toList_iff.1 hx) with hx | rfl
  · exact hz x (Vector.mem_toList_iff.2 hx)
  · exact trim_inPicture hw.1 hw.2

theorem laws_clearZone {pl : Place} (h : pl.laws = true) (z : ZoneNo) : (pl.clearZone z).laws = true := by
  simp only [Place.laws, Bool.and_eq_true, List.all_eq_true] at h ⊢
  obtain ⟨⟨hf, hz⟩, hm⟩ := h
  refine ⟨⟨hf, fun x hx => ?_⟩, hm⟩
  rcases Vector.mem_or_eq_of_mem_set (hi := z.isLt) (Vector.mem_toList_iff.1 hx) with hx | rfl
  · exact hz x (Vector.mem_toList_iff.2 hx)
  · exact hz pl.zones[z] (Vector.mem_toList_iff.2 (Vector.getElem_mem _))

theorem laws_select {pl : Place} (h : pl.laws = true) (n : ProfNo) : (pl.select n).laws = true := h

theorem laws_placeClear {pl : Place} (h : pl.laws = true) : pl.clear.laws = true := by
  simp only [Place.laws, Bool.and_eq_true, List.all_eq_true] at h ⊢
  obtain ⟨⟨hf, hz⟩, -⟩ := h
  refine ⟨⟨hf, fun x hx => ?_⟩, rfl⟩
  obtain ⟨i, -, rfl⟩ := Vector.mem_ofFn.1 (Vector.mem_toList_iff.1 hx)
  exact hz pl.zones[i] (Vector.mem_toList_iff.2 (Vector.getElem_mem _))

theorem laws_placeStartUp {pl : Place} (h : pl.laws = true) {p : Profile} (hp : p.inRange = true) :
    (pl.startUp p).laws = true := by
  simp only [Place.laws, Bool.and_eq_true] at h
  have hc := choose_factorOk hp (zones := []) h.1.1.1
  simp [Place.laws, Place.startUp, hc, h]

/-! ### The laws of the state -/

theorem profile_putBooth (s : State) (b : BoothNo) (x : Booth) (n : ProfNo) : (s.putBooth b x).profile n = s.profile n := by
  rw [putBooth_eq]; rfl

theorem profile_putBooths (s : State) (g : BoothNo → Booth → Booth) (l : List BoothNo) (n : ProfNo) :
    (s.putBooths g l).profile n = s.profile n := by rw [putBooths_eq]; rfl

theorem profile_setMask (s : State) (m : BitVec 8) (n : ProfNo) : (s.setMask m).profile n = s.profile n := by
  rw [setMask_eq, profile_putBooths]; rfl

theorem profile_linkEnd (s : State) (slots : List SlotRx) (n : ProfNo) : (s.linkEnd slots).profile n = s.profile n := by
  rw [State.linkEnd, boothEnds_eq, profile_putBooths]; rfl

/-- A move that leaves its own channel within the laws keeps the laws: profiles, and the others' placements and cues, are as they
were. -/
theorem State.Moves.layoutLaws {s t : State} {c : ChanNo} (h : s.Moves c t) (hs : s.LayoutLaws)
    (place : (t.chan c).place.laws = true) (cues : ∀ q ∈ (t.chan c).sched.cues, q.action.zoneOk = true) : t.LayoutLaws := by
  obtain ⟨zero, range, chans⟩ := hs
  refine ⟨by rw [h.profile]; exact zero, fun n => by rw [h.profile]; exact range n, fun d => ?_⟩
  by_cases hd : d = c
  · rw [hd]; exact ⟨place, cues⟩
  · rw [h.others d hd]; exact chans d

theorem layoutLaws_congr {s t : State} (h : s.LayoutLaws) (profiles : ∀ n, t.profile n = s.profile n)
    (chans : ∀ c, (t.chan c).place = (s.chan c).place ∧ (t.chan c).sched.cues = (s.chan c).sched.cues) : t.LayoutLaws := by
  obtain ⟨zero, range, each⟩ := h
  refine ⟨by rw [profiles]; exact zero, fun n => by rw [profiles]; exact range n, fun c => ?_⟩
  rw [(chans c).1, (chans c).2]
  exact each c

section
variable {s : State} (h : s.LayoutLaws) (c : ChanNo)
include h

theorem zoneOk_of_layoutLaws : ∀ q ∈ (s.chan c).sched.cues, q.action.zoneOk = true := (h.2.2 c).2

theorem layoutLaws_setPlace {pl : Place} (hp : pl.laws = true) : (s.setPlace c pl).LayoutLaws :=
  (moves_setPlace s c pl).layoutLaws h (by simpa using hp) (by simpa using (h.2.2 c).2)

theorem layoutLaws_setCues {l : List Cue} (hl : ∀ q ∈ l, q.action.zoneOk = true) : (s.setCues c l).LayoutLaws :=
  (moves_setSched s c _).layoutLaws h (by simpa using (h.2.2 c).1) (by simpa using hl)

theorem layoutLaws_perform (n : Option Nat) {a : Action} (ha : a.zoneOk = true) : (s.perform c n a).1.LayoutLaws := by
  have own := (h.2.2 c).1
  cases a with
  | presenterOn => exact (moves_presenterOn s c n).layoutLaws h (by simpa [State.perform, State.presenterOn] using own) (by simpa [State.perform, State.presenterOn] using (h.2.2 c).2)
  | presenterOff => exact (moves_presenterOff s c n).layoutLaws h (by simpa [State.perform, State.presenterOff] using own) (by simpa [State.perform, State.presenterOff] using (h.2.2 c).2)
  | selectProfile k =>
    simp only [State.perform]
    split
    · exact layoutLaws_setPlace h c (laws_select own k)
    · exact h
  | setZone z w => exact layoutLaws_setPlace h c (laws_setZone own z (of_decide_eq_true ha))
  | clearZone z => exact layoutLaws_setPlace h c (laws_clearZone own z)
  | setDelay d =>
    exact layoutLaws_congr h (fun n => (moves_setTarget s c d).profile n) (fun e => by simp [State.perform])
  | mark => exact h

theorem layoutLaws_placementStep : (s.placementStep c).LayoutLaws :=
  (moves_placementStep s c).layoutLaws h
    (by rw [chan_placementStep]; exact laws_placeStep (h.2.2 c).1 (h.2.1 _) _)
    (by rw [chan_placementStep]; exact (h.2.2 c).2)

end

theorem layoutLaws_dispatchKeeps (c : ChanNo) : DispatchKeeps State.LayoutLaws (fun q => q.action.zoneOk = true) c where
  cues _ _ hl h := layoutLaws_setCues h c hl
  perform _ q hq h := layoutLaws_perform h c q.fade hq
  outcome _ _ _ _ h := layoutLaws_congr h (fun _ => rfl) (fun d => by simp)
  raiseIf _ _ _ h := layoutLaws_congr h (fun _ => by simp) (fun d => by simp)

/-- The handover step and the presenter step leave placements and cues as they are. -/
theorem layoutLaws_handoverStep {s : State} (h : s.LayoutLaws) (c : ChanNo) : (s.handoverStep c).LayoutLaws :=
  (moves_handoverStep s c).layoutLaws h (by rw [kept_handoverStep]; exact (h.2.2 c).1)
    (by rw [kept_handoverStep]; exact (h.2.2 c).2)

theorem layoutLaws_presenterStep {s : State} (h : s.LayoutLaws) (c : ChanNo) : (s.presenterStep c).LayoutLaws :=
  (moves_presenterStep s c).layoutLaws h (by rw [chan_presenterStep]; exact (h.2.2 c).1)
    (by rw [chan_presenterStep]; exact (h.2.2 c).2)

theorem layoutLaws_composeStep {s : State} (h : s.LayoutLaws) (c : ChanNo) : (s.composeStep c).LayoutLaws :=
  (moves_composeStep s c).layoutLaws h (by rw [chan_composeStep]; exact (h.2.2 c).1)
    (by rw [chan_composeStep]; exact (h.2.2 c).2)

theorem layoutLaws_pathStep {s : State} (h : s.LayoutLaws) (c : ChanNo) (pic : Picture) (a : Audio) (t : Option Timecode) :
    (s.pathStep c pic a t).LayoutLaws :=
  layoutLaws_congr h (fun n => (moves_pathStep s c pic a t).profile n) (fun d => by simp)

theorem layoutLaws_frameStart {s : State} (h : s.LayoutLaws) (c : ChanNo) (pic : Picture) (a : Audio) (t : Option Timecode) :
    (s.frameStart c pic a t).LayoutLaws := by
  have entered := layoutLaws_pathStep h c pic a t
  have dispatched := (layoutLaws_dispatchKeeps c).dispatch (zoneOk_of_layoutLaws entered c) entered
  unfold State.frameStart State.transitions
  exact layoutLaws_composeStep
    (layoutLaws_placementStep (layoutLaws_presenterStep (layoutLaws_handoverStep dispatched c) c) c) c

theorem layoutLaws_clearChannel {s : State} (h : s.LayoutLaws) (c : ChanNo) : (s.clearChannel c).LayoutLaws :=
  (moves_clearChannel s c).layoutLaws h (by rw [chan_clearChannel]; exact laws_placeClear (h.2.2 c).1)
    (by rw [chan_clearChannel]; simp [Sched.clear])

theorem layoutLaws_releaseBooth {s : State} (h : s.LayoutLaws) (c : ChanNo) : (s.releaseBooth c).LayoutLaws := by
  refine layoutLaws_congr h (fun n => (moves_releaseBooth s c).profile n) (fun d => ?_)
  unfold State.releaseBooth
  dsimp only
  rw [State.chan_raiseIf]
  split <;> simp

theorem layoutLaws_writeProfile {s : State} (h : s.LayoutLaws) (n : ProfNo) {r : Profile} (hr : r.inRange = true)
    (hz : n = 0 → r.defined = true) : (s.writeProfile n r).LayoutLaws := by
  obtain ⟨zero, range, each⟩ := h
  refine ⟨?_, fun k => ?_, fun c => ?_⟩
  · rw [profile_writeProfile]
    split
    · exact hz (Eq.symm ‹_›)
    · exact zero
  · rw [profile_writeProfile]
    split
    · exact hr
    · exact range k
  · obtain ⟨b, hb⟩ := chan_writeProfile_replace s n r c
    rw [hb]
    exact each c

theorem layoutLaws_acts {s t : State} (ha : Acts s t) (h : s.LayoutLaws) : t.LayoutLaws := by
  have moved {c : ChanNo} {t : State} (m : s.Moves c t)
      (e : (t.chan c).place = (s.chan c).place ∧ (t.chan c).sched.cues = (s.chan c).sched.cues) : t.LayoutLaws :=
    m.layoutLaws h (by rw [e.1]; exact (h.2.2 c).1) (by rw [e.2]; exact (h.2.2 c).2)
  cases ha with
  | addCues c l checked fields =>
    refine layoutLaws_setCues h c ?_
    intro q hq
    rcases List.mem_append.1 ((perm_insertCues _ l _).mem_iff.1 hq) with hq | hq
    · obtain ⟨w, -, -, rfl⟩ := fields q hq
      exact (rawAction_ok w.act).1
    · exact (h.2.2 c).2 q hq
  | dropCues c l sub => exact layoutLaws_setCues h c fun q hq => (h.2.2 c).2 q (sub.subset hq)
  | perform c n a fields => exact layoutLaws_perform h c n (rawAction_ok a).1
  | readOutcomes c => exact moved (moves_setSched s c _) (by simp)
  | lateLimit c n range => exact moved (moves_setSched s c _) (by simp)
  | loss c m => exact moved (moves_setPres s c _) (by simp)
  | clear p c n => exact layoutLaws_clearChannel h c
  | target c d range => exact moved (moves_setTarget s c d) (by simp)
  | slew c n range => exact moved (moves_setPath s c _) (by simp)
  | writeBooth b prm fields unclaimed =>
    exact layoutLaws_congr h (profile_putBooth s b _) fun c => by rw [chan_putBooth]; exact ⟨rfl, rfl⟩
  | mask m => exact layoutLaws_congr h (profile_setMask s m) fun c => by rw [chan_setMask]; exact ⟨rfl, rfl⟩
  | writeProfile n prm defined fields zero => exact layoutLaws_writeProfile h n (inRange_profileAt fields defined) zero
  | assign c b nx a range taken =>
    exact moved ((moves_setAssign s c a).trans (moves_raise _ c (.assignment c))) (by simp)
  | release c => exact layoutLaws_releaseBooth h c
  | _ => exact h

theorem laws_restartPlace : restartPlace.laws = true := by decide

theorem layoutLaws_restart (s : State) (cause : RestartCause) (n : Nat) : (s.restart cause n).LayoutLaws := by
  refine ⟨rfl, fun k => ?_, fun c => ?_⟩
  · rw [profile_restart, defaultProfiles_get]
    exact inRange_defaultProfile _
  · rw [chan_restart]
    exact ⟨laws_restartPlace, by simp [restartChannel, restartSched]⟩

theorem ownKeeps_layoutLaws : OwnKeeps State.LayoutLaws where
  aside _ _ _ h := h
  acts _ _ _ ha h := layoutLaws_acts ha h
  store _ _ _ h := h
  path s c q _ h := layoutLaws_congr h (fun _ => rfl) (fun d => by simp)
  frameStart _ c pic a t _ h := layoutLaws_frameStart h c pic a t
  linkEnd s slots h := layoutLaws_congr h (profile_linkEnd s slots) fun c => by rw [chan_linkEnd]; exact ⟨rfl, rfl⟩
  linkBegin _ h := h
  restart s cause n _ := layoutLaws_restart s cause n
  startUp s m hp h := by
    refine ⟨?_, fun n => ?_, fun c => ?_⟩
    · rw [profile_startUp hp]
      exact (inRange_startSettings m s.memory 0).2 rfl
    · rw [profile_startUp hp]
      exact (inRange_startSettings m s.memory n).1
    · rw [chan_startUp hp, chan_settled]
      have loaded : ((s.chan c).load (startSettings m s.memory).chans[c]).place.laws = true := (h.2.2 c).1
      exact ⟨laws_placeStartUp loaded (inRange_startSettings m s.memory _).1, (h.2.2 c).2⟩
  served _ _ _ _ h := h

end Sys2Proof.Machine

namespace Sys2Proof.Proofs
open Sys2Proof.Machine

/-- Settles O35: every record that comes into the library has passed its tests or is the default, every window was trimmed, and every
choice and step of a move keeps its factors. -/
theorem everyStepKeepsLayoutLaws : Obligations.EveryStepKeepsLayoutLaws :=
  fun _ _ h hstep => ownKeeps_layoutLaws.stepKeeps.step h hstep

end Sys2Proof.Proofs
end

section
/-!
PROOF. The laws of the booth store in every step (R26, R29, R30, R35).
-/
namespace Sys2Proof.Machine

/-! ### Records -/

/-- A booth record whose fields pass their tests is in range (R26). -/
theorem inRange_boothRecordAt {bs : List Byte} {i : Nat} (h : firstFault (boothTests bs i) = none) :
    (boothRecordAt bs i).inRange = true := by
  have tests := firstFault_none h
  have test (k : Nat) (ok : Bool) (hm : (k, ok) ∈ boothTests bs i) : ok = true := tests _ hm
  have cb := of_decide_eq_true (test 4 (decide (64 ≤ nat16At bs (i + 2) ∧ nat16At bs (i + 2) ≤ 960)) (by simp [boothTests]))
  have cr := of_decide_eq_true (test 5 (decide (64 ≤ nat16At bs (i + 4) ∧ nat16At bs (i + 4) ≤ 960)) (by simp [boothTests]))
  have rIn := of_decide_eq_true (test 6 (decide (nat16At bs (i + 6) ≤ 1022)) (by simp [boothTests]))
  have rOut := of_decide_eq_true (test 7 (decide (nat16At bs (i + 6) + 1 ≤ nat16At bs (i + 8) ∧ nat16At bs (i + 8) ≤ 1023))
    (by simp [boothTests]))
  have cx := of_decide_eq_true (test 8 (decide (nat16At bs (i + 10) ≤ 959)) (by simp [boothTests]))
  have cy := of_decide_eq_true (test 9 (decide (nat16At bs (i + 12) ≤ 539)) (by simp [boothTests]))
  have hold := of_decide_eq_true (test 10 (decide (1 ≤ natAt bs (i + 14) ∧ natAt bs (i + 14) ≤ 50)) (by simp [boothTests]))
  have recov := of_decide_eq_true (test 11 (decide (1 ≤ natAt bs (i + 15) ∧ natAt bs (i + 15) ≤ 15)) (by simp [boothTests]))
  exact decide_eq_true ⟨cb.1, cb.2, cr.1, cr.2, rIn, rOut.1, rOut.2, cx, cy, hold.1, hold.2, recov.1, recov.2⟩

theorem inRange_defaultBoothRecord : defaultBoothRecord.inRange = true := by decide

theorem inRange_loadBooth (body : List Byte) (b : BoothNo) : (loadBooth body b).inRange = true := by
  unfold loadBooth
  dsimp only
  split
  · exact inRange_boothRecordAt (by simp_all)
  · exact inRange_defaultBoothRecord

/-- A slot stays with a booth unless a lower-numbered booth's record names it; nothing else of a record changes (R25). -/
theorem resolveSlots_get (v : Vector BoothRecord 6) (b : BoothNo) :
    (resolveSlots v)[b] = if ∃ o : BoothNo, o < b ∧ v[o].slot = v[b].slot then { v[b] with slot := none } else v[b] := by
  have named : (List.range b.val).any (fun o => (v.toList.getD o defaultBoothRecord).slot == v[b].slot) = true ↔
      ∃ o : BoothNo, o < b ∧ v[o].slot = v[b].slot := by
    simp only [List.any_eq_true, List.mem_range, beq_iff_eq]
    constructor
    · rintro ⟨o, ho, h⟩
      have ho6 : o < 6 := by omega
      exact ⟨⟨o, ho6⟩, ho, by simpa [ho6] using h⟩
    · rintro ⟨o, ho, h⟩
      exact ⟨o.val, ho, by simpa using h⟩
  simp only [resolveSlots, Fin.getElem_fin, Vector.getElem_ofFn] at named ⊢
  exact if_congr named rfl rfl

theorem inRange_resolveSlots {v : Vector BoothRecord 6} (h : ∀ b : BoothNo, v[b].inRange = true) (b : BoothNo) :
    (resolveSlots v)[b].inRange = true := by
  rw [resolveSlots_get]
  split
  · exact h b
  · exact h b

/-- A slot the resolved records name is named by the record before, and by no lower-numbered one (R25). -/
theorem slot_resolveSlots {v : Vector BoothRecord 6} {b : BoothNo} {n : SlotNo} (h : (resolveSlots v)[b].slot = some n) :
    v[b].slot = some n ∧ ∀ o : BoothNo, o < b → v[o].slot ≠ some n := by
  rw [resolveSlots_get] at h
  split at h
  · cases h
  · rename_i first
    exact ⟨h, fun o ho e => first ⟨o, ho, e.trans h.symm⟩⟩

theorem distinct_resolveSlots (v : Vector BoothRecord 6) {b o : BoothNo} (hbo : b ≠ o)
    (hs : (resolveSlots v)[b].slot.isSome = true) : (resolveSlots v)[b].slot ≠ (resolveSlots v)[o].slot := by
  intro e
  obtain ⟨n, hn⟩ := Option.isSome_iff_exists.1 hs
  obtain ⟨hb, hbfirst⟩ := slot_resolveSlots hn
  obtain ⟨ho, hofirst⟩ := slot_resolveSlots (e ▸ hn)
  rcases lt_or_gt_of_ne hbo with hlt | hlt
  · exact hofirst b hlt hb
  · exact hbfirst o hlt ho

/-- The records a start-up loads are in range, and no two name one slot (R25, R166). -/
theorem booths_startSettings (m : MemoryAnswer) (mem : List Host.Cell) :
    (∀ b : BoothNo, (startSettings m mem).booths[b].inRange = true) ∧
      ∀ b o : BoothNo, b ≠ o → (startSettings m mem).booths[b].slot.isSome = true →
        (startSettings m mem).booths[b].slot ≠ (startSettings m mem).booths[o].slot := by
  unfold startSettings
  split
  · exact ⟨inRange_resolveSlots fun b => by simpa using inRange_loadBooth _ b, fun b o => distinct_resolveSlots _⟩
  · have default (b : BoothNo) : defaultSettings.booths[b] = defaultBoothRecord := by revert b; decide
    exact ⟨fun b => by rw [default]; exact inRange_defaultBoothRecord, fun b o _ h => by rw [default] at h; cases h⟩

/-- A booth just restarted, with a record in range, is within the laws. -/
theorem laws_restartBooth (mask : BitVec 8) {r : BoothRecord} (h : r.inRange = true) : (restartBooth r).laws mask = true := by
  cases hsl : r.slot <;> simp [Booth.laws, restartBooth, Booth.healthLaw, h, hsl]

/-! ### The operations of the store -/

theorem slotResult_good {on : Bool} {w : Width} {rx : Option SlotRx} (h : slotResult on w rx = .good) : on = true := by
  unfold slotResult at h
  cases on
  · cases h
  · rfl

theorem laws_atLinkEnd {mask : BitVec 8} {x : Booth} (h : x.laws mask = true) (slots : SlotNo → Option SlotRx) :
    (x.atLinkEnd mask slots).laws mask = true ∧ (x.atLinkEnd mask slots).record = x.record := by
  unfold Booth.atLinkEnd
  split
  · exact ⟨h, rfl⟩
  · rename_i n hn
    split
    · exact ⟨h, rfl⟩
    · refine ⟨laws_applyResult h ?_ fun hg => ?_, (applyResult_takes x (slotResult_ne_none _ _ _) _).last.2⟩
      · split
        · exact pictureLegal_land _ _
        · exact pictureLegal_black
      · rw [hn]
        exact slotResult_good hg

theorem laws_atMask {old new : BitVec 8} {x : Booth} (h : x.laws old = true) :
    (x.atMask old new).laws new = true ∧ (x.atMask old new).record = x.record := by
  have fields := h
  simp only [Booth.laws, Bool.and_eq_true] at fields
  obtain ⟨⟨⟨⟨⟨health, ready⟩, candidate⟩, seq⟩, range⟩, slot⟩ := fields
  unfold Booth.atMask
  split
  · rename_i hn
    simp only [hn] at slot
    exact ⟨by simp [Booth.laws, health, ready, candidate, of_decide_eq_true seq, range, hn, of_decide_eq_true slot], rfl⟩
  · rename_i n hn
    split
    · exact ⟨laws_toAbsent new x range x.awaiting, rfl⟩
    · rename_i kept
      refine ⟨?_, rfl⟩
      have stays : (new.getLsbD n || x.health == .absent) = true := by
        simp only [hn, Bool.or_eq_true, Bool.and_eq_true, Bool.not_eq_true'] at slot kept ⊢
        rcases slot with on | absent
        · exact .inl (by simpa [on] using kept)
        · exact .inr absent
      simp only [Booth.laws, health, ready, candidate, seq, range, hn, stays, Bool.and_self]

/-- The slots after WRITE BOOTH differ: no other booth's record names the new one (R26). -/
theorem slotHolder_none {s : State} {b o : BoothNo} {slot : Option SlotNo} (h : s.slotHolder b slot = none) (ho : o ≠ b)
    (hs : slot.isSome = true) : (s.booth o).record.slot ≠ slot := by
  have := List.find?_eq_none.1 h o (mem_allBooths o)
  simpa [ho, hs] using this

theorem record_rewrite (x : Booth) (r : BoothRecord) : (x.rewrite r).record = r := by
  unfold Booth.rewrite Booth.reexamine Booth.promote
  split
  · rfl
  · split
    · cases x.health <;> dsimp only
      · split <;> rfl
      · split
        · cases x.candidate <;> rfl
        · rfl
    · rfl

/-! ### The laws of the state -/

theorem boothLaws_congr {s t : State} (h : s.BoothLaws) (mask : t.slotMask = s.slotMask) (booths : t.booths = s.booths) :
    t.BoothLaws := by
  simpa only [State.BoothLaws, State.booth, mask, booths] using h

/-- Each booth within its laws under the mask, its slot as before. -/
theorem boothLaws_of_each {s t : State} (h : s.BoothLaws)
    (each : ∀ b, (t.booth b).laws t.slotMask = true ∧ (t.booth b).record = (s.booth b).record) : t.BoothLaws := by
  refine ⟨fun b => (each b).1, fun b o hbo hs => ?_⟩
  rw [(each b).2] at hs ⊢
  rw [(each o).2]
  exact h.2 b o hbo hs

theorem boothLaws_writeBooth {s : State} (h : s.BoothLaws) (b : BoothNo) {r : BoothRecord} (hr : r.inRange = true)
    (unclaimed : s.slotHolder b r.slot = none) : (s.putBooth b ((s.booth b).rewrite r)).BoothLaws := by
  obtain ⟨each, distinct⟩ := h
  refine ⟨fun k => ?_, fun k o hko hs => ?_⟩
  · rw [booth_putBooth, slotMask_putBooth]
    split
    · exact laws_rewrite (each b) hr
    · exact each k
  · simp only [booth_putBooth] at hs ⊢
    by_cases hk : k = b
    · subst hk
      rw [if_pos rfl, record_rewrite] at hs ⊢
      rw [if_neg hko.symm]
      exact (slotHolder_none unclaimed hko.symm hs).symm
    · rw [if_neg hk] at hs ⊢
      by_cases ho : o = b
      · subst ho
        rw [if_pos rfl, record_rewrite]
        intro e
        exact slotHolder_none unclaimed hko (e ▸ hs) e
      · rw [if_neg ho]
        exact distinct k o hko hs

theorem boothLaws_acts {s t : State} (ha : Acts s t) (h : s.BoothLaws) : t.BoothLaws := by
  have moved {c : ChanNo} {u : State} (m : s.Moves c u) : u.BoothLaws := boothLaws_congr h m.slotMask m.booths
  cases ha with
  | perform c n a fields => exact moved (moves_perform s c n _)
  | clear p c n => exact boothLaws_congr h (moves_clearChannel s c).slotMask (moves_clearChannel s c).booths
  | target c d range => exact moved (moves_setTarget s c d)
  | release c => exact moved (moves_releaseBooth s c)
  | writeBooth b prm fields unclaimed => exact boothLaws_writeBooth h b (inRange_boothRecordAt fields) unclaimed
  | mask m =>
    refine boothLaws_of_each h fun b => ?_
    have mask : (s.setMask m).slotMask = m := by rw [setMask_eq, putBooths_eq]
    rw [mask, setMask_eq, booth_putBooths _ _ (by decide), if_pos (mem_allBooths b)]
    exact laws_atMask (h.1 b)
  | writeProfile n prm defined fields zero => rw [writeProfile_eq]; exact h
  | assign c b nx a range taken => exact moved ((moves_setAssign s c a).trans (moves_raise _ c (.assignment c)))
  | _ => exact h

theorem boothLaws_restart (s : State) (cause : RestartCause) (n : Nat) : (s.restart cause n).BoothLaws := by
  refine ⟨fun b => ?_, fun b o _ hs => ?_⟩
  · rw [booth_restart]
    exact laws_restartBooth _ inRange_defaultBoothRecord
  · rw [booth_restart] at hs
    cases hs

theorem ownKeeps_boothLaws : OwnKeeps State.BoothLaws where
  aside _ _ _ h := h
  acts _ _ _ ha h := boothLaws_acts ha h
  store _ _ _ h := h
  path s c q _ h := h
  frameStart s c pic a t _ h := boothLaws_congr h (moves_frameStart s c pic a t).slotMask (moves_frameStart s c pic a t).booths
  linkEnd s slots h := by
    refine boothLaws_of_each h fun b => ?_
    have mask : (s.linkEnd slots).slotMask = s.slotMask := by rw [State.linkEnd, boothEnds_eq, putBooths_eq]
    rw [mask, State.linkEnd, boothEnds_eq, booth_putBooths _ _ (by decide), if_pos (mem_allBooths b)]
    exact laws_atLinkEnd (h.1 b) _
  linkBegin s h := by
    refine boothLaws_of_each h fun b => ?_
    have begun : s.linkBegin.booth b = { s.booth b with awaiting := false } := by simp [State.linkBegin, State.booth]
    rw [begun]
    exact ⟨h.1 b, rfl⟩
  restart s cause n _ := boothLaws_restart s cause n
  startUp s m hp _ := by
    obtain ⟨range, distinct⟩ := booths_startSettings m s.memory
    refine ⟨fun b => ?_, fun b o hbo hs => ?_⟩
    · rw [booth_startUp hp]
      exact laws_restartBooth _ (range b)
    · rw [booth_startUp hp] at hs ⊢
      rw [booth_startUp hp]
      exact distinct b o hbo hs
  served _ _ _ _ h := h

end Sys2Proof.Machine

namespace Sys2Proof.Proofs
open Sys2Proof.Machine

/-- Settles O23: slot results, a mask, a record and a restart each keep a booth's laws; WRITE BOOTH and the start-up are all that name
slots, the one refusing a slot named elsewhere, the other leaving it to the lowest-numbered booth. -/
theorem everyStepKeepsBoothLaws : Obligations.EveryStepKeepsBoothLaws :=
  fun _ _ h hstep => ownKeeps_boothLaws.stepKeeps.step h hstep

end Sys2Proof.Proofs
end

section
/-!
PROOF. The laws of the cue schedulers in every step (R121, R123, R138, R139, R146).
-/
namespace Sys2Proof.Machine

/-! ### A channel's law -/

/-- The laws of one channel's scheduler. -/
def State.CueLaw (s : State) (c : ChanNo) : Prop :=
  (s.chan c).sched.cues.length ≤ Config.listCapacity ∧
  (∀ q ∈ (s.chan c).sched.cues, 1 ≤ q.tag ∧ q.tag ≤ 65535 ∧ q.due < s.rate.day) ∧
  ((s.chan c).sched.cues.map (·.tag)).Nodup ∧
  (s.chan c).sched.cues.Pairwise (fun a b => s.offset c a ≤ s.offset c b) ∧
  (s.chan c).sched.ring.length ≤ Config.ringCapacity ∧
  ((s.chan c).sched.lost = true → (s.chan c).sched.ring ≠ []) ∧
  (s.loader.phase.isStarting = true → (s.chan c).sched.cues = [])

/-- What the laws say of the outcome ring (R138, R139). -/
def Sched.ringLaw (d : Sched) : Prop := d.ring.length ≤ Config.ringCapacity ∧ (d.lost = true → d.ring ≠ [])

theorem offset_of_outTc {s t : State} {c : ChanNo} (rate : t.rate = s.rate) (outTc : (t.chan c).path.outTc = (s.chan c).path.outTc)
    (q : Cue) : t.offset c q = s.offset c q := by unfold State.offset; rw [rate, outTc]

/-- Fewer cues, in the order they had, and a ring within its law keep the law, under the same rate and T. -/
theorem cueLaw_sublist {s t : State} {c : ChanNo} (h : s.CueLaw c) (rate : t.rate = s.rate)
    (outTc : (t.chan c).path.outTc = (s.chan c).path.outTc) (sub : (t.chan c).sched.cues.Sublist (s.chan c).sched.cues)
    (ring : (t.chan c).sched.ringLaw) (phase : t.loader.phase.isStarting = true → s.loader.phase.isStarting = true) :
    t.CueLaw c := by
  obtain ⟨len, fields, tags, order, -, -, starting⟩ := h
  refine ⟨sub.length_le.trans len, fun q hq => rate ▸ fields q (sub.subset hq), (sub.map _).nodup tags, ?_, ring.1, ring.2,
    fun hp => ?_⟩
  · simp only [offset_of_outTc rate outTc]
    exact order.sublist sub
  · rw [starting (phase hp)] at sub
    exact List.sublist_nil.1 sub

theorem cueLaw_congr {s t : State} {c : ChanNo} (h : s.CueLaw c) (rate : t.rate = s.rate)
    (outTc : (t.chan c).path.outTc = (s.chan c).path.outTc) (cues : (t.chan c).sched.cues = (s.chan c).sched.cues)
    (ring : (t.chan c).sched.ring = (s.chan c).sched.ring) (lost : (t.chan c).sched.lost = (s.chan c).sched.lost)
    (phase : t.loader.phase.isStarting = true → s.loader.phase.isStarting = true) : t.CueLaw c := by
  refine cueLaw_sublist h rate outTc (cues ▸ .refl _) ?_ phase
  unfold Sched.ringLaw
  rw [ring, lost]
  exact ⟨h.2.2.2.2.1, h.2.2.2.2.2.1⟩

theorem ringLaw_of_cueLaw {s : State} {c : ChanNo} (h : s.CueLaw c) : (s.chan c).sched.ringLaw := ⟨h.2.2.2.2.1, h.2.2.2.2.2.1⟩

/-- A move that keeps its own channel's law keeps the laws: the others' schedulers and T are as they were. -/
theorem State.Moves.cueLaws {s t : State} {c : ChanNo} (h : s.Moves c t) (hs : s.CueLaws) (own : t.CueLaw c) : t.CueLaws := by
  intro d
  by_cases hd : d = c
  · rw [hd]; exact own
  · have other := h.others d hd
    exact cueLaw_congr (hs d) h.rate (by rw [other]) (by rw [other]) (by rw [other]) (by rw [other]) (by rw [h.loader]; exact id)

/-! ### The ring (R138, R139) -/

theorem ringLaw_write {d : Sched} (h : d.ringLaw) (r : OutcomeRec) : (d.write r).ringLaw := by
  unfold Sched.write Sched.ringLaw
  split
  · rename_i room
    exact ⟨by simpa using room, fun _ => by simp⟩
  · rename_i full
    refine ⟨h.1, fun _ empty => full ?_⟩
    simp only at empty
    simp [empty, Config.ringCapacity]

theorem ringLaw_dispatchKeeps (c : ChanNo) : DispatchKeeps (fun s => (s.chan c).sched.ringLaw) (fun _ => True) c where
  cues _ _ _ h := by simpa [State.setCues, Sched.ringLaw] using h
  perform s q _ h := by rw [(kept_perform s c q.fade q.action c).2.2]; exact h
  outcome _ _ _ _ h := by simpa [State.writeOutcome] using ringLaw_write h _
  raiseIf _ _ _ h := by simpa using h

/-! ### Adding cues (R122, R125, R126) -/

theorem tcToFrame_lt {r : Rate} {t : Timecode} (h : t.hh ≤ 23 ∧ t.mm ≤ 59 ∧ t.ss ≤ 59 ∧ t.ff ≤ r.fps - 1) :
    tcToFrame r t < r.day := by
  unfold tcToFrame Rate.day
  cases r <;> simp only [Rate.fps] at h ⊢ <;> omega

/-- A cue record whose fields are in range gives a tag of at least 1 and a due frame within the day (R122). -/
theorem cue_fields {r : Rate} {w : RawCue} (h : w.fault r = none) : 1 ≤ (w.cue r).tag ∧ (w.cue r).due < r.day := by
  unfold RawCue.fault at h
  split at h
  · cases h
  · rename_i ranges
    have tests := firstFault_none ranges
    simp only [List.forall_mem_cons, decide_eq_true_eq] at tests
    obtain ⟨tag, hh, mm, ss, ff, -⟩ := tests
    exact ⟨tag, tcToFrame_lt ⟨hh, mm, ss, ff⟩⟩

/-- Records that stage 4 passes bring tags that differ from one another and from those in use (R125). -/
theorem tagStage_none {used : List Nat} {l : List Cue} (h : tagStage used l = none) (hu : used.Nodup) :
    (l.map (·.tag) ++ used).Nodup := by
  induction l generalizing used with
  | nil => exact hu
  | cons q l ih =>
    unfold tagStage at h
    split at h
    · cases h
    · rename_i fresh
      have rest := ih h (List.nodup_cons.2 ⟨by simpa using fresh, hu⟩)
      exact List.perm_middle.nodup_iff.1 rest

/-- Inserting cues one after another keeps a list in order (R126). -/
theorem sorted_insertCues (key : Cue → Int) (l : List Cue) {acc : List Cue} (h : acc.Pairwise (fun a b => key a ≤ key b)) :
    (l.foldl (fun acc q => insertCue key q acc) acc).Pairwise (fun a b => key a ≤ key b) := by
  induction l generalizing acc with
  | nil => exact h
  | cons q l ih => exact ih (sorted_insertCue h)

/-- Cues that pass stages 3 to 5 have new tags and fit in the list (R125). -/
theorem cueChecks_none {s : State} {c : ChanNo} {l : List Cue} (h : s.cueChecks c l = none) :
    tagStage ((s.chan c).sched.cues.map (·.tag)) l = none ∧ (s.chan c).sched.cues.length + l.length ≤ Config.listCapacity := by
  unfold State.cueChecks at h
  dsimp only at h
  split at h
  · cases h
  · split at h
    · cases h
    · split at h
      · cases h
      · split at h
        · cases h
        · rename_i tags _ _ room
          exact ⟨tags, Nat.le_of_not_lt room⟩

theorem cueLaw_insertCues {s : State} {c : ChanNo} (h : s.CueLaw c) (serving : s.loader.phase.isStarting = false) {l : List Cue}
    (checked : s.cueChecks c l = none)
    (fields : ∀ q ∈ l, ∃ w : RawCue, w.fault s.rate = none ∧ w.tag < 65536 ∧ q = w.cue s.rate) :
    (s.insertCues c l).CueLaw c := by
  obtain ⟨tagsNew, room⟩ := cueChecks_none checked
  obtain ⟨-, ranges, tags, order, ringLen, ringLost, -⟩ := h
  have perm := perm_insertCues (s.offset c) l (s.chan c).sched.cues
  have sorted := sorted_insertCues (s.offset c) l order
  have chan : (s.insertCues c l).chan c = { s.chan c with sched := { (s.chan c).sched with
      cues := l.foldl (fun acc q => insertCue (s.offset c) q acc) (s.chan c).sched.cues } } := State.chan_setSched_self _ _ _
  have rate : (s.insertCues c l).rate = s.rate := rfl
  have starting : (s.insertCues c l).loader.phase.isStarting = false := serving
  generalize s.insertCues c l = t at chan rate starting ⊢
  have offset (q : Cue) : t.offset c q = s.offset c q := offset_of_outTc rate (by rw [chan]) q
  unfold State.CueLaw
  simp only [offset, chan, rate, starting]
  refine ⟨?_, fun q hq => ?_, ?_, sorted, ringLen, ringLost, nofun⟩
  · rw [perm.length_eq, List.length_append, Nat.add_comm]
    exact room
  · rcases List.mem_append.1 (perm.mem_iff.1 hq) with new | old
    · obtain ⟨w, hw, hlt, rfl⟩ := fields q new
      obtain ⟨htag, hdue⟩ := cue_fields hw
      exact ⟨htag, Nat.le_of_lt_succ hlt, hdue⟩
    · exact ranges q old
  · rw [(perm.map _).nodup_iff, List.map_append]
    exact tagStage_none tagsNew tags

/-! ### A frame start -/

/-- Steps 2 to 4 of a frame start put the law in force, whatever T step 1 has fixed: the dispatch sorts by it. -/
theorem cueLaw_dispatch {s u : State} {c : ChanNo} (h : s.CueLaw c) (rate : u.rate = s.rate) (phase : u.loader.phase = s.loader.phase)
    (sched : (u.chan c).sched = (s.chan c).sched) : (u.dispatch c).CueLaw c := by
  have ring := (ringLaw_dispatchKeeps c).dispatch (fun _ _ => trivial) (sched ▸ ringLaw_of_cueLaw h)
  obtain ⟨len, fields, tags, -, -, -, starting⟩ := h
  rw [← sched] at len fields tags starting
  have moves := moves_dispatch u c
  have offset (q : Cue) : (u.dispatch c).offset c q = u.offset c q := offset_congr moves.rate (kept_dispatch u c c).1 q
  have perm := perm_sortCues (u.offset c) (u.chan c).sched.cues
  have sub : ((u.dispatch c).chan c).sched.cues.Sublist (sortCues (u.offset c) (u.chan c).sched.cues) := by
    rw [cues_dispatch]
    exact List.filter_sublist
  refine ⟨sub.length_le.trans (perm.length_eq ▸ len), fun q hq => ?_, ?_, ?_, ring.1, ring.2, fun hp => ?_⟩
  · rw [moves.rate, rate]
    exact fields q (perm.mem_iff.1 (sub.subset hq))
  · exact (sub.map _).nodup ((perm.map _).nodup_iff.2 tags)
  · simp only [offset]
    exact (sorted_sortCues _ _).sublist sub
  · rw [moves.phase, phase] at hp
    have empty := perm.length_eq
    rw [starting hp] at empty sub
    rw [List.length_eq_zero_iff.1 empty] at sub
    exact List.sublist_nil.1 sub

theorem kept_transitions (s : State) (c : ChanNo) :
    ((s.transitions c).chan c).path = (s.chan c).path ∧ ((s.transitions c).chan c).sched = (s.chan c).sched := by
  unfold State.transitions
  rw [chan_placementStep, chan_presenterStep, kept_handoverStep]
  exact ⟨rfl, rfl⟩

theorem cueLaw_settle {s : State} {c : ChanNo} (h : s.CueLaw c) : ((s.transitions c).composeStep c).CueLaw c := by
  have moves := (moves_transitions s c).trans (moves_composeStep _ c)
  have kept := kept_transitions s c
  refine cueLaw_congr h moves.rate ?_ ?_ ?_ ?_ (by rw [moves.loader]; exact id)
  · rw [chan_composeStep, kept.1]
  · rw [chan_composeStep, kept.2]
  · rw [chan_composeStep, kept.2]
  · rw [chan_composeStep, kept.2]

theorem cueLaws_frameStart {s : State} (h : s.CueLaws) (c : ChanNo) (pic : Picture) (a : Audio) (t : Option Timecode) :
    (s.frameStart c pic a t).CueLaws := by
  have entered := moves_pathStep s c pic a t
  have dispatched := cueLaw_dispatch (h c) entered.rate entered.phase (sched_pathStep s c c pic a t)
  have settled := cueLaw_settle dispatched
  refine (moves_frameStart s c pic a t).cueLaws h ?_
  unfold State.frameStart
  exact settled

/-! ### Every step -/

theorem cueLaws_acts {s t : State} (serving : s.loader.phase.isStarting = false) (ha : Acts s t) (h : s.CueLaws) :
    t.CueLaws := by
  have serves := ha.serving serving
  have idle (hp : t.loader.phase.isStarting = true) : s.loader.phase.isStarting = true := by rw [serves] at hp; cases hp
  have sched {u : State} {c : ChanNo} (x : Sched) (m : s.Moves c u) (e : (u.chan c) = { s.chan c with sched := x })
      (sub : x.cues.Sublist (s.chan c).sched.cues) (ring : x.ringLaw) : u.CueLaws :=
    m.cueLaws h (cueLaw_sublist (h c) m.rate (by rw [e]) (by rw [e]; exact sub) (by rw [e]; exact ring) (by rw [m.loader]; exact id))
  have kept {u : State} (rate : u.rate = s.rate) (phase : u.loader.phase.isStarting = true → s.loader.phase.isStarting = true)
      (e : ∀ d, (u.chan d).path.outTc = (s.chan d).path.outTc ∧ (u.chan d).sched = (s.chan d).sched) : u.CueLaws := fun d =>
    cueLaw_congr (h d) rate (e d).1 (by rw [(e d).2]) (by rw [(e d).2]) (by rw [(e d).2]) phase
  have rate := ha.rate_memory.1
  cases ha with
  | addCues c l checked fields => exact (moves_setSched s c _).cueLaws h (cueLaw_insertCues (h c) serving checked fields)
  | dropCues c l sub =>
    exact sched _ (moves_setSched s c _) (State.chan_setSched_self _ _ _) sub (ringLaw_of_cueLaw (h c))
  | perform c n a fields =>
    have each := kept_perform s c n (a.action.getD .mark)
    exact kept rate idle fun d => ⟨by rw [(each d).1], (each d).2.2⟩
  | readOutcomes c =>
    refine sched _ (moves_setSched s c _) (State.chan_setSched_self _ _ _) (.refl _) ⟨?_, fun lost empty => ?_⟩
    · exact (List.length_drop.trans_le (Nat.sub_le ..)).trans (ringLaw_of_cueLaw (h c)).1
    · simp only at lost empty
      simp [empty] at lost
  | lateLimit c n range =>
    exact sched _ (moves_setSched s c _) (State.chan_setSched_self _ _ _) (.refl _) (ringLaw_of_cueLaw (h c))
  | loss c m => exact kept rate idle fun d => by simp
  | clear p c n =>
    refine State.Moves.cueLaws (s := s) (t := s.clearChannel c) (moves_clearChannel s c) h ?_
    refine cueLaw_sublist (h c) (moves_clearChannel s c).rate ?_ ?_ ?_ idle
    · rw [chan_clearChannel]
    · rw [chan_clearChannel]; exact List.nil_sublist _
    · rw [chan_clearChannel]; exact ⟨Nat.zero_le _, fun lost => by cases lost⟩
  | target c d range => exact kept rate idle fun d => by simp
  | slew c n range =>
    refine kept rate idle fun d => ?_
    by_cases hd : d = c
    · subst hd; simp
    · simp [hd]
  | writeBooth b prm fields unclaimed => exact kept rate idle fun d => by simp
  | mask m => exact kept rate idle fun d => by rw [chan_setMask]; exact ⟨rfl, rfl⟩
  | writeProfile n prm defined fields zero =>
    refine kept rate idle fun d => ?_
    obtain ⟨b, hb⟩ := chan_writeProfile_replace s n (profileAt prm 1 defined) d
    rw [hb]
    exact ⟨rfl, rfl⟩
  | assign c b nx a range taken => exact kept rate idle fun d => by simp
  | release c =>
    refine kept rate idle fun d => ?_
    unfold State.releaseBooth
    dsimp only
    rw [State.chan_raiseIf]
    split <;> simp
  | _ => exact kept rate idle fun d => ⟨rfl, rfl⟩

theorem cueLaws_restart (s : State) (cause : RestartCause) (n : Nat) : (s.restart cause n).CueLaws := by
  intro c
  rw [chan_restart]
  simp [restartChannel, restartSched]

theorem ownKeeps_cueLaws : OwnKeeps State.CueLaws where
  aside _ _ _ h := h
  acts _ _ serving ha h := cueLaws_acts serving ha h
  store s p _ h c := cueLaw_congr (s := s) (h c) rfl rfl rfl rfl rfl nofun
  path s c q aside h := (moves_setPath s c q).cueLaws h
    (cueLaw_congr (h c) rfl (by simp [aside.outTc]) (by simp) (by simp) (by simp) id)
  frameStart _ c pic a t _ h := cueLaws_frameStart h c pic a t
  linkEnd s slots h c := by
    have chan := chan_linkEnd s slots c
    have frame : (s.linkEnd slots).rate = s.rate ∧ (s.linkEnd slots).loader = s.loader := by
      rw [State.linkEnd, boothEnds_eq, putBooths_eq]
      exact ⟨rfl, rfl⟩
    exact cueLaw_congr (h c) frame.1 (by rw [chan]) (by rw [chan]) (by rw [chan]) (by rw [chan]) (by rw [frame.2]; exact id)
  linkBegin s h c := h c
  restart s cause n _ := cueLaws_restart s cause n
  startUp s m hp h c := by
    have empty : (s.chan c).sched.cues = [] := (h c).2.2.2.2.2.2 (by rw [hp]; rfl)
    obtain ⟨ring, lost⟩ := ringLaw_of_cueLaw (h c)
    rw [chan_startUp hp, chan_settled]
    simp only [Channel.load, empty]
    exact ⟨Nat.zero_le _, by simp, by simp, .nil, ring, lost, fun _ => trivial⟩
  served s m _ _ h c := cueLaw_congr (s := s) (h c) rfl rfl rfl rfl rfl nofun

end Sys2Proof.Machine

namespace Sys2Proof.Proofs
open Sys2Proof.Machine

/-- Settles O52: insertion and dispatch keep a list in order of offset, the ring is written only while it has room, and every other
part of a step leaves list, ring and T alone. -/
theorem everyStepKeepsCueLaws : Obligations.EveryStepKeepsCueLaws :=
  fun _ _ h hstep => ownKeeps_cueLaws.stepKeeps.step h hstep

end Sys2Proof.Proofs
end

section
/-!
PROOF. The laws of the frame pool in every step, those of a STARTING part, and that no clamped channel could have a frame more (R6, R13,
R14, R15, R19, R168, R169).
-/
namespace Sys2Proof.Machine

/-! ### Reservations -/

/-- Pools and delay lines are as they were. -/
def State.SamePools (s t : State) : Prop :=
  ∀ c : ChanNo, (t.chan c).pool = (s.chan c).pool ∧ (t.chan c).path.line = (s.chan c).path.line

theorem State.SamePools.reservation {s t : State} (h : s.SamePools t) (c : ChanNo) :
    (t.chan c).reservation = (s.chan c).reservation := by
  unfold Channel.reservation Channel.actual
  rw [(h c).1, (h c).2]

theorem State.SamePools.reserved {s t : State} (h : s.SamePools t) : t.reserved = s.reserved := by
  unfold State.reserved
  simp only [h.reservation]

theorem State.SamePools.grantFor {s t : State} (h : s.SamePools t) (c : ChanNo) (n : Nat) : t.grantFor c n = s.grantFor c n := by
  unfold State.grantFor
  rw [h.reserved, h.reservation]

theorem poolLaws_congr {s t : State} (h : s.PoolLaws) (pools : s.SamePools t)
    (cues : ∀ c, ∀ q ∈ (t.chan c).sched.cues, q.action.delayOk = true) : t.PoolLaws := by
  obtain ⟨sum, each⟩ := h
  refine ⟨by rw [pools.reserved]; exact sum, fun c => ?_⟩
  rw [(pools c).1]
  exact ⟨(each c).1, (each c).2.1, cues c⟩

/-- The cues that wait set no target above 150 (R18). -/
theorem delayOk_of_poolLaws {s : State} (h : s.PoolLaws) (c : ChanNo) : ∀ q ∈ (s.chan c).sched.cues, q.action.delayOk = true :=
  (h.2 c).2.2

theorem poolLaws_same {s t : State} (h : s.PoolLaws) (pools : s.SamePools t)
    (cues : ∀ c, (t.chan c).sched.cues = (s.chan c).sched.cues) : t.PoolLaws :=
  poolLaws_congr h pools fun c => by rw [cues c]; exact delayOk_of_poolLaws h c

theorem poolSettled_same {s t : State} (h : s.PoolSettled) (pools : s.SamePools t) : t.PoolSettled := by
  intro c
  rw [(pools c).1, pools.grantFor]
  exact h c

/-! ### The pass and a target set -/

theorem poolLaws_poolPass {s : State} (h : s.PoolLaws) : s.poolPass.PoolLaws := by
  obtain ⟨sum, each⟩ := h
  refine ⟨(poolPass_spec s).1 sum, fun c => ⟨granted_le_target_poolPass (fun d => (each d).1) c, ?_⟩⟩
  rw [chan_poolPass]
  exact (each c).2

theorem poolLaws_poolPassIfFell {s : State} (h : s.PoolLaws) (c : ChanNo) (n : Nat) : (s.poolPassIfFell c n).PoolLaws := by
  unfold State.poolPassIfFell
  split
  · exact poolLaws_poolPass h
  · exact h

/-- The clamped flags say which grants are below their targets. -/
def State.FlagsTrue (s : State) : Prop :=
  ∀ c : ChanNo, (s.chan c).pool.clamped = decide ((s.chan c).pool.granted < (s.chan c).pool.target)

theorem flagsTrue_poolPass {s : State} (h : s.FlagsTrue) : s.poolPass.FlagsTrue := by
  have turn (u : State) (c : ChanNo) (hu : u.FlagsTrue) : (u.regrant c).FlagsTrue := by
    intro e
    rw [chan_regrant]
    split
    · rfl
    · exact hu e
  exact turn _ 3 (turn _ 2 (turn _ 1 (turn _ 0 h)))

theorem poolSettled_poolPass {s : State} (h : s.FlagsTrue) : s.poolPass.PoolSettled :=
  fun c => ⟨flagsTrue_poolPass h c, ((poolPass_spec s).2 c).2.2⟩

/-- One channel's reservation changed, and the pass was made where it fell: the pool is settled where it was before and the channel
itself has all the pool allows it (R15). -/
theorem poolSettled_poolPassIfFell {s u : State} (c : ChanNo) (h : s.PoolSettled) (flags : u.FlagsTrue)
    (others : ∀ d, d ≠ c → (u.chan d).pool = (s.chan d).pool ∧ (u.chan d).path.line = (s.chan d).path.line)
    (own : (u.chan c).pool.clamped = true → u.grantFor c (u.chan c).pool.target ≤ (u.chan c).pool.granted) :
    (u.poolPassIfFell c (s.chan c).reservation).PoolSettled := by
  unfold State.poolPassIfFell
  split
  · exact poolSettled_poolPass flags
  · rename_i kept
    have rises (d : ChanNo) : (s.chan d).reservation ≤ (u.chan d).reservation := by
      by_cases hd : d = c
      · rw [hd]; exact Nat.le_of_not_lt kept
      · unfold Channel.reservation Channel.actual
        rw [(others d hd).1, (others d hd).2]
    refine fun d => ⟨flags d, fun clamped => ?_⟩
    by_cases hd : d = c
    · subst hd; exact own clamped
    · rw [(others d hd).1] at clamped ⊢
      exact (grantFor_anti (fun e _ => rises e) _).trans ((h d).2 clamped)

/-- A target set, before the pass it may bring (R14). -/
def State.targetSet (s : State) (c : ChanNo) (d : Nat) : State :=
  (s.setPool c { (s.chan c).pool with target := d }).setGrant c (s.grantFor c d)

theorem setTarget_eq (s : State) (c : ChanNo) (d : Nat) :
    s.setTarget c d = (s.targetSet c d).poolPassIfFell c (s.chan c).reservation := rfl

theorem chan_targetSet (s : State) (c : ChanNo) (d : Nat) (e : ChanNo) :
    (s.targetSet c d).chan e = if e = c then { s.chan c with
      pool := { target := d, granted := s.grantFor c d, clamped := decide (s.grantFor c d < d) } } else s.chan e := by
  unfold State.targetSet
  rw [chan_setGrant]
  by_cases he : e = c
  · subst he; simp
  · simp [he]

theorem others_targetSet (s : State) (c : ChanNo) (d n : Nat) : (s.targetSet c d).grantFor c n = s.grantFor c n := by
  unfold State.grantFor
  rw [others_of_one (s := s) (t := s.targetSet c d) fun e he => by rw [chan_targetSet, if_neg he]]

/-- The target of a channel before its grant is computed makes no difference to what the channels reserve. -/
theorem poolLaws_setTarget {s : State} (h : s.PoolLaws) (c : ChanNo) {d : Nat} (hd : d ≤ Config.maxTarget) :
    (s.setTarget c d).PoolLaws := by
  rw [setTarget_eq]
  refine poolLaws_poolPassIfFell ⟨?_, fun e => ?_⟩ c _
  · have each (e : ChanNo) : ((s.setPool c { (s.chan c).pool with target := d }).chan e).reservation = (s.chan e).reservation := by
      rw [State.chan_setPool]
      split
      · rename_i he; rw [he]; rfl
      · rfl
    have same : s.reserved = (s.setPool c { (s.chan c).pool with target := d }).reserved := by simp only [State.reserved, each]
    refine reserved_setGrant (t := d) (same ▸ h.1) ?_
    unfold State.grantFor
    rw [← same, each]
  · rw [chan_targetSet]
    split
    · exact ⟨Nat.min_le_left _ _, hd, delayOk_of_poolLaws h c⟩
    · exact h.2 e

theorem poolSettled_setTarget {s : State} (h : s.PoolSettled) (c : ChanNo) (d : Nat) : (s.setTarget c d).PoolSettled := by
  rw [setTarget_eq]
  refine poolSettled_poolPassIfFell c h (fun e => ?_) (fun e he => ?_) fun _ => ?_
  · rw [chan_targetSet]
    split
    · rfl
    · exact (h e).1
  · rw [chan_targetSet, if_neg he]
    exact ⟨rfl, rfl⟩
  · rw [others_targetSet, chan_targetSet, if_pos rfl]

/-! ### Step 1 of a frame start (R7, R9 to R11) -/

/-- A frame start never raises a reservation: the line grows only where A is less than G. -/
theorem line_enter (p : Path) (r : Rate) (g : Nat) (pic : Picture) (a : Audio) (t : Option Timecode) :
    max g (p.enter r g pic a t).line.length ≤ max g p.line.length := by
  have rep_only : (p.slew g).1 = .rep → p.line.length < g := by
    unfold Path.slew
    split
    · simp
    · split
      · split <;> simp_all
      · simp
  simp only [Path.enter, Path.chooseOutput]
  generalize hk : (p.slew g).1 = k at rep_only ⊢
  cases k
  case rep =>
    have := rep_only rfl
    simp only [List.length_append, List.length_singleton]
    omega
  all_goals simp; try omega

theorem entered_eq (s : State) (c : ChanNo) (pic : Picture) (a : Audio) (t : Option Timecode) :
    s.pathStep c pic a t = (s.setPath c ((s.chan c).path.enter s.rate (s.chan c).pool.granted pic a t)).poolPassIfFell c
      (s.chan c).reservation := rfl

theorem poolLaws_pathStep {s : State} (h : s.PoolLaws) (c : ChanNo) (pic : Picture) (a : Audio) (t : Option Timecode) :
    (s.pathStep c pic a t).PoolLaws := by
  rw [entered_eq]
  have shorter := line_enter (s.chan c).path s.rate (s.chan c).pool.granted pic a t
  generalize (s.chan c).path.enter s.rate (s.chan c).pool.granted pic a t = q at shorter
  refine poolLaws_poolPassIfFell ⟨?_, fun e => ?_⟩ c _
  · refine le_trans (reserved_mono (s := s.setPath c q) (t := s) fun e => ?_) h.1
    rw [State.chan_setPath]
    split
    · rename_i he; rw [he]; exact shorter
    · exact le_refl _
  · simpa using h.2 e

theorem poolSettled_pathStep {s : State} (h : s.PoolSettled) (c : ChanNo) (pic : Picture) (a : Audio) (t : Option Timecode) :
    (s.pathStep c pic a t).PoolSettled := by
  rw [entered_eq]
  generalize (s.chan c).path.enter s.rate (s.chan c).pool.granted pic a t = q
  have allowed (n : Nat) : (s.setPath c q).grantFor c n = s.grantFor c n := by
    unfold State.grantFor
    rw [others_of_one (s := s) (t := s.setPath c q) fun e he => by simp [he]]
  refine poolSettled_poolPassIfFell c h (fun e => ?_) (fun e he => ?_) fun clamped => ?_
  · simpa using (h e).1
  · simp [he]
  · rw [allowed]
    simpa using (h c).2 (by simpa using clamped)

/-! ### Actions, the dispatch and the other steps -/

/-- Of the actions only SET DELAY touches a pool, and none a delay line. -/
theorem pools_perform (s : State) (c : ChanNo) (n : Option Nat) (a : Action) :
    (∃ d, a = .setDelay d ∧ (s.perform c n a).1 = s.setTarget c d) ∨ s.SamePools (s.perform c n a).1 := by
  have kept := fun d => (kept_perform s c n a d).1
  cases a with
  | setDelay d => exact .inl ⟨d, rfl, rfl⟩
  | selectProfile k =>
    refine .inr fun d => ⟨?_, by rw [kept]⟩
    simp only [State.perform]
    split <;> simp
  | _ => exact .inr fun d => ⟨by simp [State.perform, State.presenterOn, State.presenterOff], by rw [kept]⟩

theorem poolLaws_perform {s : State} (h : s.PoolLaws) (c : ChanNo) (n : Option Nat) {a : Action} (ha : a.delayOk = true) :
    (s.perform c n a).1.PoolLaws := by
  rcases pools_perform s c n a with ⟨d, rfl, e⟩ | same
  · rw [e]; exact poolLaws_setTarget h c (of_decide_eq_true ha)
  · exact poolLaws_same h same fun d => by rw [(kept_perform s c n a d).2.2]

theorem poolSettled_perform {s : State} (h : s.PoolSettled) (c : ChanNo) (n : Option Nat) (a : Action) :
    (s.perform c n a).1.PoolSettled := by
  rcases pools_perform s c n a with ⟨d, rfl, e⟩ | same
  · rw [e]; exact poolSettled_setTarget h c d
  · exact poolSettled_same h same

theorem samePools_setCues (s : State) (c : ChanNo) (l : List Cue) : s.SamePools (s.setCues c l) :=
  fun d => by simp [State.setCues]

theorem poolLaws_setCues {s : State} (h : s.PoolLaws) (c : ChanNo) {l : List Cue} (hl : ∀ q ∈ l, q.action.delayOk = true) :
    (s.setCues c l).PoolLaws :=
  poolLaws_congr h (samePools_setCues s c l) fun d => by
    by_cases hd : d = c
    · subst hd; simpa [cues_setCues] using hl
    · simpa [State.setCues, hd] using delayOk_of_poolLaws h d

theorem poolLaws_dispatchKeeps (c : ChanNo) : DispatchKeeps State.PoolLaws (fun q => q.action.delayOk = true) c where
  cues _ _ hl h := poolLaws_setCues h c hl
  perform _ q hq h := poolLaws_perform h c q.fade hq
  outcome _ _ _ _ h := poolLaws_same h (fun d => by simp) fun d => by simp
  raiseIf _ _ _ h := poolLaws_same h (fun d => by simp) fun d => by simp

theorem poolSettled_dispatchKeeps (c : ChanNo) : DispatchKeeps State.PoolSettled (fun _ => True) c where
  cues s l _ h := poolSettled_same h (samePools_setCues s c l)
  perform _ q _ h := poolSettled_perform h c q.fade q.action
  outcome _ _ _ _ h := poolSettled_same h fun d => by simp
  raiseIf _ _ _ h := poolSettled_same h fun d => by simp

theorem chan_presenterStep_ne (s : State) {c d : ChanNo} (h : d ≠ c) : (s.presenterStep c).chan d = s.chan d := by
  unfold State.presenterStep
  dsimp only
  split <;> simp [State.visibilityReport, h]

theorem chan_composeStep_ne (s : State) {c d : ChanNo} (h : d ≠ c) : (s.composeStep c).chan d = s.chan d := by
  unfold State.composeStep
  dsimp only
  split
  · rfl
  · exact State.chan_setPath_ne s h _

theorem chan_placementStep_ne (s : State) {c d : ChanNo} (h : d ≠ c) : (s.placementStep c).chan d = s.chan d := by
  simp [State.placementStep, h]

/-- Steps 3 and 4 of a frame start touch no pool, no delay line and no cue. -/
theorem kept_settle (s : State) (c d : ChanNo) :
    let x := ((s.transitions c).composeStep c).chan d
    x.pool = (s.chan d).pool ∧ x.path.line = (s.chan d).path.line ∧ x.sched = (s.chan d).sched := by
  unfold State.transitions
  generalize hu : s.handoverStep c = u
  have handed : u.chan d = { s.chan d with assign := (u.chan d).assign } := by rw [← hu]; exact kept_handoverStep s c d
  by_cases hd : d = c
  · subst hd
    rw [chan_composeStep, chan_placementStep, chan_presenterStep, handed]
    exact ⟨rfl, rfl, rfl⟩
  · rw [chan_composeStep_ne _ hd, chan_placementStep_ne _ hd, chan_presenterStep_ne _ hd, handed]
    exact ⟨rfl, rfl, rfl⟩

theorem poolLaws_frameStart {s : State} (h : s.PoolLaws) (c : ChanNo) (pic : Picture) (a : Audio) (t : Option Timecode) :
    (s.frameStart c pic a t).PoolLaws := by
  have entered := poolLaws_pathStep h c pic a t
  have dispatched := (poolLaws_dispatchKeeps c).dispatch (delayOk_of_poolLaws entered c) entered
  have kept := kept_settle ((s.pathStep c pic a t).dispatch c) c
  unfold State.frameStart
  exact poolLaws_same dispatched (fun d => ⟨(kept d).1, (kept d).2.1⟩) fun d => by rw [(kept d).2.2]

theorem poolSettled_frameStart {s : State} (h : s.PoolSettled) (c : ChanNo) (pic : Picture) (a : Audio) (t : Option Timecode) :
    (s.frameStart c pic a t).PoolSettled := by
  have entered := poolSettled_pathStep h c pic a t
  have dispatched := (poolSettled_dispatchKeeps c).dispatch (fun _ _ => trivial) entered
  have kept := kept_settle ((s.pathStep c pic a t).dispatch c) c
  unfold State.frameStart
  exact poolSettled_same dispatched fun d => ⟨(kept d).1, (kept d).2.1⟩

/-! ### An owner's work -/

theorem samePools_clearChannel (s : State) (c : ChanNo) : s.SamePools (s.clearChannel c) := by
  intro d
  by_cases hd : d = c
  · subst hd; rw [chan_clearChannel]; exact ⟨rfl, rfl⟩
  · unfold State.clearChannel
    dsimp only
    split <;> simp [State.visibilityReport, hd]

theorem kept_releaseBooth (s : State) (c d : ChanNo) :
    ((s.releaseBooth c).chan d).pool = (s.chan d).pool ∧ ((s.releaseBooth c).chan d).path = (s.chan d).path ∧
      ((s.releaseBooth c).chan d).sched = (s.chan d).sched := by
  unfold State.releaseBooth
  dsimp only
  rw [State.chan_raiseIf]
  split <;> simp

/-- An owner's work sets a target of at most 150, or changes no pool and no delay line; and no cue it leaves sets a greater target. -/
theorem Acts.pools {s t : State} (h : Acts s t) :
    ((∃ c d, d ≤ Config.maxTarget ∧ t = s.setTarget c d) ∨ s.SamePools t) ∧
      ((∀ c, ∀ q ∈ (s.chan c).sched.cues, q.action.delayOk = true) →
        ∀ c, ∀ q ∈ (t.chan c).sched.cues, q.action.delayOk = true) := by
  have same {u : State} (e : ∀ d, (u.chan d).pool = (s.chan d).pool ∧ (u.chan d).path.line = (s.chan d).path.line ∧
      (u.chan d).sched.cues ⊆ (s.chan d).sched.cues) :
      ((∃ c d, d ≤ Config.maxTarget ∧ u = s.setTarget c d) ∨ s.SamePools u) ∧
        ((∀ c, ∀ q ∈ (s.chan c).sched.cues, q.action.delayOk = true) →
          ∀ c, ∀ q ∈ (u.chan c).sched.cues, q.action.delayOk = true) :=
    ⟨.inr fun d => ⟨(e d).1, (e d).2.1⟩, fun hs c q hq => hs c q ((e c).2.2 hq)⟩
  have sched (c : ChanNo) (x : Sched) (sub : x.cues ⊆ (s.chan c).sched.cues) (d : ChanNo) :
      ((s.setSched c x).chan d).sched.cues ⊆ (s.chan d).sched.cues := by
    by_cases hd : d = c
    · subst hd; simpa using sub
    · simp [hd]
  cases h with
  | addCues c l checked fields =>
    refine ⟨.inr (samePools_setCues s c _), fun hs d q hq => ?_⟩
    by_cases hd : d = c
    · subst hd
      simp only [State.insertCues, cues_setCues] at hq
      rcases List.mem_append.1 ((perm_insertCues _ l _).mem_iff.1 hq) with new | old
      · obtain ⟨w, -, -, rfl⟩ := fields q new
        exact (rawAction_ok w.act).2
      · exact hs d q old
    · exact hs d q (by simpa [State.insertCues, State.setCues, hd] using hq)
  | dropCues c l sub => exact same fun d => ⟨by simp [State.setCues], by simp [State.setCues], sched c _ sub.subset d⟩
  | perform c n a fields =>
    have cues (d : ChanNo) := (kept_perform s c n (a.action.getD .mark) d).2.2
    refine ⟨?_, fun hs d q hq => hs d q (by rw [cues] at hq; exact hq)⟩
    rcases pools_perform s c n (a.action.getD .mark) with ⟨d, hd, e⟩ | same
    · have ok := (rawAction_ok a).2
      rw [hd] at ok
      exact .inl ⟨c, d, of_decide_eq_true ok, e⟩
    · exact .inr same
  | readOutcomes c => exact same fun d => ⟨by simp, by simp, by exact sched c _ (by exact fun _ h => h) d⟩
  | lateLimit c n range => exact same fun d => ⟨by simp, by simp, by exact sched c _ (by exact fun _ h => h) d⟩
  | loss c m => exact same fun d => by simp
  | clear p c n =>
    refine same (u := (s.clearChannel c).setPort p _) fun d => ⟨(samePools_clearChannel s c d).1, (samePools_clearChannel s c d).2, ?_⟩
    rw [State.chan_setPort]
    by_cases hd : d = c
    · subst hd; rw [chan_clearChannel]; exact List.nil_subset _
    · rw [(moves_clearChannel s c).others d hd]; exact List.Subset.refl _
  | target c d range => exact ⟨.inl ⟨c, d, range, rfl⟩, fun hs e q hq => hs e q (by simpa using hq)⟩
  | slew c n range =>
    refine same fun d => ?_
    by_cases hd : d = c
    · subst hd; simp
    · simp [hd]
  | writeBooth b prm fields unclaimed => exact same fun d => by simp
  | mask m => exact same fun d => by rw [chan_setMask]; exact ⟨rfl, rfl, List.Subset.refl _⟩
  | writeProfile n prm defined fields zero =>
    refine same fun d => ?_
    obtain ⟨b, hb⟩ := chan_writeProfile_replace s n (profileAt prm 1 defined) d
    rw [hb]
    exact ⟨rfl, rfl, List.Subset.refl _⟩
  | assign c b nx a range taken => exact same fun d => by simp
  | release c =>
    exact same fun d => ⟨(kept_releaseBooth s c d).1, by rw [(kept_releaseBooth s c d).2.1], by
      rw [(kept_releaseBooth s c d).2.2]; exact List.Subset.refl _⟩
  | _ => exact same fun d => ⟨rfl, rfl, List.Subset.refl _⟩

/-! ### A start-up (R19) -/

theorem reserved_startGrant {s : State} (h : s.reserved ≤ Config.poolFrames) (c : ChanNo) :
    (s.startGrant c).reserved ≤ Config.poolFrames := by
  have same : (s.setGrant c (s.grantFor c (s.chan c).pool.target)).SamePools (s.startGrant c) := fun d => by
    rw [chan_startGrant, chan_setGrant]
    exact ⟨rfl, rfl⟩
  rw [same.reserved]
  exact reserved_setGrant h rfl

theorem reserved_startGrants {s : State} (h : s.reserved ≤ Config.poolFrames) : s.startGrants.reserved ≤ Config.poolFrames :=
  reserved_startGrant (reserved_startGrant (reserved_startGrant (reserved_startGrant h 0) 1) 2) 3

/-- A channel that reserves nothing reserves no less after its turn. -/
theorem reservation_startGrant {s : State} {c : ChanNo} (h : (s.chan c).reservation = 0) (d : ChanNo) :
    (s.chan d).reservation ≤ ((s.startGrant c).chan d).reservation := by
  rw [chan_startGrant]
  split
  · rename_i e; rw [e, h]; exact Nat.zero_le _
  · exact le_refl _

theorem chan_startGrant_ne (s : State) {c d : ChanNo} (h : d ≠ c) : (s.startGrant c).chan d = s.chan d := by
  rw [chan_startGrant, if_neg h]

/-- Each channel's grant is what the pool allows it at its turn, the channels after it reserving nothing yet; from then on the others
reserve no less. -/
theorem startGrants_turn (s : State) (c : ChanNo) : ∃ v : State,
    (s.startGrants.chan c).pool = { (s.chan c).pool with
      granted := v.grantFor c (s.chan c).pool.target, clamped := decide (v.grantFor c (s.chan c).pool.target < (s.chan c).pool.target) } ∧
    ((∀ d, (s.chan d).reservation = 0) → ∀ d, d ≠ c → (v.chan d).reservation ≤ (s.startGrants.chan d).reservation) := by
  unfold State.startGrants
  generalize h0 : s.startGrant 0 = s0
  generalize h1 : s0.startGrant 1 = s1
  generalize h2 : s1.startGrant 2 = s2
  generalize h3 : s2.startGrant 3 = s3
  have e0 (d : ChanNo) (hd : d ≠ 0) : s0.chan d = s.chan d := by rw [← h0]; exact chan_startGrant_ne s hd
  have e1 (d : ChanNo) (hd : d ≠ 1) : s1.chan d = s0.chan d := by rw [← h1]; exact chan_startGrant_ne s0 hd
  have e2 (d : ChanNo) (hd : d ≠ 2) : s2.chan d = s1.chan d := by rw [← h2]; exact chan_startGrant_ne s1 hd
  have e3 (d : ChanNo) (hd : d ≠ 3) : s3.chan d = s2.chan d := by rw [← h3]; exact chan_startGrant_ne s2 hd
  have own (u v : State) (x : ChanNo) (hv : u.startGrant x = v) (hx : u.chan x = s.chan x) : (v.chan x).pool = { (s.chan x).pool with
      granted := u.grantFor x (s.chan x).pool.target
      clamped := decide (u.grantFor x (s.chan x).pool.target < (s.chan x).pool.target) } := by
    rw [← hv, chan_startGrant, if_pos rfl, hx]
  have rises (u v : State) (x : ChanNo) (hv : u.startGrant x = v) (hx : u.chan x = s.chan x) (empty : ∀ d, (s.chan d).reservation = 0)
      (d : ChanNo) : (u.chan d).reservation ≤ (v.chan d).reservation := by
    rw [← hv]
    exact reservation_startGrant (by rw [hx]; exact empty x) d
  have x1 : s0.chan 1 = s.chan 1 := e0 1 (by decide)
  have x2 : s1.chan 2 = s.chan 2 := (e1 2 (by decide)).trans (e0 2 (by decide))
  have x3 : s2.chan 3 = s.chan 3 := (e2 3 (by decide)).trans ((e1 3 (by decide)).trans (e0 3 (by decide)))
  have r0 := rises s s0 0 h0 rfl
  have r1 := rises s0 s1 1 h1 x1
  have r2 := rises s1 s2 2 h2 x2
  have r3 := rises s2 s3 3 h3 x3
  match c with
  | 0 =>
    refine ⟨s, ?_, fun empty d _ => (r0 empty d).trans ((r1 empty d).trans ((r2 empty d).trans (r3 empty d)))⟩
    rw [e3 0 (by decide), e2 0 (by decide), e1 0 (by decide)]
    exact own s s0 0 h0 rfl
  | 1 =>
    refine ⟨s0, ?_, fun empty d _ => (r1 empty d).trans ((r2 empty d).trans (r3 empty d))⟩
    rw [e3 1 (by decide), e2 1 (by decide)]
    exact own s0 s1 1 h1 x1
  | 2 =>
    refine ⟨s1, ?_, fun empty d _ => (r2 empty d).trans (r3 empty d)⟩
    rw [e3 2 (by decide)]
    exact own s1 s2 2 h2 x2
  | 3 => exact ⟨s2, own s2 s3 3 h3 x3, fun empty d _ => r3 empty d⟩

/-- From channels that reserve nothing, the grants of a start-up settle the pool (R19). -/
theorem poolSettled_startGrants {s : State} (empty : ∀ d, (s.chan d).reservation = 0) : s.startGrants.PoolSettled := by
  intro c
  obtain ⟨v, pool, rises⟩ := startGrants_turn s c
  rw [pool]
  exact ⟨rfl, fun _ => grantFor_anti (rises empty) _⟩

/-- The settings in place, before the grants are computed. -/
def State.placed (s : State) (m : MemoryAnswer) : State :=
  ({ s with memory := memContents m s.memory } : State).load (startSettings m s.memory)

theorem chan_placed (s : State) (m : MemoryAnswer) (c : ChanNo) :
    (s.placed m).chan c = (s.chan c).load (startSettings m s.memory).chans[c] := by
  simp [State.placed, State.load, State.chan]

theorem reservation_placed (s : State) (m : MemoryAnswer) (c : ChanNo) :
    ((s.placed m).chan c).reservation = (s.chan c).reservation := by
  rw [chan_placed]; rfl

theorem samePools_startUp {s : State} (hp : s.loader.phase = .starting) (m : MemoryAnswer) :
    (s.placed m).startGrants.SamePools (s.startUp m) := by
  intro c
  rw [chan_startUp hp]
  exact ⟨rfl, rfl⟩

/-- Every target a start-up loads is at most 150 (R166). -/
theorem target_startSettings (m : MemoryAnswer) (mem : List Host.Cell) (c : ChanNo) :
    (startSettings m mem).chans[c].target ≤ Config.maxTarget := by
  unfold startSettings
  split
  · simp only [loadBody, Fin.getElem_fin, Vector.getElem_ofFn, loadChan]
    split
    · assumption
    · exact Nat.zero_le _
  · have default (c : ChanNo) : defaultSettings.chans[c].target ≤ Config.maxTarget := by revert c; decide
    exact default c

theorem poolLaws_startUp {s : State} (h : s.PoolLaws) (hp : s.loader.phase = .starting) (m : MemoryAnswer) :
    (s.startUp m).PoolLaws := by
  have pools := samePools_startUp hp m
  refine ⟨?_, fun c => ?_⟩
  · rw [pools.reserved]
    refine reserved_startGrants (le_of_eq_of_le ?_ h.1)
    unfold State.reserved
    simp only [reservation_placed]
  · obtain ⟨v, pool, -⟩ := startGrants_turn (s.placed m) c
    rw [(pools c).1, pool, chan_startUp hp, chan_settled, chan_placed]
    exact ⟨Nat.min_le_left _ _, target_startSettings m s.memory c, delayOk_of_poolLaws h c⟩

/-! ### Every step -/

theorem samePools_setPath {s : State} {c : ChanNo} {q : Path} (h : q.line = (s.chan c).path.line) : s.SamePools (s.setPath c q) := by
  intro d
  by_cases hd : d = c
  · subst hd; simp [h]
  · simp [hd]

theorem poolLaws_restart (s : State) (cause : RestartCause) (n : Nat) : (s.restart cause n).PoolLaws := by
  refine ⟨?_, fun c => ?_⟩
  · unfold State.reserved
    simp only [chan_restart]
    decide
  · rw [chan_restart]
    exact ⟨Nat.zero_le _, Nat.zero_le _, by simp [restartChannel, restartSched]⟩

theorem ownKeeps_poolLaws : OwnKeeps State.PoolLaws where
  aside _ _ _ h := h
  acts s t _ ha h := by
    obtain ⟨⟨c, d, range, rfl⟩ | same, cues⟩ := ha.pools
    · exact poolLaws_setTarget h c range
    · exact poolLaws_congr h same (cues (delayOk_of_poolLaws h))
  store _ _ _ h := h
  path s c q aside h := poolLaws_same h (samePools_setPath aside.line) fun d => by simp
  frameStart _ c pic a t _ h := poolLaws_frameStart h c pic a t
  linkEnd s slots h := poolLaws_same h (fun d => by rw [chan_linkEnd]; exact ⟨rfl, rfl⟩) fun d => by rw [chan_linkEnd]
  linkBegin _ h := h
  restart s cause n _ := poolLaws_restart s cause n
  startUp _ m hp h := poolLaws_startUp h hp m
  served _ _ _ _ h := h

/-- While start-up runs every path is bypassed, with no frame held or granted (R6, R19). -/
def State.IdlePaths (s : State) : Prop :=
  s.loader.phase = .starting → ∀ c : ChanNo, (s.chan c).path.bypass = true ∧ (s.chan c).path.line = [] ∧ (s.chan c).pool.granted = 0

theorem idlePaths_serving {s : State} (h : s.loader.phase.isStarting = false) : s.IdlePaths :=
  fun hp => by rw [hp] at h; cases h

/-- With paths idle, a frame start is met only once start-up has completed. -/
theorem serving_at_frameStart {s : State} (h : s.IdlePaths) {c : ChanNo}
    (met : s.loader.phase.isStarting = false ∨ (s.chan c).path.bypass = false) : s.loader.phase.isStarting = false := by
  rcases met with serving | ended
  · exact serving
  · cases hp : s.loader.phase with
    | starting => rw [(h hp c).1] at ended; cases ended
    | serving => rfl
    | storing p k => rfl

theorem idlePaths_restart (s : State) (cause : RestartCause) (n : Nat) : (s.restart cause n).IdlePaths := by
  intro _ c
  rw [chan_restart]
  exact ⟨rfl, rfl, rfl⟩

theorem poolSettled_restart (s : State) (cause : RestartCause) (n : Nat) : (s.restart cause n).PoolSettled := by
  intro c
  rw [chan_restart]
  exact ⟨rfl, nofun⟩

theorem ownKeeps_idlePaths : OwnKeeps State.IdlePaths where
  aside _ _ _ h := h
  acts _ _ serving ha _ := idlePaths_serving (ha.serving serving)
  store _ _ _ _ := idlePaths_serving rfl
  path s c q aside h hp d := by
    by_cases hd : d = c
    · subst hd
      simpa [aside.bypass, aside.line] using h hp d
    · simpa [hd] using h hp d
  frameStart s c pic a t met h :=
    idlePaths_serving (by rw [(moves_frameStart s c pic a t).phase]; exact serving_at_frameStart h met)
  linkEnd s slots h hp d := by
    rw [chan_linkEnd]
    rw [State.linkEnd, boothEnds_eq, putBooths_eq] at hp
    exact h hp d
  linkBegin _ h := h
  restart s cause n _ := idlePaths_restart s cause n
  startUp s m hp _ := idlePaths_serving (by rw [phase_startUp hp]; rfl)
  served _ _ _ _ _ := idlePaths_serving rfl

theorem ownKeeps_poolSettled : OwnKeeps (fun s => s.IdlePaths ∧ s.PoolSettled) where
  aside s ports queue h := ⟨ownKeeps_idlePaths.aside s ports queue h.1, h.2⟩
  acts s t serving ha h := by
    refine ⟨ownKeeps_idlePaths.acts s t serving ha h.1, ?_⟩
    obtain ⟨⟨c, d, range, rfl⟩ | same, -⟩ := ha.pools
    · exact poolSettled_setTarget h.2 c d
    · exact poolSettled_same h.2 same
  store s p serving h := ⟨ownKeeps_idlePaths.store s p serving h.1, h.2⟩
  path s c q aside h := ⟨ownKeeps_idlePaths.path s c q aside h.1, poolSettled_same h.2 (samePools_setPath aside.line)⟩
  frameStart s c pic a t met h := ⟨ownKeeps_idlePaths.frameStart s c pic a t met h.1, poolSettled_frameStart h.2 c pic a t⟩
  linkEnd s slots h :=
    ⟨ownKeeps_idlePaths.linkEnd s slots h.1, poolSettled_same h.2 fun d => by rw [chan_linkEnd]; exact ⟨rfl, rfl⟩⟩
  linkBegin _ h := h
  restart s cause n _ := ⟨idlePaths_restart s cause n, poolSettled_restart s cause n⟩
  startUp s m hp h := by
    refine ⟨ownKeeps_idlePaths.startUp s m hp h.1, ?_⟩
    refine poolSettled_same (poolSettled_startGrants fun d => ?_) (samePools_startUp hp m)
    obtain ⟨-, line, granted⟩ := h.1 hp d
    rw [reservation_placed, Channel.reservation, Channel.actual, line, granted]
    rfl
  served s m storing wf h := ⟨ownKeeps_idlePaths.served s m storing wf h.1, h.2⟩

/-- While start-up runs no port has a role or a pending notice, and all kinds are enabled (R168, R169). -/
def State.IdlePorts (s : State) : Prop :=
  s.loader.phase = .starting → ∀ p : PortNo,
    (s.port p).role = none ∧ (s.port p).pending = noNotices ∧ (s.port p).enabled = 0xFF

theorem idlePorts_serving {s : State} (h : s.loader.phase.isStarting = false) : s.IdlePorts :=
  fun hp => by rw [hp] at h; cases h

theorem idlePorts_restart (s : State) (cause : RestartCause) (n : Nat) : (s.restart cause n).IdlePorts := by
  intro _ p
  rw [port_restart]
  exact ⟨rfl, rfl, rfl⟩

theorem startingLaws_iff (s : State) : s.StartingLaws ↔ s.IdlePaths ∧ s.IdlePorts :=
  ⟨fun h => ⟨fun hp => (h hp).1, fun hp => (h hp).2⟩, fun h hp => ⟨h.1 hp, h.2 hp⟩⟩

/-- One port replaced by one with the same role, pending set and enabled set. -/
theorem idlePorts_setPort {s : State} (h : s.IdlePorts) (p : PortNo) {x : Port} (role : x.role = (s.port p).role)
    (pending : x.pending = (s.port p).pending) (enabled : x.enabled = (s.port p).enabled) : (s.setPort p x).IdlePorts := by
  intro hp q
  rw [State.port_setPort]
  split
  · rename_i e
    rw [role, pending, enabled]
    exact h hp p
  · exact h hp q

theorem port_reply (q : Port) (a : Answer) :
    (q.reply a).role = q.role ∧ (q.reply a).pending = q.pending ∧ (q.reply a).enabled = q.enabled := by
  cases a <;> exact ⟨rfl, rfl, rfl⟩

theorem phase_acceptBlock_serving {s : State} (h : s.loader.phase.isStarting = false) (p : PortNo) (b : Block) :
    (s.acceptBlock p b).loader.phase.isStarting = false := by
  unfold State.acceptBlock
  dsimp only
  split
  · exact h
  · rename_i k r _
    by_cases hk : k = .storeSettings
    · subst hk; rfl
    · exact (acts_act hk _ _ _ _ _).serving (s := s.setPort p (s.port p).accept) h

theorem idlePorts_acceptBlock {s : State} (h : s.IdlePorts) (p : PortNo) (b : Block) : (s.acceptBlock p b).IdlePorts := by
  cases hs : s.loader.phase.isStarting with
  | false => exact idlePorts_serving (phase_acceptBlock_serving hs p b)
  | true =>
    unfold State.acceptBlock
    dsimp only
    split
    · have accepted : (s.setPort p (s.port p).accept).IdlePorts := idlePorts_setPort h p rfl rfl rfl
      obtain ⟨role, pending, enabled⟩ := port_reply ((s.setPort p (s.port p).accept).port p) ‹Answer›
      exact idlePorts_setPort accepted p role pending enabled
    · rename_i hj
      rw [(judge_command hj).1] at hs
      cases hs

theorem stepKeeps_startingLaws : StepKeeps State.StartingLaws := by
  have paths := ownKeeps_idlePaths.stepKeeps
  refine
    { queue := fun s l h => h
      recv := fun s p v h => ?_
      free := fun s p r busy h => ?_
      block := fun s p b free h => ?_
      path := fun s c q aside h => ?_
      frameStart := fun s c pic a t met h => ?_
      linkEnd := fun s slots serving h => ?_
      linkBegin := fun s h => h
      restart := fun s cause n h => ?_
      startUp := fun s m hp h => ?_
      storeDone := fun s m p k hp h => ?_ } <;>
    rw [startingLaws_iff] at h ⊢ <;> obtain ⟨idle, ports⟩ := h
  · exact ⟨paths.recv s p v idle, idlePorts_setPort ports p rfl rfl rfl⟩
  · exact ⟨paths.free s p r busy idle, idlePorts_setPort ports p rfl rfl rfl⟩
  · exact ⟨paths.block s p b free idle, idlePorts_acceptBlock ports p b⟩
  · exact ⟨paths.path s c q aside idle, ports⟩
  · refine ⟨paths.frameStart s c pic a t met idle, idlePorts_serving ?_⟩
    rw [(moves_frameStart s c pic a t).phase]
    exact serving_at_frameStart idle met
  · refine ⟨paths.linkEnd s slots serving idle, idlePorts_serving ?_⟩
    rw [State.linkEnd, boothEnds_eq, putBooths_eq]
    exact serving
  · exact ⟨idlePaths_restart s cause n, idlePorts_restart s cause n⟩
  · refine ⟨paths.startUp s m hp idle, idlePorts_serving ?_⟩
    rw [phase_startUp hp]
    rfl
  · refine ⟨paths.storeDone s m p k hp idle, idlePorts_serving ?_⟩
    simp only [State.storeDone, hp]
    rfl

end Sys2Proof.Machine

namespace Sys2Proof.Proofs
open Sys2Proof.Machine

/-- Settles O19: a reservation rises only by a grant the pool allows, and every fall of one is followed by the pass; a STARTING part
takes no frame and carries out no command. -/
theorem everyStepKeepsPoolLaws : Obligations.EveryStepKeepsPoolLaws := by
  intro s t laws hstep
  refine ⟨ownKeeps_poolLaws.stepKeeps.step laws hstep, fun starting => ⟨stepKeeps_startingLaws.step starting hstep, fun settled => ?_⟩⟩
  exact (ownKeeps_poolSettled.stepKeeps.step ⟨((startingLaws_iff s).1 starting).1, settled⟩ hstep).2

end Sys2Proof.Proofs
end

section
/-!
PROOF. Roles resolved (R167); the laws of the ports in every step (R155, R167, R169, R174).
-/
namespace Sys2Proof.Machine

/-! ### Roles resolved (R167) -/

theorem duplicates_iff (before : List Role) (r : Role) : duplicates before r = true ↔ r.plural = false ∧ r ∈ before := by
  cases r <;> simp [duplicates, Role.plural]

theorem mem_take_roles {v : Vector Role 6} {p : PortNo} {r : Role} :
    r ∈ v.toList.take p.val ↔ ∃ q : PortNo, q < p ∧ v[q] = r := by
  rw [List.mem_take_iff_getElem]
  simp only [Vector.length_toList, Vector.getElem_toList]
  constructor
  · rintro ⟨i, hi, rfl⟩
    exact ⟨⟨i, by omega⟩, by simp only [Fin.lt_def]; omega, rfl⟩
  · rintro ⟨q, hq, rfl⟩
    exact ⟨q.val, by simp only [Fin.lt_def] at hq; omega, rfl⟩

/-- A CHANNEL n or STUDIO that a lower-numbered port has gives way to IDLE; every other role stays. -/
theorem resolveRoles_get (v : Vector Role 6) (p : PortNo) :
    (resolveRoles v)[p] = if v[p].plural = false ∧ ∃ q : PortNo, q < p ∧ v[q] = v[p] then .idle else v[p] := by
  simp only [resolveRoles, Fin.getElem_fin, Vector.getElem_ofFn]
  exact if_congr ((duplicates_iff _ _).trans (and_congr_right fun _ => mem_take_roles)) rfl rfl

/-- A single role that stays with a port is the port's own before, and no lower-numbered port's. -/
theorem resolveRoles_single {v : Vector Role 6} {p : PortNo} {r : Role} (hr : r.plural = false) (h : (resolveRoles v)[p] = r) :
    v[p] = r ∧ ∀ q : PortNo, q < p → v[q] ≠ r := by
  rw [resolveRoles_get] at h
  split at h
  · rw [← h] at hr; cases hr
  · rename_i stays
    rw [not_and] at stays
    subst h
    exact ⟨rfl, fun q hq e => stays hr ⟨q, hq, e⟩⟩

/-- Two ports share only MONITOR or IDLE once roles are resolved. -/
theorem resolveRoles_shared (v : Vector Role 6) {p q : PortNo} (hpq : p ≠ q) (h : (resolveRoles v)[p] = (resolveRoles v)[q]) :
    (resolveRoles v)[p].plural = true := by
  cases hr : (resolveRoles v)[p].plural with
  | true => rfl
  | false =>
    obtain ⟨hp, pfirst⟩ := resolveRoles_single hr rfl
    obtain ⟨hq, qfirst⟩ := resolveRoles_single hr h.symm
    rcases lt_or_gt_of_ne hpq with hlt | hlt
    · exact absurd hp (qfirst p hlt)
    · exact absurd hq (pfirst q hlt)

/-! ### Ports with no role hear nothing (R169) -/

/-- A port with no role has nothing pending. -/
def State.Silent (s : State) : Prop := ∀ p : PortNo, (s.port p).role = none → (s.port p).pending = noNotices

theorem silent_raiseIf {s : State} (h : s.Silent) (b : Bool) (e : Notice) : (s.raiseIf b e).Silent := by
  intro p hp
  cases b with
  | false => exact h p hp
  | true =>
    rw [State.raiseIf, if_pos rfl, State.port_raise] at hp ⊢
    unfold Port.hear at hp ⊢
    split
    · exact h p ‹_›
    · rename_i r hr
      exfalso
      simp only [hr] at hp
      split at hp <;> simp_all

theorem silent_regrant {s : State} (h : s.Silent) (c : ChanNo) : (s.regrant c).Silent := by
  unfold State.regrant
  dsimp only
  split
  · exact silent_raiseIf (s := s.setPool c _) h _ _
  · exact h

theorem silent_poolPassIfFell {s : State} (h : s.Silent) (c : ChanNo) (n : Nat) : (s.poolPassIfFell c n).Silent := by
  unfold State.poolPassIfFell
  split
  · exact silent_regrant (silent_regrant (silent_regrant (silent_regrant h 0) 1) 2) 3
  · exact h

theorem silent_setTarget {s : State} (h : s.Silent) (c : ChanNo) (d : Nat) : (s.setTarget c d).Silent := by
  have granted : (s.targetSet c d).Silent := silent_raiseIf (s := (s.setPool c _).setPool c _) h _ _
  exact silent_poolPassIfFell granted c _

theorem silent_perform {s : State} (h : s.Silent) (c : ChanNo) (n : Option Nat) (a : Action) : (s.perform c n a).1.Silent := by
  cases a with
  | setDelay d => exact silent_setTarget h c d
  | selectProfile k => simp only [State.perform]; split <;> exact h
  | _ => exact h

theorem silent_dispatchKeeps (c : ChanNo) : DispatchKeeps State.Silent (fun _ => True) c where
  cues _ _ _ h := h
  perform _ q _ h := silent_perform h c q.fade q.action
  outcome _ _ _ _ h := h
  raiseIf _ b e h := silent_raiseIf h b e

theorem silent_handoverStep {s : State} (h : s.Silent) (c : ChanNo) : (s.handoverStep c).Silent := by
  unfold State.handoverStep
  dsimp only
  split
  · exact h
  · exact silent_raiseIf (s := s.setAssign c _) h _ _

theorem silent_presenterStep {s : State} (h : s.Silent) (c : ChanNo) : (s.presenterStep c).Silent := by
  unfold State.presenterStep
  dsimp only
  split
  · exact silent_raiseIf (s := (s.setPres c _).setAssign c _) h _ _
  · exact h

theorem silent_placementStep {s : State} (h : s.Silent) (c : ChanNo) : (s.placementStep c).Silent := by
  unfold State.placementStep
  exact silent_raiseIf (s := s.setPlace c _) h _ _

theorem port_composeStep (s : State) (c : ChanNo) (p : PortNo) : (s.composeStep c).port p = s.port p := by
  unfold State.composeStep
  dsimp only
  split <;> rfl

theorem silent_frameStart {s : State} (h : s.Silent) (c : ChanNo) (pic : Picture) (a : Audio) (t : Option Timecode) :
    (s.frameStart c pic a t).Silent := by
  have entered : (s.pathStep c pic a t).Silent := silent_poolPassIfFell (s := s.setPath c _) h c _
  have dispatched := (silent_dispatchKeeps c).dispatch (fun _ _ => trivial) entered
  have settled := silent_placementStep (silent_presenterStep (silent_handoverStep dispatched c) c) c
  unfold State.frameStart State.transitions
  intro p
  rw [port_composeStep]
  exact settled p

/-! ### What an owner's work does to the ports -/

/-- Pending and enabled sets are all a port that hears a notice, or whose sets are written, can differ in. -/
def Port.SetsOnly (q x : Port) : Prop := x = { q with pending := x.pending, enabled := x.enabled }

theorem Port.SetsOnly.refl (q : Port) : q.SetsOnly q := rfl

theorem State.Moves.setsOnly {s t : State} {c : ChanNo} (h : s.Moves c t) (p : PortNo) : (s.port p).SetsOnly (t.port p) := by
  rw [Port.SetsOnly, h.ports p]

theorem port_tellRewriteOf (s : State) (n : ProfNo) (c : ChanNo) (p : PortNo) :
    (s.port p).SetsOnly ((s.tellRewriteOf n c).port p) := (moves_tellRewriteOf s n c).setsOnly p

theorem Port.SetsOnly.trans {q x y : Port} (h : q.SetsOnly x) (k : x.SetsOnly y) : q.SetsOnly y := by
  unfold Port.SetsOnly at h k ⊢
  rw [k, h]

theorem setsOnly_tellRewrite (s : State) (n : ProfNo) (p : PortNo) : (s.port p).SetsOnly ((s.tellRewrite n).port p) := by
  rw [tellRewrite_eq]
  have t0 := port_tellRewriteOf s n 0 p
  generalize s.tellRewriteOf n 0 = s0 at t0 ⊢
  have t1 := port_tellRewriteOf s0 n 1 p
  generalize s0.tellRewriteOf n 1 = s1 at t1 ⊢
  have t2 := port_tellRewriteOf s1 n 2 p
  generalize s1.tellRewriteOf n 2 = s2 at t2 ⊢
  exact ((t0.trans t1).trans t2).trans (port_tellRewriteOf s2 n 3 p)

theorem setsOnly_writeProfile (s : State) (n : ProfNo) (r : Profile) (p : PortNo) :
    (s.port p).SetsOnly ((s.writeProfile n r).port p) := by
  unfold State.writeProfile
  split
  · exact .refl _
  · exact setsOnly_tellRewrite (s.setProfile n r) n p

theorem setsOnly_setMask (s : State) (m : BitVec 8) (p : PortNo) : (s.port p).SetsOnly ((s.setMask m).port p) := by
  have put := port_putBooths { s with slotMask := m } (fun _ => Booth.atMask s.slotMask m) allBooths p
  rw [setMask_eq]
  generalize State.putBooths _ _ _ = u at put ⊢
  rw [Port.SetsOnly, put]
  rfl

theorem Acts.setsOnly {s t : State} (h : Acts s t) (p : PortNo) : (s.port p).SetsOnly (t.port p) := by
  have set (q : PortNo) (x : Port) (hx : (s.port q).SetsOnly x) : (s.port p).SetsOnly ((s.setPort q x).port p) := by
    rw [State.port_setPort]
    split
    · rename_i e; rw [e]; exact hx
    · rfl
  cases h with
  | pending q n => exact set q _ rfl
  | enabled q e => exact set q _ rfl
  | perform c n a fields => exact (moves_perform s c n _).setsOnly p
  | clear q c n =>
    refine ((moves_clearChannel s c).setsOnly p).trans ?_
    rw [State.port_setPort]
    split
    · rename_i e; rw [e]; rfl
    · rfl
  | target c d range => exact (moves_setTarget s c d).setsOnly p
  | release c => exact (moves_releaseBooth s c).setsOnly p
  | writeBooth b prm fields unclaimed => rw [Port.SetsOnly, port_putBooth]
  | mask m => exact setsOnly_setMask s m p
  | writeProfile n prm defined fields zero => exact setsOnly_writeProfile s n _ p
  | assign c b nx a range taken => exact ((moves_setAssign s c a).trans (moves_raise _ c _)).setsOnly p
  | _ => rfl

/-! ### The laws -/

/-- The laws of the ports: a role exactly while the part is not STARTING; nothing pending at a port with none; single roles single; and
while STORING the port that asked awaits its reply. -/
theorem portLaws_iff (s : State) : s.PortLaws ↔
    (∀ p : PortNo, (s.port p).role.isSome = !s.loader.phase.isStarting) ∧ s.Silent ∧
    (∀ p q : PortNo, p ≠ q → (s.port p).role = (s.port q).role → (s.port p).role.all Role.plural = true) ∧
    ∀ p k, s.loader.phase = .storing p k →
      (s.port p).role = some .studio ∧ (s.port p).trans = .answering none ∧ (s.port p).sense = senseNone := by
  unfold State.PortLaws State.Silent
  cases hp : s.loader.phase with
  | starting =>
    simp only [Phase.isStarting, if_true, Bool.not_true, Option.isSome_eq_false_iff, Option.isNone_iff_eq_none]
    constructor
    · rintro ⟨h, shared, -⟩
      exact ⟨fun p => (h p).1, fun p _ => (h p).2, shared, nofun⟩
    · rintro ⟨h, silent, shared, -⟩
      exact ⟨fun p => ⟨h p, silent p (h p)⟩, shared, trivial⟩
  | serving =>
    simp only [Phase.isStarting, Bool.false_eq_true, if_false, Bool.not_false]
    constructor
    · rintro ⟨h, shared, -⟩
      exact ⟨h, fun p hn => by simpa [hn] using h p, shared, nofun⟩
    · rintro ⟨h, -, shared, -⟩
      exact ⟨h, shared, trivial⟩
  | storing q k =>
    simp only [Phase.isStarting, Bool.false_eq_true, if_false, Bool.not_false]
    constructor
    · rintro ⟨h, shared, waits⟩
      exact ⟨h, fun p hn => by simpa [hn] using h p, shared, fun p j e => by cases e; exact waits⟩
    · rintro ⟨h, -, shared, waits⟩
      exact ⟨h, shared, waits q k rfl⟩

/-- The same phase and roles keep the laws, where no notice came to a port without a role and the storing port still waits. -/
theorem portLaws_frame {s t : State} (h : s.PortLaws) (phase : t.loader.phase = s.loader.phase)
    (roles : ∀ p, (t.port p).role = (s.port p).role) (silent : s.loader.phase.isStarting = true → t.Silent)
    (waits : ∀ p k, s.loader.phase = .storing p k → (s.port p).trans = .answering none →
      (t.port p).trans = (s.port p).trans ∧ (t.port p).sense = (s.port p).sense) : t.PortLaws := by
  rw [portLaws_iff] at h ⊢
  obtain ⟨has, -, shared, storing⟩ := h
  simp only [phase, roles]
  refine ⟨has, fun p hp => ?_, shared, fun p k hk => ?_⟩
  · have none := has p
    rw [← roles p, hp] at none
    exact silent (by simpa using none) p hp
  · obtain ⟨role, trans, sense⟩ := storing p k hk
    obtain ⟨trans', sense'⟩ := waits p k hk trans
    exact ⟨role, trans'.trans trans, sense'.trans sense⟩

/-- One port that sends no awaited reply is replaced by one with its role and pending set. -/
theorem portLaws_setPort {s : State} (h : s.PortLaws) (p : PortNo) {x : Port} (role : x.role = (s.port p).role)
    (pending : x.pending = (s.port p).pending)
    (waits : (s.port p).trans = .answering none → x.trans = .answering none ∧ x.sense = (s.port p).sense) : (s.setPort p x).PortLaws := by
  have silent := ((portLaws_iff s).1 h).2.1
  refine portLaws_frame h rfl (fun q => ?_) (fun _ q hq => ?_) fun q k _ answering => ?_
  · rw [State.port_setPort]
    split
    · rename_i e; rw [e]; exact role
    · rfl
  · rw [State.port_setPort] at hq ⊢
    split at hq
    · rename_i e
      rw [if_pos e, pending]
      exact silent p (role ▸ hq)
    · rename_i e
      rw [if_neg e]
      exact silent q hq
  · rw [State.port_setPort]
    split
    · rename_i e
      subst e
      rw [answering]
      exact waits answering
    · exact ⟨rfl, rfl⟩

theorem port_answer (s : State) (p : PortNo) (a : Answer) (q : PortNo) :
    ((s.answer p a).port q).role = (s.port q).role ∧ ((s.answer p a).port q).pending = (s.port q).pending ∧
      (q ≠ p → (s.answer p a).port q = s.port q) := by
  unfold State.answer
  rw [State.port_setPort]
  split
  · rename_i e
    rw [e]
    exact ⟨(port_reply _ a).1, (port_reply _ a).2.1, fun h => absurd rfl h⟩
  · exact ⟨rfl, rfl, fun _ => rfl⟩

theorem setPort_self (s : State) (p : PortNo) : s.setPort p (s.port p) = s := by
  apply State.ext_accessors <;> intros <;> try rfl
  rw [State.port_setPort]
  split
  · rename_i e; rw [e]
  · rfl

/-- STORE SETTINGS puts the part in STORING and is not answered yet (R172). -/
theorem storeSettings_answered (s : State) (p : PortNo) (r : Role) (before : Sense) (prm : List Byte) :
    (act .storeSettings r s p before prm).1.answer p (act .storeSettings r s p before prm).2 =
      { s with loader := { s.loader with phase := .storing p s.snapshot } } :=
  setPort_self _ p

/-- The end of a store puts the part in SERVING and answers the port that asked (R173). -/
theorem storeDone_answered {s : State} {p : PortNo} {k : Settings} (hp : s.loader.phase = .storing p k) (m : StoreMemory) :
    ∃ a, s.storeDone m =
      ({ s with memory := (storeRun m s.memory k).1, loader := { s.loader with phase := .serving } } : State).answer p a :=
  ⟨_, by simp only [State.storeDone, hp]; rfl⟩

theorem portLaws_acceptBlock {s : State} (h : s.PortLaws) (p : PortNo) (b : Block) (free : (s.port p).trans = .free) :
    (s.acceptBlock p b).PortLaws := by
  have accepted : (s.setPort p (s.port p).accept).PortLaws :=
    portLaws_setPort h p rfl rfl fun busy => by rw [free] at busy; cases busy
  have notStoring (q : PortNo) (answering : (s.port q).trans = .answering none) : q ≠ p := by
    rintro rfl; rw [free] at answering; cases answering
  unfold State.acceptBlock
  dsimp only
  split
  · rename_i a _
    refine portLaws_frame h rfl (fun q => ?_) (fun _ q hq => ?_) fun q k _ answering => ?_
    · rw [(port_answer _ p a q).1, State.port_setPort]
      split
      · rename_i e; rw [e]; rfl
      · rfl
    · rw [(port_answer _ p a q).1] at hq
      rw [(port_answer _ p a q).2.1]
      exact ((portLaws_iff _).1 accepted).2.1 q hq
    · rw [(port_answer _ p a q).2.2 (notStoring q answering), State.port_setPort_ne _ (notStoring q answering)]
      exact ⟨rfl, rfl⟩
  · rename_i k r hj
    obtain ⟨serving, role, -, may⟩ := judge_command hj
    by_cases hk : k = .storeSettings
    · subst hk
      have studio : r = .studio := by cases r <;> simp_all [mayIssue]
      subst studio
      rw [storeSettings_answered]
      obtain ⟨has, silent, shared, -⟩ := (portLaws_iff _).1 accepted
      rw [portLaws_iff]
      refine ⟨fun q => (has q).trans (congrArg _ serving), silent, shared, fun q k hq => ?_⟩
      cases hq
      change ((s.setPort p (s.port p).accept).port p).role = _ ∧ ((s.setPort p (s.port p).accept).port p).trans = _ ∧
        ((s.setPort p (s.port p).accept).port p).sense = _
      rw [State.port_setPort_self]
      exact ⟨role, rfl, rfl⟩
    · have acts := acts_act hk r (s.setPort p (s.port p).accept) p (s.port p).sense b.body.tail
      generalize act k r (s.setPort p (s.port p).accept) p (s.port p).sense b.body.tail = u at acts ⊢
      have sets (q : PortNo) := acts.setsOnly q
      refine portLaws_frame h acts.phase (fun q => ?_) (fun starting => ?_) fun q k _ answering => ?_
      · rw [(port_answer _ p u.2 q).1, sets q, State.port_setPort]
        split
        · rename_i e; rw [e]; rfl
        · rfl
      · rw [serving] at starting; cases starting
      · have hne := notStoring q answering
        rw [(port_answer _ p u.2 q).2.2 hne, sets q, State.port_setPort_ne _ hne]
        exact ⟨rfl, rfl⟩

/-! ### The roles of a start-up -/

theorem role_startUp {s : State} (hp : s.loader.phase = .starting) (m : MemoryAnswer) (p : PortNo) :
    ((s.startUp m).port p).role = some (s.loader.roles (startSettings m s.memory))[p] := by
  have told (u : State) (old : Option (Vector Nat 4)) : ((u.resetDelays old).port p).role = (u.port p).role := by
    cases old with
    | none => rfl
    | some v =>
      unfold State.resetDelays
      dsimp only
      rw [port_raiseIf_eq, port_raiseIf_eq, port_raiseIf_eq, port_raiseIf_eq]
  simp only [State.startUp, hp]
  refine (told _ _).trans ?_
  have started (u : State) : ((u.raise .start).port p).role = (u.port p).role := by
    rw [show u.raise .start = u.raiseIf true .start from rfl, port_raiseIf_eq]
  rw [started]
  simp [State.bringRoles, State.port]

theorem portLaws_startUp {s : State} (hp : s.loader.phase = .starting) (m : MemoryAnswer) : (s.startUp m).PortLaws := by
  rw [portLaws_iff]
  simp only [phase_startUp hp, role_startUp hp, Option.isSome_some, Phase.isStarting, Bool.not_false, implies_true, true_and,
    Option.some.injEq, Option.all_some, reduceCtorEq, false_implies, and_true]
  refine ⟨fun p hr => ?_, fun p q hpq same => resolveRoles_shared _ hpq same⟩
  rw [role_startUp hp] at hr
  cases hr

theorem portLaws_restart (s : State) (cause : RestartCause) (n : Nat) : (s.restart cause n).PortLaws := by
  rw [portLaws_iff]
  simp only [phase_restart, port_restart, State.Silent]
  exact ⟨fun _ => rfl, fun _ _ => rfl, fun _ _ _ _ => rfl, nofun⟩

theorem stepKeeps_portLaws : StepKeeps State.PortLaws where
  queue _ _ h := h
  recv s p v h := portLaws_setPort h p rfl rfl fun busy => ⟨busy, rfl⟩
  free s p r busy h := portLaws_setPort h p rfl rfl fun busy' => by rw [busy] at busy'; cases busy'
  block s p b free h := portLaws_acceptBlock h p b free
  path _ _ _ _ h := h
  frameStart s c pic a t _ h := by
    have moves := moves_frameStart s c pic a t
    refine portLaws_frame h moves.phase moves.role (fun _ => silent_frameStart ((portLaws_iff s).1 h).2.1 c pic a t)
      fun p k _ _ => ?_
    rw [moves.ports p]
    exact ⟨rfl, rfl⟩
  linkEnd s slots serving h := by
    have port (p : PortNo) := port_putBooths { s with linkInFrame := false }
      (fun _ => Booth.atLinkEnd s.slotMask (fun n => slots[n.val]?)) allBooths p
    rw [State.linkEnd, boothEnds_eq]
    refine portLaws_frame h (by rw [putBooths_eq]) (fun p => ?_) (fun starting => ?_) fun p k _ _ => ?_
    · rw [port]; rfl
    · rw [serving] at starting; cases starting
    · rw [port]; exact ⟨rfl, rfl⟩
  linkBegin _ h := h
  restart s cause n _ := portLaws_restart s cause n
  startUp s m hp _ := portLaws_startUp hp m
  storeDone s m p k hp h := by
    obtain ⟨has, -, shared, -⟩ := (portLaws_iff s).1 h
    obtain ⟨a, done⟩ := storeDone_answered hp m
    rw [done]
    have served (q : PortNo) := (port_answer { s with memory := (storeRun m s.memory k).1, loader := { s.loader with phase := .serving } } p a q).1
    rw [portLaws_iff]
    simp only [served]
    refine ⟨fun q => ?_, fun q hq => ?_, shared, nofun⟩
    · exact (has q).trans (by rw [hp]; rfl)
    · rw [served] at hq
      have lacks := has q
      rw [show (s.port q).role = none from hq, hp] at lacks
      cases lacks

end Sys2Proof.Machine

namespace Sys2Proof.Proofs
open Sys2Proof.Machine

/-- Settles O59: roles come into force with the start-up, resolved, and go with the restart; a storing port is ANSWERING, so no block
reaches it before its reply. -/
theorem everyStepKeepsPortLaws : Obligations.EveryStepKeepsPortLaws :=
  fun _ _ h hstep => stepKeeps_portLaws.step h hstep

/-- Settles O6, by what one port's role becomes. -/
theorem lowestPortKeepsDuplicateRole : Obligations.LowestPortKeepsDuplicateRole := by
  intro v p
  rw [resolveRoles_get]
  refine ⟨fun plural => ?_, fun _ first => ?_, fun single taken => if_pos ⟨single, taken⟩⟩
  · rw [if_neg fun h => by rw [h.1] at plural; cases plural]
  · rw [if_neg]
    rintro ⟨-, q, hq, e⟩
    exact first q hq e

end Sys2Proof.Proofs
end

section
/-!
PROOF. The step, the power-on state, the unit restart, and the events that change one thing or none (R1, R6, R21, R23, R27, R149, R150,
R168).
-/
namespace Sys2Proof.Machine

/-! ### The unit restart (R168) -/

theorem afterRestart_restart (s : State) (cause : RestartCause) (n : Nat) : (s.restart cause n).AfterRestart := by
  refine ⟨phase_restart s cause n, fun c => ?_, fun b => ?_, fun p => ?_⟩
  · rw [chan_restart]
    decide
  · rw [booth_restart]
    exact ⟨rfl, rfl, rfl, rfl, rfl, rfl, rfl⟩
  · rw [port_restart]
    exact ⟨rfl, rfl, rfl, rfl, rfl, rfl, rfl⟩

/-- The state after power-on is a state that a restart leaves. -/
theorem reset_eq_restart : State.reset = State.reset.restart .powerOn 0 := rfl

/-! ### Booths after a link frame end (R21, R27) -/

theorem booth_linkEnd (s : State) (slots : List SlotRx) (b : BoothNo) :
    (s.linkEnd slots).booth b = (s.booth b).atLinkEnd s.slotMask (fun n => slots[n.val]?) := by
  rw [State.linkEnd, boothEnds_eq, booth_putBooths _ _ (by decide), if_pos (mem_allBooths b)]
  rfl

theorem linkEnd_frame (s : State) (slots : List SlotRx) :
    s.linkEnd slots = { s with linkInFrame := false, booths := (s.linkEnd slots).booths, ports := (s.linkEnd slots).ports } := by
  unfold State.linkEnd
  rw [boothEnds_eq]
  have put := putBooths_eq { s with linkInFrame := false } (fun _ => Booth.atLinkEnd s.slotMask (fun n => slots[n.val]?)) allBooths
  generalize State.putBooths _ _ _ = u at put ⊢
  exact put

theorem port_linkEnd (s : State) (slots : List SlotRx) (p : PortNo) :
    (s.linkEnd slots).port p = { s.port p with pending := ((s.linkEnd slots).port p).pending } := by
  unfold State.linkEnd
  rw [boothEnds_eq]
  have put := port_putBooths { s with linkInFrame := false } (fun _ => Booth.atLinkEnd s.slotMask (fun n => slots[n.val]?)) allBooths p
  generalize State.putBooths _ _ _ = u at put ⊢
  exact put

theorem booth_linkBegin (s : State) (b : BoothNo) : s.linkBegin.booth b = { s.booth b with awaiting := false } := by
  simp [State.linkBegin, State.booth]

/-- Notices of a change to booths read the ports, the assignments and the healths alone. -/
theorem State.TellsBooths.congr {s s' t t' : State} (h : s.TellsBooths t) (port : ∀ p, s'.port p = s.port p)
    (health : ∀ b, (s'.booth b).health = (s.booth b).health) (assign : ∀ c, (s'.chan c).assign = (s.chan c).assign)
    (port' : ∀ p, t'.port p = t.port p) (health' : ∀ b, (t'.booth b).health = (t.booth b).health) : s'.TellsBooths t' where
  kinds p := by rw [port, port']; exact h.kinds p
  booth p b := by rw [port, port', health, health']; exact h.booth p b
  feed p c := by simp only [port, port', health, health', assign]; exact h.feed p c

theorem tellsBooths_linkEnd (s : State) (slots : List SlotRx) : s.TellsBooths (s.linkEnd slots) := by
  have tells := tellsBooths_putBooths { s with linkInFrame := false } (fun _ => Booth.atLinkEnd s.slotMask (fun n => slots[n.val]?))
  unfold State.linkEnd
  rw [boothEnds_eq]
  generalize State.putBooths _ _ _ = u at tells ⊢
  exact tells.congr (fun _ => rfl) (fun _ => rfl) (fun _ => rfl) (fun _ => rfl) fun _ => rfl

/-- A booth with no slot, and one that awaits, is as it was. -/
theorem atLinkEnd_idle {x : Booth} (h : x.record.slot = none ∨ x.awaiting = true) (mask : BitVec 8) (slots : SlotNo → Option SlotRx) :
    x.atLinkEnd mask slots = x := by
  unfold Booth.atLinkEnd
  split
  · rfl
  · rename_i hn
    rw [if_pos]
    rcases h with h | h
    · rw [h] at hn; cases hn
    · exact h

theorem awaiting_applyResult (x : Booth) (r : SlotResult) (pic : Picture) : (x.applyResult r pic).awaiting = x.awaiting := by
  unfold Booth.applyResult Booth.onGood Booth.onMiss Booth.promote
  cases r <;> cases x.health <;> dsimp only <;> split_ifs <;> rfl

theorem awaiting_atLinkEnd (x : Booth) (mask : BitVec 8) (slots : SlotNo → Option SlotRx) :
    (x.atLinkEnd mask slots).awaiting = x.awaiting := by
  unfold Booth.atLinkEnd
  split
  · rfl
  · split
    · rfl
    · exact awaiting_applyResult _ _ _

/-- A booth that receives takes the result of its own slot (R21, R22, R29). -/
theorem takes_atLinkEnd {x : Booth} {n : SlotNo} (hn : x.record.slot = some n) (receives : x.awaiting = false) (mask : BitVec 8)
    (slots : List SlotRx) :
    ∃ pic, (∀ rx, slots[n.val]? = some rx → pic = land x.record.width rx.raw) ∧
      x.Takes (slotResult (mask.getLsbD n) x.record.width slots[n.val]?) pic (x.atLinkEnd mask (fun n => slots[n.val]?)) := by
  refine ⟨(slots[n.val]?).elim blackPicture fun rx => land x.record.width rx.raw, fun rx hx => by rw [hx]; rfl, ?_⟩
  have takes := applyResult_takes x (slotResult_ne_none (mask.getLsbD n) x.record.width slots[n.val]?)
    ((slots[n.val]?).elim blackPicture fun rx => land x.record.width rx.raw)
  unfold Booth.atLinkEnd
  simp only [hn, receives, Bool.false_eq_true, if_false]
  cases hx : slots[n.val]? <;> simpa only [hx, Option.elim] using takes

/-- A booth at a link frame end, and whether it awaits after the event that brought it. -/
theorem booth_atLinkEnd {x x' : Booth} {mask : BitVec 8} {slots : List SlotRx} {inside : Bool}
    (h : x' = { x.atLinkEnd mask (fun n => slots[n.val]?) with awaiting := x.awaiting && !inside }) :
    ((x.record.slot = none ∨ x.awaiting = true) → x' = { x with awaiting := x'.awaiting }) ∧
    (∀ n : SlotNo, x.record.slot = some n → x.awaiting = false →
      ∃ pic, (∀ rx, slots[n.val]? = some rx → pic = land x.record.width rx.raw) ∧
        x.Takes (slotResult (mask.getLsbD n) x.record.width slots[n.val]?) pic { x' with awaiting := false }) ∧
    x'.awaiting = (x.awaiting && !inside) := by
  subst h
  refine ⟨fun idle => by rw [atLinkEnd_idle idle], fun n hn receives => ?_, rfl⟩
  obtain ⟨pic, landed, takes⟩ := takes_atLinkEnd hn receives mask slots
  refine ⟨pic, landed, ?_⟩
  have still := awaiting_atLinkEnd x mask (fun n => slots[n.val]?)
  rw [receives] at still
  generalize x.atLinkEnd mask (fun n => slots[n.val]?) = y at still takes
  obtain ⟨_, _, _, _, _, _, _, _, _⟩ := y
  cases still
  exact takes

end Sys2Proof.Machine

namespace Sys2Proof.Proofs
open Sys2Proof.Machine

/-- Settles O1: by the two cases of `step`. -/
theorem stepRunsFrontCommand : Obligations.StepRunsFrontCommand := by
  refine ⟨fun i rest s => rfl, fun s empty => ?_⟩
  unfold Machine.step
  split
  · rfl
  · rename_i e; rw [empty] at e; cases e

/-- Settles O2: the power-on state is one that a restart leaves, and a restart puts every law in force. -/
theorem lawsHoldAtReset : Obligations.LawsHoldAtReset := by
  unfold Obligations.LawsHoldAtReset
  rw [reset_eq_restart]
  have memory : Memory.wf State.reset.memory = true := rfl
  generalize State.reset = s at memory
  exact ⟨afterRestart_restart s _ _, rfl, rfl, rfl, poolLaws_restart s _ _, poolSettled_restart s _ _, boothLaws_restart s _ _,
    layoutLaws_restart s _ _, airLaws_restart s _ _, cueLaws_restart s _ _, portLaws_restart s _ _,
    (startingLaws_iff _).2 ⟨idlePaths_restart s _ _, idlePorts_restart s _ _⟩,
    wf_memoryAtRestart memory 0⟩

/-- Settles O3: the blocks do not read what they held, and the loader's record is kept or cleared by the cause. -/
theorem unitRestartStartsEveryBlockAfresh : Obligations.UnitRestartStartsEveryBlockAfresh := by
  intro cause w s
  refine ⟨s.restart cause w, rfl, afterRestart_restart s cause w, ?_, ?_, ?_, fun idle => ?_⟩
  · cases cause <;> rfl
  · rintro rfl
    exact ⟨rfl, rfl, rfl⟩
  · intro other
    cases cause with
    | resetReply => exact absurd rfl other
    | powerOn => exact ⟨rfl, rfl, rfl⟩
    | rstInput => exact ⟨rfl, rfl, rfl⟩
  · change s.memoryAtRestart w = s.memory
    unfold State.memoryAtRestart
    split
    · exact absurd ‹_› (idle _ _)
    · rfl
    · rfl

/-- Settles O15: by the branches of each event. -/
theorem invalidFrameLosesLock : Obligations.InvalidFrameLosesLock := by
  intro s c p
  refine ⟨fun locked => ⟨?_, fun bypass => ?_⟩, fun unlocked => ⟨?_, ?_⟩, fun h => ?_, fun h => ?_⟩
  · exact congrArg _ (if_pos locked)
  · exact congrArg _ ((if_pos locked).trans (if_pos bypass))
  · exact congrArg _ (if_neg (by simp [p, unlocked]))
  · exact congrArg _ (if_neg (by simp [p, unlocked]))
  · refine congrArg _ (if_pos ?_)
    rcases h with locked | starting
    · simp [p, locked]
    · simp [starting, Phase.isStarting]
  · refine congrArg _ (if_neg ?_)
    rcases h with ended | locked
    · simp [p, ended]
    · simp [p, locked]

/-- Settles O21: by the branches of each event. -/
theorem linkFrameBeginEndsAwaiting : Obligations.LinkFrameBeginEndsAwaiting := by
  intro s
  constructor
  · intro serving
    have begins : exec .linkFrameBegin s = .next s.linkBegin := congrArg _ (if_neg (by simp [serving]))
    refine ⟨s.linkBegin, begins, rfl, booth_linkBegin s, fun outside l => ⟨?_, ?_⟩, fun inside => ?_⟩
    · exact congrArg _ (if_pos (by simp [outside]))
    · rw [begins]
      exact congrArg _ ((if_neg (by simp [serving])).trans (by rw [if_neg (by simp [outside])]))
    · exact congrArg _ (if_pos (by simp [inside]))
  · intro starting
    have idle : s.loader.phase.isStarting = true := by rw [starting]; rfl
    exact ⟨congrArg _ (if_pos idle), congrArg _ (if_pos (by simp [idle])), fun l =>
      ⟨congrArg _ (if_pos idle), congrArg _ (if_pos (by simp [idle])), congrArg _ (if_pos idle)⟩⟩

/-- Settles O55: by the phase and the transaction state that each event finds. -/
theorem overlapAndGapDiscard : Obligations.OverlapAndGapDiscard := by
  intro s p
  refine ⟨fun r code b answering => ?_, rfl, fun idle => ?_, fun serving m => ?_, fun noStore m => ?_⟩
  · exact congrArg _ (blockCompletes_answering answering _)
  · change Host.Outcome.next (s.replyEnds p) = _
    rcases idle with free | waiting
    · simp only [State.replyEnds, free]
    · simp only [State.replyEnds, waiting]
  · change Host.Outcome.next (s.startUp m) = _
    cases hp : s.loader.phase with
    | starting => rw [hp] at serving; cases serving
    | serving => simp only [State.startUp, hp]
    | storing q k => simp only [State.startUp, hp]
  · change Host.Outcome.next (s.storeDone m) = _
    cases hp : s.loader.phase with
    | starting => simp only [State.storeDone, hp]
    | serving => simp only [State.storeDone, hp]
    | storing q k => exact absurd hp (noStore q k)

/-- Settles O20: each booth takes its slot's result, and the reception of the next frame that may follow ends every awaiting. -/
theorem linkFrameEndAppliesSlotResults : Obligations.LinkFrameEndAppliesSlotResults := by
  intro s i slots ends
  have frame := linkEnd_frame s slots
  have ports := port_linkEnd s slots
  have tells := tellsBooths_linkEnd s slots
  have booth := booth_linkEnd s slots
  have he := exec_linkEnds ends
  by_cases begins : ∃ l, i = .linkNewFrameStart l
  case pos =>
    obtain ⟨l, rfl⟩ := begins
    dsimp only at he
    generalize s.linkEnd slots = u at he frame ports tells booth
    refine ⟨u.linkBegin, he, fun b => booth_atLinkEnd ?_, ⟨fun _ => ⟨l, rfl⟩, fun _ => rfl⟩, ?_, ports, ?_⟩
    · rw [booth_linkBegin, booth]
      simp [State.linkBegin]
    · rw [frame]
      rfl
    · exact tells.congr (fun _ => rfl) (fun _ => rfl) (fun _ => rfl) (fun _ => rfl) fun b => by rw [booth_linkBegin]
  case neg =>
    have ended : exec i s = .next (s.linkEnd slots) := by
      cases ends with
      | cutShort l serving inside => exact absurd ⟨_, rfl⟩ begins
      | _ => exact he
    generalize s.linkEnd slots = u at ended frame ports tells booth
    have outside : u.linkInFrame = false := by rw [frame]
    refine ⟨u, ended, fun b => booth_atLinkEnd ?_, ?_, ?_, ports, tells⟩
    · have still := awaiting_atLinkEnd (s.booth b) s.slotMask (fun n => slots[n.val]?)
      rw [booth, outside, Bool.not_false, Bool.and_true, ← still]
    · simp [outside, begins]
    · rw [outside]
      exact frame

end Sys2Proof.Proofs
end

section
/-!
PROOF. The commands that raise no notice: the port's own reports, the standing settings of a channel, the booth and profile reports,
and the commands on the stored settings (chapters 8 and 9).
-/
namespace Sys2Proof.Machine

/-! ### A command sent whole by a port whose role may issue it -/

/-- A command sent whole, with the one length its form allows, by a port whose role may issue it passes the eight tests of R151, and
its owner answers it. -/
theorem exec_command {k : Command} {r : Role} {s : State} {p : PortNo} {b : Tail} {n : Nat} (hs : s.Serves p r)
    (hm : mayIssue k r = true) (hb : Intact k.code b) (hlen : b.params.length = n) (h1 : 1 ≤ n) (h2 : n ≤ 69)
    (hform : formLength k r b.params = some (n + 1)) :
    let u := act k r (s.setPort p (s.port p).accept) p (s.port p).sense b.params
    exec (k.instr p b) s = .next (u.1.answer p u.2) := by
  have hidle : r ≠ .idle := by rintro rfl; revert hm; cases k <;> decide
  have one (m : Nat) (hf : formLength k r b.params = some m) : m = b.params.length + 1 :=
    hlen ▸ Option.some.inj (hf.symm.trans hform)
  exact (exec_instr k p b s).trans (congrArg _ (blockCompletes_command hs hidle hb (hlen ▸ h1) (hlen ▸ h2) hm one))

/-- A command of a STUDIO port. -/
theorem exec_studio {k : Command} {s : State} {p : PortNo} {b : Tail} {n : Nat} (hs : s.Serves p .studio) (hb : Intact k.code b)
    (hlen : b.params.length = n) (hm : mayIssue k .studio = true := by rfl) (h1 : 1 ≤ n := by decide) (h2 : n ≤ 69 := by decide)
    (hform : formLength k .studio b.params = some (n + 1) := by rfl) :
    let u := act k .studio (s.setPort p (s.port p).accept) p (s.port p).sense b.params
    exec (k.instr p b) s = .next (u.1.answer p u.2) := exec_command hs hm hb hlen h1 h2 hform

/-- A command of a CHANNEL port. -/
theorem exec_channel {k : Command} {s : State} {p : PortNo} {c : ChanNo} {b : Tail} {n : Nat} (hs : s.Serves p (.channel c))
    (hb : Intact k.code b) (hlen : b.params.length = n) (hm : mayIssue k (.channel c) = true := by rfl) (h1 : 1 ≤ n := by decide)
    (h2 : n ≤ 69 := by decide) (hform : formLength k (.channel c) b.params = some (n + 1) := by rfl) :
    let u := act k (.channel c) (s.setPort p (s.port p).accept) p (s.port p).sense b.params
    exec (k.instr p b) s = .next (u.1.answer p u.2) := exec_command hs hm hb hlen h1 h2 hform

/-- An owner that refuses at an index, having changed nothing. -/
theorem answer_illegal (s : State) (p : PortNo) (i : Nat) :
    (s.setPort p (s.port p).accept).answer p (.illegal i) = s.sendIllegal p i := answer_check s p _ _ _ _

/-- An owner that refuses with key, code and info, having changed nothing. -/
theorem answer_refuse (s : State) (p : PortNo) (k : SenseKey) (e : SenseCode) (i : Nat) :
    (s.setPort p (s.port p).accept).answer p (.refuse k e i) = s.sendCheck p k e (some i) := answer_check s p _ _ _ _

/-- An owner that answers GOOD, having changed nothing. -/
theorem answer_ok (s : State) (p : PortNo) (d : List Byte) :
    (s.setPort p (s.port p).accept).answer p (.ok d) = s.sendGood p d := answer_good s p d false

/-! ### Numbers and bytes -/

@[simp] theorem chanOf_val (c : ChanNo) : chanOf c.val = some c := dif_pos c.isLt
@[simp] theorem profOf_val (n : ProfNo) : profOf n.val = some n := dif_pos n.isLt
theorem chanOf_eq_none {n : Nat} (h : 3 < n) : chanOf n = none := dif_neg (by omega)
theorem profOf_eq_none {n : Nat} (h : 15 < n) : profOf n = none := dif_neg (by omega)

/-- A byte's number names the byte. -/
@[simp] theorem byteOf_natAt (l : List Byte) (i : Nat) : byteOf (natAt l i) = l.getD i 0 := by
  simp [byteOf, natAt]

/-! ### The settings of a channel -/

theorem actSetSlew_ok {prm : List Byte} (h1 : 1 ≤ nat16At prm 0) (h2 : nat16At prm 0 ≤ 255) (s : State) (c : ChanNo) :
    actSetSlew s c prm = (s.setPath c { (s.chan c).path with slewInterval := nat16At prm 0 }, .ok []) :=
  if_neg (by omega)

theorem actSetSlew_outOfRange {prm : List Byte} (h : nat16At prm 0 = 0 ∨ 255 < nat16At prm 0) (s : State) (c : ChanNo) :
    actSetSlew s c prm = (s, .illegal 1) := if_pos h

theorem actSetLateLimit_ok {prm : List Byte} (h : natAt prm 0 ≤ 250) (s : State) (c : ChanNo) :
    actSetLateLimit s c prm = (s.setSched c { (s.chan c).sched with lateLimit := natAt prm 0 }, .ok [byteOf (natAt prm 0)]) :=
  if_neg (by rw [Config.maxLateness]; omega)

theorem actSetLateLimit_outOfRange {prm : List Byte} (h : 250 < natAt prm 0) (s : State) (c : ChanNo) :
    actSetLateLimit s c prm = (s, .illegal 1) := if_pos h

theorem lossOf_eq_none {n : Nat} (h : 2 < n) : lossOf n = none := by
  obtain ⟨k, rfl⟩ := Nat.exists_eq_add_of_le' h
  rfl

theorem actSetLossMode_outOfRange {prm : List Byte} (h : 2 < natAt prm 0) (s : State) (c : ChanNo) :
    actSetLossMode s c prm = (s, .illegal 1) := by simp only [actSetLossMode, lossOf_eq_none h]

theorem actSetLossMode_ok {prm : List Byte} {m : LossMode} (h : lossOf (natAt prm 0) = some m) (s : State) (c : ChanNo) :
    actSetLossMode s c prm = (s.setPres c { (s.chan c).pres with loss := m }, .ok [m.toByte]) := by
  simp only [actSetLossMode, h]

/-! ### Reports of the booth store and the profile library -/

theorem actBoothState_booth {prm : List Byte} {n : BoothNo} (h : natAt prm 0 = n) (s : State) :
    actBoothState s prm = (s, .ok (s.booth n).stateBytes) := by simp only [actBoothState, h, boothOf_val]

theorem actBoothState_outOfRange {prm : List Byte} (h : 5 < natAt prm 0) (s : State) :
    actBoothState s prm = (s, .illegal 1) := by simp only [actBoothState, boothOf_eq_none h]

theorem actReadProfile_profile {prm : List Byte} {n : ProfNo} (h : natAt prm 0 = n) (s : State) :
    actReadProfile s prm = (s, .ok (byteOf n :: (s.profile n).bytes)) := by simp only [actReadProfile, h, profOf_val]

theorem actReadProfile_outOfRange {prm : List Byte} (h : 15 < natAt prm 0) (s : State) :
    actReadProfile s prm = (s, .illegal 1) := by simp only [actReadProfile, profOf_eq_none h]

/-- The rows of BOOTH STATE and READ PROFILE in the table of R155. -/
theorem mayIssue_report {r : Role} (h : r = .studio ∨ r = .monitor) : mayIssue .boothState r = true ∧ mayIssue .readProfile r = true := by
  obtain rfl | rfl := h <;> exact ⟨rfl, rfl⟩

/-! ### WRITE PORT ROLES -/

/-- The bytes 0 to 6 are the roles. -/
theorem roleOf_isSome (n : Nat) : (roleOf n).isSome = decide (n ≤ 6) := by
  by_cases h : n ≤ 6
  · interval_cases n <;> rfl
  · obtain ⟨k, rfl⟩ := Nat.exists_eq_add_of_le' (Nat.lt_of_not_le h)
    exact (decide_eq_false h).symm

/-- The byte that names a role is the role's byte. -/
theorem toByte_roleOf {n : Nat} {r : Role} (h : roleOf n = some r) : r.toByte = byteOf n := by
  have hn : n ≤ 6 := by simpa [h] using (roleOf_isSome n).symm
  interval_cases n <;> cases h <;> rfl

/-- A role in range is a duplicate's role when its byte is at most 4: a CHANNEL n or STUDIO. -/
theorem plural_roleOf {n : Nat} {r : Role} (h : roleOf n = some r) : r.plural = decide (5 ≤ n) := by
  have hn : n ≤ 6 := by simpa [h] using (roleOf_isSome n).symm
  interval_cases n <;> cases h <;> rfl

theorem roleOf_injective {n m : Nat} {r : Role} (hn : roleOf n = some r) (hm : roleOf m = some r) : n = m := by
  have h := (toByte_roleOf hn).symm.trans (toByte_roleOf hm)
  have hn6 : n ≤ 6 := by simpa [hn] using (roleOf_isSome n).symm
  have hm6 : m ≤ 6 := by simpa [hm] using (roleOf_isSome m).symm
  have := congrArg BitVec.toNat h
  rw [toNat_byteOf (by omega), toNat_byteOf (by omega)] at this
  exact this

theorem rolesFault_eq (prm : List Byte) :
    rolesFault prm = firstFault (numbered 1 ((List.range 6).map (fun i => decide (natAt prm i ≤ 6)))) := by
  simp only [rolesFault, roleOf_isSome]
  rfl

theorem rolesFault_some {prm : List Byte} {i : Nat} (hi : i < 6) (h : 6 < natAt prm i) (least : ∀ j, j < i → natAt prm j ≤ 6) :
    rolesFault prm = some (i + 1) := by
  rw [rolesFault_eq, Nat.add_comm i 1]
  refine firstFault_numbered ⟨?_, fun j hj => ?_⟩
  · simp [List.getElem?_range hi, h]
  · simp [List.getElem?_range (hj.trans hi), least j hj]

theorem rolesFault_none {prm : List Byte} (h : ∀ i, i < 6 → natAt prm i ≤ 6) : rolesFault prm = none := by
  rw [rolesFault_eq, firstFault_numbered_none]
  simpa using h

/-- Six role bytes in range are the six roles. -/
theorem roleOf_rolesAt {prm : List Byte} (h : ∀ i, i < 6 → natAt prm i ≤ 6) (o : PortNo) :
    roleOf (natAt prm o) = some (rolesAt prm)[o] := by
  have some' := (roleOf_isSome (natAt prm o)).trans (decide_eq_true (h o o.isLt))
  obtain ⟨r, hr⟩ := Option.isSome_iff_exists.1 some'
  simp [rolesAt, hr]

/-- Six role bytes in range duplicate a lower one where a CHANNEL n or STUDIO stands before. -/
theorem duplicates_rolesAt {prm : List Byte} (h : ∀ i, i < 6 → natAt prm i ≤ 6) {p : Nat} (hp : p < 6) :
    duplicates ((rolesAt prm).toList.take p) ((rolesAt prm).toList.getD p .idle) = true ↔
      natAt prm p ≤ 4 ∧ ∃ i, i < p ∧ natAt prm i = natAt prm p := by
  have own := roleOf_rolesAt h ⟨p, hp⟩
  have get : (rolesAt prm).toList.getD p .idle = (rolesAt prm)[(⟨p, hp⟩ : PortNo)] := by simp [List.getD_eq_getElem?_getD, hp]
  have before := mem_take_roles (v := rolesAt prm) (p := ⟨p, hp⟩) (r := (rolesAt prm)[(⟨p, hp⟩ : PortNo)])
  rw [get, duplicates_iff, before, plural_roleOf own, decide_eq_false_iff_not, Nat.not_le, Nat.lt_succ_iff]
  refine and_congr Iff.rfl ⟨fun ⟨q, hq, same⟩ => ⟨q, hq, ?_⟩, fun ⟨i, hi, same⟩ => ⟨⟨i, by omega⟩, hi, ?_⟩⟩
  · exact roleOf_injective (roleOf_rolesAt h q) (same ▸ own)
  · have other := roleOf_rolesAt h ⟨i, by omega⟩
    exact Option.some.inj (other.symm.trans ((congrArg roleOf same).trans own))

theorem firstDuplicate_some {prm : List Byte} (h : ∀ i, i < 6 → natAt prm i ≤ 6) {j : Nat} (hj : j < 6) (hr : natAt prm j ≤ 4)
    (dup : ∃ i, i < j ∧ natAt prm i = natAt prm j)
    (least : ∀ j', j' < j → natAt prm j' ≤ 4 → ∀ i, i < j' → natAt prm i ≠ natAt prm j') :
    firstDuplicate (rolesAt prm) = some j := by
  rw [firstDuplicate, List.find?_range_eq_some]
  refine ⟨(duplicates_rolesAt h hj).2 ⟨hr, dup⟩, List.mem_range.2 hj, fun k hk => ?_⟩
  rw [Bool.not_eq_true', ← Bool.not_eq_true, duplicates_rolesAt h (hk.trans hj)]
  rintro ⟨hr', i, hi, same⟩
  exact least k hk hr' i hi same

theorem firstDuplicate_none {prm : List Byte} (h : ∀ i, i < 6 → natAt prm i ≤ 6)
    (single : ∀ j, j < 6 → natAt prm j ≤ 4 → ∀ i, i < j → natAt prm i ≠ natAt prm j) : firstDuplicate (rolesAt prm) = none := by
  rw [firstDuplicate, List.find?_eq_none]
  intro k hk
  have hk6 := List.mem_range.1 hk
  rw [duplicates_rolesAt h hk6]
  rintro ⟨hr, i, hi, same⟩
  exact single k hk6 hr i hi same

/-- The role bytes of six roles in range are the bytes received. -/
theorem toByte_rolesAt {prm : List Byte} (hlen : prm.length = 6) (h : ∀ i, i < 6 → natAt prm i ≤ 6) :
    (rolesAt prm).toList.map Role.toByte = prm := by
  refine List.ext_getElem (by simp [hlen]) fun i h1 h2 => ?_
  have own := toByte_roleOf (roleOf_rolesAt h ⟨i, by omega⟩)
  simpa [List.getD_eq_getElem?_getD, h2] using own

theorem actWritePortRoles_fault {prm : List Byte} {i : Nat} (h : rolesFault prm = some i) (s : State) :
    actWritePortRoles s prm = (s, .illegal i) := by simp only [actWritePortRoles, h]

theorem actWritePortRoles_duplicate {prm : List Byte} {j : Nat} (h : rolesFault prm = none)
    (hd : firstDuplicate (rolesAt prm) = some j) (s : State) :
    actWritePortRoles s prm = (s, .refuse .conflict .duplicateRole (j + 1)) := by simp only [actWritePortRoles, h, hd]

theorem actWritePortRoles_taken {prm : List Byte} (h : rolesFault prm = none) (hd : firstDuplicate (rolesAt prm) = none) (s : State) :
    actWritePortRoles s prm = ({ s with loader := { s.loader with pendingRoles := some (rolesAt prm), rolesPending := true } },
      .ok ((rolesAt prm).toList.map Role.toByte)) := by simp only [actWritePortRoles, h, hd]

/-! ### RESET UNIT and the end of a reply -/

/-- The state after RESET UNIT but for its reply (R168, R175). -/
def State.resetAsked (s : State) (p : PortNo) : State :=
  { s with loader := { s.loader with
      resetPort := some p, grantsAtReset := some (Vector.ofFn (fun c => (s.chan c).pool.granted)) } }

theorem replyEnds_restart {s : State} {p : PortNo} {r : List Byte} (h : (s.port p).trans = .answering (some r))
    (hp : s.loader.resetPort = some p) : s.replyEnds p = s.restart .resetReply 0 := by
  simp only [State.replyEnds, h, hp, if_true]

theorem replyEnds_free {s : State} {p : PortNo} {r : List Byte} (h : (s.port p).trans = .answering (some r))
    (hp : s.loader.resetPort ≠ some p) : s.replyEnds p = s.setPort p { s.port p with trans := .free } := by
  simp only [State.replyEnds, h, hp, if_false]

end Sys2Proof.Machine

namespace Sys2Proof.Proofs
open Sys2Proof.Machine

/-- Settles O41: each owner's two answers, given on a state that differs from `s` at port `p` and in the one item. -/
theorem channelSettingCommands : Obligations.ChannelSettingCommands := by
  intro s p c b hs
  refine ⟨fun hb hlen => ?slew, fun hb hlen => ?limit, fun hb hlen => ?loss⟩
  case slew =>
    intro n
    have hn : nat16At b.params 0 = n := by simp only [nat16At, n, Nat.mul_comm]
    rw [← hn]
    refine ⟨fun h1 h2 => ?_, fun h => ?_⟩ <;> refine (exec_channel (k := .setSlew) hs hb hlen).trans (congrArg _ ?_)
    · simp only [act, actSetSlew_ok h1 h2]
      exact answer_ok (s.setPath c { (s.chan c).path with slewInterval := nat16At b.params 0 }) p []
    · simp only [act, actSetSlew_outOfRange h]
      exact answer_illegal s p 1
  case limit =>
    intro n
    refine ⟨fun h => ?_, fun h => ?_⟩ <;> refine (exec_channel (k := .setLateLimit) hs hb hlen).trans (congrArg _ ?_)
    · simp only [act, actSetLateLimit_ok h]
      exact answer_ok (s.setSched c { (s.chan c).sched with lateLimit := natAt b.params 0 }) p _
    · simp only [act, actSetLateLimit_outOfRange h]
      exact answer_illegal s p 1
  case loss =>
    intro n
    refine ⟨fun m h => ?_, fun h => ?_⟩ <;> refine (exec_channel (k := .setLossMode) hs hb hlen).trans (congrArg _ ?_)
    · have named : lossOf (natAt b.params 0) = some m := by
        rw [show natAt b.params 0 = _ from h]
        cases m <;> rfl
      have byte : m.toByte = byteOf n := by
        rw [h]
        cases m <;> rfl
      simp only [act, actSetLossMode_ok named, byte]
      exact answer_ok (s.setPres c { (s.chan c).pres with loss := m }) p _
    · simp only [act, actSetLossMode_outOfRange h]
      exact answer_illegal s p 1

/-- Settles O26: both owners report and refuse on a state that differs from `s` at port `p` alone. -/
theorem boothStateAndReadProfileReport : Obligations.BoothStateAndReadProfileReport := by
  refine ⟨by decide, by decide, fun s p role b hrole hs hlen => ⟨fun hb => ?booth, fun hb => ?profile⟩⟩
  case booth =>
    have run := exec_command (k := .boothState) hs (mayIssue_report hrole).1 hb hlen (by decide) (by decide) rfl
    refine ⟨fun n hn => run.trans (congrArg _ ?_), fun hn => run.trans (congrArg _ ?_)⟩
    · simp only [act, actBoothState_booth hn, State.booth_setPort]
      rw [answer_ok]
      cases hslot : (s.booth n).record.slot <;> simp only [Booth.stateBytes, hslot] <;> rfl
    · simp only [act, actBoothState_outOfRange hn]
      exact answer_illegal s p 1
  case profile =>
    have run := exec_command (k := .readProfile) hs (mayIssue_report hrole).2 hb hlen (by decide) (by decide) rfl
    refine ⟨fun n hn => run.trans (congrArg _ ?_), fun hn => run.trans (congrArg _ ?_)⟩
    · simp only [act, actReadProfile_profile hn, State.profile_setPort]
      rw [answer_ok]
      congr 1
      cases hff : (s.profile n).ff <;> simp [Profile.bytes, Profile.positionBytes, List.range_succ, hff, flagByte, byteOf]
    · simp only [act, actReadProfile_outOfRange hn]
      exact answer_illegal s p 1

/-- Settles O10: the command is answered when the store ends, and until then its port waits. -/
theorem storeSettingsTakesSnapshot : Obligations.StoreSettingsTakesSnapshot := by
  intro s p b hs _ hb hlen
  refine ⟨s.snapshot, (exec_studio (k := .storeSettings) hs hb hlen).trans (congrArg _ ?_), rfl, rfl, rfl,
    fun v hv => by simp only [State.snapshot, hv, Option.getD_some], fun o => by simp [State.snapshot],
    fun c => by simp [State.snapshot]⟩
  rw [storeSettings_answered]
  have same : (s.setPort p (s.port p).accept).snapshot = s.snapshot := by
    have roles (o : PortNo) : ((s.setPort p (s.port p).accept).port o).role = (s.port o).role := by
      rw [State.port_setPort]
      split
      · rename_i e
        rw [e]
        rfl
      · rfl
    simp only [State.snapshot, roles]
    rfl
  rw [same]
  rfl

/-- Settles O11, by the first role byte at fault, and else by the first duplicate. -/
theorem writePortRolesSetsPendingRoles : Obligations.WritePortRolesSetsPendingRoles := by
  intro s p b hs hb hlen
  have run := exec_studio (k := .writePortRoles) hs hb hlen
  refine ⟨fun i hi h least => run.trans (congrArg _ ?fault), fun range j hj hr dup least => run.trans (congrArg _ ?duplicate),
    fun range single => ⟨rolesAt b.params, roleOf_rolesAt range, run.trans (congrArg _ ?taken)⟩⟩
  case fault =>
    simp only [act, actWritePortRoles_fault (rolesFault_some hi h least)]
    exact answer_illegal s p (i + 1)
  case duplicate =>
    simp only [act, actWritePortRoles_duplicate (rolesFault_none range) (firstDuplicate_some range hj hr dup least)]
    exact answer_refuse s p _ _ _
  case taken =>
    simp only [act, actWritePortRoles_taken (rolesFault_none range) (firstDuplicate_none range single), toByte_rolesAt hlen range]
    exact answer_ok { s with loader := { s.loader with pendingRoles := some (rolesAt b.params), rolesPending := true } } p _

/-- Settles O12: the reply's end is a restart at the port that asked for one, and frees any other port. -/
theorem resetUnitRestartsAfterItsReply : Obligations.ResetUnitRestartsAfterItsReply := by
  refine fun s p => ⟨fun b hs hb hlen => ?asked, fun r hr => ⟨fun hp => ?restart, fun hp => ?free⟩⟩
  case asked =>
    exact ⟨_, fun c => Vector.getElem_ofFn _,
      (exec_studio (k := .resetUnit) hs hb hlen).trans (congrArg _ (answer_ok (s.resetAsked p) p []))⟩
  case restart => exact congrArg _ (replyEnds_restart hr hp)
  case free => exact congrArg _ (replyEnds_free hr hp)

end Sys2Proof.Proofs
end

section
/-!
PROOF. The port's own commands: its reports and its notices (R154, R158 to R163).
-/
namespace Sys2Proof.Machine

/-! ### Status words, bit by bit -/

theorem getElem_flagBit (n : Nat) (b : Bool) (k : Nat) (hk : k < 8) : (flagBit n b)[k] = (b && decide (n = k)) := by
  cases b <;> simp [flagBit, BitVec.getElem_twoPow, eq_comm]

theorem flags_getLsbD (x : Channel) (k : Fin 8) : x.flags.getLsbD k = [x.pres.intent, x.pres.frozen, x.assign.releasePending,
    x.place.move.isSome, x.place.conflict, x.sched.lost, x.path.locked, x.path.flywheel].getD k false := by
  fin_cases k <;> simp [Channel.flags, getElem_flagBit]

theorem status_getLsbD (q : Port) (busy found : Bool) (k : Fin 8) :
    (q.status busy found).getLsbD k = [decide (q.sense.key ≠ .none), busy, found, q.attention].getD k false := by
  fin_cases k <;> simp [Port.status, getElem_flagBit, bne, beq_eq_decide]

theorem kinds_getLsbD (n : Notices) (k : Fin 8) : n.kinds.getLsbD k = [n.start, n.outcome != 0, n.feed != 0, n.assignment != 0,
    n.profile != 0, n.delay != 0, n.conflict != 0, n.booth != 0].getD k false := by
  fin_cases k <;> simp [Notices.kinds, getElem_flagBit]

/-- Two bytes share a bit. -/
theorem and_bne_zero (x y : BitVec 8) : (x &&& y != 0) = true ↔ ∃ k : Fin 8, y.getLsbD k = true ∧ x.getLsbD k = true := by
  rw [bne_iff_ne]
  constructor
  · intro h
    by_contra none'
    refine h (BitVec.eq_of_getLsbD_eq fun i hi => ?_)
    have := not_exists.1 none' ⟨i, hi⟩
    rw [BitVec.getLsbD_and]
    refine (Bool.eq_false_iff.2 fun both => ?_).trans BitVec.getLsbD_zero.symm
    exact this ((Bool.and_eq_true_iff.1 both).symm)
  · rintro ⟨k, hy, hx⟩ h
    have both : (x &&& y).getLsbD k = true := by rw [BitVec.getLsbD_and, hx, hy, Bool.and_self]
    rw [h] at both
    exact Bool.false_ne_true (BitVec.getLsbD_zero.symm.trans both)

/-- The attention line is asserted while the pending and the enabled set share a kind (R159). -/
theorem attention_iff (q : Port) : q.attention = true ↔ ∃ k : Fin 8, q.enabled.getLsbD k = true ∧
    [q.pending.start, q.pending.outcome != 0, q.pending.feed != 0, q.pending.assignment != 0, q.pending.profile != 0,
      q.pending.delay != 0, q.pending.conflict != 0, q.pending.booth != 0].getD k false = true := by
  simp only [Port.attention, and_bne_zero, kinds_getLsbD]

/-! ### What the port answers itself -/

/-- The commands that every port with a role may issue (R155). -/
theorem mayIssue_ports {r : Role} (h : r ≠ .idle) : mayIssue .identify r = true ∧ mayIssue .readSense r = true ∧
    mayIssue .readNotices r = true ∧ mayIssue .setNoticeMask r = true ∧ mayIssue .channelState r = true := by
  cases r with
  | idle => exact absurd rfl h
  | _ => exact ⟨rfl, rfl, rfl, rfl, rfl⟩

theorem actChannelState_named {s : State} {p : PortNo} {prm : List Byte} {c : ChanNo}
    (h : stateChannel (s.port p).role prm = some c) : actChannelState s p prm = (s, .ok ((s.chan c).stateBytes s.rate)) := by
  simp only [actChannelState, h]

theorem actChannelState_outOfRange {s : State} {p : PortNo} {prm : List Byte} (h : stateChannel (s.port p).role prm = none) :
    actChannelState s p prm = (s, .illegal 1) := by simp only [actChannelState, h]

theorem stateChannel_named {r : Role} {prm : List Byte} {c : ChanNo}
    (h : r = .channel c ∨ (r = .studio ∨ r = .monitor) ∧ natAt prm 0 = c) : stateChannel (some r) prm = some c := by
  obtain rfl | ⟨rfl | rfl, hc⟩ := h
  · rfl
  · exact (congrArg chanOf hc).trans (chanOf_val c)
  · exact (congrArg chanOf hc).trans (chanOf_val c)

theorem stateChannel_none {r : Role} {prm : List Byte} (h : r = .studio ∨ r = .monitor) (hc : 3 < natAt prm 0) :
    stateChannel (some r) prm = none := by
  obtain rfl | rfl := h <;> exact chanOf_eq_none hc

/-- A port that has accepted a block keeps its role. -/
@[simp] theorem role_setPort_accept (s : State) (p o : PortNo) :
    ((s.setPort p (s.port p).accept).port o).role = (s.port o).role := by
  rw [State.port_setPort]
  split
  · rename_i e
    rw [e]
    rfl
  · rfl

/-- The command writes its own port alone and is answered GOOD: the port accepts the block before or after. -/
theorem answer_ok_setPort (s : State) (p : PortNo) (q : Port) (d : List Byte) :
    ((s.setPort p (s.port p).accept).setPort p q.accept).answer p (.ok d) = (s.setPort p q).sendGood p d := by
  have h := answer_ok (s.setPort p q) p d
  simpa only [State.port_setPort_self, setPort_setPort] using h

/-- No notice is pending, so the attention line is released. -/
theorem attention_sendGood_noNotices (q : Port) (d : List Byte) (m : Bool) :
    (({ q with pending := noNotices } : Port).sendGood d m).attention = false := by
  have none' : noNotices.kinds = 0 := by decide
  simp [Port.attention, Port.sendGood, none']

theorem actSetNoticeMask_ok {prm : List Byte} (h : natAt prm 0 = 0) (s : State) (p : PortNo) :
    actSetNoticeMask s p prm = (s.setPort p { s.port p with enabled := prm.getD 1 0 }, .ok [0, prm.getD 1 0]) := by
  simp only [actSetNoticeMask, h, ne_eq, not_true_eq_false, if_false]

theorem actSetNoticeMask_outOfRange {prm : List Byte} (h : natAt prm 0 ≠ 0) (s : State) (p : PortNo) :
    actSetNoticeMask s p prm = (s, .illegal 1) := if_pos h

/-- Two bytes of which the first is 0. -/
theorem eq_zero_pair {l : List Byte} (hlen : l.length = 2) (h : natAt l 0 = 0) : [0, l.getD 1 0] = l := by
  obtain ⟨x, y, rfl⟩ := List.length_eq_two.1 hlen
  have hx : x = 0 := BitVec.eq_of_toNat_eq h
  rw [hx]
  rfl

end Sys2Proof.Machine

namespace Sys2Proof.Proofs
open Sys2Proof.Machine

/-- Settles O57: each report is read off a state that differs from `s` at port `p` alone, where the role is kept. -/
theorem portReportsChangeNothing : Obligations.PortReportsChangeNothing := by
  refine ⟨by decide, by decide, by decide, by decide, by decide, fun s p role b hidle hs hlen => ?_⟩
  obtain ⟨identify, readSense, -, -, channelState⟩ := mayIssue_ports hidle
  have hrole := hs.2.2
  refine ⟨fun hb => ?identify, fun hb => ?readSense, fun hb => ?channelState⟩
  case identify =>
    refine (exec_command (k := .identify) hs identify hb hlen (by decide) (by decide) rfl).trans (congrArg _ ?_)
    simp only [act, actIdentify, role_setPort_accept, hrole, Option.getD_some]
    have flags : s.loader.flags = (if s.loader.defaulted then 1 else 0) ||| (if s.loader.rolesPending then 2 else 0) := rfl
    exact (answer_ok s p _).trans (congrArg (fun x => s.sendGood p [0x4B, 0x02, 0x80, 0x01, byteOf p, role.toByte, byteOf s.rate.fps, x]) flags)
  case readSense =>
    refine (exec_command (k := .readSense) hs readSense hb hlen (by decide) (by decide) rfl).trans (congrArg _ ?_)
    exact answer_ok s p (s.port p).sense.bytes
  case channelState =>
    have run := exec_command (k := .channelState) hs channelState hb hlen (by decide) (by decide) rfl
    refine ⟨fun c hc => ⟨flags_getLsbD _, run.trans (congrArg _ ?_)⟩, fun hr hc => run.trans (congrArg _ ?_)⟩
    · have named : stateChannel ((s.setPort p (s.port p).accept).port p).role b.params = some c := by
        rw [role_setPort_accept, hrole]
        exact stateChannel_named hc
      simp only [act, actChannelState_named named, State.chan_setPort, State.rate_setPort]
      exact answer_ok s p ((s.chan c).stateBytes s.rate)
    · have none' : stateChannel ((s.setPort p (s.port p).accept).port p).role b.params = none := by
        rw [role_setPort_accept, hrole]
        exact stateChannel_none hr hc
      simp only [act, actChannelState_outOfRange none']
      exact answer_illegal s p 1

/-- Settles O58: both commands write their own port alone; the status bits and the attention line hold at any port. -/
theorem noticeCommands : Obligations.NoticeCommands := by
  refine ⟨fun r c o => ?hears, fun s p role b hidle hs => ⟨status_getLsbD, attention_iff, fun hb hlen => ?read, fun hb hlen => ?mask⟩⟩
  case hears =>
    cases r <;> simp [Role.hears]
  case read =>
    obtain ⟨-, -, readNotices, -, -⟩ := mayIssue_ports hidle
    refine ⟨_, (exec_command (k := .readNotices) hs readNotices hb hlen (by decide) (by decide) rfl).trans (congrArg _ ?_), rfl, ?_⟩
    · simp only [act, actReadNotices, State.port_setPort_self]
      exact answer_ok_setPort s p { s.port p with pending := noNotices } (s.port p).pending.bytes
    · rw [State.sendGood, State.port_setPort_self, State.port_setPort_self]
      exact attention_sendGood_noNotices (s.port p) _ _
  case mask =>
    obtain ⟨-, -, -, setNoticeMask, -⟩ := mayIssue_ports hidle
    have run := exec_command (k := .setNoticeMask) hs setNoticeMask hb hlen (by decide) (by decide) rfl
    refine ⟨fun h => ⟨_, run.trans (congrArg _ ?_), rfl, ?_⟩, fun h => run.trans (congrArg _ ?_)⟩
    · simp only [act, actSetNoticeMask_ok h, State.port_setPort_self, eq_zero_pair hlen h]
      exact answer_ok_setPort s p { s.port p with enabled := b.params.getD 1 0 } b.params
    · rw [State.sendGood, State.port_setPort_self, State.port_setPort_self]
      rfl
    · simp only [act, actSetNoticeMask_outOfRange h]
      exact answer_illegal s p 1

end Sys2Proof.Proofs
end

section
/-!
PROOF. ASSIGN BOOTH, RELEASE BOOTH and CLEAR CHANNEL: the commands that raise ASSIGNMENT (R76, R101, R105 to R109, R115).
-/
namespace Sys2Proof.Machine

/-! ### A notice raised while a port answers -/

/-- A notice raised after a port accepted a block is as one raised before. -/
theorem raise_accept (s : State) (p : PortNo) (e : Notice) :
    (s.setPort p (s.port p).accept).raise e = (s.raise e).setPort p ((s.raise e).port p).accept := by
  apply State.ext_accessors <;> intros <;> try rfl
  rename_i q
  simp only [State.port_raise, State.port_setPort]
  split
  · rw [hear_accept]
  · rfl

theorem raiseIf_accept (s : State) (p : PortNo) (b : Bool) (e : Notice) :
    (s.setPort p (s.port p).accept).raiseIf b e = (s.raiseIf b e).setPort p ((s.raiseIf b e).port p).accept := by
  cases b
  · rfl
  · exact raise_accept s p e

/-- A channel replaced by itself. -/
theorem setChan_self (s : State) (c : ChanNo) : s.setChan c (s.chan c) = s := by
  apply State.ext_accessors <;> intros <;> try rfl
  rw [State.chan_setChan]
  split
  · rename_i e
    rw [e]
  · rfl

/-! ### ASSIGN BOOTH -/

/-- The reply data of ASSIGN BOOTH. -/
def Assign.data (a : Assign) : List Byte := [boothByte a.assigned, boothByte (a.incoming.map (·.booth))]

theorem actAssignBooth_outOfRange (s : State) {prm : List Byte} :
    (3 < natAt prm 0 → actAssignBooth s prm = (s, .illegal 1)) ∧
    (natAt prm 0 ≤ 3 → 5 < natAt prm 1 → actAssignBooth s prm = (s, .illegal 2)) ∧
    (natAt prm 0 ≤ 3 → natAt prm 1 ≤ 5 → 100 < natAt prm 2 → actAssignBooth s prm = (s, .illegal 3)) := by
  refine ⟨fun hc => ?_, fun hc hb => ?_, fun hc hb hx => ?_⟩
  · simp only [actAssignBooth, chanOf_eq_none hc]
  · simp only [actAssignBooth, chanOf, boothOf_eq_none hb, dif_pos (show natAt prm 0 < 4 by omega)]
  · simp only [actAssignBooth, chanOf, boothOf, dif_pos (show natAt prm 0 < 4 by omega), dif_pos (show natAt prm 1 < 6 by omega),
      if_pos hx]

/-- ASSIGN BOOTH in range, by what the rows of the table make of it. -/
theorem actAssignBooth_rows (s : State) {prm : List Byte} {c : ChanNo} {n : BoothNo} (hc : natAt prm 0 = c) (hn : natAt prm 1 = n)
    (hx : natAt prm 2 ≤ 100) :
    actAssignBooth s prm =
      match (s.chan c).assign.assign n (natAt prm 2) (s.chan c).pres.state.visible (s.booth n).health with
      | .same => (s, .ok (s.chan c).assign.data)
      | .busy => (s, .check .conflict .inTransition (some 1) true)
      | .notLive => (s, .refuse .conflict .boothNotLive 2)
      | .taken a => ((s.setAssign c a).raise (.assignment c), .ok a.data) := by
  simp only [actAssignBooth, hc, hn, chanOf_val, boothOf_val, if_neg (Nat.not_lt.2 hx)]
  rfl

/-- The answer to ASSIGN BOOTH, by what the rows of the table make of it. -/
theorem answer_assignBooth (s : State) (p : PortNo) {prm : List Byte} {c : ChanNo} {n : BoothNo} (hc : natAt prm 0 = c)
    (hn : natAt prm 1 = n) (hx : natAt prm 2 ≤ 100) :
    let u := actAssignBooth (s.setPort p (s.port p).accept) prm
    u.1.answer p u.2 =
      match (s.chan c).assign.assign n (natAt prm 2) (s.chan c).pres.state.visible (s.booth n).health with
      | .same => s.sendGood p (s.chan c).assign.data
      | .busy => s.sendCheck p .conflict .inTransition (some 1) true
      | .notLive => s.sendCheck p .conflict .boothNotLive (some 2)
      | .taken a => ((s.setAssign c a).raise (.assignment c)).sendGood p a.data := by
  simp only [actAssignBooth_rows _ hc hn hx, State.chan_setPort, State.booth_setPort]
  cases (s.chan c).assign.assign n (natAt prm 2) (s.chan c).pres.state.visible (s.booth n).health with
  | same => exact answer_ok s p _
  | busy => exact answer_check s p _ _ _ _
  | notLive => exact answer_refuse s p _ _ _
  | taken a =>
    refine Eq.trans ?_ (answer_ok ((s.setAssign c a).raise (.assignment c)) p _)
    exact congrArg (State.answer · p _) (raise_accept (s.setAssign c a) p _)

/-! ### RELEASE BOOTH -/

theorem releaseBooth_accept (s : State) (p : PortNo) (c : ChanNo) :
    (s.setPort p (s.port p).accept).releaseBooth c = (s.releaseBooth c).setPort p ((s.releaseBooth c).port p).accept := by
  unfold State.releaseBooth
  simp only [State.chan_setPort]
  by_cases hr : (((s.chan c).assign.release (s.chan c).pres.state.visible).2 &&
      ((s.chan c).assign.release (s.chan c).pres.state.visible).1.releasePending) = true
  · simp only [hr, if_true]
    exact raiseIf_accept ((s.setAssign c _).setPres c ((s.chan c).pres.fallForRelease (s.currentProfile c).fade)) p _ _
  · simp only [hr]
    exact raiseIf_accept (s.setAssign c _) p _ _

/-- RELEASE BOOTH where no booth is assigned or a release is pending (R115). -/
theorem releaseBooth_noEffect {s : State} {c : ChanNo}
    (h : (s.chan c).assign.assigned = none ∨ (s.chan c).assign.releasePending = true) : s.releaseBooth c = s := by
  have kept : (s.chan c).assign.release (s.chan c).pres.state.visible = ((s.chan c).assign, false) := by
    obtain h | h := h <;> simp [Assign.release, h]
  simp only [State.releaseBooth, kept, Bool.false_and, Bool.false_eq_true, if_false, State.raiseIf_false]
  exact setChan_self s c

/-- RELEASE BOOTH under a presenter that is not visible clears the booth at once (R115). -/
theorem releaseBooth_hidden {s : State} {c : ChanNo} {b : BoothNo} (ha : (s.chan c).assign.assigned = some b)
    (hr : (s.chan c).assign.releasePending = false) (hv : (s.chan c).pres.state.visible = false) :
    s.releaseBooth c = (s.setAssign c { (s.chan c).assign with assigned := none }).raise (.assignment c) := by
  simp [State.releaseBooth, Assign.release, ha, hr, hv]

/-- RELEASE BOOTH under a visible presenter holds the release and makes the presenter fall (R98, R115). -/
theorem releaseBooth_visible {s : State} {c : ChanNo} {b : BoothNo} (ha : (s.chan c).assign.assigned = some b)
    (hr : (s.chan c).assign.releasePending = false) (hv : (s.chan c).pres.state.visible = true) :
    s.releaseBooth c = ((s.setAssign c { (s.chan c).assign with incoming := none, releasePending := true }).setPres c
      ((s.chan c).pres.fallForRelease (s.currentProfile c).fade)).raise (.assignment c) := by
  simp [State.releaseBooth, Assign.release, ha, hr, hv]

/-- What a pending release does to a visible presenter (R98). -/
theorem fallForRelease_visible {p : Presenter} (hv : p.state.visible = true) (n : Nat) :
    p.fallForRelease n = if p.state = .falling then p else p.beginFall n := by
  cases hs : p.state <;> simp_all [Presenter.fallForRelease, PState.visible]

theorem actReleaseBooth_outOfRange (s : State) {prm : List Byte} (h : 3 < natAt prm 0) :
    actReleaseBooth s prm = (s, .illegal 1) := by simp only [actReleaseBooth, chanOf_eq_none h]

theorem answer_releaseBooth (s : State) (p : PortNo) {prm : List Byte} {c : ChanNo} (hc : natAt prm 0 = c) :
    let u := actReleaseBooth (s.setPort p (s.port p).accept) prm
    u.1.answer p u.2 = (s.releaseBooth c).sendGood p [boothByte ((s.releaseBooth c).chan c).assign.assigned,
      flagByte ((s.releaseBooth c).chan c).assign.releasePending] := by
  simp only [actReleaseBooth, hc, chanOf_val, releaseBooth_accept, State.chan_setPort]
  exact answer_ok (s.releaseBooth c) p _

/-! ### CLEAR CHANNEL -/

theorem clearChannel_accept (s : State) (p : PortNo) (c : ChanNo) :
    (s.setPort p (s.port p).accept).clearChannel c = (s.clearChannel c).setPort p ((s.clearChannel c).port p).accept := by
  have told : ((s.setPort p (s.port p).accept).setPres c (s.chan c).pres.clear).visibilityReport c =
      ((s.setPres c (s.chan c).pres.clear).visibilityReport c).setPort p
        (((s.setPres c (s.chan c).pres.clear).visibilityReport c).port p).accept :=
    raiseIf_accept ((s.setPres c (s.chan c).pres.clear).setAssign c _) p _ _
  unfold State.clearChannel
  simp only [State.chan_setPort]
  by_cases visible : (s.chan c).pres.state.visible = true
  · simp only [visible, if_true, told, State.chan_setPort]
    rfl
  · simp only [visible]
    rfl

/-- CLEAR CHANNEL is told by ASSIGNMENT where the visibility report of a visible presenter acts (R113, R118). -/
def Channel.clearTells (x : Channel) : Bool := x.pres.state.visible && (x.assign.releasePending || x.assign.incoming.isSome)

theorem port_clearChannel (s : State) (c : ChanNo) (q : PortNo) :
    (s.clearChannel c).port q = if (s.chan c).clearTells then (s.port q).hear (.assignment c) else s.port q := by
  unfold State.clearChannel Channel.clearTells
  dsimp only
  cases (s.chan c).pres.state.visible
  · rfl
  · simp [State.visibilityReport, State.port_raiseIf]

/-- The state after CLEAR CHANNEL from a port, but for its reply (R101, R161). -/
def State.clearedBy (s : State) (p : PortNo) (c : ChanNo) : State :=
  (s.clearChannel c).setPort p
    { (s.clearChannel c).port p with pending := ((s.clearChannel c).port p).pending.forget c }

theorem answer_clearChannel (s : State) (p : PortNo) (c : ChanNo) :
    let u := actClearChannel (s.setPort p (s.port p).accept) p c
    u.1.answer p u.2 = (s.clearedBy p c).sendGood p [] := by
  have h := answer_ok_setPort (s.clearChannel c) p
    { (s.clearChannel c).port p with pending := ((s.clearChannel c).port p).pending.forget c } []
  simp only [actClearChannel, clearChannel_accept, State.port_setPort_self]
  exact h

/-- An ASSIGNMENT notice heard is one bit of the pending set's assignment entry. -/
theorem hear_assignment (q : Port) (c : ChanNo) : q.hear (.assignment c) = { q with pending := { q.pending with
    assignment := if (q.role.any fun r => r.hears (.assignment c)) = true then q.pending.assignment ||| BitVec.twoPow 4 c
      else q.pending.assignment } } := by
  rw [Port.hear_eq]
  split <;> rfl

end Sys2Proof.Machine

namespace Sys2Proof.Proofs
open Sys2Proof.Machine

/-- Settles O43, row by row of the table. -/
theorem assignBoothByTheTable : Obligations.AssignBoothByTheTable := by
  intro s p b hs hb hlen nx
  have run := exec_studio (k := .assignBooth) hs hb hlen
  have refused := actAssignBooth_outOfRange (s.setPort p (s.port p).accept) (prm := b.params)
  obtain ⟨channel, booth, length⟩ := refused
  refine ⟨fun hc => run.trans (congrArg _ ?_), fun hc hn => run.trans (congrArg _ ?_), fun hc hn hx => run.trans (congrArg _ ?_),
    fun c n hc hn hx => ?_⟩
  · simp only [act, channel hc]
    exact answer_illegal s p 1
  · simp only [act, booth hc hn]
    exact answer_illegal s p 2
  · simp only [act, length hc hn hx]
    exact answer_illegal s p 3
  · intro a seen byte data taken
    have bytes : data = Assign.data := funext fun x => by
      cases ha : x.assigned <;> cases hi : x.incoming <;> simp only [data, byte, Assign.data, ha, hi] <;> rfl
    refine run.trans ((congrArg _ (answer_assignBooth s p hc hn hx)).trans ?_)
    simp only [taken, bytes]
    change Host.Outcome.next (match a.assign n nx seen (s.booth n).health with | .same => _ | .busy => _ | .notLive => _ | .taken a => _) = _
    by_cases same : a.assigned = some n
    · simp only [Assign.assign, same, if_true]
      rfl
    by_cases busy : a.incoming.isSome = true ∨ a.releasePending = true
    · simp [Assign.assign, same, busy]
    obtain ⟨hi, hr⟩ := not_or.1 busy
    by_cases hidden : seen = false
    · simp [Assign.assign, same, hi, hr, hidden]
    by_cases free : nx = 0 ∨ (s.booth n).health = .live
    · simp [Assign.assign, same, hi, hr, hidden, free]
    · simp [Assign.assign, same, hi, hr, hidden, free]

/-- Settles O44, by what the release finds. -/
theorem releaseBoothByWhatItFinds : Obligations.ReleaseBoothByWhatItFinds := by
  intro s p b hs hb hlen
  have run := exec_studio (k := .releaseBooth) hs hb hlen
  refine ⟨fun hc => run.trans (congrArg _ ?_), fun c hc => ?_⟩
  · simp only [act, actReleaseBooth_outOfRange _ hc]
    exact answer_illegal s p 1
  intro x byte n fall
  have bytes : boothByte = byte := funext fun o => by cases o <;> rfl
  refine run.trans ((congrArg _ (answer_releaseBooth s p hc)).trans ?_)
  split
  · rename_i none'
    rw [releaseBooth_noEffect (.inl none'), none']
    rfl
  · rename_i some'
    obtain ⟨a, ha⟩ := Option.ne_none_iff_exists'.1 some'
    split
    · rename_i pending
      rw [releaseBooth_noEffect (.inr pending), bytes, pending]
      rfl
    · rename_i free
      have free := Bool.eq_false_iff.2 free
      split
      · rename_i hidden
        rw [releaseBooth_hidden ha free hidden]
        have sent : flagByte (s.chan c).assign.releasePending = 0 := congrArg flagByte free
        simp only [State.chan_raise, State.setAssign, State.chan_setChan_self, sent]
        rfl
      · rename_i seen
        have seen := Bool.eq_true_of_not_eq_false seen
        rw [releaseBooth_visible ha free seen, fallForRelease_visible seen, Presenter.beginFall, fallSteps_eq, bytes]
        simp only [State.chan_raise, State.setAssign, State.setPres, State.chan_setChan_self]
        rfl

/-- Settles O42: the channel by what CLEAR CHANNEL leaves of it, the ports by the one notice its visibility report raises. -/
theorem clearChannelQuietsTheChannel : Obligations.ClearChannelQuietsTheChannel := by
  intro s p c b hs hb hlen x seen a
  have run := (exec_channel (k := .clearChannel) hs hb hlen).trans (congrArg _ (answer_clearChannel s p c))
  refine ⟨_, run, ?_⟩
  have chan (d : ChanNo) : ((s.clearedBy p c).sendGood p []).chan d = (s.clearChannel c).chan d := rfl
  have moves := moves_clearChannel s c
  have ports (q : PortNo) := port_clearChannel s c q
  have others (d : ChanNo) (hd : d ≠ c) : (s.clearChannel c).chan d = s.chan d := by
    unfold State.clearChannel
    dsimp only
    split <;> simp [hd, State.visibilityReport]
  have own := chan_clearChannel s c
  simp only [chan, own]
  refine ⟨rfl, ?assign, rfl, rfl, rfl, rfl, fun z => Vector.getElem_ofFn _, others, ?frame, ?issuer, fun q hq => ?port⟩
  case assign =>
    simp only [a, seen, x]
    cases (s.chan c).pres.state.visible <;> cases hr : (s.chan c).assign.releasePending <;>
      cases hi : (s.chan c).assign.incoming <;> simp [Assign.onReport, Assign.complete, hr, hi]
  case frame =>
    refine Eq.trans ?_ (congrArg (fun u : State => { u with ports := ((s.clearedBy p c).sendGood p []).ports }) moves.eq)
    rfl
  case issuer =>
    rw [State.sendGood, State.port_setPort_self, State.clearedBy, State.port_setPort_self, ports p]
    have own : (s.port p).role.any (fun r => r.hears (.assignment c)) = true := by simp [hs.2.2, Role.hears]
    congr 1
    rw [hear_assignment, if_pos own, Channel.clearTells]
    split <;> rfl
  case port =>
    have keeps : ((s.clearedBy p c).sendGood p []).port q = (s.clearChannel c).port q := by
      rw [State.sendGood, State.port_setPort_ne _ hq, State.clearedBy, State.port_setPort_ne _ hq]
    rw [keeps, ports q]
    refine ⟨?_, fun e => ?_⟩
    · split
      · rw [hear_assignment]
      · rfl
    · have heard := Port.has_hear (s.port q) (.assignment c) (.assignment e)
      split
      · rename_i told
        rw [Channel.clearTells, Bool.and_eq_true] at told
        refine heard.trans ?_
        by_cases he : e = c
        · subst he
          simp [Notices.has, seen, x, told]
        · simp [Notices.has, he]
      · rename_i told
        rw [Channel.clearTells] at told
        simp only [Bool.and_assoc, seen, x, told, Bool.false_and, Bool.and_false, Bool.or_false]

end Sys2Proof.Proofs
end

section
/-!
PROOF. WRITE BOOTH, SET SLOT MASK and WRITE PROFILE: the commands on the booth store and the profile library that raise notices (R24,
R26, R27, R34 to R36, R59 to R61).
-/
namespace Sys2Proof.Machine

/-! ### A GOOD answer after a change that moved the pending sets -/

section Moved
variable {s v : State} {p : PortNo}

theorem pending_answer_ok (d : List Byte) (q : PortNo) : ((v.answer p (.ok d)).port q).pending = (v.port q).pending := by
  unfold State.answer
  rw [State.port_setPort]
  split
  · rename_i e
    rw [e]
    rfl
  · rfl

variable (h : ∀ q, v.port q = { (s.setPort p (s.port p).accept).port q with pending := (v.port q).pending })
include h

theorem issuer_answer_ok (d : List Byte) : (v.answer p (.ok d)).port p =
    ({ s.port p with pending := ((v.answer p (.ok d)).port p).pending } : Port).sendGood d false := by
  have at' := port_answer_moved d false h p
  rw [if_pos rfl] at at'
  rw [pending_answer_ok]
  exact at'

theorem other_answer_ok (d : List Byte) (q : PortNo) (hq : q ≠ p) : (v.answer p (.ok d)).port q =
    { s.port q with pending := ((v.answer p (.ok d)).port q).pending } := by
  have at' := port_answer_moved d false h q
  rw [if_neg hq] at at'
  rw [pending_answer_ok]
  exact at'

end Moved

/-- A port that has accepted a block keeps its pending set. -/
@[simp] theorem pending_setPort_accept (s : State) (p q : PortNo) :
    ((s.setPort p (s.port p).accept).port q).pending = (s.port q).pending := by
  rw [State.port_setPort]
  split
  · rename_i e
    rw [e]
    rfl
  · rfl

/-- Notices of a change to booths, told after the issuing port accepted its block and before it answers. -/
theorem State.TellsBooths.answered {s v : State} {p : PortNo} (h : (s.setPort p (s.port p).accept).TellsBooths v) (d : List Byte) :
    s.TellsBooths (v.answer p (.ok d)) where
  kinds q := by
    have at' := h.kinds q
    rw [pending_setPort_accept] at at'
    rw [pending_answer_ok]
    exact at'
  booth q b := by
    have at' := h.booth q b
    rw [pending_setPort_accept, role_setPort_accept] at at'
    rw [pending_answer_ok]
    exact at'
  feed q c := by
    have at' := h.feed q c
    rw [pending_setPort_accept, role_setPort_accept] at at'
    rw [pending_answer_ok]
    exact at'

/-! ### WRITE BOOTH -/

/-- One booth replaced: the notices are those of Safety.lean. -/
theorem tellsBooths_putBooth (s : State) (b : BoothNo) (x : Booth) : s.TellsBooths (s.putBooth b x) where
  kinds p := by
    apply Notices.ext_has
    intro e
    have h := has_putBooth s b x p e
    cases e with
    | booth b => rfl
    | feed c => rfl
    | _ => rw [h]; simp [Notices.has]
  booth p o := by
    refine (has_putBooth s b x p (.booth o)).trans ?_
    rw [booth_putBooth]
    by_cases ho : o = b
    · subst ho
      simp [Notices.has, bne, beq_eq_decide]
    · simp [Notices.has, ho]
  feed p c := by
    refine (has_putBooth s b x p (.feed c)).trans ?_
    have usable (k : Health) : decide (k = .live ∨ k = .held) = k.usable := by cases k <;> rfl
    simp only [usable, booth_putBooth]
    congr 2
    cases (s.chan c).assign.assigned with
    | none => simp
    | some o =>
      by_cases ho : o = b
      · subst ho
        simp
      · simp [ho]

theorem slotHolder_some {s : State} {b o : BoothNo} {slot : Option SlotNo} (ho : o ≠ b) (hs : slot ≠ none)
    (names : (s.booth o).record.slot = slot) (least : ∀ o' : BoothNo, o' < o → o' ≠ b → (s.booth o').record.slot ≠ slot) :
    s.slotHolder b slot = some o := by
  have get (i : Nat) (h : i < 6) : allBooths[i] = ⟨i, h⟩ := by interval_cases i <;> rfl
  refine List.find?_eq_some_iff_getElem.2 ⟨?_, o.val, o.isLt, get o.val o.isLt, fun j hj => ?_⟩
  · simp [ho, names, Option.isSome_iff_ne_none, hs]
  · have other := least ⟨j, hj.trans o.isLt⟩ hj
    rw [get j (hj.trans o.isLt)]
    by_cases hb : (⟨j, hj.trans o.isLt⟩ : BoothNo) = b
    · simp [hb]
    · simp [other hb]

theorem slotHolder_free {s : State} {b : BoothNo} {slot : Option SlotNo}
    (free : ∀ o : BoothNo, o ≠ b → slot ≠ none → (s.booth o).record.slot ≠ slot) : s.slotHolder b slot = none := by
  refine List.find?_eq_none.2 fun o _ => ?_
  by_cases ho : o = b
  · simp [ho]
  · cases hs : slot with
    | none => simp
    | some k => simpa [ho, hs] using free o ho (by simp [hs])

theorem slotHolder_setPort (s : State) (p : PortNo) (q : Port) (b : BoothNo) (slot : Option SlotNo) :
    (s.setPort p q).slotHolder b slot = s.slotHolder b slot := rfl

section WriteBooth
variable {prm : List Byte}

theorem actWriteBooth_number (s : State) (h : 5 < natAt prm 0) : actWriteBooth s prm = (s, .illegal 1) := by
  have fault : firstFault ((1, decide (natAt prm 0 ≤ 5)) :: boothTests prm 1) = some 1 := by
    rw [decide_eq_false (by omega)]
    rfl
  simp only [actWriteBooth, fault]

theorem actWriteBooth_field (s : State) {n : BoothNo} (hn : natAt prm 0 = n) {k : Nat}
    (h : FirstFails (boothRanges (fun k => natAt prm (1 + k))) k) : actWriteBooth s prm = (s, .illegal (k + 2)) := by
  have fault : firstFault ((1, decide (natAt prm 0 ≤ 5)) :: boothTests prm 1) = some (k + 2) := by
    rw [decide_eq_true (by omega), boothTests_eq, Nat.add_comm k 2]
    exact firstFault_numbered h
  simp only [actWriteBooth, fault]

variable {n : BoothNo} (hn : natAt prm 0 = n) (h : (boothRanges (fun k => natAt prm (1 + k))).all id = true)
include hn h

theorem boothFault_none : firstFault ((1, decide (natAt prm 0 ≤ 5)) :: boothTests prm 1) = none := by
  rw [decide_eq_true (by omega), boothTests_eq]
  exact (firstFault_numbered_none 2 _).2 h

theorem actWriteBooth_inUse {s : State} {o : BoothNo}
    (holder : s.slotHolder n (boothOfRecord (fun k => natAt prm (1 + k))).slot = some o) :
    actWriteBooth s prm = (s, .refuse .conflict .slotInUse o) := by
  have number : boothOf (natAt prm 0) = some n := (congrArg boothOf hn).trans (boothOf_val n)
  simp only [actWriteBooth, boothFault_none hn h, number, boothRecordAt_eq h, holder]

theorem actWriteBooth_taken {s : State} (holder : s.slotHolder n (boothOfRecord (fun k => natAt prm (1 + k))).slot = none) :
    actWriteBooth s prm = (s.putBooth n ((s.booth n).rewrite (boothOfRecord (fun k => natAt prm (1 + k)))), .ok []) := by
  have number : boothOf (natAt prm 0) = some n := (congrArg boothOf hn).trans (boothOf_val n)
  simp only [actWriteBooth, boothFault_none hn h, number, boothRecordAt_eq h, holder]

end WriteBooth

section Rewrite
variable {b : Booth} {r : BoothRecord}

/-- A record with another slot or sample width sends the booth to ABSENT, awaiting the next link frame (R27, R35). -/
theorem rewrite_remapped (h : r.slot ≠ b.record.slot ∨ r.width ≠ b.record.width) :
    b.rewrite r = { b.toAbsent with record := r, awaiting := true } := if_pos h

variable (hs : r.slot = b.record.slot) (hw : r.width = b.record.width)
include hs hw

/-- A record with the slot, the width and the limits of the old one, or under which the health stands, leaves the booth's health
(R34). -/
theorem rewrite_kept (h : r.hold = b.record.hold ∧ r.recovery = b.record.recovery ∨ b.health = .absent ∨ b.health = .live ∨
    b.health = .held ∧ b.missed < r.hold) : b.rewrite r = { b with record := r } := by
  rw [Booth.rewrite, if_neg (by simp [hs, hw])]
  split
  · rename_i limits
    obtain same | absent | live | ⟨held, few⟩ := h
    · exact absurd limits (by simp [same])
    · simp only [Booth.reexamine, absent]
    · simp only [Booth.reexamine, live]
    · simp only [Booth.reexamine, held, if_neg (Nat.not_le.2 few)]
  · rfl

variable (hl : r.hold ≠ b.record.hold ∨ r.recovery ≠ b.record.recovery)
include hl

theorem rewrite_reexamined : b.rewrite r = ({ b with record := r } : Booth).reexamine := by
  rw [Booth.rewrite, if_neg (by simp [hs, hw]), if_pos hl]

/-- A HELD booth that has missed as many frames as the new hold limit is LOST (R34). -/
theorem rewrite_held (held : b.health = .held) (many : r.hold ≤ b.missed) :
    b.rewrite r = { b with record := r, health := .lost, missed := r.hold, good := 0 } := by
  rw [rewrite_reexamined hs hw hl]
  simp only [Booth.reexamine, held, if_pos many]

/-- A LOST booth short of the new recovery count stays LOST (R34). -/
theorem rewrite_lost (lost : b.health = .lost) (few : b.good < r.recovery) :
    b.rewrite r = { b with record := r, missed := r.hold } := by
  rw [rewrite_reexamined hs hw hl]
  simp only [Booth.reexamine, lost, if_neg (Nat.not_le.2 few)]

/-- A LOST booth with as many good pictures as the new recovery count has its candidate promoted (R34). -/
theorem rewrite_recovered (lost : b.health = .lost) (many : r.recovery ≤ b.good) {pic : Picture} (candidate : b.candidate = some pic) :
    (b.rewrite r).record = r ∧ b.promotes pic (b.rewrite r) := by
  rw [rewrite_reexamined hs hw hl]
  simp only [Booth.reexamine, lost, if_pos many, candidate]
  exact ⟨rfl, rfl, rfl, rfl, rfl, rfl, rfl⟩

end Rewrite

/-! ### SET SLOT MASK -/

theorem booth_setMask (s : State) (m : BitVec 8) (o : BoothNo) : (s.setMask m).booth o = (s.booth o).atMask s.slotMask m := by
  rw [setMask_eq, booth_putBooths _ _ (by decide), if_pos (mem_allBooths o)]
  rfl

theorem setMask_frame (s : State) (m : BitVec 8) :
    s.setMask m = { s with slotMask := m, booths := (s.setMask m).booths, ports := (s.setMask m).ports } := by
  rw [setMask_eq]
  have put := putBooths_eq { s with slotMask := m } (fun _ => Booth.atMask s.slotMask m) allBooths
  generalize State.putBooths _ _ _ = u at put ⊢
  exact put

theorem port_setMask (s : State) (m : BitVec 8) (p : PortNo) :
    (s.setMask m).port p = { s.port p with pending := ((s.setMask m).port p).pending } := by
  rw [setMask_eq]
  have put := port_putBooths { s with slotMask := m } (fun _ => Booth.atMask s.slotMask m) allBooths p
  generalize State.putBooths _ _ _ = u at put ⊢
  exact put

theorem tellsBooths_setMask (s : State) (m : BitVec 8) : s.TellsBooths (s.setMask m) := by
  have tells := tellsBooths_putBooths { s with slotMask := m } (fun _ => Booth.atMask s.slotMask m)
  rw [setMask_eq]
  generalize State.putBooths _ _ _ = u at tells ⊢
  exact tells.congr (fun _ => rfl) (fun _ => rfl) (fun _ => rfl) (fun _ => rfl) fun _ => rfl

/-! ### WRITE PROFILE -/

theorem has_tellRewriteOf (s : State) (n : ProfNo) (c : ChanNo) (p : PortNo) (e : Notice) :
    ((s.tellRewriteOf n c).port p).pending.has e = ((s.port p).pending.has e || ((s.port p).role.any (fun r => r.hears e) &&
      (decide ((s.chan c).place.profile = n) && decide (e = .profile c)))) := by
  unfold State.tellRewriteOf
  by_cases h : (s.chan c).place.profile = n
  · rw [if_pos h]
    refine (State.has_raiseIf _ true (.profile c) e p).trans ?_
    simp [h, State.setPlace]
  · simp [h]

theorem profileOf_tellRewriteOf (s : State) (n : ProfNo) (c d : ChanNo) :
    ((s.tellRewriteOf n c).chan d).place.profile = (s.chan d).place.profile := by
  rw [chan_tellRewriteOf]
  split <;> rfl

/-- The channels whose current profile was rewritten are told by PROFILE, and nothing else is told (R61). -/
theorem has_tellRewrite (s : State) (n : ProfNo) (p : PortNo) (e : Notice) :
    ((s.tellRewrite n).port p).pending.has e = ((s.port p).pending.has e || ((s.port p).role.any (fun r => r.hears e) &&
      (match e with
       | .profile c => decide ((s.chan c).place.profile = n)
       | _ => false))) := by
  have role (u : State) (c : ChanNo) : ((u.tellRewriteOf n c).port p).role = (u.port p).role := (moves_tellRewriteOf u n c).role p
  simp only [tellRewrite_eq, has_tellRewriteOf, profileOf_tellRewriteOf, role, Bool.or_assoc, ← Bool.and_or_distrib_left]
  congr 2
  cases e with
  | profile c =>
    match c with
    | 0 => simp
    | 1 => simp
    | 2 => simp
    | 3 => simp
  | _ => simp

theorem has_writeProfile (s : State) (n : ProfNo) (r : Profile) (p : PortNo) (e : Notice) :
    ((s.writeProfile n r).port p).pending.has e = ((s.port p).pending.has e || ((s.port p).role.any (fun x => x.hears e) &&
      (match e with
       | .profile c => decide ((s.chan c).place.profile = n ∧ r ≠ s.profile n)
       | _ => false))) := by
  unfold State.writeProfile
  by_cases h : s.profile n = r
  · rw [if_pos h]
    cases e <;> simp [h]
  · rw [if_neg h]
    refine (has_tellRewrite (s.setProfile n r) n p e).trans ?_
    cases e with
    | profile c =>
      have written : (r ≠ s.profile n) = True := eq_true (Ne.symm h)
      simp only [written, and_true]
      rfl
    | _ => rfl

theorem port_tellRewrite (s : State) (n : ProfNo) (p : PortNo) :
    (s.tellRewrite n).port p = { s.port p with pending := ((s.tellRewrite n).port p).pending } := by
  rw [tellRewrite_eq]
  have t0 := (moves_tellRewriteOf s n 0).ports p
  generalize s.tellRewriteOf n 0 = s0 at t0 ⊢
  have t1 := (moves_tellRewriteOf s0 n 1).ports p
  generalize s0.tellRewriteOf n 1 = s1 at t1 ⊢
  have t2 := (moves_tellRewriteOf s1 n 2).ports p
  generalize s1.tellRewriteOf n 2 = s2 at t2 ⊢
  have t3 := (moves_tellRewriteOf s2 n 3).ports p
  generalize s2.tellRewriteOf n 3 = s3 at t3 ⊢
  rw [t3, t2, t1, t0]

theorem port_writeProfile (s : State) (n : ProfNo) (r : Profile) (p : PortNo) :
    (s.writeProfile n r).port p = { s.port p with pending := ((s.writeProfile n r).port p).pending } := by
  unfold State.writeProfile
  split
  · rfl
  · exact port_tellRewrite (s.setProfile n r) n p

section WriteProfile
variable {prm : List Byte}

theorem actWriteProfile_number (s : State) (h : 15 < natAt prm 0) : actWriteProfile s prm = (s, .illegal 1) := by
  have fault : firstFault ((1, decide (natAt prm 0 ≤ 15)) :: profileTests prm 1) = some 1 := by
    rw [decide_eq_false (by omega)]
    rfl
  simp only [actWriteProfile, fault]

theorem actWriteProfile_field (s : State) {n : ProfNo} (hn : natAt prm 0 = n) {k : Nat}
    (h : FirstFails (profileRanges (fun k => natAt prm (1 + k))) k) : actWriteProfile s prm = (s, .illegal (k + 2)) := by
  have fault : firstFault ((1, decide (natAt prm 0 ≤ 15)) :: profileTests prm 1) = some (k + 2) := by
    rw [decide_eq_true (by omega), profileTests_eq, Nat.add_comm k 2]
    exact firstFault_numbered h
  simp only [actWriteProfile, fault]

/-- The defined flag is bit 0 of its byte. -/
theorem definedBit (l : List Byte) (i : Nat) : (l.getD i 0).getLsbD 0 = decide (natAt l i % 2 = 1) := by
  rw [BitVec.getLsbD, Nat.testBit_zero]
  rfl

variable {n : ProfNo} (hn : natAt prm 0 = n) (h : (profileRanges (fun k => natAt prm (1 + k))).all id = true)
include hn h

theorem profileFault_none : firstFault ((1, decide (natAt prm 0 ≤ 15)) :: profileTests prm 1) = none := by
  rw [decide_eq_true (by omega), profileTests_eq]
  exact (firstFault_numbered_none 2 _).2 h

theorem actWriteProfile_zero (s : State) (h0 : n = 0 ∧ decide (natAt prm 27 % 2 = 1) = false) :
    actWriteProfile s prm = (s, .refuse .conflict .profileZero 18) := by
  have number : profOf (natAt prm 0) = some n := (congrArg profOf hn).trans (profOf_val n)
  simp only [actWriteProfile, profileFault_none hn h, number, definedBit, if_pos h0]

theorem actWriteProfile_taken (s : State) (h0 : ¬(n = 0 ∧ decide (natAt prm 27 % 2 = 1) = false)) :
    let r := profileOfRecord (fun k => natAt prm (1 + k)) (decide (natAt prm 27 % 2 = 1))
    actWriteProfile s prm = (s.writeProfile n r, .ok (be16 r.cw ++ be16 r.ch)) := by
  have number : profOf (natAt prm 0) = some n := (congrArg profOf hn).trans (profOf_val n)
  simp only [actWriteProfile, profileFault_none hn h, number, definedBit, if_neg h0, profileAt_eq h]

end WriteProfile

end Sys2Proof.Machine

namespace Sys2Proof.Proofs
open Sys2Proof.Machine

/-- Settles O24: the refusals in index order, and else the booth by what the new record makes of it. -/
theorem writeBoothReplacesRecord : Obligations.WriteBoothReplacesRecord := by
  intro s p b hs hb hlen field
  have run := exec_studio (k := .writeBooth) hs hb hlen
  refine ⟨fun hn => run.trans (congrArg _ ?number), fun n hn => ⟨fun k hk => run.trans (congrArg _ ?field), fun hr => ?inRange⟩⟩
  case number =>
    simp only [act, actWriteBooth_number _ hn]
    exact answer_illegal s p 1
  case field =>
    simp only [act, actWriteBooth_field _ hn hk]
    exact answer_illegal s p (k + 2)
  case inRange =>
    intro r old
    refine ⟨fun o ho hslot names least => run.trans (congrArg _ ?inUse), fun free => ?taken⟩
    case inUse =>
      simp only [act, actWriteBooth_inUse hn hr ((slotHolder_setPort s p _ n _).trans (slotHolder_some ho hslot names least))]
      exact answer_refuse s p _ _ _
    case taken =>
      have owner := actWriteBooth_taken (s := s.setPort p (s.port p).accept) hn hr
        ((slotHolder_setPort s p _ n _).trans (slotHolder_free free))
      have booth (o : BoothNo) := booth_putBooth (s.setPort p (s.port p).accept) n o (old.rewrite r)
      have frame := putBooth_eq (s.setPort p (s.port p).accept) n (old.rewrite r)
      have ports := port_putBooth (s.setPort p (s.port p).accept) n (old.rewrite r)
      have tells := tellsBooths_putBooth (s.setPort p (s.port p).accept) n (old.rewrite r)
      rw [State.booth_setPort] at owner
      change actWriteBooth (s.setPort p (s.port p).accept) b.params =
        ((s.setPort p (s.port p).accept).putBooth n (old.rewrite r), .ok []) at owner
      simp only [act, owner] at run
      generalize (s.setPort p (s.port p).accept).putBooth n (old.rewrite r) = v at run booth frame ports tells
      have boothEq (o : BoothNo) : (v.answer p (.ok [])).booth o = if o = n then old.rewrite r else s.booth o := booth o
      refine ⟨_, run, ?_⟩
      simp only [boothEq, if_true]
      refine ⟨rewrite_remapped, fun hslot hw => ⟨rewrite_kept hslot hw, fun hl => ⟨rewrite_held hslot hw hl, rewrite_lost hslot hw hl,
        fun pic lost many candidate => rewrite_recovered hslot hw hl lost many candidate⟩⟩, fun o ho => if_neg ho, ?_,
        tells.answered [], issuer_answer_ok ports [], other_answer_ok ports []⟩
      exact congrArg (fun u : State => { u with ports := (v.answer p (.ok [])).ports }) frame

/-- Settles O27: the booths of the slots newly masked go to ABSENT, told by the notices of the change. -/
theorem setSlotMaskSendsBoothsAbsent : Obligations.SetSlotMaskSendsBoothsAbsent := by
  intro s p b hs hb hlen m
  have run := exec_studio (k := .setSlotMask) hs hb hlen
  have booth (o : BoothNo) := booth_setMask (s.setPort p (s.port p).accept) m o
  have frame := setMask_frame (s.setPort p (s.port p).accept) m
  have ports := port_setMask (s.setPort p (s.port p).accept) m
  have tells := tellsBooths_setMask (s.setPort p (s.port p).accept) m
  simp only [act, actSetSlotMask] at run
  change exec _ s = .next (State.answer ((s.setPort p (s.port p).accept).setMask m) p (.ok [m])) at run
  generalize (s.setPort p (s.port p).accept).setMask m = v at run booth frame ports tells
  have boothEq (o : BoothNo) : (v.answer p (.ok [m])).booth o = (s.booth o).atMask s.slotMask m := booth o
  refine ⟨_, run, ?mask, fun o n hslot was is => ?masked, fun o kept => ?kept, ?frame, tells.answered [m], issuer_answer_ok ports [m],
    other_answer_ok ports [m]⟩
  case mask =>
    change v.slotMask = m
    rw [frame]
  case masked =>
    rw [boothEq, Booth.atMask, hslot]
    simp only [was, is]
    rfl
  case kept =>
    rw [boothEq, Booth.atMask]
    split
    · rfl
    · rename_i n hslot
      obtain off | on := kept n hslot
      · simp only [off, Bool.false_and, Bool.false_eq_true, if_false]
      · simp only [on, Bool.not_true, Bool.and_false, Bool.false_eq_true, if_false]
  case frame => exact congrArg (fun u : State => { u with ports := (v.answer p (.ok [m])).ports }) frame

/-- Settles O34: the refusals in index order, and else the record stored and told to the channels that use it. -/
theorem writeProfileReplacesRecord : Obligations.WriteProfileReplacesRecord := by
  intro s p b hs hb hlen field defined
  have run := exec_studio (k := .writeProfile) hs hb hlen
  refine ⟨fun hn => run.trans (congrArg _ ?number), fun n hn => ⟨fun k hk => run.trans (congrArg _ ?field), fun hr =>
    ⟨fun h0 hd => run.trans (congrArg _ ?zero), fun h0 => ?taken⟩⟩⟩
  case number =>
    simp only [act, actWriteProfile_number _ hn]
    exact answer_illegal s p 1
  case field =>
    simp only [act, actWriteProfile_field _ hn hk]
    exact answer_illegal s p (k + 2)
  case zero =>
    simp only [act, actWriteProfile_zero hn hr _ ⟨h0, hd⟩]
    exact answer_refuse s p _ _ _
  case taken =>
    have owner := actWriteProfile_taken hn hr (s.setPort p (s.port p).accept)
      fun ⟨hz, hd⟩ => h0.elim (fun hne => hne hz) fun ht => Bool.false_ne_true (hd.symm.trans ht)
    have profile (k : ProfNo) := profile_writeProfile (s.setPort p (s.port p).accept) n k (profileOfRecord field defined)
    have chan (c : ChanNo) := chan_writeProfile (s.setPort p (s.port p).accept) n (profileOfRecord field defined) c
    have frame := writeProfile_eq (s.setPort p (s.port p).accept) n (profileOfRecord field defined)
    have ports := port_writeProfile (s.setPort p (s.port p).accept) n (profileOfRecord field defined)
    have has := has_writeProfile (s.setPort p (s.port p).accept) n (profileOfRecord field defined)
    change actWriteProfile (s.setPort p (s.port p).accept) b.params =
      ((s.setPort p (s.port p).accept).writeProfile n (profileOfRecord field defined),
        .ok (be16 (word field 0 / 24 * 24) ++ be16 (word field 2 / 24 * 24))) at owner
    simp only [act, owner] at run
    generalize (s.setPort p (s.port p).accept).writeProfile n (profileOfRecord field defined) = v at run profile chan frame ports has
    generalize be16 (word field 0 / 24 * 24) ++ be16 (word field 2 / 24 * 24) = d at run ⊢
    have profileEq (k : ProfNo) : (v.answer p (.ok d)).profile k = if k = n then profileOfRecord field defined else s.profile k :=
      profile k
    refine ⟨_, run, ?_⟩
    simp only [profileEq, if_true]
    refine ⟨trivial, fun k hk => if_neg hk, chan, ?frame, issuer_answer_ok ports d, other_answer_ok ports d,
      fun q => ⟨Notices.ext_has fun e => ?kinds, fun c => ?told⟩⟩
    case frame => exact congrArg (fun u : State => { u with ports := (v.answer p (.ok d)).ports }) frame
    case kinds =>
      have at' := has q e
      rw [pending_setPort_accept, ← pending_answer_ok (p := p) d q] at at'
      cases e with
      | profile c => rfl
      | _ => simpa [Notices.has] using at'
    case told =>
      have at' := has q (.profile c)
      rw [pending_setPort_accept, role_setPort_accept, ← pending_answer_ok (p := p) d q] at at'
      exact at'

end Sys2Proof.Proofs
end

section
/-!
PROOF. The frame pool: SET DELAY and the pool's pass (R13 to R17).
-/
namespace Sys2Proof.Machine

/-! ### The pass, turn by turn (R15) -/

theorem chan_regrant_ne (s : State) {c d : ChanNo} (h : d ≠ c) : (s.regrant c).chan d = s.chan d := by
  rw [chan_regrant, if_neg fun hh => h hh.1]

/-- Each channel has its turn in a state whose lower channels have had theirs and whose higher channels have not. -/
theorem poolPass_turn (s : State) (c : ChanNo) :
    ∃ u : State, (∀ e, u.chan e = if e < c then s.poolPass.chan e else s.chan e) ∧ s.poolPass.chan c = (u.regrant c).chan c := by
  unfold State.poolPass
  match c with
  | 0 => exact ⟨s, fun e => by simp, by simp [chan_regrant_ne]⟩
  | 1 =>
    refine ⟨s.regrant 0, fun e => ?_, by simp [chan_regrant_ne]⟩
    match e with
    | 0 => simp [chan_regrant_ne]
    | 1 => simp [chan_regrant_ne]
    | 2 => simp [chan_regrant_ne]
    | 3 => simp [chan_regrant_ne]
  | 2 =>
    refine ⟨(s.regrant 0).regrant 1, fun e => ?_, by simp [chan_regrant_ne]⟩
    match e with
    | 0 => simp [chan_regrant_ne]
    | 1 => simp [chan_regrant_ne]
    | 2 => simp [chan_regrant_ne]
    | 3 => simp [chan_regrant_ne]
  | 3 =>
    refine ⟨((s.regrant 0).regrant 1).regrant 2, fun e => ?_, rfl⟩
    match e with
    | 0 => simp [chan_regrant_ne]
    | 1 => simp [chan_regrant_ne]
    | 2 => simp [chan_regrant_ne]
    | 3 => simp [chan_regrant_ne]

theorem actual_poolPass (s : State) (c : ChanNo) : (s.poolPass.chan c).actual = (s.chan c).actual := by
  unfold State.poolPass
  simp only [actual_regrant]

/-- What the other channels reserve, channel by channel. -/
theorem others_eq_sum (s : State) (c : ChanNo) : s.reserved - (s.chan c).reservation =
    ((List.finRange 4).map (fun e => if e = c then 0 else (s.chan e).reservation)).sum := by
  have all : List.finRange 4 = [0, 1, 2, 3] := by decide
  rw [all]
  unfold State.reserved
  match c with
  | 0 => simp; omega
  | 1 => simp; omega
  | 2 => simp; omega
  | 3 => simp; omega

/-- What the pool allows a channel at its turn: the lower channels reserve what the pass leaves them, the higher ones what they
had. -/
theorem poolPass_allows (s : State) (c : ChanNo) :
    ∃ u : State, u.chan c = s.chan c ∧ s.poolPass.chan c = (u.regrant c).chan c ∧
      u.grantFor c (s.chan c).pool.target = min (s.chan c).pool.target (480 - ((List.finRange 4).map (fun e =>
        if e = c then 0 else max (if e < c then s.poolPass.chan e else s.chan e).pool.granted (s.chan e).actual)).sum) := by
  obtain ⟨u, before, after⟩ := poolPass_turn s c
  refine ⟨u, (before c).trans (if_neg (lt_irrefl c)), after, ?_⟩
  rw [State.grantFor, others_eq_sum]
  refine congrArg (fun l => min (s.chan c).pool.target (480 - List.sum l)) (List.map_congr_left fun e _ => ?_)
  split
  · rfl
  · rw [Channel.reservation, before]
    split
    · rw [actual_poolPass]
    · rfl

/-! ### What a pass reads -/

theorem grantFor_congr {s t : State} (h : ∀ c, t.chan c = s.chan c) (c : ChanNo) (n : Nat) : t.grantFor c n = s.grantFor c n := by
  unfold State.grantFor State.reserved
  simp only [h]

theorem chan_regrant_congr {s t : State} (h : ∀ c, t.chan c = s.chan c) (c d : ChanNo) :
    (t.regrant c).chan d = (s.regrant c).chan d := by
  simp only [chan_regrant, h, grantFor_congr h]

theorem chan_poolPass_congr {s t : State} (h : ∀ c, t.chan c = s.chan c) (d : ChanNo) :
    t.poolPass.chan d = s.poolPass.chan d :=
  chan_regrant_congr (chan_regrant_congr (chan_regrant_congr (chan_regrant_congr h 0) 1) 2) 3 d

theorem poolsAfter_congr {s t s' t' : State} {c : ChanNo} (h : (t.chan c).reservation = (s.chan c).reservation)
    (h' : ∀ c, t'.chan c = s'.chan c) (line : Nat) (pool : Pool) (e : ChanNo) :
    t.poolsAfter c line pool t' e = s.poolsAfter c line pool s' e := by
  simp only [State.poolsAfter, h, h', chan_poolPass_congr h']

/-! ### Notices that only DELAY can be -/

/-- No notice but DELAY has been told since. -/
def State.OnlyDelays (s t : State) : Prop :=
  ∀ (p : PortNo) (e : Notice), (∀ c, e ≠ .delay c) → (t.port p).pending.has e = (s.port p).pending.has e

theorem State.OnlyDelays.refl (s : State) : s.OnlyDelays s := fun _ _ _ => rfl

theorem State.OnlyDelays.trans {s t u : State} (h : s.OnlyDelays t) (k : t.OnlyDelays u) : s.OnlyDelays u :=
  fun p e he => (k p e he).trans (h p e he)

theorem onlyDelays_setGrant (s : State) (c : ChanNo) (g : Nat) : s.OnlyDelays (s.setGrant c g) := fun p e he => by
  refine (State.has_raiseIf _ _ _ e p).trans ?_
  rw [decide_eq_false (he c), Bool.and_false, Bool.and_false, Bool.or_false]
  rfl

theorem onlyDelays_regrant (s : State) (c : ChanNo) : s.OnlyDelays (s.regrant c) := by
  unfold State.regrant
  dsimp only
  split
  · exact onlyDelays_setGrant s c _
  · exact .refl s

theorem onlyDelays_poolPass (s : State) : s.OnlyDelays s.poolPass :=
  (((onlyDelays_regrant s 0).trans (onlyDelays_regrant _ 1)).trans (onlyDelays_regrant _ 2)).trans (onlyDelays_regrant _ 3)

theorem onlyDelays_poolPassIfFell (s : State) (c : ChanNo) (n : Nat) : s.OnlyDelays (s.poolPassIfFell c n) := by
  unfold State.poolPassIfFell
  split
  · exact onlyDelays_poolPass s
  · exact .refl s

theorem State.OnlyDelays.kinds {s t : State} (h : s.OnlyDelays t) (p : PortNo) :
    (t.port p).pending = { (s.port p).pending with delay := (t.port p).pending.delay } := by
  apply Notices.ext_has
  intro e
  cases e with
  | delay c => rfl
  | start => exact h p .start (by simp)
  | outcome c => exact h p (.outcome c) (by simp)
  | feed c => exact h p (.feed c) (by simp)
  | assignment c => exact h p (.assignment c) (by simp)
  | profile c => exact h p (.profile c) (by simp)
  | conflict c => exact h p (.conflict c) (by simp)
  | booth c => exact h p (.booth c) (by simp)

/-- The pass where a reservation fell raises a DELAY notice for exactly the channels whose grants it changes. -/
theorem delay_poolPassIfFell (s : State) (c : ChanNo) (n : Nat) (e : ChanNo) (q : PortNo) :
    ((s.poolPassIfFell c n).port q).pending.has (.delay e) = ((s.port q).pending.has (.delay e) ||
      ((s.port q).role.any (fun r => r.hears (.delay e)) &&
       decide (((s.poolPassIfFell c n).chan e).pool.granted ≠ (s.chan e).pool.granted))) := by
  unfold State.poolPassIfFell
  split
  · exact delay_poolPass s e q
  · simp

/-! ### Setting a target -/

theorem pool_poolPassIfFell (s : State) (c : ChanNo) (n : Nat) (e : ChanNo) :
    ((s.poolPassIfFell c n).chan e).pool = if (s.chan c).reservation < n then (s.poolPass.chan e).pool else (s.chan e).pool := by
  unfold State.poolPassIfFell
  split <;> rfl

theorem setsTarget_setTarget (s : State) (c : ChanNo) (d : Nat) : s.SetsTarget c d (s.setTarget c d) := by
  have own := pool_setTarget s c d
  have before (e : ChanNo) := chan_targetSet s c d e
  have after (e : ChanNo) := chan_poolPassIfFell (s.targetSet c d) c e (s.chan c).reservation
  have pools (e : ChanNo) := pool_poolPassIfFell (s.targetSet c d) c (s.chan c).reservation e
  have told (q : PortNo) (e : ChanNo) := delay_poolPassIfFell (s.targetSet c d) c (s.chan c).reservation e q
  have only : s.OnlyDelays (s.setTarget c d) :=
    (onlyDelays_setGrant (s.setPool c { (s.chan c).pool with target := d }) c _).trans (onlyDelays_poolPassIfFell _ _ _)
  have set (q : PortNo) (e : ChanNo) := delay_setGrant (s.setPool c { (s.chan c).pool with target := d }) c (s.grantFor c d) e q
  have role (q : PortNo) : ((s.targetSet c d).port q).role = (s.port q).role :=
    ((moves_setPool s c _).trans (moves_setGrant _ c c (s.grantFor c d))).role q
  have spec := (poolPass_spec (s.targetSet c d)).2
  change ∀ (q : PortNo) (e : ChanNo), ((s.targetSet c d).port q).pending.has (.delay e) = _ at set
  rw [setTarget_eq] at own only ⊢
  have ownGrant := congrArg Pool.granted own
  have targetSetSelf : (s.targetSet c d).chan c = { s.chan c with
      pool := { target := d, granted := s.grantFor c d, clamped := decide (s.grantFor c d < d) } } := by rw [before, if_pos rfl]
  have same (e : ChanNo) : (s.setPool c { target := d, granted := s.grantFor c d, clamped := decide (s.grantFor c d < d) }).chan e =
      (s.targetSet c d).chan e := by
    rw [before, State.setPool, State.chan_setChan]
  generalize hu : s.targetSet c d = u at *
  generalize u.poolPassIfFell c (s.chan c).reservation = t at *
  refine ⟨?own, fun e he => ?others, fun e he => ?rises, ⟨only.kinds, fun q e => ?tells⟩⟩
  case own =>
    have whole : t.chan c = { s.chan c with pool := (t.chan c).pool } := by rw [after, targetSetSelf]
    rw [whole, own]
    rfl
  case others =>
    have whole : t.chan e = { s.chan e with pool := (t.chan e).pool } := by rw [after, before, if_neg he]
    have reads : s.poolsAfter c (s.chan c).actual (t.chan c).pool (s.setPool c (t.chan c).pool) e = (t.chan e).pool := by
      rw [own, pools, State.poolsAfter, chan_poolPass_congr same, same, targetSetSelf]
      rfl
    rw [reads]
    exact whole
  case rises =>
    rw [pools]
    have kept : u.chan e = s.chan e := by rw [before, if_neg he]
    have turn := spec e
    rw [kept] at turn
    split
    · exact ⟨turn.1, turn.2.1⟩
    · rw [kept]
      exact ⟨le_rfl, fun _ => rfl⟩
  case tells =>
    refine (told q e).trans ?_
    rw [set, role]
    by_cases he : e = c
    · subst he
      rw [targetSetSelf, ownGrant]
      simp [Notices.has, State.setPool]
    · rw [before, if_neg he]
      simp [Notices.has, he, State.setPool]

/-- What a pool's change reads of a state is its channels, and what it tells is read off the ports' roles and pending sets. -/
theorem State.SetsTarget.answered {s v : State} {p : PortNo} {c : ChanNo} {d : Nat}
    (h : (s.setPort p (s.port p).accept).SetsTarget c d v) (l : List Byte) : s.SetsTarget c d (v.answer p (.ok l)) where
  own := h.own
  others e he := by
    have at' := h.others e he
    have reads := poolsAfter_congr (s := s) (t := s.setPort p (s.port p).accept) (s' := s.setPool c (v.chan c).pool)
      (t' := (s.setPort p (s.port p).accept).setPool c (v.chan c).pool) (c := c) rfl (fun _ => rfl) (s.chan c).actual (v.chan c).pool e
    exact at'.trans (congrArg (fun x => { s.chan e with pool := x }) reads)
  rises := h.rises
  tells := by
    obtain ⟨kinds, delay⟩ := h.tells
    refine ⟨fun q => ?_, fun q e => ?_⟩
    · have at' := kinds q
      rw [pending_setPort_accept] at at'
      rw [pending_answer_ok]
      exact at'
    · have at' := delay q e
      rw [pending_setPort_accept, role_setPort_accept] at at'
      rw [pending_answer_ok]
      exact at'

/-- A command that sets a target, answered GOOD: its change of the pool, its port, and what it leaves. -/
theorem answer_setTarget (s : State) (p : PortNo) (c : ChanNo) (d : Nat) (l : List Byte) :
    let t := ((s.setPort p (s.port p).accept).setTarget c d).answer p (.ok l)
    s.SetsTarget c d t ∧ t = { s with chans := t.chans, ports := t.ports } ∧
      t.port p = ({ s.port p with pending := (t.port p).pending } : Port).sendGood l false ∧
      ∀ q, q ≠ p → t.port q = { s.port q with pending := (t.port q).pending } := by
  have sets := setsTarget_setTarget (s.setPort p (s.port p).accept) c d
  have moves := moves_setTarget (s.setPort p (s.port p).accept) c d
  generalize (s.setPort p (s.port p).accept).setTarget c d = v at sets moves
  refine ⟨sets.answered l, ?_, issuer_answer_ok moves.ports l, other_answer_ok moves.ports l⟩
  exact congrArg (fun u : State => { u with ports := (v.answer p (.ok l)).ports }) moves.eq

theorem actSetDelay_outOfRange {prm : List Byte} (h : 150 < natAt prm 0) (s : State) (c : ChanNo) :
    actSetDelay s c prm = (s, .illegal 1) := if_pos h

theorem actSetDelay_ok {prm : List Byte} (h : natAt prm 0 ≤ 150) (s : State) (c : ChanNo) :
    actSetDelay s c prm = (s.setTarget c (natAt prm 0), .ok [byteOf (natAt prm 0), byteOf (s.grantFor c (natAt prm 0))]) := by
  rw [actSetDelay]
  dsimp only
  rw [if_neg (Nat.not_lt.2 h), pool_setTarget]

end Sys2Proof.Machine

namespace Sys2Proof.Proofs
open Sys2Proof.Machine

/-- Settles O17: the target's change on the state whose port has accepted the block, answered. -/
theorem setDelayGrantsFromThePool : Obligations.SetDelayGrantsFromThePool := by
  intro s p c b hs hb hlen d
  have run := exec_channel (k := .setDelay) hs hb hlen
  refine ⟨fun h => run.trans (congrArg _ ?_), fun h => ?_⟩
  · simp only [act, ownChannel, actSetDelay_outOfRange h]
    exact answer_illegal s p 1
  · have bytes : [byteOf d, byteOf ((s.setPort p (s.port p).accept).grantFor c d)] =
        b.params ++ [byteOf (min d (480 - (s.reserved - (s.chan c).reservation)))] := by
      obtain ⟨x, hx⟩ := List.length_eq_one_iff.1 hlen
      have one : byteOf d = x := by simp only [d, byteOf_natAt, hx, List.getD_cons_zero]
      rw [one, hx]
      rfl
    simp only [act, ownChannel, actSetDelay_ok h] at run
    rw [← bytes]
    exact ⟨_, run, answer_setTarget s p c d _⟩

/-- Settles O18: each channel by its own turn in the pass. -/
theorem passLeavesNothingToGrant : Obligations.PassLeavesNothingToGrant := by
  intro s laws
  have spec := (poolPass_spec s).2
  refine ⟨poolLaws_poolPass laws, fun c => (spec c).1, fun c => (spec c).2.2, fun c => (spec c).2.1, fun c clamped => ?_⟩
  obtain ⟨u, own, after, allowed⟩ := poolPass_allows s c
  dsimp only
  generalize ((List.finRange 4).map (fun e => if e = c then 0 else
    max (if e < c then s.poolPass.chan e else s.chan e).pool.granted (s.chan e).actual)).sum = others at allowed ⊢
  rw [after, chan_regrant, own, allowed]
  by_cases raised : (s.chan c).pool.granted < min (s.chan c).pool.target (480 - others)
  · rw [if_pos ⟨rfl, clamped, raised⟩]
    exact ⟨(Nat.max_eq_right raised.le).symm, rfl, fun _ => rfl⟩
  · rw [if_neg fun h => raised h.2.2]
    exact ⟨(Nat.max_eq_left (Nat.le_of_not_lt raised)).symm, rfl, fun h => absurd h (lt_irrefl _)⟩

end Sys2Proof.Proofs
end

section
/-!
PROOF. The tests of a block, refused blocks, and the reception of a block byte by byte (R147 to R151, R153, R155).
-/
namespace Sys2Proof.Machine

/-! ### The tests of a block (R151) -/

/-- What tests 1 to 5 answer, if one of them does (R151). -/
def earlyRefusal (starting : Bool) (r : Role) (damaged : Bool) (sum : Byte) (len : Nat) : Option Answer :=
  if starting then some (.check .notReady .starting none true)
  else if r = .idle then some (.check .notPermitted .portIdle none false)
  else if damaged then some (.check .link .byteFraming none false)
  else if sum ≠ 0 then some (.check .link .badCheck none false)
  else if len < 2 ∨ 70 < len then some (.refuse .illegal .badLength len)
  else none

/-- What tests 6 to 8 make of a block (R151). -/
def lateTests (r : Role) (code : Byte) (len : Nat) (prm : List Byte) : Judged :=
  match Command.ofCode code with
  | none => .refused (.refuse .illegal .unknownCommand code.toNat)
  | some k =>
    if !mayIssue k r then .refused (.refuse .notPermitted .wrongRole code.toNat)
    else if (formLength k r prm).any (fun n => n != len) then .refused (.refuse .illegal .badLength len)
    else .command k r

/-- The eight tests are the first five, then the last three. -/
theorem judge_eq (starting : Bool) (role : Option Role) (b : Block) : judge starting role b =
    match earlyRefusal starting (role.getD .idle) b.damaged b.sum b.len.toNat with
    | some a => .refused a
    | none => lateTests (role.getD .idle) (b.body.getD 0 0) b.len.toNat b.body.tail := by
  unfold judge earlyRefusal
  dsimp only
  split_ifs <;> rfl

/-- The code is the first byte of a block's body, however long. -/
theorem tailBlock_code (code : Byte) (b : Tail) : (tailBlock code b).body.getD 0 0 = code := rfl

section Free
variable {s : State} {p : PortNo}

/-- A block refused at a port in FREE. -/
theorem blockCompletes_refused (hf : (s.port p).trans = .free) {b : Block} {a : Answer}
    (h : judge s.loader.phase.isStarting (s.port p).role b = .refused a) :
    s.blockCompletes p b = (s.setPort p (s.port p).accept).answer p a :=
  (blockCompletes_free hf b).trans (acceptBlock_refused h)

/-- A block that one of the first five tests refuses. -/
theorem blockCompletes_early (hf : (s.port p).trans = .free) {b : Block} {a : Answer}
    (h : earlyRefusal s.loader.phase.isStarting ((s.port p).role.getD .idle) b.damaged b.sum b.len.toNat = some a) :
    s.blockCompletes p b = (s.setPort p (s.port p).accept).answer p a :=
  blockCompletes_refused hf (by rw [judge_eq, h])

/-- A block that the first five tests pass and one of the last three refuses. -/
theorem blockCompletes_late (hf : (s.port p).trans = .free) {code : Byte} {b : Tail} {a : Answer} (hlen : b.params.length ≤ 254)
    (he : earlyRefusal s.loader.phase.isStarting ((s.port p).role.getD .idle) b.damaged (tailBlock code b).sum
      (b.params.length + 1) = none)
    (h : lateTests ((s.port p).role.getD .idle) code (b.params.length + 1) b.params = .refused a) :
    s.blockCompletes p (tailBlock code b) = (s.setPort p (s.port p).accept).answer p a := by
  refine blockCompletes_refused hf ?_
  have few : b.params.length ≤ 69 := by
    unfold earlyRefusal at he
    split_ifs at he
    omega
  rw [judge_eq, tailBlock_damaged, tailBlock_len hlen, he, tailBlock_code, tailBlock_body few]
  exact h

end Free

/-- The part is STARTING, in the words of the statements. -/
theorem isStarting_eq (x : Phase) : (x.isStarting = true) = (x = .starting) := by
  cases x <;> simp [Phase.isStarting]

/-- ADD CUES with 1 to 4 records has one length for each (R151, test 8). -/
theorem formLength_addCues (r : Role) (l : List Byte) : formLength .addCues r l =
    if 1 ≤ natAt l 0 ∧ natAt l 0 ≤ 4 then [none, some 18, some 34, some 50, some 66].getD (natAt l 0) none else none := by
  simp only [formLength]
  by_cases range : 1 ≤ natAt l 0 ∧ natAt l 0 ≤ 4
  · rw [if_pos range, if_neg (by omega)]
    obtain ⟨low, high⟩ := range
    interval_cases natAt l 0 <;> rfl
  · rw [if_neg range, if_pos (by omega)]

/-! ### Refused commands leave the state (R153) -/

/-- An owner's result that, where it is a refusal, leaves the state as it was. -/
def RefusesUnchanged (s : State) (u : State × Answer) : Prop :=
  ∀ k e i busy, u.2 = .check k e i busy → u.1 = s

@[simp] theorem refusesUnchanged_same (s : State) (a : Answer) : RefusesUnchanged s (s, a) := fun _ _ _ _ _ => rfl
@[simp] theorem refusesUnchanged_good (s t : State) (d : List Byte) (m : Bool) : RefusesUnchanged s (t, .good d m) :=
  fun _ _ _ _ h => by cases h
@[simp] theorem refusesUnchanged_ok (s t : State) (d : List Byte) : RefusesUnchanged s (t, .ok d) := refusesUnchanged_good s t d false
@[simp] theorem refusesUnchanged_later (s t : State) : RefusesUnchanged s (t, .later) := fun _ _ _ _ h => by cases h

theorem refusesUnchanged_addCues (s : State) (c : ChanNo) (prm : List Byte) : RefusesUnchanged s (actAddCues s c prm) := by
  unfold actAddCues
  dsimp only
  split
  · simp
  · split
    · simp
    · split <;> simp

theorem refusesUnchanged_listFrom (s : State) (c : ChanNo) (i : Nat) (prm : List Byte) : RefusesUnchanged s (listFrom s c i prm) := by
  unfold listFrom
  dsimp only
  split_ifs <;> simp

/-- TAKE NOW refused with PROFILE UNDEFINED has performed nothing (R143). -/
theorem perform_failed {s : State} {c : ChanNo} {n : Option Nat} {a : Action} (h : (s.perform c n a).2 = false) :
    (s.perform c n a).1 = s := by
  cases a with
  | selectProfile k =>
    simp only [State.perform] at h ⊢
    split at h
    · cases h
    · rename_i undefined
      rw [if_neg undefined]
  | _ => cases h

theorem refusesUnchanged_takeNow (s : State) (c : ChanNo) (prm : List Byte) : RefusesUnchanged s (actTakeNow s c prm) := by
  unfold actTakeNow
  dsimp only
  split
  · simp
  · split
    · simp
    · split
      · simp
      · split <;> simp

theorem refusesUnchanged_assignBooth (s : State) (prm : List Byte) : RefusesUnchanged s (actAssignBooth s prm) := by
  unfold actAssignBooth
  dsimp only
  split
  · simp
  · simp
  · split
    · simp
    · split <;> simp

/-- Whatever a command's owner refuses, it has changed nothing. -/
theorem refusesUnchanged_act (k : Command) (r : Role) (s : State) (p : PortNo) (before : Sense) (prm : List Byte) :
    RefusesUnchanged s (act k r s p before prm) := by
  cases k
  case addCues => exact refusesUnchanged_addCues s _ prm
  case takeNow => exact refusesUnchanged_takeNow s _ prm
  case assignBooth => exact refusesUnchanged_assignBooth s prm
  case listCues =>
    simp only [act, actListCues]
    split
    · exact refusesUnchanged_listFrom s _ _ prm
    · split
      · exact refusesUnchanged_listFrom s _ _ prm
      · simp
  case identify => simp [act, actIdentify]
  case readSense => simp [act, actReadSense]
  case readNotices => simp [act, actReadNotices]
  case setNoticeMask => simp only [act, actSetNoticeMask]; split <;> simp
  case channelState => simp only [act, actChannelState]; split <;> simp
  case dropCue => simp only [act, actDropCue]; split_ifs <;> simp
  case flushCues => simp [act, actFlushCues]
  case findCue =>
    simp only [act, actFindCue]
    split
    · simp
    · split
      · simp
      · split <;> simp
  case readOutcomes => simp [act, actReadOutcomes]
  case setLateLimit => simp only [act, actSetLateLimit]; split <;> simp
  case setLossMode => simp only [act, actSetLossMode]; split <;> simp
  case clearChannel => simp [act, actClearChannel]
  case setDelay => simp only [act, actSetDelay]; split <;> simp
  case setSlew => simp only [act, actSetSlew]; split <;> simp
  case writeBooth =>
    simp only [act, actWriteBooth]
    split
    · simp
    · simp
    · split <;> simp
  case readBooth => simp only [act, actReadBooth]; split <;> simp
  case setSlotMask => simp [act, actSetSlotMask]
  case boothState => simp only [act, actBoothState]; split <;> simp
  case writeProfile =>
    simp only [act, actWriteProfile]
    split
    · simp
    · simp
    · split <;> simp
  case readProfile => simp only [act, actReadProfile]; split <;> simp
  case releaseBooth => simp only [act, actReleaseBooth]; split <;> simp
  case writePortRoles =>
    simp only [act, actWritePortRoles]
    split
    · simp
    · split <;> simp
  case storeSettings => simp [act, actStoreSettings]
  case resetUnit => simp [act, actResetUnit]

/-- A command's owner leaves its port's sense record NONE until the answer is given. -/
theorem sense_act (k : Command) (r : Role) (s : State) (p : PortNo) (prm : List Byte) (before : Sense) :
    ((act k r s p before prm).1.port p).sense = (s.port p).sense := by
  by_cases hk : k = .storeSettings
  · subst hk
    rfl
  · have only := (acts_act hk r s p before prm).setsOnly p
    rw [Port.SetsOnly] at only
    rw [only]

/-- A refusal given at a port that has accepted its block touches that port's receive state, reply and sense record alone. -/
theorem answer_check_port (s : State) (p : PortNo) (k : SenseKey) (e : SenseCode) (i : Option Nat) (busy : Bool) :
    let t := (s.setPort p (s.port p).accept).answer p (.check k e i busy)
    t = s.setPort p { s.port p with recv := .seek, trans := (t.port p).trans, sense := (t.port p).sense } := by
  intro t
  have ht : t = s.sendCheck p k e i busy := answer_check s p k e i busy
  rw [ht, State.sendCheck, State.port_setPort_self]
  rfl

/-- The answer is a refusal. -/
def Answer.IsCheck (a : Answer) : Prop := ∃ k e i busy, a = .check k e i busy

theorem isCheck_early {st : Bool} {r : Role} {damaged : Bool} {sum : Byte} {len : Nat} {a : Answer}
    (h : earlyRefusal st r damaged sum len = some a) : a.IsCheck := by
  unfold earlyRefusal at h
  split_ifs at h <;> cases h <;> exact ⟨_, _, _, _, rfl⟩

theorem isCheck_late {r : Role} {code : Byte} {len : Nat} {prm : List Byte} {a : Answer}
    (h : lateTests r code len prm = .refused a) : a.IsCheck := by
  unfold lateTests at h
  split at h
  · cases h
    exact ⟨_, _, _, _, rfl⟩
  · split_ifs at h <;> cases h <;> exact ⟨_, _, _, _, rfl⟩

/-- A block judged refused is refused by a CHECK. -/
theorem judge_refused {st : Bool} {role : Option Role} {b : Block} {a : Answer} (h : judge st role b = .refused a) : a.IsCheck := by
  rw [judge_eq] at h
  cases he : earlyRefusal st (role.getD .idle) b.damaged b.sum b.len.toNat with
  | some x =>
    rw [he] at h
    cases h
    exact isCheck_early he
  | none =>
    rw [he] at h
    exact isCheck_late h

/-! ### The bytes of a block (R147, R148) -/

theorem byteSum_append (l : List Byte) (x : Byte) : byteSum (l ++ [x]) = byteSum l + x := by
  induction l with
  | nil => simp [byteSum]
  | cons y l ih =>
    change y + byteSum (l ++ [x]) = (y + byteSum l) + x
    rw [ih, BitVec.add_assoc]

/-- The receive state after the length byte and some bytes of a body that is not longer than the length byte says. -/
def Recv.after (len : Byte) (bytes : List Byte) (dmg : Bool) : Recv :=
  if len.toNat ≤ bytes.length then .trailer len (bytes.take Config.maxBody) (len + byteSum bytes) dmg
  else .body len (bytes.take Config.maxBody) bytes.length (len + byteSum bytes) dmg

theorem take_after {len : Byte} {bytes : List Byte} (h : bytes.length < len.toNat) (dmg : Bool) (x : Byte) (noStop : Bool) :
    (Recv.after len bytes dmg).take x noStop = (Recv.after len (bytes ++ [x]) (dmg || noStop), none) := by
  have kept : (if bytes.length < Config.maxBody then bytes.take Config.maxBody ++ [x] else bytes.take Config.maxBody) =
      (bytes ++ [x]).take Config.maxBody := by
    split
    · rename_i room
      rw [List.take_of_length_le room.le, List.take_of_length_le (by simpa using room)]
    · rename_i full
      rw [List.take_append_of_le_length (Nat.le_of_not_lt full)]
  have sum : len + byteSum (bytes ++ [x]) = len + byteSum bytes + x := by rw [byteSum_append, BitVec.add_assoc]
  have length : (bytes ++ [x]).length = bytes.length + 1 := by simp
  rw [Recv.after, if_neg (Nat.not_le.2 h), Recv.take, kept, Recv.after, sum, length]

/-- The state with one port's reception at another point. -/
def State.receiving (s : State) (p : PortNo) (v : Recv) : State := s.setPort p { s.port p with recv := v }

theorem receiving_self {s : State} {p : PortNo} {v : Recv} (h : (s.port p).recv = v) : s.receiving p v = s := by
  subst h
  exact setPort_self s p

theorem exec_byte {s : State} {p : PortNo} {v w : Recv} {x : Byte} {noStop : Bool} (h : v.take x noStop = (w, none)) :
    exec (.controlByteReceived p x noStop) (s.receiving p v) = .next (s.receiving p w) := by
  change Host.Outcome.next ((s.receiving p v).byteArrives p x noStop) = _
  simp only [State.byteArrives, State.receiving, State.port_setPort_self, setPort_setPort, h]

theorem exec_lastByte {s : State} {p : PortNo} {v w : Recv} {x : Byte} {noStop : Bool} {b : Block} (h : v.take x noStop = (w, some b)) :
    exec (.controlByteReceived p x noStop) (s.receiving p v) = .next ((s.receiving p w).blockCompletes p b) := by
  change Host.Outcome.next ((s.receiving p v).byteArrives p x noStop) = _
  simp only [State.byteArrives, State.receiving, State.port_setPort_self, setPort_setPort, h]

theorem receiveBytes_cons {p : PortNo} {x : Byte × Bool} {l : List (Byte × Bool)} {s t : State}
    (h : exec (.controlByteReceived p x.1 x.2) s = .next t) : receiveBytes p (x :: l) s = receiveBytes p l t := by
  rw [receiveBytes, h]

/-- The bytes of a body, one after another. -/
theorem receiveBytes_body (s : State) (p : PortNo) (len : Byte) (l rest : List (Byte × Bool)) (bytes : List Byte) (dmg : Bool)
    (h : bytes.length + l.length ≤ len.toNat) :
    receiveBytes p (l ++ rest) (s.receiving p (Recv.after len bytes dmg)) =
      receiveBytes p rest (s.receiving p (Recv.after len (bytes ++ l.map (·.1)) (dmg || l.any (·.2)))) := by
  induction l generalizing bytes dmg with
  | nil => simp
  | cons x l ih =>
    have room : bytes.length < len.toNat := by simp only [List.length_cons] at h; omega
    rw [List.cons_append, receiveBytes_cons (exec_byte (take_after room dmg x.1 x.2)), ih _ _ (by
      simp only [List.length_append, List.length_cons, List.length_nil] at h ⊢
      omega)]
    simp [Bool.or_assoc]

/-- The check byte completes the block of the bytes received. -/
theorem take_trailer {len : Byte} {bytes : List Byte} (h : len = byteOf bytes.length) (hlen : bytes.length < 256) (dmg : Bool)
    (x : Byte) (noStop : Bool) :
    (Recv.after len bytes dmg).take x noStop = (.seek, some (Block.ofBytes bytes x (dmg || noStop))) := by
  subst h
  rw [Recv.after, if_pos (by rw [toNat_byteOf hlen])]
  rfl

/-- A block's bytes, received at a port in SEEK, complete the block. -/
theorem receiveBytes_block {s : State} {p : PortNo} (h : (s.port p).recv = .seek) {body : List Byte} (hb : body ≠ [])
    (hlen : body.length < 256) (check : Byte) (f g : Bool) (stops : List Bool) (hs : stops.length = body.length) :
    receiveBytes p ((0xA5, false) :: (byteOf body.length, f) :: (body.zip stops ++ [(check, g)])) s =
      .next (s.blockCompletes p (Block.ofBytes body check (f || stops.any id || g))) := by
  have pos : 0 < body.length := List.length_pos_iff.2 hb
  have start : Recv.seek.take 0xA5 false = (.count, none) := rfl
  have count : Recv.count.take (byteOf body.length) f = (Recv.after (byteOf body.length) [] f, none) := by
    have nonzero : byteOf body.length ≠ 0 := fun hz => by
      have := (toNat_byteOf hlen).symm.trans (congrArg BitVec.toNat hz)
      exact pos.ne' this
    rw [Recv.take, if_neg nonzero, Recv.after, if_neg (by rw [toNat_byteOf hlen]; exact Nat.not_le.2 pos)]
    simp [byteSum]
  have fst : (body.zip stops).map (·.1) = body := List.map_fst_zip hs.ge
  have snd : (body.zip stops).any (·.2) = stops.any id := by
    have both : (body.zip stops).any (·.2) = ((body.zip stops).map Prod.snd).any id := by simp [List.any_map]
    rw [both, List.map_snd_zip hs.le]
  rw [← receiving_self h, receiveBytes_cons (exec_byte start), receiveBytes_cons (exec_byte count),
    receiveBytes_body s p _ _ _ _ _ (by rw [toNat_byteOf hlen]; simp [hs]), fst, snd, List.nil_append]
  refine (receiveBytes_cons (exec_lastByte (take_trailer rfl hlen _ check g))).trans ?_
  rw [receiving_self h]
  rfl

theorem damaged_split {stops : List Bool} {n : Nat} (h : stops.length = n + 2) :
    ∃ f mid g, stops = f :: (mid ++ [g]) ∧ mid.length = n := by
  obtain ⟨f, rest, rfl⟩ := List.exists_cons_of_length_eq_add_one h
  have hrest : rest.length = n + 1 := by simpa using h
  have ne : rest ≠ [] := fun he => by simp [he] at hrest
  exact ⟨f, rest.dropLast, rest.getLast ne, by rw [List.dropLast_append_getLast], by simp [hrest]⟩

end Sys2Proof.Machine

namespace Sys2Proof.Proofs
open Sys2Proof.Machine

/-- Settles O56: the receive state follows the bytes, and the check byte hands on the block of the row. -/
theorem bytesReceivedMakeABlock : Obligations.BytesReceivedMakeABlock := by
  refine fun s p h => ⟨fun code b stops hlen hstops hdamaged => ?block, fun check f g => ?empty, fun x noStop hx => ?discarded⟩
  case block =>
    intro bytes
    obtain ⟨f, mid, g, rfl, hmid⟩ := damaged_split (n := b.params.length + 1) hstops
    have received : receiveBytes p bytes s = .next (s.blockCompletes p (tailBlock code b)) := by
      have whole := receiveBytes_block h (body := code :: b.params) (by simp) (by simp only [List.length_cons]; omega) b.check f g mid
        (by simpa using hmid)
      have same : bytes = (0xA5, false) :: (byteOf (code :: b.params).length, f) :: ((code :: b.params).zip mid ++ [(b.check, g)]) := by
        simp only [bytes, List.zip_cons_cons, List.length_cons]
        rw [← List.cons_append, List.zip_append (by simpa using hmid.symm)]
        rfl
      have damaged : b.damaged = (f || mid.any id || g) := by simp [hdamaged, Bool.or_assoc]
      rw [same, whole, tailBlock, damaged]
    exact ⟨fun k hk => by rw [received, hk]; exact (exec_instr k p b s).symm, fun _ => received⟩
  case empty =>
    have start : Recv.seek.take 0xA5 false = (.count, none) := rfl
    have count : Recv.count.take 0x00 f = (.trailer 0 [] 0 f, none) := rfl
    have last : (Recv.trailer 0 [] 0 f).take check g = (.seek, some (Block.ofBytes [] check (f || g))) := by
      simp [Recv.take, Block.ofBytes, byteSum, byteOf]
    have whole : receiveBytes p [(0xA5, false), (0x00, f), (check, g)] (s.receiving p .seek) =
        .next ((s.receiving p .seek).blockCompletes p (Block.ofBytes [] check (f || g))) := by
      rw [receiveBytes_cons (exec_byte start), receiveBytes_cons (exec_byte count)]
      exact receiveBytes_cons (exec_lastByte last)
    rw [receiving_self h] at whole
    exact whole
  case discarded =>
    have stay : Recv.seek.take x noStop = (.seek, none) := by
      have no : ¬(x = Config.startByte ∧ noStop = false) := fun ⟨hs, hn⟩ => hx.elim (fun he => he hs) fun ht => by
        rw [hn] at ht
        cases ht
      rw [Recv.take, if_neg no]
    have whole := exec_byte (s := s) (p := p) stay
    rw [receiving_self h] at whole
    exact whole

/-- Settles O53: the first five tests ask nothing of the command, and the last three are the tables of roles and lengths. -/
theorem blockTestsInOrder : Obligations.BlockTestsInOrder := by
  refine ⟨fun k r => ?roles, fun k r l hm => ?lengths, fun s p code b hf hlen => ?tests⟩
  case roles =>
    cases r <;> cases k <;> simp [mayIssue]
  case lengths =>
    cases k
    case addCues => exact formLength_addCues r l
    case listCues =>
      cases r with
      | channel c => rfl
      | monitor => rfl
      | studio => cases hm
      | idle => cases hm
    all_goals rfl
  case tests =>
    intro role len refused early
    let accepted := s.setPort p (s.port p).accept
    have earlyEq : early = (earlyRefusal s.loader.phase.isStarting role b.damaged (tailBlock code b).sum len).map
        fun a => .next (accepted.answer p a) := by
      have check (k : SenseKey) (e : SenseCode) (i : Option Nat) (busy : Bool) :
          refused k e i busy = .next (accepted.answer p (.check k e i busy)) := congrArg _ (answer_check s p k e i busy).symm
      simp only [early, earlyRefusal, isStarting_eq, check]
      split_ifs <;> rfl
    have length := tailBlock_len (code := code) hlen
    have stop {a : Answer} (ha : earlyRefusal s.loader.phase.isStarting role b.damaged (tailBlock code b).sum len = some a) :
        s.blockCompletes p (tailBlock code b) = accepted.answer p a :=
      blockCompletes_early hf (by rw [tailBlock_damaged, length]; exact ha)
    refine ⟨fun hcode => ?unknown, fun check damaged => ?empty, fun k hk => ⟨fun o ho => ?early, fun passed => ?late⟩⟩
    case unknown =>
      change Host.Outcome.next (s.blockCompletes p (tailBlock code b)) = _
      rw [earlyEq]
      cases he : earlyRefusal s.loader.phase.isStarting role b.damaged (tailBlock code b).sum len with
      | some a => exact congrArg _ (stop he)
      | none =>
        have late : lateTests role code len b.params = .refused (.refuse .illegal .unknownCommand code.toNat) := by
          simp only [lateTests, hcode]
        exact congrArg _ ((blockCompletes_late hf hlen he late).trans (answer_refuse s p _ _ _))
    case empty =>
      change Host.Outcome.next (s.blockCompletes p (Block.ofBytes [] check damaged)) = _
      have sum : (Block.ofBytes [] check damaged).sum = check := by simp [Block.ofBytes, byteSum, byteOf]
      have some' : ∃ a, earlyRefusal s.loader.phase.isStarting role damaged check 0 = some a ∧
          Host.Outcome.next (φ := Fault) (ρ := Refusal) (accepted.answer p a) =
            if s.loader.phase = .starting then refused .notReady .starting none true
            else if role = .idle then refused .notPermitted .portIdle none false
            else if damaged = true then refused .link .byteFraming none false
            else if check ≠ 0 then refused .link .badCheck none false
            else refused .illegal .badLength (some 0) false := by
        have short : 0 < 2 ∨ 70 < 0 := .inl (by decide)
        simp only [earlyRefusal, isStarting_eq, if_pos short]
        split_ifs <;> exact ⟨_, rfl, congrArg _ (answer_check s p _ _ _ _)⟩
      obtain ⟨a, ha, told⟩ := some'
      rw [← told]
      exact congrArg _ (blockCompletes_early (b := Block.ofBytes [] check damaged) hf (by rw [sum]; exact ha))
    case early =>
      subst hk
      rw [earlyEq, Option.map_eq_some_iff] at ho
      obtain ⟨a, ha, rfl⟩ := ho
      exact (exec_instr k p b s).trans (congrArg _ (stop ha))
    case late =>
      subst hk
      rw [earlyEq, Option.map_eq_none_iff] at passed
      refine ⟨fun no => (exec_instr k p b s).trans (congrArg _ ?_), fun may ⟨n, hn, hne⟩ => (exec_instr k p b s).trans (congrArg _ ?_)⟩
      · have late : lateTests role k.code len b.params = .refused (.refuse .notPermitted .wrongRole k.code.toNat) := by
          simp only [lateTests, ofCode_code, no, Bool.not_false, if_true]
        exact (blockCompletes_late hf hlen passed late).trans (answer_refuse s p _ _ _)
      · have late : lateTests role k.code len b.params = .refused (.refuse .illegal .badLength len) := by
          simp only [lateTests, ofCode_code, may, hn]
          simp [hne]
        exact (blockCompletes_late hf hlen passed late).trans (answer_refuse s p _ _ _)

end Sys2Proof.Proofs
end

section
/-!
PROOF. LIST CUES, FIND CUE and READ OUTCOMES (R139, R141, R142).
-/
namespace Sys2Proof.Machine

/-! ### LIST CUES -/

/-- The cues LIST CUES shows from a position on: as many as it asks for, or four. -/
def shownCues (l : List Cue) (start count : Nat) : List Cue := (l.drop (start - 1)).take (if count = 0 then 4 else count)

section ListFrom
variable (s : State) (c : ChanNo) (i : Nat) {prm : List Byte}

theorem listFrom_start (h : natAt prm i = 0 ∨ 32 < natAt prm i) : listFrom s c (i + 1) prm = (s, .illegal (i + 1)) := if_pos h

theorem listFrom_count (h1 : 1 ≤ natAt prm i) (h2 : natAt prm i ≤ 32) (h : 4 < natAt prm (i + 1)) :
    listFrom s c (i + 1) prm = (s, .illegal (i + 2)) := by
  have start : ¬(natAt prm i = 0 ∨ 32 < natAt prm i) := by omega
  exact (if_neg start).trans (if_pos h)

theorem listFrom_ok (h1 : 1 ≤ natAt prm i) (h2 : natAt prm i ≤ 32) (h : natAt prm (i + 1) ≤ 4) :
    let shown := shownCues (s.chan c).sched.cues (natAt prm i) (natAt prm (i + 1))
    listFrom s c (i + 1) prm = (s, .ok ([byteOf (s.chan c).sched.cues.length, byteOf (natAt prm i), byteOf shown.length] ++
      shown.flatMap (s.cueEntry c))) := by
  have start : ¬(natAt prm i = 0 ∨ 32 < natAt prm i) := by omega
  exact (if_neg start).trans (if_neg (Nat.not_lt.2 h))

end ListFrom

/-- LIST CUES from the channel's own port, or from a MONITOR port that names the channel, with its parameters after that name. -/
theorem exec_listCues {s : State} {p : PortNo} {c : ChanNo} {b : Tail} {i : Nat}
    (hs : s.Serves p (.channel c) ∧ i = 0 ∨ s.Serves p .monitor ∧ natAt b.params 0 = c ∧ i = 1) (hb : Intact 0x13 b)
    (hlen : b.params.length = i + 2) :
    let u := listFrom (s.setPort p (s.port p).accept) c (i + 1) b.params
    exec (.listCues p b) s = .next (u.1.answer p u.2) := by
  obtain ⟨hs, rfl⟩ | ⟨hs, hc, rfl⟩ := hs
  · exact exec_channel (k := .listCues) hs hb hlen
  · have own : actListCues (s.setPort p (s.port p).accept) (some .monitor) b.params =
        listFrom (s.setPort p (s.port p).accept) c 2 b.params := by
      simp only [actListCues, hc, chanOf_val]
    have run := exec_command (k := .listCues) hs rfl hb hlen (by decide) (by decide) rfl
    simp only [act, own] at run
    exact run

theorem actListCues_outOfRange (s : State) {prm : List Byte} (h : 3 < natAt prm 0) :
    actListCues s (some .monitor) prm = (s, .illegal 1) := by simp only [actListCues, chanOf_eq_none h]

/-- The rows of LIST CUES, FIND CUE and READ OUTCOMES in the table of R155. -/
theorem mayIssue_cueReports (r : Role) : (mayIssue .listCues r = true ↔ (∃ c, r = .channel c) ∨ r = .monitor) ∧
    (mayIssue .findCue r = true ↔ ∃ c, r = .channel c) ∧ (mayIssue .readOutcomes r = true ↔ ∃ c, r = .channel c) := by
  cases r <;> simp [mayIssue]

/-! ### FIND CUE -/

/-- A cue is one FIND CUE asks for. -/
theorem cueMatches_iff (kind guard : Nat) (invert : Bool) (q : Cue) : (cueMatches kind guard q != invert) = true ↔
    ((kind = 255 ∨ q.action.kind = kind) ∧ (guard = 255 ∨ q.guard.toByte.toNat = guard) ↔ invert = false) := by
  have fits : cueMatches kind guard q = true ↔
      (kind = 255 ∨ q.action.kind = kind) ∧ (guard = 255 ∨ q.guard.toByte.toNat = guard) := by
    simp [cueMatches, Config.noneByte]
  rw [← fits]
  cases cueMatches kind guard q <;> cases invert <;> simp

section FindCue
variable (s : State) (c : ChanNo) {prm : List Byte}

theorem actFindCue_kind (h1 : 6 < natAt prm 0) (h2 : natAt prm 0 ≠ 255) : actFindCue s c prm = (s, .illegal 1) :=
  if_pos (by rw [Config.noneByte]; omega)

theorem actFindCue_guard (hk : natAt prm 0 ≤ 6 ∨ natAt prm 0 = 255) (h1 : 6 < natAt prm 1) (h2 : natAt prm 1 ≠ 255) :
    actFindCue s c prm = (s, .illegal 2) := by
  unfold actFindCue
  dsimp only
  rw [if_neg (not_not.2 hk), if_pos (by rw [Config.noneByte]; omega)]

variable (hk : natAt prm 0 ≤ 6 ∨ natAt prm 0 = 255) (hg : natAt prm 1 ≤ 6 ∨ natAt prm 1 = 255)
include hk hg

theorem actFindCue_found {before after : List Cue} {q : Cue} (hl : (s.chan c).sched.cues = before ++ q :: after)
    (hq : (cueMatches (natAt prm 0) (natAt prm 1) q != (prm.getD 2 0).getLsbD 0) = true)
    (hb : ∀ r ∈ before, (cueMatches (natAt prm 0) (natAt prm 1) r != (prm.getD 2 0).getLsbD 0) = false) :
    actFindCue s c prm = (s, .good (byteOf (before.length + 1) :: s.cueEntry c q) true) := by
  have place : (before ++ q :: after).findIdx (fun q => cueMatches (natAt prm 0) (natAt prm 1) q != (prm.getD 2 0).getLsbD 0) =
      before.length := by
    refine (List.findIdx_eq (by simp)).2 ⟨by simpa using hq, fun j hj => ?_⟩
    rw [List.getElem_append_left hj]
    exact hb _ (List.getElem_mem hj)
  have at' : (before ++ q :: after)[before.length]? = some q := by simp
  unfold actFindCue
  dsimp only
  rw [if_neg (not_not.2 hk), if_neg (not_not.2 hg), hl, place, at']

theorem actFindCue_absent
    (hb : ∀ r ∈ (s.chan c).sched.cues, (cueMatches (natAt prm 0) (natAt prm 1) r != (prm.getD 2 0).getLsbD 0) = false) :
    actFindCue s c prm = (s, .ok [0]) := by
  have place := List.findIdx_eq_length.2 hb
  unfold actFindCue
  dsimp only
  rw [if_neg (not_not.2 hk), if_neg (not_not.2 hg), place, List.getElem?_eq_none le_rfl]

end FindCue

end Sys2Proof.Machine

namespace Sys2Proof.Proofs
open Sys2Proof.Machine

/-- Settles O47: the owners' answers, their records byte by byte. -/
theorem listFindAndReadOutcomes : Obligations.ListFindAndReadOutcomes := by
  refine ⟨mayIssue_cueReports, by decide, by decide, fun s p c b => ?_⟩
  intro d f tc what entry
  have entryEq : s.cueEntry c = entry := funext fun q => by
    have action : [byteOf q.action.kind, byteOf q.action.param] ++ q.action.window.bytes = what q.action := by
      cases q.action <;> simp [Action.kind, Action.param, Action.window, Window.bytes, pack12, byteOf, what]
    cases hfade : q.fade <;> simp only [entry, hfade, ← action, State.cueEntry, Cue.bytes, List.append_assoc] <;> rfl
  refine ⟨fun i hs hb hlen => ?list, fun hs hb hlen hc => ?channel, fun hs hb hlen => ?find, fun hs hb hlen => ?read⟩
  case list =>
    have run := exec_listCues hs hb hlen
    intro start count shown
    refine ⟨fun h => run.trans (congrArg _ ?_), fun h1 h2 h => run.trans (congrArg _ ?_), fun h1 h2 h => run.trans (congrArg _ ?_)⟩
    · rw [listFrom_start _ c i h]
      exact answer_illegal s p (i + 1)
    · rw [listFrom_count _ c i h1 h2 h]
      exact answer_illegal s p (i + 2)
    · rw [listFrom_ok _ c i h1 h2 h, ← entryEq]
      exact answer_ok s p _
  case channel =>
    refine (exec_command (k := .listCues) hs rfl hb hlen (by decide) (by decide) rfl).trans (congrArg _ ?_)
    simp only [act, actListCues_outOfRange _ hc]
    exact answer_illegal s p 1
  case find =>
    have run := exec_channel (k := .findCue) hs hb hlen
    intro kind guard invert fits
    have pred (q : Cue) : (cueMatches kind guard q != invert) = true ↔ (fits q ↔ invert = false) := cueMatches_iff kind guard invert q
    have none' {q : Cue} (h : ¬(fits q ↔ invert = false)) : (cueMatches kind guard q != invert) = false :=
      Bool.eq_false_iff.2 fun hq => h ((pred q).1 hq)
    refine ⟨fun h1 h2 => run.trans (congrArg _ ?_), fun hk h1 h2 => run.trans (congrArg _ ?_), fun hk hg =>
      ⟨fun before q after hl hq hbefore => run.trans (congrArg _ ?_), fun hall => run.trans (congrArg _ ?_)⟩⟩
    · simp only [act, actFindCue_kind _ _ h1 h2]
      exact answer_illegal s p 1
    · simp only [act, actFindCue_guard _ _ hk h1 h2]
      exact answer_illegal s p 2
    · have found := actFindCue_found (s.setPort p (s.port p).accept) c hk hg hl ((pred q).2 hq) fun r hr => none' (hbefore r hr)
      simp only [act, ownChannel, found, ← entryEq]
      exact answer_good s p _ true
    · have absent := actFindCue_absent (s.setPort p (s.port p).accept) c hk hg fun r hr => none' (hall r hr)
      simp only [act, ownChannel, absent]
      exact answer_ok s p _
  case read =>
    refine (exec_channel (k := .readOutcomes) hs hb hlen).trans (congrArg _ ?_)
    have lost : (d.lost && !(d.ring.drop 6).isEmpty) = if d.ring.length ≤ 6 then false else d.lost := by
      by_cases few : d.ring.length ≤ 6
      · simp [List.drop_of_length_le few, few]
      · simp [few]
    have taken : (d.ring.take 6).length = min 6 d.ring.length := List.length_take
    have left : (d.ring.drop 6).length = d.ring.length - 6 := List.length_drop
    rw [← lost, ← taken, ← left]
    exact answer_ok (s.setSched c { d with ring := d.ring.drop 6, lost := d.lost && !(d.ring.drop 6).isEmpty }) p _

end Sys2Proof.Proofs
end

section
/-!
PROOF. TAKE NOW and ADD CUES (R121 to R126, R131, R143).
-/
namespace Sys2Proof.Machine

/-! ### The action of received fields in range (R122) -/

/-- The action is the one that ten received bytes stand for. -/
def Action.StandsFor (a : Action) (n : Nat → Nat) : Prop :=
  match a with
  | .presenterOn => n 0 = 0
  | .presenterOff => n 0 = 1
  | .selectProfile m => n 0 = 2 ∧ n 1 = m
  | .setZone z w => n 0 = 3 ∧ n 1 = z ∧ w = windowOfRecord (fun k => n (2 + k))
  | .clearZone z => n 0 = 4 ∧ n 1 = z
  | .setDelay m => n 0 = 5 ∧ n 1 = m
  | .mark => n 0 = 6

/-- The ranges of an action's fields, one by one. -/
theorem actionRanges_iff (n : Nat → Nat) : (actionRanges n).all id = true ↔
    let v := windowOfRecord (fun k => n (2 + k))
    n 0 ≤ 6 ∧ ((n 0 = 2 → n 1 ≤ 15) ∧ (n 0 = 3 ∨ n 0 = 4 → n 1 ≤ 5) ∧ (n 0 = 5 → n 1 ≤ 150)) ∧ (n 0 = 3 → v.x ≤ 1919) ∧
      (n 0 = 3 → v.y ≤ 1079) ∧ (n 0 = 3 → 1 ≤ v.w ∧ v.w ≤ 1920) ∧ (n 0 = 3 → 1 ≤ v.h ∧ v.h ≤ 1080) ∧ n 8 ≤ 6 ∧
      (n 9 = 255 ∨ n 0 ≤ 1 ∧ n 9 ≤ 250) := by
  simp only [actionRanges, List.all_cons, List.all_nil, id, Bool.and_eq_true, decide_eq_true_eq, and_true]

/-- Fields in range stand for an action. -/
theorem action_standsFor {n : Nat → Nat} (h : (actionRanges n).all id = true) {q : RawAction} (kind : q.kind = n 0)
    (param : q.param = n 1) (window : q.window = windowOfRecord (fun k => n (2 + k))) :
    ∃ a, q.action = some a ∧ a.StandsFor n := by
  obtain ⟨h0, ⟨profile, booth, delay⟩, hx, hy, hw, hh, -, -⟩ := (actionRanges_iff n).1 h
  rw [← kind] at h0 profile booth delay hx hy hw hh
  rw [← param] at profile booth delay
  rw [← window] at hx hy hw hh
  unfold RawAction.action
  split
  case h_1 hk => exact ⟨_, rfl, kind.symm.trans hk⟩
  case h_2 hk => exact ⟨_, rfl, kind.symm.trans hk⟩
  case h_3 hk =>
    obtain ⟨m, hm⟩ : ∃ m : ProfNo, q.param = m := ⟨⟨q.param, by have := profile hk; omega⟩, rfl⟩
    exact ⟨.selectProfile m, by rw [hm, profOf_val]; rfl, kind.symm.trans hk, param.symm.trans hm⟩
  case h_4 hk =>
    obtain ⟨z, hz⟩ : ∃ z : ZoneNo, q.param = z := ⟨⟨q.param, by have := booth (.inl hk); omega⟩, rfl⟩
    rw [if_pos ⟨hx hk, hy hk, (hw hk).1, (hw hk).2, (hh hk).1, (hh hk).2⟩]
    exact ⟨.setZone z q.window, by rw [hz, boothOf_val]; rfl, kind.symm.trans hk, param.symm.trans hz, window⟩
  case h_5 hk =>
    obtain ⟨z, hz⟩ : ∃ z : ZoneNo, q.param = z := ⟨⟨q.param, by have := booth (.inr hk); omega⟩, rfl⟩
    exact ⟨.clearZone z, by rw [hz, boothOf_val]; rfl, kind.symm.trans hk, param.symm.trans hz⟩
  case h_6 hk => exact ⟨_, if_pos (delay hk), kind.symm.trans hk, param.symm⟩
  case h_7 hk => exact ⟨_, rfl, kind.symm.trans hk⟩
  case h_8 k0 k1 k2 k3 k4 k5 k6 =>
    simp only [imp_false] at k0 k1 k2 k3 k4 k5 k6
    omega

section StandsFor
variable {n : Nat → Nat} {a : Action} (h : a.StandsFor n)
include h

/-- The number of an action's kind is its first byte. -/
theorem Action.StandsFor.kind : a.kind = n 0 := by
  cases a with
  | selectProfile | setZone | clearZone | setDelay => exact h.1.symm
  | _ => exact Eq.symm h

theorem Action.StandsFor.presenterOn (h0 : n 0 = 0) : a = .presenterOn := by
  have hk := h.kind
  cases a <;> simp [Action.kind, h0] at hk ⊢

theorem Action.StandsFor.presenterOff (h0 : n 0 = 1) : a = .presenterOff := by
  have hk := h.kind
  cases a <;> simp [Action.kind, h0] at hk ⊢

theorem Action.StandsFor.selectProfile {m : ProfNo} (h0 : n 0 = 2) (h1 : n 1 = m) : a = .selectProfile m := by
  have hk := h.kind
  cases a <;> simp [Action.kind, h0] at hk ⊢
  exact Fin.ext (h.2.symm.trans h1)

theorem Action.StandsFor.setZone {z : ZoneNo} (h0 : n 0 = 3) (h1 : n 1 = z) :
    a = .setZone z (windowOfRecord (fun k => n (2 + k))) := by
  have hk := h.kind
  cases a <;> simp [Action.kind, h0] at hk ⊢
  exact ⟨Fin.ext (h.2.1.symm.trans h1), h.2.2⟩

theorem Action.StandsFor.clearZone {z : ZoneNo} (h0 : n 0 = 4) (h1 : n 1 = z) : a = .clearZone z := by
  have hk := h.kind
  cases a <;> simp [Action.kind, h0] at hk ⊢
  exact Fin.ext (h.2.symm.trans h1)

theorem Action.StandsFor.setDelay (h0 : n 0 = 5) : a = .setDelay (n 1) := by
  have hk := h.kind
  cases a <;> simp [Action.kind, h0] at hk ⊢
  exact h.2.symm

theorem Action.StandsFor.mark (h0 : n 0 = 6) : a = .mark := by
  have hk := h.kind
  cases a <;> simp [Action.kind, h0] at hk ⊢

end StandsFor

theorem guardOf_eq (n : Nat) : guardOf n = guardList[n]? := by
  by_cases h : n ≤ 6
  · interval_cases n <;> rfl
  · obtain ⟨k, rfl⟩ := Nat.exists_eq_add_of_le' (Nat.lt_of_not_le h)
    rfl

/-! ### TAKE NOW (R143) -/

section TakeNow
variable (s : State) (c : ChanNo) {prm : List Byte}

theorem rawActionAt_window (l : List Byte) : (rawActionAt l 0).window = windowOfRecord (fun k => natAt l (2 + k)) := by
  simp only [rawActionAt, windowAt_eq]

theorem actTakeNow_field {k : Nat} (h : FirstFails (actionRanges (natAt prm)) k) : actTakeNow s c prm = (s, .illegal (k + 1)) := by
  have fault : (rawActionAt prm 0).fault = some (6 + k) := by
    rw [actionFault_eq]
    simp only [Nat.zero_add]
    exact firstFault_numbered h
  simp only [actTakeNow, fault, Nat.add_comm 6 k, Nat.reduceSubDiff]

variable {g : Guard} (h : (actionRanges (natAt prm)).all id = true) (hg : guardList[natAt prm 8]? = some g)
include h

theorem actionFault_none : (rawActionAt prm 0).fault = none := by
  rw [actionFault_eq]
  simp only [Nat.zero_add]
  exact (firstFault_numbered_none 6 _).2 h

include hg

theorem actTakeNow_guard (hs : s.guardHolds c g = false) : actTakeNow s c prm = (s, .refuse .conflict .guardFalse 7) := by
  have guard : (guardOf (rawActionAt prm 0).guard).getD .always = g := by
    rw [guardOf_eq]
    exact congrArg (Option.getD · _) hg
  simp only [actTakeNow, actionFault_none h, guard, hs, Bool.not_false, if_true]

/-- What a TAKE NOW carried out replies with. -/
def Channel.takeNowData (x : Channel) : Action → List Byte
  | .setDelay d => [byteOf d, byteOf x.pool.granted]
  | _ => []

/-- An action in range under a true guard is performed at once. -/
theorem actTakeNow_performs (hs : s.guardHolds c g = true) {a : Action} (ha : (rawActionAt prm 0).action = some a) :
    actTakeNow s c prm =
      let r := s.perform c (fadeOf (natAt prm 9)) a
      if r.2 = true then (r.1, .ok ((r.1.chan c).takeNowData a))
      else (s, .refuse .noTarget .profileUndefined (natAt prm 1)) := by
  have guard : (guardOf (rawActionAt prm 0).guard).getD .always = g := by
    rw [guardOf_eq]
    exact congrArg (Option.getD · _) hg
  have override : (rawActionAt prm 0).fade = natAt prm 9 := rfl
  simp only [actTakeNow, actionFault_none h, guard, hs, ha, override, Option.getD_some, Bool.not_true, Bool.false_eq_true, if_false]
  generalize s.perform c (fadeOf (natAt prm 9)) a = r
  obtain ⟨t, done⟩ := r
  cases done with
  | false => rfl
  | true => cases a <;> rfl

end TakeNow

theorem guardHolds_setPort (s : State) (p : PortNo) (q : Port) (c : ChanNo) (g : Guard) :
    (s.setPort p q).guardHolds c g = s.guardHolds c g := by cases g <;> rfl

/-- When each guard is true (R131). -/
theorem guardHolds_table (s : State) (c : ChanNo) :
    let x := s.chan c
    let usable := x.assign.assigned.any (fun o => (s.booth o).health = .live ∨ (s.booth o).health = .held)
    let seen := x.pres.state = .rising ∨ x.pres.state = .on ∨ x.pres.state = .falling
    s.guardHolds c .always = true ∧ (s.guardHolds c .feedUsable = usable) ∧ (s.guardHolds c .feedNotUsable = !usable) ∧
      (s.guardHolds c .assigned = x.assign.assigned.isSome) ∧ (s.guardHolds c .visible = decide seen) ∧
      (s.guardHolds c .notVisible = !decide seen) ∧ (s.guardHolds c .noConflict = !x.place.conflict) := by
  intro x usable seen
  have feed : s.feedUsable c = usable := by
    have one (k : Health) : k.usable = decide (k = .live ∨ k = .held) := by cases k <;> rfl
    simp only [usable, x, State.feedUsable, State.assignedHealth]
    cases (s.chan c).assign.assigned with
    | none => rfl
    | some o => exact one _
  have visible : (s.chan c).pres.state.visible = decide seen := by
    simp only [seen, x]
    cases (s.chan c).pres.state <;> rfl
  exact ⟨rfl, feed, congrArg (!·) feed, rfl, visible, congrArg (!·) visible, rfl⟩

section ExecTakeNow
variable {s : State} {p : PortNo} {c : ChanNo} {b : Tail} {g : Guard} {a : Action}
  (hs : s.Serves p (.channel c)) (hb : Intact 0x15 b) (hlen : b.params.length = 10)
include hs hb hlen

theorem exec_takeNow_field {k : Nat} (h : FirstFails (actionRanges (natAt b.params)) k) :
    exec (.takeNow p b) s = .next (s.sendIllegal p (k + 1)) := by
  refine (exec_channel (k := .takeNow) hs hb hlen).trans (congrArg _ ?_)
  simp only [act, ownChannel, actTakeNow_field _ _ h]
  exact answer_illegal s p (k + 1)

variable (h : (actionRanges (natAt b.params)).all id = true) (hg : guardList[natAt b.params 8]? = some g)
include h hg

theorem exec_takeNow_guard (hold : s.guardHolds c g = false) :
    exec (.takeNow p b) s = .next (s.sendCheck p .conflict .guardFalse (some 7)) := by
  refine (exec_channel (k := .takeNow) hs hb hlen).trans (congrArg _ ?_)
  simp only [act, ownChannel, actTakeNow_guard _ _ h hg ((guardHolds_setPort ..).trans hold)]
  exact answer_refuse s p _ _ 7

variable (hold : s.guardHolds c g = true) (ha : (rawActionAt b.params 0).action = some a)
include hold ha

theorem exec_takeNow_performs {t : State}
    (ht : (s.setPort p (s.port p).accept).perform c (fadeOf (natAt b.params 9)) a = (t, true)) :
    exec (.takeNow p b) s = .next (t.answer p (.ok ((t.chan c).takeNowData a))) := by
  refine (exec_channel (k := .takeNow) hs hb hlen).trans (congrArg _ ?_)
  simp only [act, ownChannel, actTakeNow_performs _ _ h hg ((guardHolds_setPort ..).trans hold) ha, ht, if_true]

theorem exec_takeNow_fails
    (ht : ((s.setPort p (s.port p).accept).perform c (fadeOf (natAt b.params 9)) a).2 = false) :
    exec (.takeNow p b) s = .next (s.sendCheck p .noTarget .profileUndefined (some (natAt b.params 1))) := by
  refine (exec_channel (k := .takeNow) hs hb hlen).trans (congrArg _ ?_)
  simp only [act, ownChannel, actTakeNow_performs _ _ h hg ((guardHolds_setPort ..).trans hold) ha, ht, Bool.false_eq_true, if_false]
  exact answer_refuse s p _ _ _

end ExecTakeNow

theorem getD_fadeOf (n d : Nat) : (fadeOf n).getD d = if n = 255 then d else n := by
  unfold fadeOf
  split <;> rfl

end Sys2Proof.Machine

namespace Sys2Proof.Proofs
open Sys2Proof.Machine

/-- Settles O48, by the action that the fields stand for. -/
theorem takeNowActsAtOnce : Obligations.TakeNowActsAtOnce := by
  intro s p c b hs hb hlen field v x pl usable seen
  refine ⟨guardHolds_table s c, fun k => exec_takeNow_field hs hb hlen, fun g h hg =>
    ⟨exec_takeNow_guard hs hb hlen h hg, fun hold => ?_⟩⟩
  obtain ⟨a, ha, stands⟩ := action_standsFor h (q := rawActionAt b.params 0) rfl rfl (rawActionAt_window _)
  have performs := @exec_takeNow_performs s p c b g a hs hb hlen h hg hold ha
  refine ⟨fun h0 => ?_, fun z h0 h1 => ?_, fun z h0 h1 => ?_, fun n h0 h1 => ?_, fun h0 => ?_⟩
  · obtain rfl := stands.mark h0
    exact (performs rfl).trans (congrArg _ (answer_ok s p []))
  · obtain rfl := stands.setZone h0 h1
    exact (performs rfl).trans (congrArg _ (answer_ok (s.setPlace c _) p []))
  · obtain rfl := stands.clearZone h0 h1
    exact (performs rfl).trans (congrArg _ (answer_ok (s.setPlace c _) p []))
  · obtain rfl := stands.selectProfile h0 h1
    refine ⟨fun defined => ?_, fun undefined => ?_⟩
    · exact (performs (if_pos defined)).trans (congrArg _ (answer_ok (s.setPlace c _) p []))
    · have fails : ((s.setPort p (s.port p).accept).perform c (fadeOf (natAt b.params 9)) (.selectProfile n)).2 = false :=
        congrArg Prod.snd (if_neg (Bool.eq_false_iff.1 undefined))
      rw [← h1]
      exact exec_takeNow_fails hs hb hlen h hg hold ha fails
  · obtain rfl := stands.setDelay h0
    exact ⟨_, performs rfl, answer_setTarget s p c _ _⟩

/-- Settles O49, by the presenter's state and the tables of R82 and R83. -/
theorem takeNowPresenterActions : Obligations.TakeNowPresenterActions := by
  intro s p c b g hs hb hlen h hg hold x pending n usable rise result
  obtain ⟨a, ha, stands⟩ := action_standsFor h (q := rawActionAt b.params 0) rfl rfl (rawActionAt_window _)
  have performs := @exec_takeNow_performs s p c b g a hs hb hlen h hg hold ha
  have length : (fadeOf (natAt b.params 9)).getD (s.currentProfile c).fade = n := getD_fadeOf _ _
  have moved (q : Presenter) : .next ((((s.setPort p (s.port p).accept).setPres c q).answer p (.ok []))) = result q :=
    congrArg _ (answer_ok (s.setPres c q) p [])
  refine ⟨fun h0 => ?_, fun h0 => ?_⟩
  · obtain rfl := stands.presenterOn h0
    refine (performs rfl).trans ((moved (x.actionOn usable pending ((fadeOf (natAt b.params 9)).getD (s.currentProfile c).fade))).trans (congrArg _ ?_))
    rw [length]
    simp only [Presenter.actionOn]
    cases x.state with
    | off => simp [rise, Presenter.beginRise, riseSteps_eq]
    | falling =>
      simp [rise, Presenter.beginRise, riseSteps_eq, and_comm]
    | waitFeed | rising | on => rfl
  · obtain rfl := stands.presenterOff h0
    refine (performs rfl).trans ((moved (x.actionOff ((fadeOf (natAt b.params 9)).getD (s.currentProfile c).fade))).trans (congrArg _ ?_))
    rw [length]
    simp only [Presenter.actionOff]
    cases x.state with
    | rising | on => simp [Presenter.beginFall, fallSteps_eq]
    | off | waitFeed | falling => rfl

end Sys2Proof.Proofs
end

section
/-!
PROOF. ADD CUES (R121 to R126): its stages on the records of a block.
-/
namespace Sys2Proof.Machine

/-! ### The stages of R125, each at the first record at fault -/

theorem fieldStage_first {r : Rate} {l : List RawCue} {i f : Nat} {w : RawCue} (hw : l[i]? = some w) (hf : w.fault r = some f)
    (before : ∀ (j : Nat) (v : RawCue), j < i → l[j]? = some v → v.fault r = none) (m : Nat) : fieldStage r m l = some (m + i, f) := by
  induction l generalizing i m with
  | nil => cases hw
  | cons v l ih =>
    cases i with
    | zero =>
      obtain rfl : v = w := by simpa using hw
      simp only [fieldStage, hf, Nat.add_zero]
    | succ i =>
      have rest := ih (by simpa using hw) (fun j u hj hu => before (j + 1) u (by omega) (by simpa using hu)) (m + 1)
      simp only [fieldStage, before 0 v (by omega) (by simp), rest, Nat.add_right_comm m 1 i, Nat.add_assoc m i 1]

theorem fieldStage_eq_none {r : Rate} {l : List RawCue} (h : ∀ w ∈ l, w.fault r = none) (m : Nat) : fieldStage r m l = none := by
  induction l generalizing m with
  | nil => rfl
  | cons w l ih =>
    simp only [fieldStage, h w (by simp), ih fun v hv => h v (by simp [hv])]

section Stages
variable (s : State) (c : ChanNo) {l : List Cue}

theorem horizonStage_first {i : Nat} {q : Cue} (hq : l[i]? = some q) (beyond : (s.rate.horizon : Int) < s.acceptOffset c q)
    (before : ∀ (j : Nat) (r : Cue), j < i → l[j]? = some r → s.acceptOffset c r ≤ s.rate.horizon) (m : Nat) :
    s.horizonStage c m l = some (m + i) := by
  induction l generalizing i m with
  | nil => cases hq
  | cons r l ih =>
    cases i with
    | zero =>
      obtain rfl : r = q := by simpa using hq
      simp only [State.horizonStage, beyond, if_true, Nat.add_zero]
    | succ i =>
      have rest := ih (by simpa using hq) (fun j u hj hu => before (j + 1) u (by omega) (by simpa using hu)) (m + 1)
      have near := not_lt.2 (before 0 r (by omega) (by simp))
      simp only [State.horizonStage, near, if_false, rest, Nat.add_right_comm m 1 i, Nat.add_assoc m i 1]

theorem horizonStage_none (near : ∀ q ∈ l, s.acceptOffset c q ≤ s.rate.horizon) (m : Nat) : s.horizonStage c m l = none := by
  induction l generalizing m with
  | nil => rfl
  | cons q l ih =>
    have here := not_lt.2 (near q (by simp))
    simp only [State.horizonStage, here, if_false, ih fun r hr => near r (by simp [hr])]

theorem pastStage_first {i : Nat} {q : Cue} (hq : l[i]? = some q)
    (past : s.acceptOffset c q < -((s.chan c).sched.lateLimit : Int))
    (before : ∀ (j : Nat) (r : Cue), j < i → l[j]? = some r → -((s.chan c).sched.lateLimit : Int) ≤ s.acceptOffset c r) :
    s.pastStage c l = some q.tag := by
  obtain ⟨hi, rfl⟩ := List.getElem?_eq_some_iff.1 hq
  refine congrArg (Option.map Cue.tag) (List.find?_eq_some_iff_getElem.2 ⟨decide_eq_true past, i, hi, rfl, fun j hj => ?_⟩)
  simpa using before j _ hj (List.getElem?_eq_getElem (hj.trans hi))

theorem pastStage_none (fresh : ∀ q ∈ l, -((s.chan c).sched.lateLimit : Int) ≤ s.acceptOffset c q) : s.pastStage c l = none := by
  refine congrArg (Option.map Cue.tag) (List.find?_eq_none.2 fun q hq => ?_)
  simpa using fresh q hq

end Stages

/-- The tag of record i is in use, by the list or by an earlier record (R125). -/
abbrev TagUsed (used : List Nat) (l : List Cue) (i : Nat) (q : Cue) : Prop :=
  q.tag ∈ used ∨ q.tag ∈ (l.take i).map (·.tag)

theorem tagUsed_cons (used : List Nat) (r : Cue) (l : List Cue) (i : Nat) (q : Cue) :
    TagUsed used (r :: l) (i + 1) q ↔ TagUsed (r.tag :: used) l i q := by
  simp only [TagUsed, List.take_succ_cons, List.map_cons, List.mem_cons]
  tauto

theorem tagStage_first {used : List Nat} {l : List Cue} {i : Nat} {q : Cue} (hq : l[i]? = some q) (hu : TagUsed used l i q)
    (before : ∀ (j : Nat) (r : Cue), j < i → l[j]? = some r → ¬TagUsed used l j r) : tagStage used l = some q.tag := by
  induction l generalizing used i with
  | nil => cases hq
  | cons r l ih =>
    cases i with
    | zero =>
      obtain rfl : r = q := by simpa using hq
      have known : r.tag ∈ used := by simpa [TagUsed] using hu
      simp only [tagStage, List.contains_iff_mem.2 known, if_true]
    | succ i =>
      have fresh : r.tag ∉ used := by simpa [TagUsed] using before 0 r (by omega) (by simp)
      have rest := ih (used := r.tag :: used) (by simpa using hq) ((tagUsed_cons ..).1 hu)
        fun j u hj hu' => fun k => before (j + 1) u (by omega) (by simpa using hu') ((tagUsed_cons ..).2 k)
      simp only [tagStage, List.contains_iff_mem, fresh, if_false, rest]

theorem tagStage_eq_none {used : List Nat} {l : List Cue} (fresh : ∀ (i : Nat) (q : Cue), l[i]? = some q → ¬TagUsed used l i q) :
    tagStage used l = none := by
  induction l generalizing used with
  | nil => rfl
  | cons r l ih =>
    have here : r.tag ∉ used := by simpa [TagUsed] using fresh 0 r (by simp)
    have rest := ih (used := r.tag :: used) fun i q hq k => fresh (i + 1) q (by simpa using hq) ((tagUsed_cons ..).2 k)
    simp only [tagStage, List.contains_iff_mem, here, if_false, rest]

/-! ### The records of a block -/

/-- The records of an ADD CUES block, as received. -/
def blockRaws (prm : List Byte) : List RawCue := (List.range (natAt prm 0)).map (fun k => rawCueAt prm (1 + 16 * k))

theorem blockRaws_get {prm : List Byte} {i : Nat} (hi : i < natAt prm 0) :
    (blockRaws prm)[i]? = some (rawCueAt prm (1 + 16 * i)) := by
  simp [blockRaws, hi]

theorem blockRaws_of_get {prm : List Byte} {i : Nat} {w : RawCue} (h : (blockRaws prm)[i]? = some w) :
    i < natAt prm 0 ∧ w = rawCueAt prm (1 + 16 * i) := by
  obtain ⟨hi, rfl⟩ := List.getElem?_eq_some_iff.1 h
  simp only [blockRaws, List.length_map, List.length_range] at hi
  exact ⟨hi, by simp [blockRaws]⟩

theorem cueFault_first {r : Rate} {prm : List Byte} {i k : Nat} (h : FirstFails (cueRanges r (fun k => natAt prm (1 + 16 * i + k))) k) :
    (rawCueAt prm (1 + 16 * i)).fault r = some (k + 1) := by
  rw [cueFault_eq, firstFault_numbered h, Nat.add_comm]

theorem cueFault_none {r : Rate} {prm : List Byte} {i : Nat}
    (h : (cueRanges r (fun k => natAt prm (1 + 16 * i + k))).all id = true) : (rawCueAt prm (1 + 16 * i)).fault r = none := by
  rw [cueFault_eq]
  exact (firstFault_numbered_none 1 _).2 h

/-- The cue of a record whose fields are in range (R121, R122). -/
theorem cue_of_ranges {r : Rate} {prm : List Byte} {i : Nat} {n : Nat → Nat} (hn : ∀ k, natAt prm (i + k) = n k)
    (h : (cueRanges r n).all id = true) :
    let q := (rawCueAt prm i).cue r
    q.tag = word n 0 ∧ q.due = ((n 2 * 60 + n 3) * 60 + n 4) * r.fps + n 5 ∧ some q.guard = guardList[n 14]? ∧
      q.fade = (if n 15 = 255 then none else some (n 15)) ∧ q.action.StandsFor (fun k => n (6 + k)) := by
  obtain rfl : (fun k => natAt prm (i + k)) = n := funext hn
  intro q
  simp only [cueRanges, List.all_append, Bool.and_eq_true] at h
  obtain ⟨a, ha, stands⟩ := action_standsFor h.2 (q := rawActionAt prm (i + 6)) rfl rfl (by simp only [rawActionAt, windowAt_eq, Nat.add_assoc])
  obtain ⟨-, -, -, -, -, -, hguard, -⟩ := (actionRanges_iff _).1 h.2
  refine ⟨nat16At_eq_word prm i 0, rfl, ?_, rfl, ?_⟩
  · have known : natAt prm (i + 14) < guardList.length := Nat.lt_succ_of_le hguard
    have guard : q.guard = (guardOf (natAt prm (i + 14))).getD .always := rfl
    rw [guard, guardOf_eq, List.getElem?_eq_getElem known]
    rfl
  · have action : q.action = a := congrArg (Option.getD · _) ha
    rw [action]
    exact stands

/-! ### ADD CUES by its stages (R125, R126) -/

section AddCues
variable (s : State) (c : ChanNo) {prm : List Byte} 

theorem actAddCues_count (h : natAt prm 0 = 0 ∨ 4 < natAt prm 0) : actAddCues s c prm = (s, .illegal 0) := if_pos h

variable (h : ¬(natAt prm 0 = 0 ∨ 4 < natAt prm 0))
include h

theorem actAddCues_field {n f : Nat} (hf : fieldStage s.rate 1 (blockRaws prm) = some (n, f)) :
    actAddCues s c prm = (s, .illegal (n * 256 + f)) := by
  rw [actAddCues]
  dsimp only
  rw [if_neg h]
  simp only [blockRaws] at hf
  simp only [hf]

variable (hf : fieldStage s.rate 1 (blockRaws prm) = none)
include hf

theorem actAddCues_refuses {a : Answer} (ha : s.cueChecks c ((blockRaws prm).map (RawCue.cue s.rate)) = some a) :
    actAddCues s c prm = (s, a) := by
  rw [actAddCues]
  dsimp only
  rw [if_neg h]
  simp only [blockRaws] at hf ha
  simp only [hf, ha]

theorem actAddCues_inserts (ha : s.cueChecks c ((blockRaws prm).map (RawCue.cue s.rate)) = none) :
    let t := s.insertCues c ((blockRaws prm).map (RawCue.cue s.rate))
    actAddCues s c prm = (t, .ok [t.cueCount c]) := by
  intro t
  rw [actAddCues]
  dsimp only
  rw [if_neg h]
  simp only [blockRaws] at hf ha
  simp only [hf, ha]
  rfl

end AddCues

section CueChecks
variable {s : State} {c : ChanNo} {l : List Cue}

theorem cueChecks_beyond {n : Nat} (h : s.horizonStage c 1 l = some n) :
    s.cueChecks c l = some (.refuse .illegal .beyondHorizon (n * 256 + 2)) := by
  simp only [State.cueChecks, h]

theorem cueChecks_duplicate {t : Nat} (h : s.horizonStage c 1 l = none)
    (ht : tagStage ((s.chan c).sched.cues.map (·.tag)) l = some t) :
    s.cueChecks c l = some (.refuse .conflict .duplicateTag t) := by
  simp only [State.cueChecks, h, ht]

theorem cueChecks_past {t : Nat} (h : s.horizonStage c 1 l = none)
    (ht : tagStage ((s.chan c).sched.cues.map (·.tag)) l = none) (hp : s.pastStage c l = some t) :
    s.cueChecks c l = some (.refuse .conflict .alreadyPast t) := by
  simp only [State.cueChecks, h, ht, hp]

theorem cueChecks_room (h : s.horizonStage c 1 l = none)
    (ht : tagStage ((s.chan c).sched.cues.map (·.tag)) l = none) (hp : s.pastStage c l = none) :
    s.cueChecks c l = if 32 < (s.chan c).sched.cues.length + l.length then
      some (.refuse .resource .listFull (32 - (s.chan c).sched.cues.length)) else none := by
  simp only [State.cueChecks, h, ht, hp]

end CueChecks

section ExecAddCues
variable {s : State} {p : PortNo} {c : ChanNo} {b : Tail} (hs : s.Serves p (.channel c)) (hb : Intact 0x10 b)
include hs hb

theorem exec_addCues_count (h : natAt b.params 0 = 0 ∨ 4 < natAt b.params 0) (h1 : 1 ≤ b.params.length) (h2 : b.params.length ≤ 69) :
    exec (.addCues p b) s = .next (s.sendIllegal p 0) := by
  have form (n : Nat) (hf : formLength .addCues (.channel c) b.params = some n) : n = b.params.length + 1 := by
    rw [formLength_addCues, if_neg (by omega)] at hf
    cases hf
  have run := blockCompletes_command (k := .addCues) hs (by simp) hb h1 h2 rfl form
  refine (exec_instr .addCues p b s).trans (congrArg _ (run.trans ?_))
  simp only [act, ownChannel, actAddCues_count _ c h]
  exact answer_illegal s p 0

theorem exec_addCues (h1 : 1 ≤ natAt b.params 0) (h2 : natAt b.params 0 ≤ 4) (hlen : b.params.length = 1 + 16 * natAt b.params 0) :
    exec (.addCues p b) s = .next ((actAddCues (s.setPort p (s.port p).accept) c b.params).1.answer p
      (actAddCues (s.setPort p (s.port p).accept) c b.params).2) := by
  refine exec_channel (k := .addCues) hs hb hlen rfl (by omega) (by omega) ?_
  rw [formLength_addCues, if_pos ⟨h1, h2⟩]
  interval_cases natAt b.params 0 <;> rfl

end ExecAddCues

end Sys2Proof.Machine

namespace Sys2Proof.Proofs
open Sys2Proof.Machine

/-- Settles O45, stage by stage on the block's records. -/
theorem addCuesStagesInOrder : Obligations.AddCuesStagesInOrder := by
  intro s p c b hs hb n field cues d ahead inUse
  refine ⟨exec_addCues_count hs hb, fun h1 h2 hlen => ?_⟩
  have run := exec_addCues hs hb h1 h2 hlen
  have count : ¬(natAt b.params 0 = 0 ∨ 4 < natAt b.params 0) := by omega
  have records : (blockRaws b.params).map (RawCue.cue s.rate) = cues := List.map_map
  have length : cues.length = n := by simp [cues]
  have cue {i : Nat} {q : Cue} (hq : cues[i]? = some q) : i < n ∧ q = (rawCueAt b.params (1 + 16 * i)).cue s.rate := by
    rw [← records, List.getElem?_map, Option.map_eq_some_iff] at hq
    obtain ⟨w, hw, rfl⟩ := hq
    obtain ⟨hi, rfl⟩ := blockRaws_of_get hw
    exact ⟨hi, rfl⟩
  refine ⟨fun i k hi fails before => ?_, fun ranges => ?_⟩
  · have stage := fieldStage_first (blockRaws_get hi) (cueFault_first fails)
      (fun j v hj hv => by
        obtain ⟨-, rfl⟩ := blockRaws_of_get hv
        exact cueFault_none (before j hj)) 1
    rw [actAddCues_field (s.setPort p (s.port p).accept) c count stage, answer_illegal, Nat.add_comm 1 i] at run
    exact run
  have fields := fieldStage_eq_none (r := s.rate) (l := blockRaws b.params)
    (fun w hw => by
      obtain ⟨i, hi⟩ := List.mem_iff_getElem?.1 hw
      obtain ⟨hn, rfl⟩ := blockRaws_of_get hi
      exact cueFault_none (ranges i hn)) 1
  have refuses {a : Answer} (ha : (s.setPort p (s.port p).accept).cueChecks c cues = some a) :
      exec (.addCues p b) s = .next ((s.setPort p (s.port p).accept).answer p a) := by
    rw [← records] at ha
    rw [actAddCues_refuses (s.setPort p (s.port p).accept) c count fields ha] at run
    exact run
  refine ⟨fun i q hq => ?_, fun i q hq beyond before => ?_, fun near => ?_⟩
  · intro v
    obtain ⟨hi, rfl⟩ := cue hq
    obtain ⟨tag, due, guard, fade, stands⟩ := cue_of_ranges (n := field i) (fun k => rfl) (ranges i hi)
    have window : windowOfRecord (fun k => field i (6 + (2 + k))) = v := by
      simp only [v, ← Nat.add_assoc, Nat.reduceAdd]
    refine ⟨tag, due, guard, fade, ?_⟩
    revert stands
    generalize ((rawCueAt b.params (1 + 16 * i)).cue s.rate).action = a
    intro stands
    cases a with
    | setZone z w => exact ⟨stands.1, stands.2.1, stands.2.2.trans window⟩
    | _ => exact stands
  · have stage := horizonStage_first (s.setPort p (s.port p).accept) c hq beyond before 1
    rw [refuses (cueChecks_beyond stage), answer_refuse, Nat.add_comm 1 i]
  have horizon := horizonStage_none (s.setPort p (s.port p).accept) c near 1
  refine ⟨fun i q hq used before => ?_, fun fresh => ?_⟩
  · have stage := tagStage_first hq used before
    rw [refuses (cueChecks_duplicate horizon stage), answer_refuse]
  have tags := tagStage_eq_none fresh
  refine ⟨fun i q hq past before => ?_, fun notPast => ?_⟩
  · have stage := pastStage_first (s.setPort p (s.port p).accept) c hq past before
    rw [refuses (cueChecks_past horizon tags stage), answer_refuse]
  have passed := pastStage_none (s.setPort p (s.port p).accept) c notPast
  have room := cueChecks_room horizon tags passed
  rw [length] at room
  refine ⟨fun full => ?_, fun fits => ?_⟩
  · rw [refuses (room.trans (if_pos full)), answer_refuse]
    rfl
  · have passes := room.trans (if_neg (not_lt.2 fits))
    have received : (blockRaws b.params).map (RawCue.cue (s.setPort p (s.port p).accept).rate) = cues := records
    rw [← received] at passes
    rw [actAddCues_inserts (s.setPort p (s.port p).accept) c count fields passes, received] at run
    have keys : (fun (l : List Cue) q => insertCue (s.offset c) q l) =
        fun l q => l.takeWhile (fun h => s.offset c h ≤ s.offset c q) ++ q :: l.dropWhile (fun h => s.offset c h ≤ s.offset c q) :=
      funext fun l => funext fun q => insertCue_eq _ q l
    have total : (cues.foldl (fun l q => insertCue (s.offset c) q l) d.cues).length = d.cues.length + n := by
      rw [(perm_insertCues _ cues d.cues).length_eq, List.length_append, length, Nat.add_comm]
    rw [← total, ← keys]
    have shown : ((s.setPort p (s.port p).accept).insertCues c cues).cueCount c =
        byteOf (cues.foldl (fun l q => insertCue (s.offset c) q l) d.cues).length := by
      rw [State.cueCount, State.insertCues, State.setCues, State.chan_setSched_self]
      rfl
    rw [shown] at run
    exact run.trans (congrArg _ (answer_ok (s.setSched c { d with cues := cues.foldl (fun l q => insertCue (s.offset c) q l) d.cues }) p _))

end Sys2Proof.Proofs
end

section
/-!
PROOF. Slot results and landing (R22, R29), and the samples the compositor makes (chapter 3).
-/
namespace Sys2Proof.Machine

/-! ### The samples of a plane -/

/-- Well-formed cells are in canonical form. -/
theorem cellsCanon_of_ok {fill size lo : Nat} {l : List (Nat × Nat)} (h : cellsOk fill size lo l = true) :
    cellsCanon fill lo l = true := by
  induction l generalizing lo with
  | nil => rfl
  | cons x t ih =>
    obtain ⟨a, v⟩ := x
    simp only [cellsOk, Bool.and_eq_true, decide_eq_true_eq] at h
    obtain ⟨⟨low, -, -, other⟩, rest⟩ := h
    simp only [cellsCanon, Bool.and_eq_true, decide_eq_true_eq]
    exact ⟨⟨low, other⟩, ih rest⟩

theorem planeCanon_of_ok {size : Nat} {p : Plane} (h : p.ok size = true) : planeCanon p := by
  simp only [Plane.ok, Bool.and_eq_true] at h
  exact cellsCanon_of_ok h.2

theorem Picture.ok_iff {w h : Nat} {p : Picture} :
    p.ok w h = true ↔ p.y.ok (w * h) = true ∧ p.cb.ok (w / 2 * h) = true ∧ p.cr.ok (w / 2 * h) = true := by
  simp only [Picture.ok, Bool.and_eq_true, and_assoc]

/-- The samples from an address on: the listed ones, and `fill` at each other address. -/
theorem cells_sum {fill size lo : Nat} {l : List (Nat × Nat)} (h : cellsOk fill size lo l = true) (hlo : lo ≤ size) :
    lo + l.length ≤ size ∧
      ∑ a ∈ Finset.Ico lo size, cellsRead fill l a = fill * (size - lo - l.length) + (l.map (·.2)).sum := by
  induction l generalizing lo with
  | nil => exact ⟨hlo, by simp [cellsRead, Nat.mul_comm]⟩
  | cons x t ih =>
    obtain ⟨b, w⟩ := x
    have canon := cellsCanon_of_ok h
    simp only [cellsOk, Bool.and_eq_true, decide_eq_true_eq] at h
    obtain ⟨⟨low, high, -, -⟩, rest⟩ := h
    obtain ⟨room, tail⟩ := ih rest high
    have before : ∑ a ∈ Finset.Ico lo b, cellsRead fill ((b, w) :: t) a = (b - lo) * fill := by
      rw [Finset.sum_congr rfl (g := fun _ => fill), Finset.sum_const, Nat.card_Ico, smul_eq_mul]
      intro a ha
      have ab := (Finset.mem_Ico.1 ha).2
      rw [cellsRead, if_neg ab.ne]
      exact cellsRead_below (cellsCanon_of_ok rest) (by omega)
    have after : ∑ a ∈ Finset.Ico (b + 1) size, cellsRead fill ((b, w) :: t) a = ∑ a ∈ Finset.Ico (b + 1) size, cellsRead fill t a := by
      refine Finset.sum_congr rfl fun a ha => if_neg ?_
      have := (Finset.mem_Ico.1 ha).1
      omega
    have here : cellsRead fill ((b, w) :: t) b = w := if_pos rfl
    refine ⟨by simp only [List.length_cons]; omega, ?_⟩
    rw [← Finset.sum_Ico_consecutive _ low high.le, before, Finset.sum_eq_sum_Ico_succ_bot high, here, after, tail]
    have split : size - lo - (t.length + 1) = (b - lo) + (size - (b + 1) - t.length) := by omega
    simp only [List.map_cons, List.sum_cons, List.length_cons, split]
    ring

theorem planeSum_eq {n : Nat} {p : Plane} (h : p.ok n = true) : planeSum n p = ∑ a ∈ Finset.range n, planeGet p a := by
  simp only [Plane.ok, Bool.and_eq_true] at h
  have sum := (cells_sum h.2 (Nat.zero_le n)).2
  rw [← Finset.range_eq_Ico, Nat.sub_zero] at sum
  exact sum.symm

/-- Some sample from an address on is above a bound: a listed one, or `fill` where an address is not listed. -/
theorem cells_above {fill size lo : Nat} {l : List (Nat × Nat)} (h : cellsOk fill size lo l = true) (hlo : lo ≤ size) (bound : Nat) :
    (lo + l.length < size ∧ bound < fill ∨ ∃ x ∈ l, bound < x.2) ↔ ∃ a, lo ≤ a ∧ a < size ∧ bound < cellsRead fill l a := by
  induction l generalizing lo with
  | nil =>
    simp only [cellsRead, List.length_nil, Nat.add_zero, List.not_mem_nil, false_and, exists_false, or_false]
    exact ⟨fun ⟨room, above⟩ => ⟨lo, le_rfl, room, above⟩, fun ⟨a, low, high, above⟩ => ⟨low.trans_lt high, above⟩⟩
  | cons x t ih =>
    obtain ⟨b, w⟩ := x
    simp only [cellsOk, Bool.and_eq_true, decide_eq_true_eq] at h
    obtain ⟨⟨low, high, -, -⟩, rest⟩ := h
    have room := (cells_sum rest high).1
    have tail := ih rest high
    have unlisted {a : Nat} (ha : a < b) : cellsRead fill ((b, w) :: t) a = fill :=
      (if_neg ha.ne).trans (cellsRead_below (cellsCanon_of_ok rest) (by omega))
    have later {a : Nat} (ha : b < a) : cellsRead fill ((b, w) :: t) a = cellsRead fill t a := if_neg ha.ne'
    have here : cellsRead fill ((b, w) :: t) b = w := if_pos rfl
    simp only [List.length_cons, List.mem_cons, exists_eq_or_imp]
    constructor
    · rintro (⟨space, above⟩ | above | above)
      · by_cases gap : lo < b
        · exact ⟨lo, le_rfl, by omega, by rwa [unlisted gap]⟩
        · obtain ⟨a, ha, hs, above⟩ := tail.1 (.inl ⟨by omega, above⟩)
          exact ⟨a, by omega, hs, by rwa [later (by omega)]⟩
      · exact ⟨b, low, high, by rwa [here]⟩
      · obtain ⟨a, ha, hs, above⟩ := tail.1 (.inr above)
        exact ⟨a, by omega, hs, by rwa [later (by omega)]⟩
    · rintro ⟨a, ha, hs, above⟩
      rcases Nat.lt_trichotomy a b with lt | rfl | gt
      · rw [unlisted lt] at above
        exact .inl ⟨by omega, above⟩
      · rw [here] at above
        exact .inr (.inl above)
      · rw [later gt] at above
        rcases tail.2 ⟨a, gt, hs, above⟩ with ⟨space, above⟩ | above
        · exact .inl ⟨by omega, above⟩
        · exact .inr (.inr above)

theorem planeAbove_iff {n bound : Nat} {p : Plane} (h : p.ok n = true) :
    planeAbove n bound p = true ↔ ∃ a, a < n ∧ bound < planeGet p a := by
  simp only [Plane.ok, Bool.and_eq_true] at h
  have above := cells_above h.2 (Nat.zero_le n) bound
  simp only [Nat.zero_add, Nat.zero_le, true_and] at above
  simp only [planeAbove, Bool.or_eq_true, Bool.and_eq_true, decide_eq_true_eq, List.any_eq_true]
  exact above

/-- Every sample of a plane within bounds lies within them. -/
theorem planeGet_within {lo hi : Nat} {p : Plane} (h : planeWithin lo hi p = true) (a : Nat) :
    lo ≤ planeGet p a ∧ planeGet p a ≤ hi := by
  obtain ⟨fill, cells⟩ := p
  simp only [planeWithin, Bool.and_eq_true, decide_eq_true_eq, List.all_eq_true] at h
  obtain ⟨fills, listed⟩ := h
  unfold planeGet
  induction cells with
  | nil => exact fills
  | cons x t ih =>
    rw [cellsRead]
    split
    · exact listed x (by simp)
    · exact ih fun y hy => listed y (by simp [hy])

/-! ### A slot's result and landing (R22, R29) -/

theorem slotResult_eq (on : Bool) (w : Width) (rx : Option SlotRx) : slotResult on w rx =
    if on = false then .masked
    else if rx.any (fun x => x.marker = .noPicture) then .empty
    else if rx.any (fun x => x.marker = .picture ∧ ¬(w = .w8 ∧ rawAbove255 x.raw = true) ∧ x.check = rawSum x.raw) then .good
    else .damaged := by
  cases on with
  | false => rfl
  | true =>
    cases rx with
    | none => rfl
    | some x =>
      obtain ⟨marker, raw, check⟩ := x
      cases marker with
      | noPicture => rfl
      | other => rfl
      | picture =>
        by_cases wide : w = .w8 ∧ rawAbove255 raw = true
        · simp [slotResult, wide]
        · by_cases sum : check = rawSum raw
          · simp [slotResult, sum, wide]
          · simp [slotResult, sum]

theorem rawSum_eq {p : Picture} (h : p.ok 960 540 = true) :
    rawSum p = ((∑ a ∈ Finset.range (960 * 540), planeGet p.y a) +
      (∑ a ∈ Finset.range (480 * 540), (planeGet p.cb a + planeGet p.cr a))) % 65536 := by
  obtain ⟨hy, hb, hr⟩ := Picture.ok_iff.1 h
  have y : planeSum boothLuma p.y = ∑ a ∈ Finset.range (960 * 540), planeGet p.y a := planeSum_eq hy
  have cb : planeSum boothChroma p.cb = ∑ a ∈ Finset.range (480 * 540), planeGet p.cb a := planeSum_eq hb
  have cr : planeSum boothChroma p.cr = ∑ a ∈ Finset.range (480 * 540), planeGet p.cr a := planeSum_eq hr
  rw [rawSum, y, cb, cr, Finset.sum_add_distrib, Nat.add_assoc]

theorem rawAbove255_iff {p : Picture} (h : p.ok 960 540 = true) :
    rawAbove255 p = true ↔ ∃ a, a < 960 * 540 ∧ 255 < planeGet p.y a ∨
      a < 480 * 540 ∧ (255 < planeGet p.cb a ∨ 255 < planeGet p.cr a) := by
  obtain ⟨hy, hb, hr⟩ := Picture.ok_iff.1 h
  have y : planeAbove boothLuma 255 p.y = true ↔ ∃ a, a < 960 * 540 ∧ 255 < planeGet p.y a := planeAbove_iff hy
  have cb : planeAbove boothChroma 255 p.cb = true ↔ ∃ a, a < 480 * 540 ∧ 255 < planeGet p.cb a := planeAbove_iff hb
  have cr : planeAbove boothChroma 255 p.cr = true ↔ ∃ a, a < 480 * 540 ∧ 255 < planeGet p.cr a := planeAbove_iff hr
  simp only [rawAbove255, Bool.or_eq_true, y, cb, cr, and_or_left, exists_or, or_assoc]

theorem landSample_eq (w : Width) (high v : Nat) :
    landSample w high v = min high (max 64 (if w = .w8 then 4 * v else v)) := by
  rw [Nat.min_comm, Nat.max_comm]
  cases w with
  | w8 => rw [if_pos rfl, Nat.mul_comm]; rfl
  | w10 => rfl

end Sys2Proof.Machine

namespace Sys2Proof.Proofs
open Sys2Proof.Machine

/-- Settles O22, plane by plane. -/
theorem slotTestsAndLanding : Obligations.SlotTestsAndLanding := by
  refine ⟨slotResult_eq, fun p hp => ⟨rawSum_eq hp, rawAbove255_iff hp⟩, fun w p a hp => ?_⟩
  intro widen
  obtain ⟨hy, hb, hr⟩ := Picture.ok_iff.1 hp
  have landed {n high : Nat} {q : Plane} (hq : q.ok n = true) :
      planeGet (planeMap (landSample w high) q) a = min high (max 64 (widen (planeGet q a))) :=
    ((planeGet_planeMap (planeCanon_of_ok hq) _).2 a).trans (landSample_eq ..)
  exact ⟨landed hy, landed hb, landed hr, pictureLegal_land w p⟩

end Sys2Proof.Proofs
end

section
/-!
PROOF. The samples the compositor makes and where it makes them (chapter 3).
-/
namespace Sys2Proof.Machine

/-! ### Levels and weights -/

/-- A mix lies between bounds of its two samples (00_scope.md, Levels and weights). -/
theorem mix_mem {lo hi a b w : Nat} (ha : lo ≤ a ∧ a ≤ hi) (hb : lo ≤ b ∧ b ≤ hi) (hw : w ≤ 256) :
    lo ≤ mix a b w ∧ mix a b w ≤ hi := by
  have whole (n : Nat) : n * (256 - w) + n * w = n * 256 := by rw [← Nat.mul_add, Nat.sub_add_cancel hw]
  have low := Nat.add_le_add (Nat.mul_le_mul_right (256 - w) ha.1) (Nat.mul_le_mul_right w hb.1)
  have high := Nat.add_le_add (Nat.mul_le_mul_right (256 - w) ha.2) (Nat.mul_le_mul_right w hb.2)
  rw [whole] at low high
  unfold mix
  omega

theorem mix_zero (a b : Nat) : mix a b 0 = a := by
  unfold mix
  omega

theorem mix_whole (a b : Nat) : mix a b 256 = b := by
  unfold mix
  omega

/-- A rounded share of a level is at most the level. -/
theorem share_le {a b : Nat} (ha : a ≤ 256) (hb : b ≤ 256) : (a * b + 128) / 256 ≤ 256 := by
  have := Nat.mul_le_mul ha hb
  omega

theorem weight_le {alpha g edge : Nat} (ha : alpha ≤ 256) (hg : g ≤ 256) (he : edge ≤ 256) : weight alpha g edge ≤ 256 :=
  share_le (share_le ha hg) he

theorem weight_eq_zero {alpha g edge : Nat} (h : alpha = 0 ∨ g = 0 ∨ edge = 0) : weight alpha g edge = 0 := by
  unfold weight
  rcases h with rfl | rfl | rfl <;> simp

/-! ### Key and edge (R45, R47) -/

theorem opacity_between {r : BoothRecord} {cb cr : Nat} (h : r.rIn < distance cb r.cb0 + distance cr r.cr0)
    (k : distance cb r.cb0 + distance cr r.cr0 < r.rOut) :
    opacity r cb cr =
      ((distance cb r.cb0 + distance cr r.cr0 - r.rIn) * 256 + (r.rOut - r.rIn) / 2) / (r.rOut - r.rIn) :=
  (if_neg (not_le.2 h)).trans (if_pos k)

theorem opacity_le (r : BoothRecord) (cb cr : Nat) : opacity r cb cr ≤ 256 := by
  unfold opacity
  dsimp only
  generalize distance cb r.cb0 + distance cr r.cr0 = d
  split_ifs with inside near
  · omega
  · exact Nat.le_of_lt_succ (Nat.div_lt_of_lt_mul (by simp only [Config.whole]; omega))
  · exact le_rfl

theorem edgeFactor_whole {bw bh e u v : Nat} (h : e ≤ min (min u v) (min (bw - 1 - u) (bh - 1 - v))) :
    edgeFactor bw bh e u v = 256 := if_pos h

theorem edgeFactor_near {bw bh e u v : Nat} (h : min (min u v) (min (bw - 1 - u) (bh - 1 - v)) < e) :
    edgeFactor bw bh e u v = (512 * (min (min u v) (min (bw - 1 - u) (bh - 1 - v)) + 1) + e + 1) / (2 * (e + 1)) :=
  if_neg (not_le.2 h)

theorem edgeFactor_le (bw bh e u v : Nat) : edgeFactor bw bh e u v ≤ 256 := by
  by_cases h : e ≤ min (min u v) (min (bw - 1 - u) (bh - 1 - v))
  · exact (edgeFactor_whole h).le
  · rw [edgeFactor_near (not_le.1 h)]
    generalize min (min u v) (min (bw - 1 - u) (bh - 1 - v)) = k at h
    exact Nat.le_of_lt_succ (Nat.div_lt_of_lt_mul (by omega))

/-! ### The mean of a block (R43, R44) -/

theorem blockSum_eq (cols rows : Nat) (val : Nat → Nat → Nat) :
    blockSum cols rows val = ∑ j ∈ Finset.range rows, ∑ i ∈ Finset.range cols, val i j := rfl

theorem meanOf_mem {lo hi f : Nat} {val : Nat → Nat → Nat} (hf : 1 ≤ f) (h : ∀ i j, lo ≤ val i j ∧ val i j ≤ hi) :
    lo ≤ meanOf f (blockSum f f val) ∧ meanOf f (blockSum f f val) ≤ hi := by
  have area : 0 < f * f := Nat.mul_pos hf hf
  have low : f * (f * lo) ≤ blockSum f f val := by
    rw [blockSum_eq]
    calc f * (f * lo) = ∑ j ∈ Finset.range f, ∑ i ∈ Finset.range f, lo := by simp
      _ ≤ _ := Finset.sum_le_sum fun j _ => Finset.sum_le_sum fun i _ => (h i j).1
  have high : blockSum f f val ≤ f * (f * hi) := by
    rw [blockSum_eq]
    calc _ ≤ ∑ j ∈ Finset.range f, ∑ i ∈ Finset.range f, hi :=
          Finset.sum_le_sum fun j _ => Finset.sum_le_sum fun i _ => (h i j).2
      _ = f * (f * hi) := by simp
  rw [← Nat.mul_assoc] at low high
  unfold meanOf
  refine ⟨(Nat.le_div_iff_mul_le area).2 ?_, Nat.le_of_lt_succ (Nat.div_lt_of_lt_mul ?_)⟩
  · rw [Nat.mul_comm]
    exact low.trans (Nat.le_add_right _ _)
  · rw [Nat.mul_succ]
    omega

/-! ### One composite, and the blend of two (R49 to R52) -/

theorem clamp_eq (high v : Nat) : clamp high v = min high (max 64 v) := by
  rw [Nat.max_comm, Nat.min_comm]
  rfl

theorem clamp_mem {high : Nat} (h : 64 ≤ high) (v : Nat) : 64 ≤ clamp high v ∧ clamp high v ≤ high := by
  rw [clamp_eq]
  omega

theorem pixelWeight_le {k : FrameInput} (h : k.g ≤ 256) (r : BoothRecord) (pic : Picture) (u v : Nat) :
    pixelWeight k r pic u v ≤ 256 := weight_le (opacity_le ..) h (edgeFactor_le ..)

section Blended
variable {k : FrameInput} {p : Nat} {one : BoothInput → Nat}

theorem blended_two {b : BoothInput} {h : Nat} (hi : k.incoming = some (b, h)) :
    blended k p one = mix (blended { k with incoming := none } p one) (one b) h := by
  simp only [blended, hi]

theorem blended_one {b : BoothInput} (hi : k.incoming = none) (ha : k.assigned = some b) : blended k p one = one b := by
  simp only [blended, hi, ha]

theorem blended_none (hi : k.incoming = none) (ha : k.assigned = none) : blended k p one = p := by
  simp only [blended, hi, ha]

/-- A blend lies within bounds that the programme sample and each booth's composite meet. -/
theorem blended_mem {lo hi : Nat} (hp : lo ≤ p ∧ p ≤ hi) (first : ∀ b, k.assigned = some b → lo ≤ one b ∧ one b ≤ hi)
    (second : ∀ b h, k.incoming = some (b, h) → (lo ≤ one b ∧ one b ≤ hi) ∧ h ≤ 256) :
    lo ≤ blended k p one ∧ blended k p one ≤ hi := by
  have single {k' : FrameInput} (same : k'.assigned = k.assigned) (alone : k'.incoming = none) :
      lo ≤ blended k' p one ∧ blended k' p one ≤ hi := by
    cases ha : k'.assigned with
    | none => rwa [blended_none alone ha]
    | some b =>
      rw [blended_one alone ha]
      exact first b (same ▸ ha)
  cases hi' : k.incoming with
  | none => exact single rfl hi'
  | some i =>
    obtain ⟨b, h⟩ := i
    rw [blended_two hi']
    exact mix_mem (single rfl rfl) (second b h hi').1 (second b h hi').2

end Blended

section Composite
variable {k : FrameInput} {b : BoothInput} {p u v : Nat}

theorem compositeLuma_none (h : b.picture = none) : compositeLuma k b p u v = p := by
  simp only [compositeLuma, h]

theorem compositeChroma_none (h : b.picture = none) (comp : Picture → Plane) : compositeChroma k b comp p u v = p := by
  simp only [compositeChroma, h]

theorem compositeLuma_some {pic : Picture} (h : b.picture = some pic) : compositeLuma k b p u v =
    mix p (boxLuma pic (cropX b.record k.cw) (cropY b.record k.ch) k.box.f u v) (pixelWeight k b.record pic u v) := by
  simp only [compositeLuma, h]

theorem compositeChroma_some {pic : Picture} (h : b.picture = some pic) (comp : Picture → Plane) : compositeChroma k b comp p u v =
    mix p (boxChroma (comp pic) (cropX b.record k.cw) (cropY b.record k.ch) k.box.f u v) (pixelWeight k b.record pic u v) := by
  simp only [compositeChroma, h]

variable (hf : factorOk k.box.f = true) (hg : k.g ≤ 256) (legal : b.picture.all pictureLegal = true)
include hf hg legal

theorem compositeLuma_mem (hp : 64 ≤ p ∧ p ≤ 940) : 64 ≤ compositeLuma k b p u v ∧ compositeLuma k b p u v ≤ 940 := by
  have factor : 1 ≤ k.box.f := by simp [factorOk] at hf; omega
  cases hpic : b.picture with
  | none => rwa [compositeLuma_none hpic]
  | some pic =>
    simp only [hpic, Option.all_some, pictureLegal, Bool.and_eq_true] at legal
    rw [compositeLuma_some hpic]
    exact mix_mem hp (meanOf_mem factor fun i j => planeGet_within legal.1.1 _) (pixelWeight_le hg ..)

theorem compositeChroma_mem {comp : Picture → Plane}
    (plane : ∀ pic, pictureLegal pic = true → planeWithin 64 960 (comp pic) = true) (hp : 64 ≤ p ∧ p ≤ 960) :
    64 ≤ compositeChroma k b comp p u v ∧ compositeChroma k b comp p u v ≤ 960 := by
  have factor : 1 ≤ k.box.f := by simp [factorOk] at hf; omega
  cases hpic : b.picture with
  | none => rwa [compositeChroma_none hpic]
  | some pic =>
    rw [hpic, Option.all_some] at legal
    rw [compositeChroma_some hpic]
    exact mix_mem hp (meanOf_mem factor fun i j => planeGet_within (plane pic legal) _) (pixelWeight_le hg ..)

end Composite

/-! ### Where the picture changes (R41) -/

/-- One chroma plane of the output picture, at the pair of an even column. -/
theorem planeGet_composeChroma {k : FrameInput} {comp : Picture → Plane} {plane : Plane} (h : planeCanon plane)
    (even : k.box.x % 2 = 0) (evenW : k.bw % 2 = 0) (right : k.box.x + k.bw ≤ 1920) {x : Nat} (y : Nat) (hx : x < 1920) (hx2 : x % 2 = 0) :
    planeGet (composeChroma k comp plane) (y * 960 + x / 2) =
      if k.box.x ≤ x ∧ x < k.box.x + k.bw ∧ k.box.y ≤ y ∧ y < k.box.y + k.bh then
        outChroma k comp (planeGet plane (y * 960 + x / 2)) (x - k.box.x) (y - k.box.y)
      else planeGet plane (y * 960 + x / 2) := by
  have paint := (planeGet_planePaint h (w := 960) (x := k.box.x / 2) (y := k.box.y) (bw := k.bw / 2) (bh := k.bh) (by omega)
    (fun j v => outChroma k comp (planeGet plane (chromaAddr (k.box.x + 2 * j) (k.box.y + v))) (2 * j) v)).2 (x / 2) y (by omega)
  refine paint.trans ?_
  have inside : (k.box.x / 2 ≤ x / 2 ∧ x / 2 < k.box.x / 2 + k.bw / 2 ∧ k.box.y ≤ y ∧ y < k.box.y + k.bh) ↔
      k.box.x ≤ x ∧ x < k.box.x + k.bw ∧ k.box.y ≤ y ∧ y < k.box.y + k.bh := by omega
  simp only [inside]
  refine if_ctx_congr .rfl (fun at' => ?_) fun _ => rfl
  have column : k.box.x + 2 * (x / 2 - k.box.x / 2) = x := by omega
  have pair : 2 * (x / 2 - k.box.x / 2) = x - k.box.x := by omega
  have line : k.box.y + (y - k.box.y) = y := by omega
  rw [column, pair, line]
  rfl

end Sys2Proof.Machine

namespace Sys2Proof.Proofs
open Sys2Proof.Machine

/-- Settles O28, plane by plane. -/
theorem composeChangesOnlyTheBox : Obligations.ComposeChangesOnlyTheBox := by
  intro p k hp even evenW right bottom
  obtain ⟨hy, hb, hr⟩ := Picture.ok_iff.1 hp
  refine ⟨fun h => if_pos h, fun h => ?_⟩
  have picture : compose p k = _ := if_neg h
  rw [picture]
  refine ⟨fun x y hx => ?_, fun x y hx hx2 =>
    ⟨planeGet_composeChroma (planeCanon_of_ok hb) even evenW right y hx hx2,
      planeGet_composeChroma (planeCanon_of_ok hr) even evenW right y hx hx2⟩⟩
  refine ((planeGet_planePaint (planeCanon_of_ok hy) right _).2 x y hx).trans (if_ctx_congr .rfl (fun at' => ?_) fun _ => rfl)
  have column : k.box.x + (x - k.box.x) = x := by omega
  have line : k.box.y + (y - k.box.y) = y := by omega
  rw [column, line]
  rfl

/-- Settles O29, by the bounds of each composite and of their blend. -/
theorem boxSamplesAreLegal : Obligations.BoxSamplesAreLegal := by
  intro k v x y hf hg first second
  have luma : 64 ≤ outLuma k v x y ∧ outLuma k v x y ≤ 940 :=
    have mem := clamp_mem (high := 940) (by decide) v
    blended_mem mem (fun b hb => compositeLuma_mem hf hg (first b hb) mem)
      fun b h hb => ⟨compositeLuma_mem hf hg (second b h hb).1 mem, (second b h hb).2⟩
  have chroma {comp : Picture → Plane} (plane : ∀ pic, pictureLegal pic = true → planeWithin 64 960 (comp pic) = true) :
      64 ≤ outChroma k comp v x y ∧ outChroma k comp v x y ≤ 960 :=
    have mem := clamp_mem (high := 960) (by decide) v
    blended_mem mem (fun b hb => compositeChroma_mem hf hg (first b hb) plane mem)
      fun b h hb => ⟨compositeChroma_mem hf hg (second b h hb).1 plane mem, (second b h hb).2⟩
  have cb := chroma (comp := (·.cb)) fun pic legal => by
    simp only [pictureLegal, Bool.and_eq_true] at legal
    exact legal.1.2
  have cr := chroma (comp := (·.cr)) fun pic legal => by
    simp only [pictureLegal, Bool.and_eq_true] at legal
    exact legal.2
  exact ⟨luma.1, luma.2, cb.1, cb.2, cr.1, cr.2⟩

/-- Settles O30, formula by formula. -/
theorem keyEdgeWeightAndMix : Obligations.KeyEdgeWeightAndMix := by
  refine ⟨fun r cb cr limits => ?_, fun bw bh e u v hu hv he => ?_, ?_, ?_, ?_, fun alpha g edge ha hg he => ⟨weight_le ha hg he, weight_eq_zero, rfl⟩,
    fun first second w hw => ⟨mix_zero .., mix_whole .., ?_, ?_⟩⟩
  · exact ⟨fun h => if_pos h, fun h => (if_neg (not_le.2 (limits.trans_le h))).trans (if_neg (not_lt.2 h)),
      fun h k => ⟨opacity_between h k, opacity_le ..⟩⟩
  · refine ⟨edgeFactor_whole, fun h => ⟨edgeFactor_near h, ?_⟩⟩
    rw [edgeFactor_near h]
    exact Nat.div_lt_of_lt_mul (by omega)
  · intro k b pic p u v ha hi hpic f cx cy mean luma chroma a mixed
    have weights (u : Nat) : pixelWeight k b.record pic u v = ((opacity b.record (chroma pic.cb (u - u % 2))
        (chroma pic.cr (u - u % 2)) * k.g + 128) / 256 * edgeFactor (k.cw / f) (k.ch / f) k.edge u v + 128) / 256 := rfl
    refine ⟨?_, fun even => ?_⟩
    · rw [outLuma, blended_one hi ha, compositeLuma_some hpic, clamp_eq]
      rfl
    · have chromas (comp : Picture → Plane) : outChroma k comp p u v = mixed 960 (chroma (comp pic) u) := by
        rw [outChroma, blended_one hi ha, compositeChroma_some hpic, clamp_eq]
        rfl
      exact ⟨chromas (·.cb), chromas (·.cr)⟩
  · intro k p u v empty hi
    have clear {one : BoothInput → Nat} {q : Nat} (h : ∀ b, b.picture = none → one b = q) : blended k q one = q := by
      cases ha : k.assigned with
      | none => exact blended_none hi ha
      | some b => exact (blended_one hi ha).trans (h b (empty b ha))
    exact ⟨(clear fun b h => compositeLuma_none h).trans (clamp_eq ..), (clear fun b h => compositeChroma_none h _).trans (clamp_eq ..),
      (clear fun b h => compositeChroma_none h _).trans (clamp_eq ..)⟩
  · intro k b h p u v hi first second
    exact ⟨blended_two hi, blended_two hi, blended_two hi⟩
  · exact (mix_mem ⟨Nat.min_le_left .., Nat.le_max_left ..⟩ ⟨Nat.min_le_right .., Nat.le_max_right ..⟩ hw).1
  · exact (mix_mem ⟨Nat.min_le_left .., Nat.le_max_left ..⟩ ⟨Nat.min_le_right .., Nat.le_max_right ..⟩ hw).2

end Sys2Proof.Proofs
end

section
/-!
PROOF. A frame start as its parts leave the channel, and the layout's part in it (chapter 4).
-/
namespace Sys2Proof.Machine

/-! ### What a frame start makes of its channel -/

/-- The state of a frame start in which the frame has entered the delay line and T is fixed. -/
def State.inLine (s : State) (c : ChanNo) (i : Instr) (f : InputFrame) : State :=
  (s.setPath c ((s.chan c).path.event (Instr.isArrival i) (Instr.isTimeout i))).pathStep c f.picture f.audio f.timecode

/-- The state in which the transitions of a frame start find the channel: the due cues have acted. -/
def State.dispatched (s : State) (c : ChanNo) (i : Instr) (f : InputFrame) : State := (s.inLine c i f).dispatch c

theorem exec_dispatched {s : State} {c : ChanNo} {i : Instr} {f : InputFrame} (h : FrameStarts s c i f) :
    exec i s = .next (((s.dispatched c i f).transitions c).composeStep c) := exec_frameStarts h

theorem moves_inLine (s : State) (c : ChanNo) (i : Instr) (f : InputFrame) : s.Moves c (s.inLine c i f) :=
  (moves_setPath s c _).trans (moves_pathStep _ c _ _ _)

theorem moves_dispatched (s : State) (c : ChanNo) (i : Instr) (f : InputFrame) : s.Moves c (s.dispatched c i f) :=
  (moves_inLine s c i f).trans (moves_dispatch _ c)

section InLine
variable (s : State) (c : ChanNo) (i : Instr) (f : InputFrame)

theorem path_inLine : ((s.inLine c i f).chan c).path =
    ((s.chan c).path.event (Instr.isArrival i) (Instr.isTimeout i)).enter s.rate (s.chan c).pool.granted
      f.picture f.audio f.timecode := by
  rw [State.inLine, path_pathStep]
  simp

@[simp] theorem pres_inLine : ((s.inLine c i f).chan c).pres = (s.chan c).pres := by simp [State.inLine]
@[simp] theorem place_inLine : ((s.inLine c i f).chan c).place = (s.chan c).place := by simp [State.inLine]
@[simp] theorem assign_inLine : ((s.inLine c i f).chan c).assign = (s.chan c).assign := by simp [State.inLine]
@[simp] theorem sched_inLine : ((s.inLine c i f).chan c).sched = (s.chan c).sched := by simp [State.inLine]
@[simp] theorem target_inLine : ((s.inLine c i f).chan c).pool.target = (s.chan c).pool.target := by
  simp [State.inLine, State.pathStep]

end InLine

/-- The steps after the dispatch move no more than their channel and notices. -/
theorem moves_settled (s : State) (c : ChanNo) : s.Moves c ((s.transitions c).composeStep c) :=
  (moves_transitions s c).trans (moves_composeStep _ c)

theorem path_dispatched (s : State) (c : ChanNo) (i : Instr) (f : InputFrame) :
    ((s.dispatched c i f).chan c).path = ((s.chan c).path.event (Instr.isArrival i) (Instr.isTimeout i)).enter s.rate
      (s.chan c).pool.granted f.picture f.audio f.timecode := by
  rw [State.dispatched, (kept_dispatch _ c c).1, path_inLine]

theorem assign_dispatched (s : State) (c : ChanNo) (i : Instr) (f : InputFrame) :
    ((s.dispatched c i f).chan c).assign = (s.chan c).assign := by
  rw [State.dispatched, (kept_dispatch _ c c).2.1, assign_inLine]

/-- The transitions and the composited frame of a channel, each from what the steps before it left. -/
theorem chan_settled_steps (s : State) (c : ChanNo) :
    let h := s.handoverStep c
    let p := (s.chan c).pres.step (h.assignedHealth c) (h.chan c).assign.releasePending (s.currentProfile c).fade
    let u := s.transitions c
    (u.composeStep c).chan c = { s.chan c with
      pres := p
      assign := if p.visAtEntry && !p.state.visible then (h.chan c).assign.onReport else (h.chan c).assign
      place := (s.chan c).place.step (s.currentProfile c) p.state.visible
      path := { (s.chan c).path with sent := ((u.composeStep c).chan c).path.sent } } := by
  intro h p u
  have kept := kept_handoverStep s c c
  have profile : h.currentProfile c = s.currentProfile c := by
    rw [State.currentProfile, kept]
    exact (moves_handoverStep s c).profile _
  have presented := chan_presenterStep h c
  have profile' : (h.presenterStep c).currentProfile c = s.currentProfile c := by
    rw [State.currentProfile, presented, kept]
    exact ((moves_handoverStep s c).trans (moves_presenterStep _ c)).profile _
  rw [chan_composeStep]
  simp only [u, State.transitions]
  rw [chan_placementStep, profile', presented, profile, kept]

section Steps
variable (s : State) (c : ChanNo)

theorem pres_settled : (((s.transitions c).composeStep c).chan c).pres =
    (s.chan c).pres.step ((s.handoverStep c).assignedHealth c) ((s.handoverStep c).chan c).assign.releasePending
      (s.currentProfile c).fade := by rw [chan_settled_steps]

theorem place_settled : (((s.transitions c).composeStep c).chan c).place =
    (s.chan c).place.step (s.currentProfile c) (((s.transitions c).composeStep c).chan c).pres.state.visible := by
  rw [chan_settled_steps]

theorem assign_settled : (((s.transitions c).composeStep c).chan c).assign =
    if (((s.transitions c).composeStep c).chan c).pres.visAtEntry && !(((s.transitions c).composeStep c).chan c).pres.state.visible
    then ((s.handoverStep c).chan c).assign.onReport else ((s.handoverStep c).chan c).assign := by
  rw [chan_settled_steps]

theorem pool_settled_steps : (((s.transitions c).composeStep c).chan c).pool = (s.chan c).pool := by rw [chan_settled_steps]

theorem sched_settled : (((s.transitions c).composeStep c).chan c).sched = (s.chan c).sched := by rw [chan_settled_steps]

/-- The path of the channel, its sent frame aside. -/
theorem path_settled : (((s.transitions c).composeStep c).chan c).path =
    { (s.chan c).path with sent := (((s.transitions c).composeStep c).chan c).path.sent } := by
  conv_lhs => rw [chan_settled_steps]

end Steps

/-! ### A frame start at which no cue waits -/

theorem setSched_self (s : State) (c : ChanNo) : s.setSched c (s.chan c).sched = s := setChan_self s c

/-- With no cue the dispatch changes nothing. -/
theorem dispatch_of_no_cues {s : State} {c : ChanNo} (h : (s.chan c).sched.cues = []) : s.dispatch c = s := by
  have none : s.setCues c [] = s := by
    rw [State.setCues, ← h]
    exact setSched_self s c
  have due : State.takeDue c (sortCues (s.offset c) (s.chan c).sched.cues) s = s := by
    rw [h]
    exact none
  have stranded : s.removeStranded c = s := by
    simp only [State.removeStranded, h, List.filter_nil, List.foldl_nil, none]
  simp [State.dispatch, due, stranded]

/-- With no cue the transitions find the channel as the frame's entering left it. -/
theorem dispatched_of_no_cues {s : State} {c : ChanNo} (h : (s.chan c).sched.cues = []) (i : Instr) (f : InputFrame) :
    s.dispatched c i f = s.inLine c i f := dispatch_of_no_cues (by rw [sched_inLine, h])

/-- With no cue nothing of the channel but its path and its grant has changed when the transitions find it. -/
theorem chan_dispatched_of_no_cues {s : State} {c : ChanNo} (h : (s.chan c).sched.cues = []) (i : Instr) (f : InputFrame) :
    (s.dispatched c i f).chan c = { s.chan c with
      path := ((s.dispatched c i f).chan c).path, pool := ((s.dispatched c i f).chan c).pool } := by
  rw [dispatched_of_no_cues h, State.inLine, State.pathStep, chan_poolPassIfFell]
  simp

theorem currentProfile_dispatched {s : State} {c : ChanNo} (h : (s.chan c).sched.cues = []) (i : Instr) (f : InputFrame) :
    (s.dispatched c i f).currentProfile c = s.currentProfile c := by
  rw [State.currentProfile, chan_dispatched_of_no_cues h]
  exact (moves_dispatched s c i f).profile _

/-! ### The notices of a frame start -/

/-- No step of a frame start up to the dispatch tells anything but DELAY notices. -/
theorem onlyDelays_setTarget (s : State) (c : ChanNo) (d : Nat) : s.OnlyDelays (s.setTarget c d) :=
  (onlyDelays_setGrant (s.setPool c { (s.chan c).pool with target := d }) c _).trans (onlyDelays_poolPassIfFell _ _ _)

theorem onlyDelays_perform (s : State) (c : ChanNo) (n : Option Nat) (a : Action) : s.OnlyDelays (s.perform c n a).1 := by
  cases a with
  | setDelay d => exact onlyDelays_setTarget s c d
  | selectProfile k =>
    simp only [State.perform]
    split
    · exact fun _ _ _ => rfl
    · exact .refl s
  | _ => exact fun _ _ _ => rfl

theorem onlyDelays_takeCue (s : State) (c : ChanNo) (q : Cue) : s.OnlyDelays (s.takeCue c q) := by
  unfold State.takeCue
  dsimp only
  split
  · exact fun _ _ _ => rfl
  · split
    · exact onlyDelays_perform s c q.fade q.action
    · exact fun _ _ _ => rfl

theorem onlyDelays_takeDue (c : ChanNo) (l : List Cue) (s : State) : s.OnlyDelays (State.takeDue c l s) := by
  induction l generalizing s with
  | nil => exact fun _ _ _ => rfl
  | cons q t ih =>
    unfold State.takeDue
    split
    · exact (onlyDelays_takeCue (s.setCues c t) c q).trans (ih _)
    · exact fun _ _ _ => rfl

theorem onlyDelays_removeStranded (s : State) (c : ChanNo) : s.OnlyDelays (s.removeStranded c) := by
  have written (l : List Cue) (u : State) (h : s.OnlyDelays u) :
      s.OnlyDelays (l.foldl (fun t q => t.writeOutcome c q.tag .missed 0) u) := by
    induction l generalizing u with
    | nil => exact h
    | cons q t ih => exact ih _ h
  exact written _ _ fun _ _ _ => rfl

/-- What a dispatch tells beside DELAY notices: OUTCOME, where the list has become shorter (R140). -/
theorem has_dispatch (s : State) (c : ChanNo) {e : Notice} (he : ∀ d, e ≠ .delay d) (p : PortNo) :
    ((s.dispatch c).port p).pending.has e = ((s.port p).pending.has e || ((s.port p).role.any (fun r => r.hears e) &&
      (((s.dispatch c).chan c).sched.cues.length != (s.chan c).sched.cues.length && decide (e = .outcome c)))) := by
  have taken := (onlyDelays_takeDue c (sortCues (s.offset c) (s.chan c).sched.cues) s).trans (onlyDelays_removeStranded _ c)
  have moves := (moves_takeDue c (sortCues (s.offset c) (s.chan c).sched.cues) s).trans (moves_removeStranded _ c)
  rw [State.dispatch, State.has_raiseIf, taken p e he, moves.role p, State.chan_raiseIf]

theorem has_dispatched (s : State) (c : ChanNo) (i : Instr) (f : InputFrame) {e : Notice} (he : ∀ d, e ≠ .delay d) (p : PortNo) :
    ((s.dispatched c i f).port p).pending.has e = ((s.port p).pending.has e || ((s.port p).role.any (fun r => r.hears e) &&
      (((s.dispatched c i f).chan c).sched.cues.length != (s.chan c).sched.cues.length && decide (e = .outcome c)))) := by
  have entered : s.OnlyDelays (s.inLine c i f) := onlyDelays_poolPassIfFell (State.setPath _ c _) c _
  rw [State.dispatched, has_dispatch _ c he, entered p e he, (moves_inLine s c i f).role p, sched_inLine]

/-- A handover that ends at its step is told (R118). -/
theorem has_handoverStep (s : State) (c : ChanNo) (e : Notice) (p : PortNo) :
    ((s.handoverStep c).port p).pending.has e = ((s.port p).pending.has e || ((s.port p).role.any (fun r => r.hears e) &&
      ((s.chan c).assign.incoming.isSome && ((s.handoverStep c).chan c).assign.incoming.isNone && decide (e = .assignment c)))) := by
  unfold State.handoverStep
  dsimp only
  split
  case h_1 none => simp [none]
  case h_2 inc some =>
    rw [State.has_raiseIf, State.chan_raiseIf, State.chan_setAssign_self]
    simp [some]

/-- A visibility report that acts is told (R118). -/
theorem has_presenterStep (s : State) (c : ChanNo) (e : Notice) (p : PortNo) :
    ((s.presenterStep c).port p).pending.has e = ((s.port p).pending.has e || ((s.port p).role.any (fun r => r.hears e) &&
      ((((s.presenterStep c).chan c).pres.visAtEntry && !((s.presenterStep c).chan c).pres.state.visible &&
        ((s.chan c).assign.releasePending || (s.chan c).assign.incoming.isSome)) && decide (e = .assignment c)))) := by
  rw [chan_presenterStep]
  unfold State.presenterStep
  dsimp only
  split
  case isTrue left =>
    rw [State.visibilityReport, State.has_raiseIf, left]
    simp
  case isFalse stays => simp [Bool.eq_false_iff.2 stays]

/-- A choice that sets the conflict flag is told (R69). -/
theorem has_placementStep (s : State) (c : ChanNo) (e : Notice) (p : PortNo) :
    ((s.placementStep c).port p).pending.has e = ((s.port p).pending.has e || ((s.port p).role.any (fun r => r.hears e) &&
      ((((s.placementStep c).chan c).place.conflict && !(s.chan c).place.conflict) && decide (e = .conflict c)))) := by
  rw [chan_placementStep, State.placementStep, State.has_raiseIf]
  simp

theorem ports_composeStep (s : State) (c : ChanNo) : (s.composeStep c).ports = s.ports := by
  unfold State.composeStep
  dsimp only
  split <;> rfl

/-- What the steps after the dispatch tell, for a notice that is no ASSIGNMENT notice of the channel. -/
theorem has_settled (s : State) (c : ChanNo) {e : Notice} (he : e ≠ .assignment c) (p : PortNo) :
    ((((s.transitions c).composeStep c)).port p).pending.has e = ((s.port p).pending.has e ||
      ((s.port p).role.any (fun r => r.hears e) &&
        (((((s.transitions c).composeStep c).chan c).place.conflict && !(s.chan c).place.conflict) && decide (e = .conflict c)))) := by
  have moves := (moves_handoverStep s c).trans (moves_presenterStep _ c)
  have port : ((s.transitions c).composeStep c).port p = (s.transitions c).port p := by
    rw [State.port, ports_composeStep]
    rfl
  have place : (((s.transitions c).composeStep c).chan c).place = ((s.transitions c).chan c).place := by rw [chan_composeStep]
  have before : (((s.handoverStep c).presenterStep c).chan c).place = (s.chan c).place := by
    rw [chan_presenterStep, kept_handoverStep]
  rw [port, place, State.transitions, has_placementStep, has_presenterStep, has_handoverStep, moves.role p,
    (moves_handoverStep s c).role p, before]
  simp [he]

end Sys2Proof.Machine
end

section
/-!
PROOF. The choice of a placement and the placement step (R67 to R73, R75).
-/
namespace Sys2Proof.Machine

/-! ### The choice (R67 to R69) -/

theorem candidates_eq (p : Profile) : p.candidates = p.positions.map (fun q => p.fitted ⟨q.1, q.2, p.fp⟩) ++
    (p.ff.map fun f => p.positions.map (fun q => p.fitted ⟨q.1, q.2, f⟩)).getD [] := by
  unfold Profile.candidates
  cases p.ff <;> rfl

/-- A choice among candidates: the first of the least overlap, and whether that overlap is above 0 (R69). -/
theorem choose_spec {p : Profile} (h : p.positions ≠ []) (zones : List Zone) (kept : Placement) :
    ∃ i, p.candidates[i]? = some (p.choose zones kept).1 ∧
      (∀ (j : Nat) (r : Placement), p.candidates[j]? = some r → p.overlap zones (p.choose zones kept).1 ≤ p.overlap zones r) ∧
      (∀ (j : Nat) (r : Placement), j < i → p.candidates[j]? = some r →
        p.overlap zones (p.choose zones kept).1 < p.overlap zones r) ∧
      ((p.choose zones kept).2 = true ↔ p.overlap zones (p.choose zones kept).1 ≠ 0) := by
  have some := candidates_ne_nil h
  unfold Profile.choose
  cases hc : p.candidates with
  | nil => exact absurd hc some
  | cons q t =>
    obtain ⟨i, here, least, first⟩ := leastOverlap_spec (p.overlap zones) q t
    exact ⟨i, here, least, first, bne_iff_ne⟩

/-! ### Moves (R70, R71) -/

/-- A place that shows what one step of a move leaves takes that step. -/
theorem steps_moveStep {x q : Place} {m : Move} {p : Profile} (hm : q.move = (x.moveStep m).move)
    (hs : q.shown = p.fitted (x.moveStep m).shown) : m.Steps p q where
  on running := by
    have step : x.moveStep m = _ := if_neg (not_le.2 running)
    rw [step] at hm hs
    exact ⟨hm, hs⟩
  last ends := by
    have step : x.moveStep m = _ := if_pos ends
    rw [step] at hm hs
    exact ⟨hm, hs⟩

theorem moveStep_keeps (x : Place) (m : Move) :
    x.moveStep m = { x with move := (x.moveStep m).move, shown := (x.moveStep m).shown } := by
  unfold Place.moveStep
  split <;> rfl

theorem advance_keeps (x : Place) : x.advance = { x with move := x.advance.move, shown := x.advance.shown } := by
  unfold Place.advance
  split
  · exact moveStep_keeps x _
  · rfl

/-- Applying a choice moves the box alone. -/
theorem apply_keeps (x : Place) (made v : Bool) (n : Nat) :
    x.apply made v n = { x with move := (x.apply made v n).move, shown := (x.apply made v n).shown } := by
  unfold Place.apply
  split
  · split
    · unfold Place.applyChoice
      split
      · exact advance_keeps x
      · split
        · rfl
        · split
          · rfl
          · exact moveStep_keeps x _
    · exact advance_keeps x
  · rfl

theorem advance_some {x : Place} {m : Move} (h : x.move = some m) : x.advance = x.moveStep m := by
  simp only [Place.advance, h]

theorem advance_none {x : Place} (h : x.move = none) : x.advance = x := by
  simp only [Place.advance, h]

section ApplyChoice
variable {x : Place} {v : Bool} {n : Nat}

theorem apply_jump (made : Bool) (h : v = false ∨ x.visBefore = false) :
    x.apply made v n = { x with move := none, shown := x.chosen } :=
  if_neg (by rcases h with h | h <;> simp [h])

variable (hv : v = true) (hb : x.visBefore = true)
include hv hb

theorem apply_unchosen : x.apply false v n = x.advance :=
  (if_pos (by simp [hv, hb])).trans (if_neg Bool.false_ne_true)

theorem apply_chosen : x.apply true v n = x.applyChoice n :=
  (if_pos (by simp [hv, hb])).trans (if_pos rfl)

theorem apply_target {m : Move} (hm : x.move = some m) (target : m.target = x.chosen) : x.apply true v n = x.moveStep m := by
  rw [apply_chosen hv hb, ← advance_some hm]
  exact if_pos (by simp [hm, target])

variable (other : ∀ m, x.move = some m → m.target ≠ x.chosen)
include other

theorem applyChoice_other : x.apply true v n =
    if x.chosen = x.shown then { x with move := none }
    else if n = 0 then { x with move := none, shown := x.chosen }
    else x.moveStep { origin := x.shown, target := x.chosen, n := n, i := 0 } := by
  rw [apply_chosen hv hb]
  refine if_neg ?_
  cases hm : x.move with
  | none => simp
  | some m => simpa using other m hm

end ApplyChoice

/-- What a placement step applies, by the cases of R70. -/
theorem applies_apply {x q : Place} {p : Profile} {v made : Bool} (hm : q.move = (x.apply made v p.move).move)
    (hs : q.shown = p.fitted (x.apply made v p.move).shown) :
    x.Applies p v (if made = true then some x.chosen else none) q where
  jump h := by
    rw [apply_jump made h] at hm hs
    refine ⟨hm, hs.trans ?_⟩
    cases made <;> rfl
  stay hv hb unchosen still := by
    obtain rfl : made = false := by simpa using unchosen
    rw [apply_unchosen hv hb, advance_none still] at hm hs
    exact ⟨hm.trans still, hs⟩
  run hv hb m moving choice := by
    cases made with
    | false =>
      rw [apply_unchosen hv hb, advance_some moving] at hm hs
      exact steps_moveStep hm hs
    | true =>
      have target : m.target = x.chosen := by simpa [eq_comm] using choice
      rw [apply_target hv hb moving target] at hm hs
      exact steps_moveStep hm hs
  rest hv hb choice other := by
    obtain ⟨rfl, here⟩ : made = true ∧ x.chosen = x.shown := by simpa using choice
    rw [applyChoice_other hv hb (here ▸ other), if_pos here] at hm hs
    exact ⟨hm, hs⟩
  cut hv hb o choice away other still := by
    obtain ⟨rfl, rfl⟩ : made = true ∧ x.chosen = o := by simpa using choice
    rw [applyChoice_other hv hb other, if_neg away, if_pos still] at hm hs
    exact ⟨hm, hs⟩
  start hv hb o choice away other moves := by
    obtain ⟨rfl, rfl⟩ : made = true ∧ x.chosen = o := by simpa using choice
    rw [applyChoice_other hv hb other, if_neg away, if_neg moves.ne'] at hm hs
    exact steps_moveStep hm hs

/-- The placement step of a unit with re-placement pending: its choice, applied (R69, R70, R75). -/
theorem step_choice {pl : Place} (h : pl.replace = true) (p : Profile) (v : Bool) :
    let choice := p.choose pl.zones.toList pl.chosen
    let q := pl.step p v
    q = { pl with chosen := choice.1, conflict := choice.2, replace := false, visBefore := v, move := q.move, shown := q.shown } ∧
      pl.Applies p v (some choice.1) q := by
  intro choice q
  have made : pl.makeChoice p = { pl with chosen := choice.1, conflict := choice.2, replace := false } := if_pos h
  have applied : q = _ := Place.step.eq_1 pl p v
  rw [h, made] at applied
  have applies := applies_apply (q := q) (p := p) (v := v) (made := true)
    (x := { pl with chosen := choice.1, conflict := choice.2, replace := false }) (by rw [applied]) (by rw [applied]; rfl)
  refine ⟨?_, applies.jump, applies.stay, applies.run, applies.rest, applies.cut, applies.start⟩
  conv_lhs => rw [applied, apply_keeps]
  rw [applied]

/-- The placement step of a unit with none pending (R70, R75). -/
theorem step_no_choice {pl : Place} (h : pl.replace = false) (p : Profile) (v : Bool) :
    let q := pl.step p v
    q = { pl with visBefore := v, move := q.move, shown := q.shown } ∧ pl.Applies p v none q := by
  intro q
  have made : pl.makeChoice p = pl := if_neg (Bool.eq_false_iff.1 h)
  have applied : q = _ := Place.step.eq_1 pl p v
  rw [h, made] at applied
  have applies := applies_apply (q := q) (p := p) (v := v) (made := false) (x := pl) (by rw [applied]) (by rw [applied]; rfl)
  refine ⟨?_, applies⟩
  conv_lhs => rw [applied, apply_keeps]
  rw [applied]

/-- What a placement step leaves, and what it records (R75). -/
theorem step_keeps (pl : Place) (p : Profile) (v : Bool) : (pl.step p v).zones = pl.zones ∧ (pl.step p v).profile = pl.profile ∧
    (pl.step p v).replace = false ∧ (pl.step p v).visBefore = v := by
  cases h : pl.replace with
  | true =>
    rw [(step_choice h p v).1]
    exact ⟨rfl, rfl, rfl, rfl⟩
  | false =>
    rw [(step_no_choice h p v).1]
    exact ⟨rfl, rfl, h, rfl⟩

theorem profile_step (pl : Place) (p : Profile) (v : Bool) : (pl.step p v).profile = pl.profile := (step_keeps pl p v).2.1

theorem visible_eq (k : PState) : k.visible = decide (k = .rising ∨ k = .on ∨ k = .falling) := by cases k <;> rfl

/-- A dispatch leaves the conflict flag. -/
theorem conflict_dispatch (s : State) (c : ChanNo) : ((s.dispatch c).chan c).place.conflict = (s.chan c).place.conflict := by
  have keeps (b : Bool) : DispatchKeeps (fun u => (u.chan c).place.conflict = b) (fun _ => True) c :=
    { cues := fun u l _ h => by simpa [State.setCues] using h
      perform := fun u q _ h => by
        cases q.action with
        | presenterOn => simpa [State.perform, State.presenterOn] using h
        | presenterOff => simpa [State.perform, State.presenterOff] using h
        | selectProfile k =>
          simp only [State.perform]
          split
          · simpa [Place.select] using h
          · exact h
        | setZone z w => simpa [State.perform, Place.setZone] using h
        | clearZone z => simpa [State.perform, Place.clearZone] using h
        | setDelay d => simpa [State.perform] using h
        | mark => exact h
      outcome := fun u tag k n h => by simpa using h
      raiseIf := fun u b e h => by simpa using h }
  exact (keeps _).dispatch (fun _ _ => trivial) rfl

theorem conflict_dispatched (s : State) (c : ChanNo) (i : Instr) (f : InputFrame) :
    ((s.dispatched c i f).chan c).place.conflict = (s.chan c).place.conflict := by
  rw [State.dispatched, conflict_dispatch, place_inLine]

end Sys2Proof.Machine

namespace Sys2Proof.Proofs
open Sys2Proof.Machine

/-- Settles O31: the least overlap of the fitted candidates. -/
theorem choiceIsFirstLeastOverlap : Obligations.ChoiceIsFirstLeastOverlap := by
  intro p zones kept at' overlap
  refine ⟨candidates_eq p, fun h => ?_⟩
  obtain ⟨i, here, least, first, flag⟩ := choose_spec h zones kept
  exact ⟨i, _, here, rfl, least, first, flag⟩

/-- Settles O32: the last thing a placement step does is to fit the box. -/
theorem boxLiesInPicture : Obligations.BoxLiesInPicture := by
  intro s c i f starts laws
  refine ⟨_, exec_dispatched starts, ?_, fun p => ?_⟩
  · have moves := (moves_dispatched s c i f).trans (moves_settled _ c)
    have place := place_settled (s.dispatched c i f) c
    have profile : ((((s.dispatched c i f).transitions c).composeStep c).currentProfile c) =
        s.profile ((s.dispatched c i f).chan c).place.profile := by
      rw [State.currentProfile, place, profile_step]
      exact moves.profile _
    have before : (s.dispatched c i f).currentProfile c = s.profile ((s.dispatched c i f).chan c).place.profile :=
      (moves_dispatched s c i f).profile _
    rw [profile, place, before]
    exact fit_inPicture (laws.2.1 _) _
  · have told := has_settled (s.dispatched c i f) c (e := .conflict c) (by simp) p
    rw [has_dispatched s c i f (by simp), (moves_dispatched s c i f).role p, conflict_dispatched] at told
    simpa [Notices.has] using told

/-- Settles O33: the two parts of the placement step, and the one a frame start takes. -/
theorem moveTakesOneStepPerFrame : Obligations.MoveTakesOneStepPerFrame := by
  refine ⟨fun pl p visible => ?_, fun a b n hn => ?_, fun s c i f starts empty => ?_⟩
  · intro choice q
    refine ⟨fun h => ?_, fun h => ?_, step_keeps pl p visible⟩
    · obtain ⟨eq, applies⟩ := step_choice h p visible
      exact ⟨congrArg Place.chosen eq, congrArg Place.conflict eq, applies⟩
    · obtain ⟨eq, applies⟩ := step_no_choice h p visible
      exact ⟨(congrArg Place.chosen eq).trans rfl, (congrArg Place.conflict eq).trans rfl, applies⟩
  · rw [move_along_end a b n hn, Int.toNat_natCast]
  · refine ⟨_, exec_dispatched starts, ?_⟩
    rw [place_settled, currentProfile_dispatched empty, chan_dispatched_of_no_cues empty, visible_eq]

end Sys2Proof.Proofs
end

section
/-!
PROOF. The presenter step and the handover step of a frame start (chapters 5 and 6).
-/
namespace Sys2Proof.Machine

/-! ### The parts of the presenter step (R89 to R96) -/

theorem react_usable {k : Health} (h : k.usable = true) (p : Presenter) (r : Bool) (n : Nat) :
    p.react (some k) r n = p.riseOnFeed r n := by
  cases k with
  | live | held => rfl
  | lost | absent => cases h

theorem react_hidden {p : Presenter} (h : p.state.visible = false) {k : Option Health} (hk : ∀ j, k = some j → j.usable = false)
    (r : Bool) (n : Nat) : p.react k r n = p := by
  cases k with
  | none => rfl
  | some k =>
    cases k with
    | live | held => cases hk _ rfl
    | lost | absent => exact if_neg (Bool.eq_false_iff.1 h)

theorem react_lost {p : Presenter} (h : p.state.visible = true) (r : Bool) (n : Nat) : p.react (some .lost) r n = p.onLost n :=
  if_pos h

theorem react_absent {p : Presenter} (h : p.state.visible = true) (r : Bool) (n : Nat) : p.react (some .absent) r n = p.cutToZero :=
  if_pos h

theorem fadeStep_rising {p : Presenter} {d : Fade} (hs : p.state = .rising) (hd : p.fade = some d) : p.fadeStep =
    if d.m ≤ d.i + 1 then { p with state := .on, g := 256, fade := none }
    else { p with g := d.level (d.i + 1), fade := some { d with i := d.i + 1 } } := by
  simp only [Presenter.fadeStep, hs, hd]

theorem fadeStep_falling {p : Presenter} {d : Fade} (hs : p.state = .falling) (hd : p.fade = some d) : p.fadeStep =
    if d.m ≤ d.i + 1 then p.cutToZero
    else { p with g := d.level (d.i + 1), fade := some { d with i := d.i + 1 } } := by
  simp only [Presenter.fadeStep, hs, hd]

theorem fadeStep_still {p : Presenter} (h : p.fade = none ∨ p.state = .off ∨ p.state = .waitFeed ∨ p.state = .on) :
    p.fadeStep = p := by
  unfold Presenter.fadeStep
  split
  · rename_i hs hd
    simp [hs, hd] at h
  · rename_i hs hd
    simp [hs, hd] at h
  · rfl

theorem fadeStep_beginRise (p : Presenter) (g0 n : Nat) : (p.beginRise g0 n).fadeStep =
    if riseSteps n g0 ≤ 1 then { p with state := .on, g := 256, fade := none }
    else { p with
      state := .rising, g := Fade.level ⟨true, g0, n, riseSteps n g0, 1⟩ 1, fade := some ⟨true, g0, n, riseSteps n g0, 1⟩ } :=
  fadeStep_rising (p := p.beginRise g0 n) (d := ⟨true, g0, n, riseSteps n g0, 0⟩) rfl rfl

theorem fadeStep_beginFall (p : Presenter) (n : Nat) : (p.beginFall n).fadeStep =
    if fallSteps n p.g ≤ 1 then p.cutToZero
    else { p with
      state := .falling, g := Fade.level ⟨false, p.g, n, fallSteps n p.g, 0⟩ 1, fade := some ⟨false, p.g, n, fallSteps n p.g, 1⟩ } :=
  fadeStep_falling (p := p.beginFall n) (d := ⟨false, p.g, n, fallSteps n p.g, 0⟩) rfl rfl

/-! ### The presenter step with a usable feed (R90, R91) -/

section Usable
variable {k : Health} (hk : k.usable = true) (x : Presenter) (r : Bool) (n : Nat)
include hk

theorem step_usable : x.step (some k) r n =
    { (({ x with visAtEntry := x.state.visible } : Presenter).riseOnFeed r n).fadeStep with frozen := false } := by
  rw [Presenter.step, react_usable hk, Presenter.setFrozen]
  cases k with
  | live | held => simp
  | lost | absent => cases hk

variable {x}

theorem step_usable_still (h : x.state = .off ∨ x.state = .on) :
    x.step (some k) r n = { x with frozen := false, visAtEntry := decide (x.state = .on) } := by
  rw [step_usable hk]
  obtain ⟨state, intent, g, fade, loss, frozen, seen⟩ := x
  rcases h with rfl | rfl <;> rfl

theorem step_usable_waitFeed (h : x.state = .waitFeed) : x.step (some k) r n =
    { (({ x with visAtEntry := false } : Presenter).beginRise 0 n).fadeStep with frozen := false } := by
  rw [step_usable hk]
  obtain ⟨state, intent, g, fade, loss, frozen, seen⟩ := x
  cases h
  rfl

theorem step_usable_reverses (h : x.state = .falling) (intent : x.intent = true) : x.step (some k) false n =
    { (({ x with visAtEntry := true } : Presenter).beginRise x.g n).fadeStep with frozen := false } := by
  rw [step_usable hk]
  obtain ⟨state, intent, g, fade, loss, frozen, seen⟩ := x
  cases h
  cases intent
  rfl

theorem step_usable_falls (h : x.state = .falling) (stays : x.intent = false ∨ r = true) : x.step (some k) r n =
    { ({ x with visAtEntry := true } : Presenter).fadeStep with frozen := false } := by
  rw [step_usable hk]
  obtain ⟨state, intent, g, fade, loss, frozen, seen⟩ := x
  cases h
  have runs : (intent && !r) = false := by rcases stays with rfl | rfl <;> simp
  simp only [Presenter.riseOnFeed, runs]
  rfl

theorem step_usable_rises (h : x.state = .rising) : x.step (some k) r n =
    { ({ x with visAtEntry := true } : Presenter).fadeStep with frozen := false } := by
  rw [step_usable hk]
  obtain ⟨state, intent, g, fade, loss, frozen, seen⟩ := x
  cases h
  rfl

end Usable

/-! ### The presenter step with no usable feed (R94 to R97) -/

/-- Where a presenter ends that leaves the visible states is not visible (R91, R95). -/
theorem restState_hidden (x : Presenter) : x.restState.visible = false := by
  unfold Presenter.restState
  split <;> rfl

theorem setFrozen_cutToZero (x : Presenter) (k : Option Health) :
    x.cutToZero.setFrozen k = { x with state := x.restState, g := 0, fade := none, frozen := false } := by
  have hidden := restState_hidden x
  simp only [Presenter.setFrozen, Presenter.cutToZero, hidden, Bool.false_and]

theorem visAtEntry_fadeStep (x : Presenter) : x.fadeStep.visAtEntry = x.visAtEntry := by
  unfold Presenter.fadeStep
  split
  · split <;> rfl
  · split <;> rfl
  · rfl

theorem visAtEntry_fallForRelease (x : Presenter) (n : Nat) : (x.fallForRelease n).visAtEntry = x.visAtEntry := by
  unfold Presenter.fallForRelease
  split <;> rfl

theorem visAtEntry_react (x : Presenter) (k : Option Health) (r : Bool) (n : Nat) : (x.react k r n).visAtEntry = x.visAtEntry := by
  have rise : (x.riseOnFeed r n).visAtEntry = x.visAtEntry := by
    unfold Presenter.riseOnFeed
    split
    · rfl
    · split <;> rfl
    · rfl
    · rfl
    · rfl
  have lost : (x.onLost n).visAtEntry = x.visAtEntry := by
    unfold Presenter.onLost
    split
    · exact visAtEntry_fallForRelease x n
    · rfl
    · rfl
  unfold Presenter.react
  split
  · rfl
  · exact rise
  · exact rise
  · split
    · exact lost
    · rfl
  · split <;> rfl

/-- The visibility at entry is recorded before anything else (R89). -/
theorem visAtEntry_step (x : Presenter) (k : Option Health) (r : Bool) (n : Nat) :
    (x.step k r n).visAtEntry = x.state.visible := (visAtEntry_fadeStep _).trans (visAtEntry_react _ k r n)

section NotUsable
variable {x : Presenter} (r : Bool) (n : Nat)

theorem step_hidden (h : x.state = .off ∨ x.state = .waitFeed) {k : Option Health} (hk : ∀ j, k = some j → j.usable = false) :
    x.step k r n = { x with frozen := false, visAtEntry := false } := by
  obtain ⟨state, intent, g, fade, loss, frozen, seen⟩ := x
  have hidden : state.visible = false := by rcases h with rfl | rfl <;> rfl
  rw [Presenter.step, react_hidden hidden hk, fadeStep_still (.inr (by tauto)), Presenter.setFrozen]
  simp only [hidden, Bool.false_and]

variable (h : x.state.visible = true)
include h

theorem step_absent : x.step (some .absent) r n =
    { x with state := x.restState, g := 0, fade := none, frozen := false, visAtEntry := true } := by
  rw [Presenter.step, react_absent (p := { x with visAtEntry := x.state.visible }) h, fadeStep_still (.inl rfl), setFrozen_cutToZero, h]
  rfl

theorem step_lost : x.step (some .lost) r n =
    ((({ x with visAtEntry := true } : Presenter).onLost n).fadeStep).setFrozen (some .lost) := by
  rw [Presenter.step, react_lost (p := { x with visAtEntry := x.state.visible }) h, h]

theorem step_cut (cut : x.loss = .cut) : x.step (some .lost) r n =
    { x with state := x.restState, g := 0, fade := none, frozen := false, visAtEntry := true } := by
  have lost : ({ x with visAtEntry := true } : Presenter).onLost n = ({ x with visAtEntry := true } : Presenter).cutToZero := by
    simp only [Presenter.onLost, cut]
  rw [step_lost r n h, lost, fadeStep_still (.inl rfl), setFrozen_cutToZero]
  rfl

omit h in
/-- Under HOLD_FADE a presenter that rises or is ON begins to fall, with its first step (R94). -/
theorem step_holdFade (hs : x.state = .rising ∨ x.state = .on) (hold : x.loss = .holdFade) : x.step (some .lost) r n =
    if fallSteps n x.g ≤ 1 then { x with state := x.restState, g := 0, fade := none, frozen := false, visAtEntry := true }
    else { x with
      state := .falling, g := Fade.level ⟨false, x.g, n, fallSteps n x.g, 0⟩ 1, fade := some ⟨false, x.g, n, fallSteps n x.g, 1⟩
      frozen := false, visAtEntry := true } := by
  have lost : ({ x with visAtEntry := true } : Presenter).onLost n = ({ x with visAtEntry := true } : Presenter).beginFall n := by
    simp only [Presenter.onLost, hold]
    rcases hs with hs | hs <;> simp only [Presenter.fallForRelease, hs]
  rw [step_lost r n (by rcases hs with hs | hs <;> rw [hs] <;> rfl), lost, fadeStep_beginFall]
  split
  · exact setFrozen_cutToZero _ _
  · rw [Presenter.setFrozen]
    simp only [hold]
    rfl

omit h in
/-- A fall runs on under HOLD_FADE and under FREEZE (R94, R96). -/
theorem step_lost_falls {d : Fade} (hl : x.loss = .holdFade ∨ x.loss = .freeze) (hs : x.state = .falling) (hd : x.fade = some d) :
    x.step (some .lost) r n =
      if d.m ≤ d.i + 1 then { x with state := x.restState, g := 0, fade := none, frozen := false, visAtEntry := true }
      else { x with
        g := d.level (d.i + 1), fade := some { d with i := d.i + 1 }, frozen := decide (x.loss = .freeze), visAtEntry := true } := by
  have lost : ({ x with visAtEntry := true } : Presenter).onLost n = { x with visAtEntry := true } := by
    rcases hl with hl | hl <;> simp only [Presenter.onLost, Presenter.fallForRelease, hl, hs]
  rw [step_lost r n (by rw [hs]; rfl), lost, fadeStep_falling (p := { x with visAtEntry := true }) hs hd]
  split
  · exact setFrozen_cutToZero _ _
  · rw [Presenter.setFrozen]
    simp only [hs]
    rcases hl with hl | hl <;> simp only [hl] <;> rfl

/-- Under FREEZE a presenter goes on as it is, with the frozen flag while it is visible (R96). -/
theorem step_freeze (freeze : x.loss = .freeze) : x.step (some .lost) r n =
    (({ x with visAtEntry := true } : Presenter).fadeStep).setFrozen (some .lost) := by
  have lost : ({ x with visAtEntry := true } : Presenter).onLost n = { x with visAtEntry := true } := by
    simp only [Presenter.onLost, freeze]
  rw [step_lost r n h, lost]

end NotUsable

/-! ### The frame start of a channel with no cue -/

/-- The handover step reads the assignment and the booths. -/
theorem assign_handoverStep_congr {s u : State} {c : ChanNo} (assign : (u.chan c).assign = (s.chan c).assign)
    (booth : ∀ b, u.booth b = s.booth b) : ((u.handoverStep c).chan c).assign = ((s.handoverStep c).chan c).assign := by
  unfold State.handoverStep State.assignedHealth
  rw [assign]
  dsimp only
  split
  · exact assign
  · simp only [State.chan_raiseIf, State.chan_setAssign_self, booth]

/-- The presenter and the assignment that a frame start without a cue leaves, from the handover step's outcome (R89, R110). -/
theorem settled_of_no_cues {s : State} {c : ChanNo} (empty : (s.chan c).sched.cues = []) (i : Instr) (f : InputFrame) :
    let t := ((s.dispatched c i f).transitions c).composeStep c
    let a := ((s.handoverStep c).chan c).assign
    (t.chan c).pres =
      (s.chan c).pres.step (a.assigned.map fun b => (s.booth b).health) a.releasePending (s.currentProfile c).fade ∧
    (t.chan c).assign = if (t.chan c).pres.visAtEntry && !(t.chan c).pres.state.visible then a.onReport else a := by
  intro t a
  have booth (b : BoothNo) := (moves_dispatched s c i f).booth b
  have handed : (((s.dispatched c i f).handoverStep c).chan c).assign = a :=
    assign_handoverStep_congr (assign_dispatched s c i f) booth
  have health : ((s.dispatched c i f).handoverStep c).assignedHealth c = a.assigned.map fun b => (s.booth b).health := by
    rw [State.assignedHealth, handed]
    simp only [((moves_dispatched s c i f).trans (moves_handoverStep _ c)).booth]
  have pres : ((s.dispatched c i f).chan c).pres = (s.chan c).pres := by rw [chan_dispatched_of_no_cues empty]
  refine ⟨?_, ?_⟩
  · rw [pres_settled, handed, health, currentProfile_dispatched empty, pres]
  · rw [assign_settled, handed]

/-- With no handover in progress the handover step does nothing. -/
theorem handoverStep_idle {s : State} {c : ChanNo} (h : (s.chan c).assign.incoming = none) : s.handoverStep c = s := by
  simp only [State.handoverStep, h]

end Sys2Proof.Machine

namespace Sys2Proof.Proofs
open Sys2Proof.Machine

/-- Settles O37, by the presenter's state. -/
theorem fadeTakesOneStepPerFrame : Obligations.FadeTakesOneStepPerFrame := by
  intro s c i f b releasing starts empty assigned usable
  refine ⟨_, exec_dispatched starts, ?_⟩
  intro x n rest started
  obtain ⟨pres, assign⟩ := settled_of_no_cues empty i f
  rw [handoverStep_idle (by rw [assigned]), assigned] at pres assign
  change _ = x.step (some (s.booth b).health) releasing n at pres
  rw [assigned]
  generalize ((s.dispatched c i f).transitions c).composeStep c = t at pres assign ⊢
  have kept (h : ((t.chan c).pres.visAtEntry && !(t.chan c).pres.state.visible) = false) :
      (t.chan c).assign = { assigned := some b, incoming := none, releasePending := releasing } := by
    rw [assign, h]
    rfl
  have begun (seen : Bool) (g0 : Nat) :
      { (({ x with visAtEntry := seen } : Presenter).beginRise g0 n).fadeStep with frozen := false } = started g0 seen := by
    rw [fadeStep_beginRise]
    simp only [started]
    split <;> rfl
  have shown (g0 : Nat) (seen : Bool) : (started g0 seen).state.visible = true := by
    simp only [started]
    split <;> rfl
  refine ⟨fun d hs hd => ?_, fun d hs hd stays => ?_, fun hs intent still => ?_, fun hs => ?_, fun hs => ?_⟩
  · rw [step_usable_rises usable releasing n hs, fadeStep_rising (p := { x with visAtEntry := true }) hs hd] at pres
    refine ⟨kept ?_, ?_⟩
    · rw [pres]
      split <;> simp [hs, PState.visible]
    · rw [pres]
      split <;> rfl
  · rw [step_usable_falls usable releasing n hs stays, fadeStep_falling (p := { x with visAtEntry := true }) hs hd] at pres
    refine ⟨fun ends => ?_, fun runs => ?_⟩
    · rw [if_pos ends] at pres
      refine ⟨pres, ?_⟩
      rw [assign, pres]
      have hidden : (!x.restState.visible) = true := by rw [restState_hidden]; rfl
      refine (if_pos hidden).trans ?_
      cases releasing <;> rfl
    · rw [if_neg (not_le.2 runs)] at pres
      refine ⟨pres, kept ?_⟩
      rw [pres]
      simp [hs, PState.visible]
  · subst still
    rw [step_usable_reverses usable n hs intent, begun] at pres
    refine ⟨pres, kept ?_⟩
    rw [pres, shown]
    simp
  · rw [step_usable_waitFeed usable releasing n hs, begun] at pres
    refine ⟨pres, kept ?_⟩
    rw [pres, shown]
    simp
  · rw [step_usable_still usable releasing n hs] at pres
    refine ⟨pres, kept ?_⟩
    rw [pres]
    rcases hs with hs | hs <;> simp [hs, PState.visible]

/-- Settles O38, by health, loss mode and state. -/
theorem lossModesReactAtTheFrameStart : Obligations.LossModesReactAtTheFrameStart := by
  intro s c i f a releasing starts empty assigned lost
  refine ⟨_, exec_dispatched starts, ((moves_dispatched s c i f).trans (moves_settled _ c)).booths, ?_⟩
  intro x y n seen out falls
  obtain ⟨pres, assign⟩ := settled_of_no_cues empty i f
  rw [handoverStep_idle (by rw [assigned]), assigned] at pres assign
  change y = x.step (a.map fun b => (s.booth b).health) releasing n at pres
  have shown (q : Presenter) : q.state.visible = true ↔ seen q := by rw [visible_eq, decide_eq_true_eq]
  have entry : y.visAtEntry = x.state.visible := by rw [pres, visAtEntry_step]
  rw [assigned]
  refine ⟨?_, fun hs => ?_, fun b hb hs cut => ?_, fun b hb health => ⟨fun hold hs => ?_, fun freeze hs => ?_, fun d freeze hs hd => ?_,
    fun d hl hs hd => ?_⟩⟩
  · rw [assign]
    change (if (y.visAtEntry && !y.state.visible) = true then _ else _) = _
    simp only [entry, ← shown]
    cases x.state.visible <;> cases y.state.visible <;> cases releasing <;> rfl
  · rw [pres]
    refine step_hidden releasing n hs fun j hj => ?_
    obtain ⟨b, hb, rfl⟩ := Option.map_eq_some_iff.1 hj
    rcases lost b hb with h | h <;> rw [h] <;> rfl
  · subst hb
    rw [pres]
    rcases lost b rfl with h | h
    · have hcut : x.loss = .cut := cut.resolve_left (by simp [h])
      rw [Option.map_some, h]
      exact step_cut releasing n ((shown x).2 hs) hcut
    · rw [Option.map_some, h]
      exact step_absent releasing n ((shown x).2 hs)
  · subst hb
    intro m
    rw [pres, Option.map_some, health, step_holdFade releasing n hs hold, fallSteps_eq]
    have thaw : decide (x.loss = .freeze) = false := by rw [hold]; rfl
    simp only [falls, thaw]
    rfl
  · subst hb
    rw [pres, Option.map_some, health, step_freeze releasing n (by rw [hs]; rfl) freeze,
      fadeStep_still (p := { x with visAtEntry := true }) (.inr (.inr (.inr hs)))]
    simp [Presenter.setFrozen, hs, freeze, PState.visible]
  · subst hb
    rw [pres, Option.map_some, health, step_freeze releasing n (by rw [hs]; rfl) freeze,
      fadeStep_rising (p := { x with visAtEntry := true }) hs hd]
    split <;> simp [Presenter.setFrozen, hs, freeze, PState.visible]
  · subst hb
    rw [pres, Option.map_some, health, step_lost_falls releasing n hl hs hd]
    simp only [falls]
    rw [← hs]
    rfl

end Sys2Proof.Proofs
end

section
/-!
PROOF. The handover step of a frame start, and the presenter step that follows it (R110, R113).
-/
namespace Sys2Proof.Machine

/-- The presenter has left the visible states and rests (R91, R95, R97). -/
def Presenter.Rests (x q : Presenter) : Prop := q.state = x.restState ∧ q.g = 0 ∧ q.fade = none

/-- A fall is at its last step. -/
def Presenter.AtEnd (x : Presenter) : Prop := ∃ d, x.fade = some d ∧ d.m ≤ d.i + 1

theorem fadeStep_ends {x : Presenter} (hs : x.state = .falling) (h : x.AtEnd) : x.fadeStep = x.cutToZero := by
  obtain ⟨d, hd, ends⟩ := h
  rw [fadeStep_falling hs hd, if_pos ends]

theorem fadeStep_runs {x : Presenter} (hs : x.state = .falling) (h : ¬x.AtEnd) : x.fadeStep.state = .falling := by
  cases hd : x.fade with
  | none => rw [fadeStep_still (.inl hd), hs]
  | some d =>
    rw [fadeStep_falling hs hd, if_neg fun ends => h ⟨d, hd, ends⟩]
    exact hs

theorem fadeStep_rises {x : Presenter} (hs : x.state = .rising) : x.fadeStep.state.visible = true := by
  cases hd : x.fade with
  | none =>
    rw [fadeStep_still (.inl hd), hs]
    rfl
  | some d =>
    rw [fadeStep_rising hs hd]
    split
    · rfl
    · change x.state.visible = true
      rw [hs]
      rfl

section Leaves
variable {x : Presenter} (n : Nat)

/-- With a usable feed a visible presenter leaves at the last step of a fall whose intent is OFF, and not otherwise (R90, R91). -/
theorem step_usable_leaves {k : Health} (hk : k.usable = true) (hv : x.state.visible = true) :
    (x.state = .falling ∧ x.AtEnd ∧ x.intent = false → x.Rests (x.step (some k) false n)) ∧
    (¬(x.state = .falling ∧ x.AtEnd ∧ x.intent = false) → (x.step (some k) false n).state.visible = true) := by
  refine ⟨fun ⟨hs, ends, off⟩ => ?_, fun stays => ?_⟩
  · rw [step_usable_falls hk false n hs (.inl off), fadeStep_ends (x := { x with visAtEntry := true }) hs ends]
    exact ⟨rfl, rfl, rfl⟩
  · cases hs : x.state with
    | off | waitFeed =>
      rw [hs] at hv
      cases hv
    | on =>
      rw [step_usable_still hk false n (.inr hs)]
      exact hv
    | rising =>
      rw [step_usable_rises hk false n hs]
      exact fadeStep_rises (x := { x with visAtEntry := true }) hs
    | falling =>
      cases intent : x.intent with
      | true =>
        rw [step_usable_reverses hk n hs intent, fadeStep_beginRise]
        split <;> rfl
      | false =>
        rw [step_usable_falls hk false n hs (.inl intent)]
        have runs : ¬x.AtEnd := fun ends => stays ⟨hs, ends, intent⟩
        change (({ x with visAtEntry := true } : Presenter).fadeStep).state.visible = true
        rw [fadeStep_runs (x := { x with visAtEntry := true }) hs runs]
        rfl

/-- With a LOST booth a visible presenter leaves under CUT, where the fall of HOLD_FADE has one step, and at the last step of a
fall (R94 to R96). -/
theorem step_lost_leaves (hv : x.state.visible = true) :
    (x.loss = .cut ∨ x.loss = .holdFade ∧ x.state ≠ .falling ∧ (n * x.g + 255) / 256 ≤ 1 ∨ x.state = .falling ∧ x.AtEnd →
      x.Rests (x.step (some .lost) false n)) ∧
    (¬(x.loss = .cut ∨ x.loss = .holdFade ∧ x.state ≠ .falling ∧ (n * x.g + 255) / 256 ≤ 1 ∨ x.state = .falling ∧ x.AtEnd) →
      (x.step (some .lost) false n).state.visible = true) := by
  have oneStep : fallSteps n x.g ≤ 1 ↔ (n * x.g + 255) / 256 ≤ 1 := by
    rw [fallSteps_eq, Nat.max_le]
    exact and_iff_right le_rfl
  have start : x.state ≠ .falling → x.state = .rising ∨ x.state = .on := by
    revert hv
    cases x.state <;> simp [PState.visible]
  by_cases cut : x.loss = .cut
  · rw [step_cut false n hv cut]
    exact ⟨fun _ => ⟨rfl, rfl, rfl⟩, fun h => absurd (.inl cut) h⟩
  by_cases hs : x.state = .falling
  · have mode : x.loss = .holdFade ∨ x.loss = .freeze := by
      revert cut
      cases x.loss <;> simp
    have runsOn : x.step (some .lost) false n = ({ x with visAtEntry := true } : Presenter).fadeStep.setFrozen (some .lost) := by
      rw [step_lost false n hv]
      rcases mode with h | h <;> simp only [Presenter.onLost, Presenter.fallForRelease, h, hs]
    rw [runsOn]
    refine ⟨fun h => ?_, fun h => ?_⟩
    · have ends : x.AtEnd := by
        rcases h with h | h | h
        · exact absurd h cut
        · exact absurd hs h.2.1
        · exact h.2
      rw [fadeStep_ends (x := { x with visAtEntry := true }) hs ends]
      exact ⟨rfl, rfl, rfl⟩
    · change (({ x with visAtEntry := true } : Presenter).fadeStep).state.visible = true
      rw [fadeStep_runs (x := { x with visAtEntry := true }) hs fun ends => h (.inr (.inr ⟨hs, ends⟩))]
      rfl
  by_cases hold : x.loss = .holdFade
  · rw [step_holdFade false n (start hs) hold]
    refine ⟨fun h => ?_, fun h => ?_⟩
    · have one : fallSteps n x.g ≤ 1 := by
        rcases h with h | h | h
        · exact absurd h cut
        · exact oneStep.2 h.2.2
        · exact absurd h.1 hs
      rw [if_pos one]
      exact ⟨rfl, rfl, rfl⟩
    · rw [if_neg fun one => h (.inr (.inl ⟨hold, hs, oneStep.1 one⟩))]
      rfl
  · have freeze : x.loss = .freeze := by
      revert cut hold
      cases x.loss <;> simp
    refine ⟨fun h => ?_, fun _ => ?_⟩
    · rcases h with h | h | h
      · exact absurd h cut
      · exact absurd h.1 hold
      · exact absurd h.1 hs
    · rw [step_freeze false n hv freeze]
      change (({ x with visAtEntry := true } : Presenter).fadeStep).state.visible = true
      rcases start hs with h | h
      · exact fadeStep_rises (x := { x with visAtEntry := true }) h
      · rw [fadeStep_still (p := { x with visAtEntry := true }) (.inr (.inr (.inr h)))]
        exact hv

/-- When a visible presenter leaves at its step, by the health of its booth (R90 to R97). -/
abbrev Presenter.Leaves (x : Presenter) (k : Health) (n : Nat) : Prop :=
  k = .absent ∨ k = .lost ∧ x.loss = .cut ∨
    k = .lost ∧ x.loss = .holdFade ∧ x.state ≠ .falling ∧ (n * x.g + 255) / 256 ≤ 1 ∨
    x.state = .falling ∧ x.AtEnd ∧ ¬((k = .live ∨ k = .held) ∧ x.intent = true)

theorem step_leaves (hv : x.state.visible = true) (k : Health) :
    (x.Leaves k n → x.Rests (x.step (some k) false n)) ∧
    (¬x.Leaves k n → (x.step (some k) false n).state.visible = true) := by
  cases k with
  | absent =>
    rw [step_absent false n hv]
    exact ⟨fun _ => ⟨rfl, rfl, rfl⟩, fun h => absurd (.inl rfl) h⟩
  | lost => simpa [Presenter.Leaves] using step_lost_leaves n hv
  | live => simpa [Presenter.Leaves] using step_usable_leaves (k := .live) n rfl hv
  | held => simpa [Presenter.Leaves] using step_usable_leaves (k := .held) n rfl hv

end Leaves

/-! ### The handover step (R110) -/

theorem usable_iff (k : Health) : k.usable = true ↔ k = .live ∨ k = .held := by cases k <;> simp [Health.usable]

/-- The four cases of R110 on a record with no release pending. -/
theorem handover_cases (b : BoothNo) (inc : Incoming) (k j : Health) :
    (Assign.mk (some b) (some inc) false).handover inc k (some j) =
      if inc.nx = 0 then { assigned := some inc.booth, incoming := none, releasePending := false }
      else if ¬(k = .live ∨ k = .held) then { assigned := some b, incoming := none, releasePending := false }
      else if ¬(j = .live ∨ j = .held) ∨ inc.nx ≤ inc.i + 1 then
        { assigned := some inc.booth, incoming := none, releasePending := false }
      else { assigned := some b, incoming := some { inc with i := inc.i + 1, h := (512 * (inc.i + 1) + inc.nx) / (2 * inc.nx) },
             releasePending := false } := by
  have progress : crossfadeProgress inc.nx (inc.i + 1) = (512 * (inc.i + 1) + inc.nx) / (2 * inc.nx) := by
    simp only [crossfadeProgress, roundDiv, Config.whole, ← Nat.mul_assoc, Nat.reduceMul]
  simp only [Assign.handover, Assign.complete, progress, Option.any_some, Bool.not_eq_true', Bool.eq_false_iff, ne_eq, usable_iff]
  by_cases cut : inc.nx = 0
  · simp only [cut, if_true]
  · by_cases hk : k = .live ∨ k = .held
    · by_cases hj : j = .live ∨ j = .held
      · simp [cut, hk, hj]
      · simp [cut, hk, hj]
    · simp [cut, hk]

theorem handoverStep_some {s : State} {c : ChanNo} {inc : Incoming} (h : (s.chan c).assign.incoming = some inc) :
    ((s.handoverStep c).chan c).assign =
      (s.chan c).assign.handover inc (s.booth inc.booth).health (s.assignedHealth c) := by
  simp only [State.handoverStep, h, State.chan_raiseIf, State.chan_setAssign_self]

theorem onReport_handover {a : Assign} {o : BoothNo} (ho : a.assigned = some o) (hr : a.releasePending = false) :
    a.onReport = { assigned := some ((a.incoming.map (·.booth)).getD o), incoming := none, releasePending := false } := by
  obtain ⟨assigned, incoming, pending⟩ := a
  cases ho
  cases hr
  cases incoming <;> rfl

/-- What the steps after the dispatch tell of the assignment: a handover that ended, at its step or by the report (R118). -/
theorem has_assignment_settled (s : State) (c : ChanNo) (p : PortNo) :
    let h := s.handoverStep c
    let q := (((s.transitions c).composeStep c).chan c).pres
    (((s.transitions c).composeStep c).port p).pending.has (.assignment c) = ((s.port p).pending.has (.assignment c) ||
      ((s.port p).role.any (fun r => r.hears (.assignment c)) &&
        ((s.chan c).assign.incoming.isSome && (h.chan c).assign.incoming.isNone ||
          (q.visAtEntry && !q.state.visible && ((h.chan c).assign.releasePending || (h.chan c).assign.incoming.isSome))))) := by
  intro h q
  have moves := (moves_handoverStep s c).trans (moves_presenterStep _ c)
  have port : ((s.transitions c).composeStep c).port p = (s.transitions c).port p := by
    rw [State.port, ports_composeStep]
    rfl
  have pres : (((s.handoverStep c).presenterStep c).chan c).pres = q := by
    simp only [q]
    rw [chan_composeStep, State.transitions, chan_placementStep]
  rw [port, State.transitions, has_placementStep, has_presenterStep, has_handoverStep, moves.role p, (moves_handoverStep s c).role p,
    pres]
  simp only [decide_true, Bool.and_true, reduceCtorEq, decide_false, Bool.and_false, Bool.or_false]
  rw [Bool.or_assoc, ← Bool.and_or_distrib_left]

end Sys2Proof.Machine

namespace Sys2Proof.Proofs
open Sys2Proof.Machine

/-- Settles O39: the handover step's four cases, then the presenter's step with the booth they leave, then its report. -/
theorem handoverStepTakesFourCases : Obligations.HandoverStepTakesFourCases := by
  intro s c i f b inc starts empty assigned seen
  refine ⟨_, exec_dispatched starts, ?_⟩
  intro x y usable only h stepped n
  have hv : x.state.visible = true := by
    rw [visible_eq]
    exact decide_eq_true seen
  have handed : ((s.handoverStep c).chan c).assign = stepped := by
    rw [handoverStep_some (inc := inc) (by rw [assigned]), assigned, State.assignedHealth, assigned]
    exact handover_cases b inc _ _
  obtain ⟨o, ho, pending⟩ : ∃ o, stepped.assigned = some o ∧ stepped.releasePending = false := by
    simp only [stepped, only]
    split_ifs <;> exact ⟨_, rfl, rfl⟩
  obtain ⟨pres, assign⟩ := settled_of_no_cues empty i f
  rw [handed, ho, pending] at pres
  rw [handed] at assign
  change y = x.step (some (s.booth o).health) false n at pres
  have entry : y.visAtEntry = true := by rw [pres, visAtEntry_step, hv]
  change _ = if (y.visAtEntry && !y.state.visible) = true then stepped.onReport else stepped at assign
  rw [entry, Bool.true_and] at assign
  obtain ⟨gone, stays⟩ := step_leaves n hv (s.booth o).health
  rw [← pres] at gone stays
  refine ⟨o, ho, ?_, fun p => ?_⟩
  · intro leaves
    refine ⟨fun left => ?_, fun left => ?_, fun on live => ?_⟩
    · obtain ⟨rest, level, fade⟩ := gone left
      have hidden : y.state.visible = false := by rw [rest, restState_hidden]
      rw [hidden, onReport_handover ho pending] at assign
      exact ⟨rest, level, fade, assign⟩
    · have visible := stays left
      rw [visible] at assign
      rw [visible_eq, decide_eq_true_eq] at visible
      exact ⟨visible, assign⟩
    · rw [pres, step_usable_still ((usable_iff _).2 live) false n (.inr on)]
      exact on
  · have told := has_assignment_settled (s.dispatched c i f) c p
    have before := has_dispatched s c i f (e := .assignment c) (by simp) p
    dsimp only at told
    rw [before, (moves_dispatched s c i f).role p, assign_dispatched,
      assign_handoverStep_congr (assign_dispatched s c i f) (moves_dispatched s c i f).booth, handed, pending, assigned] at told
    change _ = (_ || (_ && (_ || (y.visAtEntry && !y.state.visible && _)))) at told
    rw [entry] at told
    rw [assign]
    have ended : ((if (!y.state.visible) = true then stepped.onReport else stepped).incoming.isNone) =
        (stepped.incoming.isNone || (!y.state.visible && stepped.incoming.isSome)) := by
      cases y.state.visible with
      | true => simp
      | false =>
        rw [onReport_handover ho pending]
        cases stepped.incoming <;> rfl
    rw [ended]
    simpa [Notices.has] using told

end Sys2Proof.Proofs
end

section
/-!
PROOF. The programme path at a frame start and beside one (chapter 1).
-/
namespace Sys2Proof.Machine

/-! ### The timecode read with a frame (R4, R5) -/

theorem readTimecode_valid {r : Rate} {x : Sys2Proof.Timecode} (h : tcValid r x = true) :
    readTimecode r (some x) = some (tcToFrame r x) := if_pos h

theorem readTimecode_invalid {r : Rate} {t : Option Sys2Proof.Timecode} (h : ∀ x, t = some x → tcValid r x = false) :
    readTimecode r t = none := by
  cases t with
  | none => rfl
  | some x => exact if_neg (Bool.eq_false_iff.1 (h x rfl))

section Stamp
variable {p : Path} {r : Rate} {t : Option Sys2Proof.Timecode}

theorem entryTc_read {n : Nat} (h : readTimecode r t = some n) : p.entryTc r t = n := by
  simp only [Path.entryTc, h]

theorem entryTc_next {l : Nat} (h : readTimecode r t = none) (hl : p.lastTc = some l) : p.entryTc r t = (l + 1) % r.day := by
  simp only [Path.entryTc, h, hl]

theorem entryTc_first (h : readTimecode r t = none) (hl : p.lastTc = none) : p.entryTc r t = 0 := by
  simp only [Path.entryTc, h, hl]

end Stamp

/-! ### The frame that enters, and the output frame (R7, R9 to R11) -/

/-- The frame that enters the delay line. -/
def Path.entering (p : Path) (r : Rate) (f : InputFrame) : Frame :=
  { picture := f.picture, audio := f.audio, tc := p.entryTc r f.timecode }

/-- Step 1's path stamps the entering frame by R4 and R5. -/
theorem stamps_enter (p : Path) (r : Rate) (g : Nat) (f : InputFrame) :
    p.Stamps r f.timecode (p.entering r f) (p.enter r g f.picture f.audio f.timecode) where
  valid x hx h := by
    have read : readTimecode r f.timecode = some (tcToFrame r x) := by rw [hx, readTimecode_valid h]
    exact ⟨entryTc_read read, congrArg Option.isNone read⟩
  supplied h := by
    have none := readTimecode_invalid h
    exact ⟨fun l => entryTc_next none, entryTc_first none, congrArg Option.isNone none⟩
  last := rfl

section Slew
variable {p : Path} {g : Nat}

theorem slew_level (h : p.bypass = true ∨ p.line.length = g) : p.slew g = (.stay, 0) :=
  if_pos (by simpa using h)

variable (hb : p.bypass = false) (hg : p.line.length ≠ g)
include hb hg

theorem slew_wait (h : p.slewCounter + 1 < p.slewInterval) : p.slew g = (.stay, p.slewCounter + 1) :=
  (if_neg (by simp [hb, hg])).trans (if_neg (not_le.2 h))

theorem slew_steps (h : p.slewInterval ≤ p.slewCounter + 1) : p.slew g = (if p.line.length < g then .rep else .drop, 0) :=
  (if_neg (by simp [hb, hg])).trans (if_pos h)

end Slew

theorem some_headD_append (l : List Frame) (e : Frame) : some ((l ++ [e]).headD e) = (l ++ [e]).head? := by cases l <;> rfl

/-- Step 1's path sends what R7 and R9 to R11 say. -/
theorem outputs_enter (p : Path) (r : Rate) (g : Nat) (f : InputFrame) :
    p.Outputs g (p.entering r f) (p.enter r g f.picture f.audio f.timecode) := by
  have entered (k : Slew × Nat) (h : p.slew g = k) : p.enter r g f.picture f.audio f.timecode = { p.stamp r f.timecode with
      bypass := false, line := (p.chooseOutput k.1 (p.entering r f)).2, lastOut := some (p.chooseOutput k.1 (p.entering r f)).1,
      outTc := (p.chooseOutput k.1 (p.entering r f)).1.tc, slewCounter := k.2 } := by
    subst h
    rfl
  refine { level := fun h => ?_, wait := fun hb hg h => ?_, rep := fun hb hg h => ?_, drop := fun hb hg h => ?_, out := ?_ }
  · rw [entered _ (slew_level h)]
    exact ⟨rfl, some_headD_append .., rfl⟩
  · rw [entered _ (slew_wait hb hg h)]
    exact ⟨rfl, some_headD_append .., rfl⟩
  · rw [entered _ (slew_steps hb hg.ne h), if_pos hg]
    refine ⟨rfl, rfl, fun o ho => ?_⟩
    simp only [Path.chooseOutput, ho, Option.getD_some]
  · rw [entered _ (slew_steps hb hg.ne' h), if_neg (not_lt.2 hg.le)]
    refine ⟨rfl, rfl, ?_⟩
    cases hl : p.line with
    | nil => simp [hl] at hg
    | cons o l =>
      simp only [Path.chooseOutput, hl, List.cons_append, List.tail_cons]
      exact some_headD_append ..
  · exact ⟨rfl, _, rfl, rfl⟩

/-! ### The path's part of a frame start -/

/-- The event that brings a frame start touches the lock and its reference alone. -/
theorem event_eq (p : Path) (a b : Bool) :
    p.event a b = { p with locked := (p.event a b).locked, prevValid := (p.event a b).prevValid } := by
  unfold Path.event
  split
  · rfl
  · split <;> rfl

/-- The frame that enters at a frame start, as the path stamps it. -/
def State.entering (s : State) (c : ChanNo) (f : InputFrame) : Frame := (s.chan c).path.entering s.rate f

section FrameStartPath
variable (s : State) (c : ChanNo) (i : Instr) (f : InputFrame)

theorem path_frameStart : ((((s.dispatched c i f).transitions c).composeStep c).chan c).path =
    { ((s.chan c).path.event (Instr.isArrival i) (Instr.isTimeout i)).enter s.rate (s.chan c).pool.granted
        f.picture f.audio f.timecode with sent := ((((s.dispatched c i f).transitions c).composeStep c).chan c).path.sent } := by
  rw [← path_dispatched]
  exact path_settled (s.dispatched c i f) c

theorem stamps_frameStart : (s.chan c).path.Stamps s.rate f.timecode (s.entering c f)
    ((((s.dispatched c i f).transitions c).composeStep c).chan c).path := by
  rw [path_frameStart, event_eq]
  have stamps := stamps_enter { (s.chan c).path with
    locked := ((s.chan c).path.event (Instr.isArrival i) (Instr.isTimeout i)).locked
    prevValid := ((s.chan c).path.event (Instr.isArrival i) (Instr.isTimeout i)).prevValid } s.rate (s.chan c).pool.granted f
  exact ⟨stamps.valid, stamps.supplied, stamps.last⟩

theorem outputs_frameStart : (s.chan c).path.Outputs (s.chan c).pool.granted (s.entering c f)
    ((((s.dispatched c i f).transitions c).composeStep c).chan c).path := by
  rw [path_frameStart, event_eq]
  have outputs := outputs_enter { (s.chan c).path with
    locked := ((s.chan c).path.event (Instr.isArrival i) (Instr.isTimeout i)).locked
    prevValid := ((s.chan c).path.event (Instr.isArrival i) (Instr.isTimeout i)).prevValid } s.rate (s.chan c).pool.granted f
  exact ⟨outputs.level, outputs.wait, outputs.rep, outputs.drop, outputs.out⟩

theorem slewInterval_frameStart : ((((s.dispatched c i f).transitions c).composeStep c).chan c).path.slewInterval =
    (s.chan c).path.slewInterval := by
  rw [path_frameStart, event_eq]
  rfl

theorem locked_frameStart : ((((s.dispatched c i f).transitions c).composeStep c).chan c).path.locked =
    ((s.chan c).path.event (Instr.isArrival i) (Instr.isTimeout i)).locked := by
  rw [path_frameStart]
  rfl

end FrameStartPath

/-- A path is LOCKED after a frame start where an arrival brought it (R1, R2). -/
theorem locked_event_iff {s : State} {c : ChanNo} {i : Instr} {f : InputFrame} (h : FrameStarts s c i f) :
    ((s.chan c).path.event (Instr.isArrival i) (Instr.isTimeout i)).locked = true ↔
      ∃ d g gap, i = .programmeFrameArrival d g gap := by
  cases h with
  | arrival f gap => exact ⟨fun _ => ⟨_, _, _, rfl⟩, fun _ => rfl⟩
  | freeRun _ unlocked =>
    change (s.chan c).path.locked = true ↔ _
    simp [unlocked]
  | timeout =>
    change false = true ↔ _
    simp

/-! ### The grants that a drop's pass reads -/

theorem samePools_regrant {s t : State} (h : s.SamePools t) (c : ChanNo) : (s.regrant c).SamePools (t.regrant c) := by
  intro d
  have line (u : State) : ((u.regrant c).chan d).path = (u.chan d).path := by
    rw [chan_regrant]
    split
    · rename_i hh
      rw [hh.1]
    · rfl
  refine ⟨?_, by rw [line, line, (h d).2]⟩
  rw [chan_regrant, chan_regrant, (h c).1, h.grantFor]
  split
  · rfl
  · exact (h d).1

theorem samePools_poolPass {s t : State} (h : s.SamePools t) : s.poolPass.SamePools t.poolPass :=
  samePools_regrant (samePools_regrant (samePools_regrant (samePools_regrant h 0) 1) 2) 3

theorem setPath_setPath (s : State) (c : ChanNo) (p q : Path) : (s.setPath c p).setPath c q = s.setPath c q := by
  apply State.ext_accessors <;> intros <;> try rfl
  simp only [State.chan_setPath, if_true]
  split <;> rfl

/-- The path entered, and the pool's pass made where the reservation fell. -/
theorem inLine_eq (s : State) (c : ChanNo) (i : Instr) (f : InputFrame) : s.inLine c i f = (s.setPath c (((s.chan c).path.event (Instr.isArrival i) (Instr.isTimeout i)).enter s.rate
      (s.chan c).pool.granted f.picture f.audio f.timecode)).poolPassIfFell c (s.chan c).reservation := by
  rw [State.inLine, entered_eq, setPath_setPath, State.chan_setPath_self, event_eq]
  rfl

theorem poolsAfter_samePools {s u v : State} (h : u.SamePools v) (c : ChanNo) (line : Nat) (pool : Pool) (e : ChanNo) :
    s.poolsAfter c line pool u e = s.poolsAfter c line pool v e := by
  rw [State.poolsAfter, State.poolsAfter, (samePools_poolPass h e).1, (h e).1]

theorem pool_setPath (s : State) (c : ChanNo) (q : Path) (e : ChanNo) : ((s.setPath c q).chan e).pool = (s.chan e).pool := by
  rw [State.chan_setPath]
  split
  · rename_i he
    rw [he]
  · rfl

theorem samePools_setPath_line {q p : Path} (h : p.line = q.line) (s : State) (c : ChanNo) :
    (s.setPath c q).SamePools (s.setPath c p) := by
  intro e
  rw [pool_setPath, pool_setPath, State.chan_setPath, State.chan_setPath]
  split
  · exact ⟨rfl, h⟩
  · exact ⟨rfl, rfl⟩

/-- The pools where a path was replaced and the pass made if the reservation fell (R15). -/
theorem pool_entered (s : State) (c : ChanNo) (q : Path) (e : ChanNo) :
    (((s.setPath c q).poolPassIfFell c (s.chan c).reservation).chan e).pool =
      s.poolsAfter c q.line.length (s.chan c).pool (s.setPath c q) e := by
  rw [pool_poolPassIfFell, State.poolsAfter, State.chan_setPath_self]
  rfl

/-- The pools of a frame start at which no cue waits (R11, R15). -/
theorem pool_of_no_cues {s : State} {c : ChanNo} (empty : (s.chan c).sched.cues = []) (i : Instr) (f : InputFrame) (e : ChanNo) :
    ((((s.dispatched c i f).transitions c).composeStep c).chan e).pool =
      s.poolsAfter c ((((s.dispatched c i f).transitions c).composeStep c).chan c).path.line.length (s.chan c).pool
        (s.setPath c ((((s.dispatched c i f).transitions c).composeStep c).chan c).path) e := by
  have line := congrArg Path.line (path_frameStart s c i f)
  have pool := (kept_settle (s.dispatched c i f) c e).1
  rw [dispatched_of_no_cues empty, inLine_eq, pool_entered] at pool
  rw [dispatched_of_no_cues empty, inLine_eq] at line ⊢
  generalize (State.transitions _ c).composeStep c = t at pool line ⊢
  dsimp only at line
  rw [pool, poolsAfter_samePools (samePools_setPath_line line s c), line]

/-- The DELAY notices of a frame start at which no cue waits (R16). -/
theorem delay_of_no_cues {s : State} {c : ChanNo} (empty : (s.chan c).sched.cues = []) (i : Instr) (f : InputFrame) (p : PortNo)
    (e : ChanNo) : ((s.dispatched c i f).port p).pending.has (.delay e) = ((s.port p).pending.has (.delay e) ||
      ((s.port p).role.any (fun r => r.hears (.delay e)) &&
        decide (((s.dispatched c i f).chan e).pool.granted ≠ (s.chan e).pool.granted))) := by
  rw [dispatched_of_no_cues empty, inLine_eq, delay_poolPassIfFell, pool_setPath]
  rfl

/-! ### Frames that start no frame (R1, R2, R6) -/

/-- A valid frame that is no frame start changes the path alone. -/
theorem validArrival_passes {s : State} {c : ChanNo} {gap : Nat} (f : InputFrame)
    (h : s.loader.phase = .starting ∨ ((s.chan c).path.lockOnArrival gap).locked = false) :
    s.validArrival c f gap = s.setPath c (((s.chan c).path.lockOnArrival gap).passBy s.rate f) := by
  have none : ((((s.chan c).path.lockOnArrival gap).locked) && !s.loader.phase.isStarting) = false := by
    rcases h with h | h
    · rw [h]
      exact Bool.and_false _
    · rw [h]
      exact Bool.false_and _
  rw [← setPath_setPath s c ((s.chan c).path.lockOnArrival gap)]
  exact if_neg (Bool.eq_false_iff.1 none)

theorem readUnderBypass_valid (p : Path) {r : Rate} {x : Sys2Proof.Timecode} (h : tcValid r x = true) :
    p.readUnderBypass r (some x) = { p with lastTc := some (tcToFrame r x), flywheel := false } := by
  simp only [Path.readUnderBypass, readTimecode_valid h]

theorem readUnderBypass_invalid (p : Path) {r : Rate} {t : Option Sys2Proof.Timecode} (h : ∀ x, t = some x → tcValid r x = false) :
    p.readUnderBypass r t = p := by
  simp only [Path.readUnderBypass, readTimecode_invalid h]

theorem readUnderBypass_keeps (p : Path) (r : Rate) (t : Option Sys2Proof.Timecode) : p.readUnderBypass r t =
    { p with lastTc := (p.readUnderBypass r t).lastTc, flywheel := (p.readUnderBypass r t).flywheel } := by
  unfold Path.readUnderBypass
  split <;> rfl

theorem passBy_bypass {p : Path} (h : p.bypass = true) (r : Rate) (f : InputFrame) :
    p.passBy r f = { p.readUnderBypass r f.timecode with
      sent := if p.locked then some ⟨f.picture, f.audio, f.timecode⟩ else p.sent } := by
  refine (if_pos h).trans ?_
  cases hl : p.locked with
  | true => rfl
  | false =>
    rw [readUnderBypass_keeps]
    rfl

/-! ### The frame sent (R39, R56) -/

theorem frameInput_moves {s t : State} {c : ChanNo} (h : s.Moves c t) : t.frameInput c =
    { g := (t.chan c).pres.g, box := (t.chan c).place.shown, cw := (s.profile (t.chan c).place.profile).cw,
      ch := (s.profile (t.chan c).place.profile).ch, edge := (s.profile (t.chan c).place.profile).edge,
      assigned := (t.chan c).assign.assigned.map s.boothInput,
      incoming := (t.chan c).assign.incoming.map (fun k => (s.boothInput k.booth, k.h)) } := by
  have booth : t.boothInput = s.boothInput := funext fun b => by rw [State.boothInput, h.booth, State.boothInput]
  rw [State.frameInput, State.currentProfile, h.profile, booth]

theorem frameInput_composeStep (s : State) (c : ChanNo) : (s.composeStep c).frameInput c = s.frameInput c := by
  rw [frameInput_moves (moves_composeStep s c), chan_composeStep]
  rfl

/-- The frame sent is the last output frame composited, with its own audio and timecode (R8, R39). -/
theorem sent_composeStep {u : State} {c : ChanNo} {o : Frame} (h : ((u.composeStep c).chan c).path.lastOut = some o)
    (out : ((u.composeStep c).chan c).path.outTc = o.tc) : ((u.composeStep c).chan c).path.sent =
      some ⟨compose o.picture (u.frameInput c), o.audio, some (tcOfFrame u.rate ((u.composeStep c).chan c).path.outTc)⟩ := by
  have last : (u.chan c).path.lastOut = some o := by
    rw [← h, chan_composeStep]
  rw [out]
  conv_lhs => rw [chan_composeStep]
  simp only [last]

/-! ### Timecodes of frame numbers (R178) -/

theorem tcOfFrame_valid {r : Rate} {n : Nat} (h : n < r.day) :
    tcValid r (tcOfFrame r n) = true ∧ tcToFrame r (tcOfFrame r n) = n := by
  rw [tcValid, decide_eq_true_eq]
  simp only [tcToFrame, tcOfFrame]
  cases r with
  | f25 =>
    simp only [Rate.day, Rate.fps] at h ⊢
    omega
  | f50 =>
    simp only [Rate.day, Rate.fps] at h ⊢
    omega

end Sys2Proof.Machine

namespace Sys2Proof.Proofs
open Sys2Proof.Machine

/-- Settles O13: the path step's path, and, with no cue, the pools of its one pass. -/
theorem frameStartFixesOutputFrame : Obligations.FrameStartFixesOutputFrame := by
  refine ⟨fun r x => ⟨by cases r <;> rfl, rfl, ?_, rfl⟩, fun s c i f starts => ?_⟩
  · rw [tcValid, decide_eq_true_eq]
    have frames : 1 ≤ r.fps := by cases r <;> decide
    omega
  have moves := (moves_dispatched s c i f).trans (moves_settled _ c)
  refine ⟨_, s.entering c f, exec_dispatched starts, rfl, rfl, stamps_frameStart s c i f, outputs_frameStart s c i f,
    slewInterval_frameStart s c i f, ?_, moves.others, moves.eq, moves.ports, fun empty => ?_⟩
  · rw [locked_frameStart]
    exact locked_event_iff starts
  refine ⟨pool_of_no_cues empty i f, fun p e => ?_⟩
  have settled := has_settled (s.dispatched c i f) c (e := .delay e) (by simp) p
  rw [delay_of_no_cues empty i f p e] at settled
  rw [(kept_settle (s.dispatched c i f) c e).1]
  simpa [Notices.has] using settled

/-- Settles O14, by the branches of an arrival. -/
theorem bypassPassesInputToOutput : Obligations.BypassPassesInputToOutput := by
  intro s c p
  refine ⟨fun f gap => ?_, fun bypass unlocked => ?_⟩
  · intro locked h
    have passes : exec (.programmeFrameArrival c f gap) s = .next (s.setPath c ((p.lockOnArrival gap).passBy s.rate f)) :=
      congrArg _ (validArrival_passes f h)
    refine ⟨fun bypass => ⟨_, passes, ?_⟩, fun ended => ?_⟩
    · have reads := readUnderBypass_keeps (p.lockOnArrival gap) s.rate f.timecode
      rw [passBy_bypass (p := p.lockOnArrival gap) bypass]
      refine ⟨?_, fun x hx valid => ?_, fun invalid => ?_, rfl⟩
      · conv_lhs => rw [reads]
        rfl
      · rw [hx, readUnderBypass_valid _ valid]
        exact ⟨rfl, rfl⟩
      · rw [readUnderBypass_invalid _ invalid]
        exact ⟨rfl, rfl⟩
    · rw [passes]
      exact congrArg (fun q => Host.Outcome.next (s.setPath c q)) (if_neg (Bool.eq_false_iff.1 ended))
  · refine congrArg _ (if_pos ?_)
    change (p.bypass && !p.locked) = true
    rw [bypass, unlocked]
    rfl

/-- Settles O16: the compositor's inputs are what the steps before it left. -/
theorem compositedFrameIsSent : Obligations.CompositedFrameIsSent := by
  refine ⟨fun r n => ⟨rfl, tcOfFrame_valid⟩, fun s c i f starts => ?_⟩
  obtain ⟨o, ho, out⟩ := (outputs_frameStart s c i f).out.2
  have sent := sent_composeStep ho out
  have inputs := frameInput_moves ((moves_dispatched s c i f).trans (moves_settled _ c))
  rw [frameInput_composeStep] at inputs
  rw [inputs, ((moves_dispatched s c i f).trans (moves_transitions _ c)).rate] at sent
  refine ⟨_, o, exec_dispatched starts, ho, ?_⟩
  generalize ((s.dispatched c i f).transitions c).composeStep c = t at sent ⊢
  exact ⟨sent, fun clear => if_pos clear⟩

end Sys2Proof.Proofs
end

section
/-!
PROOF. What a dispatch leaves in the list (R129, R130, R133).
-/
namespace Sys2Proof.Machine

/-- The signed offset of the scope chapter. -/
theorem signedOffset_spec (r : Rate) (u n : Nat) :
    let o := signedOffset r u n
    let d : Int := if r = .f25 then 2160000 else 4320000
    o ≤ d / 2 - 1 ∧ -(d / 2) ≤ o ∧ (o - ((u : Int) - n)) % d = 0 := by
  cases r with
  | f25 =>
    simp only [signedOffset, Rate.day, Rate.fps, if_true]
    split_ifs <;> omega
  | f50 =>
    simp only [signedOffset, Rate.day, Rate.fps, reduceCtorEq, if_false]
    split_ifs <;> omega

/-! ### Cues of one offset keep their order -/

theorem filter_orderedInsert (key : Cue → Int) (k : Int) (q : Cue) (l : List Cue) :
    (l.orderedInsert (fun a b => key a ≤ key b) q).filter (fun a => key a = k) = (q :: l).filter (fun a => key a = k) := by
  induction l with
  | nil => rfl
  | cons r l ih =>
    rw [List.orderedInsert_cons]
    split
    · rfl
    · rename_i later
      rw [List.filter_cons, ih, List.filter_cons, List.filter_cons, List.filter_cons]
      by_cases hq : key q = k
      · have hr : key r ≠ k := by omega
        simp [hq, hr]
      · simp [hq]

theorem filter_sortCues (key : Cue → Int) (k : Int) (l : List Cue) :
    (sortCues key l).filter (fun a => key a = k) = l.filter (fun a => key a = k) := by
  induction l with
  | nil => rfl
  | cons q l ih =>
    rw [sortCues, List.insertionSort_cons, filter_orderedInsert, List.filter_cons, List.filter_cons]
    unfold sortCues at ih
    rw [ih]

/-! ### The dispatch of a frame start -/

theorem dispatched_eq (s : State) (c : ChanNo) (i : Instr) (f : InputFrame) : s.dispatched c i f = (s.inLine c i f).dispatch c := rfl

section InLine
variable (s : State) (c : ChanNo) (i : Instr) (f : InputFrame)

/-- T does not change after the path step. -/
theorem outTc_settled : ((((s.dispatched c i f).transitions c).composeStep c).chan c).path.outTc =
    ((s.inLine c i f).chan c).path.outTc := by
  rw [path_settled, dispatched_eq, (kept_dispatch _ c c).1]

theorem offset_settled (q : Cue) : (((s.dispatched c i f).transitions c).composeStep c).offset c q = (s.inLine c i f).offset c q := by
  rw [State.offset, State.offset, outTc_settled, ((moves_dispatched s c i f).trans (moves_settled _ c)).rate,
    (moves_inLine s c i f).rate]

/-- The list that a frame start leaves. -/
theorem cues_settled : ((((s.dispatched c i f).transitions c).composeStep c).chan c).sched.cues =
    (sortCues ((s.inLine c i f).offset c) (s.chan c).sched.cues).filter
      (fun q => decide (0 < (s.inLine c i f).offset c q ∧ (s.inLine c i f).offset c q ≤ (s.rate.day / 4 : Nat) + 1)) := by
  rw [sched_settled, dispatched_eq, cues_dispatch, sched_inLine, (moves_inLine s c i f).rate]
  rfl

end InLine

end Sys2Proof.Machine

namespace Sys2Proof.Proofs
open Sys2Proof.Machine

/-- Settles O50: the sorted list without the cues that are due or stranded. -/
theorem dispatchLeavesCuesAhead : Obligations.DispatchLeavesCuesAhead := by
  refine ⟨signedOffset_spec, fun s c q => rfl, fun s c i f starts => ⟨_, exec_dispatched starts, ?_⟩⟩
  have cues := cues_settled s c i f
  have offset := offset_settled s c i f
  generalize ((s.dispatched c i f).transitions c).composeStep c = t at cues offset ⊢
  simp only [offset]
  generalize (s.inLine c i f).offset c = key at cues ⊢
  rw [cues]
  refine ⟨(sorted_sortCues key _).filter _, fun q hq => ?_, fun k low high => ?_⟩
  · rw [List.mem_filter, decide_eq_true_eq] at hq
    exact ⟨(perm_sortCues _ _).mem_iff.1 hq.1, by omega, hq.2.2⟩
  · rw [List.filter_filter, ← filter_sortCues key k]
    refine List.filter_congr fun q _ => ?_
    by_cases here : key q = k
    · simp only [here, decide_true, Bool.true_and, decide_eq_true_eq]
      omega
    · simp [here]

end Sys2Proof.Proofs
end

section
/-!
PROOF. The outcomes a dispatch writes (R130, R133, R137, R138, R140).
-/
namespace Sys2Proof.Machine

/-! ### The ring (R138) -/

/-- Outcomes written one after another. -/
def Sched.writeAll (d : Sched) (out : List OutcomeRec) : Sched := out.foldl Sched.write d

theorem writeAll_append (d : Sched) (out out' : List OutcomeRec) : d.writeAll (out ++ out') = (d.writeAll out).writeAll out' :=
  List.foldl_append ..

/-- A write reads and changes the ring and its flag alone. -/
theorem write_cues (d : Sched) (r : OutcomeRec) (l : List Cue) : ({ d with cues := l } : Sched).write r = { d.write r with cues := l } := by
  unfold Sched.write
  split <;> rfl

theorem writeAll_cues (d : Sched) (out : List OutcomeRec) (l : List Cue) :
    ({ d with cues := l } : Sched).writeAll out = { d.writeAll out with cues := l } := by
  induction out generalizing d with
  | nil => rfl
  | cons r out ih =>
    change (({ d with cues := l } : Sched).write r).writeAll out = _
    rw [write_cues, ih]
    rfl

/-- The ring takes records while it holds fewer than 16; from then on they are lost (R138). -/
theorem writeAll_eq (d : Sched) (out : List OutcomeRec) : d.writeAll out = { d with
    ring := (d.ring ++ out).take (max 16 d.ring.length)
    lost := d.lost || (!out.isEmpty && decide (16 < d.ring.length + out.length)) } := by
  induction out generalizing d with
  | nil =>
    change d = _
    rw [List.append_nil, List.take_of_length_le (le_max_right ..)]
    simp
  | cons r out ih =>
    change (d.write r).writeAll out = _
    rw [ih, Sched.write]
    split
    · rename_i room
      simp only [Config.ringCapacity] at room
      have size : max 16 (d.ring.length + 1) = max 16 d.ring.length := by omega
      have total : d.ring.length + 1 + out.length = d.ring.length + (out.length + 1) := by omega
      simp only [List.length_append, List.length_cons, List.length_nil, Nat.zero_add, size, total, List.append_assoc,
        List.cons_append, List.nil_append, List.isEmpty_cons, Bool.not_false, Bool.true_and]
      cases out with
      | nil =>
        have fits : ¬16 < d.ring.length + 1 := by omega
        simp [fits]
      | cons => rfl
    · rename_i full
      simp only [Config.ringCapacity, not_lt] at full
      have size : max 16 d.ring.length = d.ring.length := Nat.max_eq_right full
      have lost : 16 < d.ring.length + (out.length + 1) := by omega
      simp [size, lost]

/-! ### The record of a cue -/

/-- How late a cue is. -/
def State.lateness (s : State) (c : ChanNo) (q : Cue) : Nat := (-(s.offset c q)).toNat

/-- The record that a cue has when it is taken (R130, R137). -/
def State.outcomeOf (s : State) (c : ChanNo) (q : Cue) : OutcomeRec :=
  if (s.chan c).sched.lateLimit < s.lateness c q then
    ⟨q.tag, .missed, (s.chan c).path.outTc, min (s.lateness c q) 250⟩
  else if s.guardHolds c q.guard = true then
    ⟨q.tag, if (s.perform c q.fade q.action).2 = true then .done else .failed, (s.chan c).path.outTc, s.lateness c q⟩
  else ⟨q.tag, .skipped, (s.chan c).path.outTc, s.lateness c q⟩

theorem sched_writeOutcome (s : State) (c : ChanNo) (tag : Nat) (k : OutcomeKind) (n : Nat) :
    ((s.writeOutcome c tag k n).chan c).sched = (s.chan c).sched.write ⟨tag, k, (s.chan c).path.outTc, n⟩ := by
  simp [State.writeOutcome]

theorem sched_takeCue (s : State) (c : ChanNo) (q : Cue) :
    ((s.takeCue c q).chan c).sched = (s.chan c).sched.write (s.outcomeOf c q) := by
  obtain ⟨path, -, sched⟩ := kept_perform s c q.fade q.action c
  unfold State.takeCue State.outcomeOf
  dsimp only
  change (State.chan (if (s.chan c).sched.lateLimit < s.lateness c q then _ else _) c).sched = _
  split
  · rw [sched_writeOutcome]
    rfl
  · split
    · rw [sched_writeOutcome, path, sched]
      rfl
    · rw [sched_writeOutcome]
      rfl

/-- What a record must be for the cue it tells of (R130, R137). -/
def Cue.ToldBy (limit outTc : Nat) (late : Cue → Nat) (q : Cue) (r : OutcomeRec) : Prop :=
  (limit < late q → r = ⟨q.tag, .missed, outTc, min (late q) 250⟩) ∧
  (late q ≤ limit → ∃ o : OutcomeKind, o ≠ .missed ∧ r = ⟨q.tag, o, outTc, late q⟩)

theorem toldBy_outcomeOf (s : State) (c : ChanNo) (q : Cue) :
    q.ToldBy (s.chan c).sched.lateLimit (s.chan c).path.outTc (s.lateness c) (s.outcomeOf c q) := by
  refine ⟨fun late => if_pos late, fun intime => ?_⟩
  unfold State.outcomeOf
  rw [if_neg (not_lt.2 intime)]
  split
  · refine ⟨_, ?_, rfl⟩
    split <;> simp
  · exact ⟨.skipped, by simp, rfl⟩

/-- The record does not depend on the cues that wait. -/
theorem outcomeOf_setCues (s : State) (c : ChanNo) (l : List Cue) (q : Cue) : (s.setCues c l).outcomeOf c q = s.outcomeOf c q := by
  have chan : (s.setCues c l).chan c = { s.chan c with sched := { (s.chan c).sched with cues := l } } := by simp [State.setCues]
  have guard : (s.setCues c l).guardHolds c q.guard = s.guardHolds c q.guard := by
    cases q.guard <;> simp only [State.guardHolds, State.feedUsable, State.assignedHealth, chan] <;> rfl
  have done : ((s.setCues c l).perform c q.fade q.action).2 = (s.perform c q.fade q.action).2 := by
    cases q.action with
    | selectProfile n =>
      have profile : (s.setCues c l).profile n = s.profile n := rfl
      simp only [State.perform, profile]
      split <;> rfl
    | _ => rfl
  have late : (s.setCues c l).lateness c q = s.lateness c q := by
    rw [State.lateness, State.offset, chan]
    rfl
  rw [State.outcomeOf, guard, done, late, chan]
  rfl

/-! ### The records of a dispatch -/

/-- Taking the due cues of a list in order writes a record for each (R130). -/
theorem sched_takeDue (c : ChanNo) {l : List Cue} {s : State} (h : l.Pairwise (fun a b => s.offset c a ≤ s.offset c b)) :
    ∃ out, List.Forall₂ (Cue.ToldBy (s.chan c).sched.lateLimit (s.chan c).path.outTc (s.lateness c))
        (l.filter fun q => s.offset c q ≤ 0) out ∧
      ((State.takeDue c l s).chan c).sched =
        { (s.chan c).sched.writeAll out with cues := l.filter fun q => 0 < s.offset c q } ∧
      out.head? = (l.filter fun q => s.offset c q ≤ 0).head?.map (s.outcomeOf c) := by
  have left := cues_takeDue c l s h
  induction l generalizing s with
  | nil => exact ⟨[], .nil, by simp [State.takeDue, State.setCues, Sched.writeAll], rfl⟩
  | cons q l ih =>
    rw [List.pairwise_cons] at h
    unfold State.takeDue at left ⊢
    by_cases due : s.offset c q ≤ 0
    · rw [if_pos due] at left ⊢
      obtain ⟨path, -, -, limit⟩ := kept_takeCue (s.setCues c l) c q c
      have rate := (moves_takeCue (s.setCues c l) c q).rate
      have sched := sched_takeCue (s.setCues c l) c q
      rw [outcomeOf_setCues] at sched
      have chan : (s.setCues c l).chan c = { s.chan c with sched := { (s.chan c).sched with cues := l } } := by
        simp [State.setCues]
      rw [chan] at path limit sched
      have offset (r : Cue) : ((s.setCues c l).takeCue c q).offset c r = s.offset c r := offset_congr (s := s) rate path r
      have late (r : Cue) : ((s.setCues c l).takeCue c q).lateness c r = s.lateness c r := by
        rw [State.lateness, offset, State.lateness]
      generalize (s.setCues c l).takeCue c q = u at path limit sched offset late left ⊢
      have order : l.Pairwise (fun a b => u.offset c a ≤ u.offset c b) := by
        simp only [offset]
        exact h.2
      obtain ⟨out, told, ring, -⟩ := ih order (cues_takeDue c l u order)
      simp only [offset, path, limit, funext late] at told ring
      refine ⟨s.outcomeOf c q :: out, ?_, ?_, ?_⟩
      · rw [List.filter_cons_of_pos (by simpa using due)]
        exact .cons (toldBy_outcomeOf s c q) told
      · rw [ring, sched, write_cues, writeAll_cues, List.filter_cons_of_neg (by simpa using due)]
        rfl
      · rw [List.filter_cons_of_pos (by simpa using due)]
        rfl
    · rw [if_neg due]
      have none : (q :: l).filter (fun r => s.offset c r ≤ 0) = [] := by
        refine List.filter_eq_nil_iff.2 fun r hr => ?_
        rcases List.mem_cons.1 hr with rfl | hr
        · simpa using due
        · have := h.1 r hr
          simp only [decide_eq_true_eq]
          omega
      have all : (q :: l).filter (fun r => 0 < s.offset c r) = q :: l := by
        refine List.filter_eq_self.2 fun r hr => ?_
        rcases List.mem_cons.1 hr with rfl | hr
        · simpa using due
        · have := h.1 r hr
          simp only [decide_eq_true_eq]
          omega
      rw [none, all]
      exact ⟨[], .nil, by simp [State.setCues, Sched.writeAll], rfl⟩

/-- The records of stranded cues (R133). -/
def strandedRecords (outTc : Nat) (l : List Cue) : List OutcomeRec := l.map fun q => ⟨q.tag, .missed, outTc, 0⟩

theorem sched_removeStranded (s : State) (c : ChanNo) : ((s.removeStranded c).chan c).sched =
    { (s.chan c).sched.writeAll (strandedRecords (s.chan c).path.outTc ((s.chan c).sched.cues.filter (s.stranded c))) with
      cues := (s.chan c).sched.cues.filter fun q => !s.stranded c q } := by
  have written (l : List Cue) (u : State) : ((l.foldl (fun t q => t.writeOutcome c q.tag .missed 0) u).chan c).sched =
      (u.chan c).sched.writeAll (strandedRecords (u.chan c).path.outTc l) := by
    induction l generalizing u with
    | nil => rfl
    | cons q l ih =>
      rw [List.foldl_cons, ih, sched_writeOutcome, path_writeOutcome]
      rfl
  have chan (l : List Cue) : (s.setCues c l).chan c = { s.chan c with sched := { (s.chan c).sched with cues := l } } := by
    simp [State.setCues]
  unfold State.removeStranded
  dsimp only
  rw [written, chan, writeAll_cues]

/-- The cue scheduler after a dispatch: its records, and the cues that remain (R129 to R133). -/
theorem sched_dispatch (s : State) (c : ChanNo) :
    let sorted := sortCues (s.offset c) (s.chan c).sched.cues
    ∃ out, List.Forall₂ (Cue.ToldBy (s.chan c).sched.lateLimit (s.chan c).path.outTc (s.lateness c))
        (sorted.filter fun q => s.offset c q ≤ 0) out ∧
      (∃ l, ((s.dispatch c).chan c).sched = { (s.chan c).sched.writeAll (out ++ strandedRecords (s.chan c).path.outTc
        (sorted.filter fun q => (s.rate.day / 4 : Nat) + 1 < s.offset c q)) with cues := l }) ∧
      out.head? = (sorted.filter fun q => s.offset c q ≤ 0).head?.map (s.outcomeOf c) := by
  intro sorted
  obtain ⟨out, told, ring, first⟩ := sched_takeDue c (sorted_sortCues (s.offset c) (s.chan c).sched.cues)
  refine ⟨out, told, ?_, first⟩
  have kept := kept_takeDue c sorted s c
  have moves := moves_takeDue c sorted s
  have stranded (q : Cue) : (State.takeDue c sorted s).stranded c q = decide ((s.rate.day / 4 : Nat) + 1 < s.offset c q) := by
    rw [State.stranded, offset_congr moves.rate kept.1, moves.rate]
    rfl
  have removed := sched_removeStranded (State.takeDue c sorted s) c
  change ((State.takeDue c sorted s).chan c).sched = _ at ring
  rw [ring, kept.1] at removed
  simp only [stranded, List.filter_filter] at removed
  have far : (sorted.filter fun q => decide ((s.rate.day / 4 : Nat) + 1 < s.offset c q) && decide (0 < s.offset c q)) =
      sorted.filter fun q => (s.rate.day / 4 : Nat) + 1 < s.offset c q := by
    refine List.filter_congr fun q _ => ?_
    rw [Bool.eq_iff_iff, Bool.and_eq_true, decide_eq_true_eq, decide_eq_true_eq]
    omega
  have dispatched : ((s.dispatch c).chan c).sched = (((State.takeDue c sorted s).removeStranded c).chan c).sched := by
    simp only [State.dispatch, State.chan_raiseIf]
    rfl
  rw [dispatched, removed, writeAll_cues, writeAll_append]
  simp only [sorted] at far ⊢
  rw [far]
  exact ⟨_, rfl⟩

end Sys2Proof.Machine
end

section
/-!
PROOF. The outcomes of a frame start's dispatch, and what a cue that is due alone does (R82, R83, R130 to R140).
-/
namespace Sys2Proof.Machine

/-! ### The records by position -/

theorem forall₂_get {α β : Type} {R : α → β → Prop} {l : List α} {m : List β} (h : List.Forall₂ R l m) {k : Nat} {a : α}
    (ha : l[k]? = some a) : ∃ b, m[k]? = some b ∧ R a b := by
  induction h generalizing k with
  | nil => cases ha
  | cons here _ ih =>
    cases k with
    | zero =>
      obtain rfl := by simpa using ha
      exact ⟨_, rfl, here⟩
    | succ k => exact ih (by simpa using ha)

theorem dispatchWrites {limit outTc : Nat} {late : Cue → Nat} {due stranded : List Cue} {out : List OutcomeRec}
    (h : List.Forall₂ (Cue.ToldBy limit outTc late) due out) :
    DispatchWrites limit outTc late due stranded (out ++ strandedRecords outTc stranded) := by
  have at' {k : Nat} {q : Cue} (hq : due[k]? = some q) :
      ∃ r, (out ++ strandedRecords outTc stranded)[k]? = some r ∧ q.ToldBy limit outTc late r := by
    obtain ⟨r, hr, told⟩ := forall₂_get h hq
    refine ⟨r, ?_, told⟩
    rw [List.getElem?_append_left (List.getElem?_eq_some_iff.1 hr).1, hr]
  refine ⟨?_, fun k q hq past => ?_, fun k q hq intime => ?_, fun k q hq => ?_⟩
  · rw [List.length_append, strandedRecords, List.length_map, h.length_eq]
  · obtain ⟨r, hr, told⟩ := at' hq
    rw [hr, told.1 past]
  · obtain ⟨r, hr, told⟩ := at' hq
    obtain ⟨o, ho, rfl⟩ := told.2 intime
    exact ⟨o, ho, hr⟩
  · rw [h.length_eq, List.getElem?_append_right (Nat.le_add_right ..), Nat.add_sub_cancel_left, strandedRecords, List.getElem?_map, hq]
    rfl

/-- Each cue of a list is due, ahead within a bound, or beyond it. -/
theorem length_split (key : Cue → Int) {h : Int} (hh : 0 ≤ h) (l : List Cue) : l.length =
    (l.filter fun q => key q ≤ 0).length + (l.filter fun q => 0 < key q ∧ key q ≤ h).length + (l.filter fun q => h < key q).length := by
  induction l with
  | nil => rfl
  | cons q l ih =>
    simp only [List.filter_cons, List.length_cons, ih, decide_eq_true_eq]
    rcases lt_or_ge 0 (key q) with pos | due
    · rcases lt_or_ge h (key q) with far | near
      · rw [if_neg (by omega), if_neg (by omega), if_pos far, List.length_cons]
        omega
      · rw [if_neg (by omega), if_pos ⟨pos, near⟩, if_neg (by omega), List.length_cons]
        omega
    · rw [if_pos due, if_neg (by omega), if_neg (by omega), List.length_cons]
      omega

/-! ### A cue that is due alone -/

/-- A list in order with one due cue has it in front. -/
theorem due_alone {key : Cue → Int} {l : List Cue} (order : l.Pairwise (fun a b => key a ≤ key b)) {q : Cue}
    (h : (l.filter fun r => key r ≤ 0) = [q]) : ∃ rest, l = q :: rest ∧ key q ≤ 0 ∧ ∀ r ∈ rest, 0 < key r := by
  cases l with
  | nil => cases h
  | cons r l =>
    rw [List.pairwise_cons] at order
    by_cases due : key r ≤ 0
    · rw [List.filter_cons_of_pos (by simpa using due), List.cons.injEq] at h
      obtain ⟨rfl, none⟩ := h
      refine ⟨l, rfl, due, fun b hb => ?_⟩
      have := List.filter_eq_nil_iff.1 none b hb
      simpa using this
    · rw [List.filter_cons_of_neg (by simpa using due)] at h
      have hq : q ∈ l.filter fun r => key r ≤ 0 := by rw [h]; exact List.mem_singleton_self q
      rw [List.mem_filter, decide_eq_true_eq] at hq
      have := order.1 q hq.1
      omega

theorem takeDue_ahead {c : ChanNo} {l : List Cue} {s : State} (h : ∀ r ∈ l, 0 < s.offset c r) : State.takeDue c l s = s.setCues c l := by
  cases l with
  | nil => rfl
  | cons q l => exact if_neg (not_le.2 (h q (by simp)))

/-- What of a channel an action can act on beside the path (R132). -/
def Channel.SameControls (x y : Channel) : Prop := y.pres = x.pres ∧ y.place = x.place ∧ y.pool = x.pool

theorem sameControls_writeOutcome (s : State) (c : ChanNo) (tag : Nat) (k : OutcomeKind) (n : Nat) :
    (s.chan c).SameControls ((s.writeOutcome c tag k n).chan c) := ⟨by simp, by simp, by simp⟩

theorem sameControls_setCues (s : State) (c : ChanNo) (l : List Cue) : (s.chan c).SameControls ((s.setCues c l).chan c) := by
  refine ⟨?_, ?_, ?_⟩ <;> simp [State.setCues]

/-- A cue's action acts where its outcome is DONE (R130, R132, R137). -/
theorem controls_takeCue (s : State) (c : ChanNo) (q : Cue) :
    ((s.outcomeOf c q).outcome = .done → (s.perform c q.fade q.action).2 = true ∧
      ((s.perform c q.fade q.action).1.chan c).SameControls ((s.takeCue c q).chan c)) ∧
    ((s.outcomeOf c q).outcome ≠ .done → (s.chan c).SameControls ((s.takeCue c q).chan c)) := by
  have take : s.takeCue c q = if (s.chan c).sched.lateLimit < s.lateness c q then
      s.writeOutcome c q.tag .missed (min (s.lateness c q) 250)
    else if s.guardHolds c q.guard = true then (s.perform c q.fade q.action).1.writeOutcome c q.tag
      (if (s.perform c q.fade q.action).2 = true then .done else .failed) (s.lateness c q)
    else s.writeOutcome c q.tag .skipped (s.lateness c q) := rfl
  rw [take, State.outcomeOf]
  split
  · exact ⟨nofun, fun _ => sameControls_writeOutcome ..⟩
  · split
    · refine ⟨fun h => ⟨?_, sameControls_writeOutcome ..⟩, fun h => ?_⟩
      · cases done : (s.perform c q.fade q.action).2 with
        | true => rfl
        | false =>
          rw [done] at h
          cases h
      cases done : (s.perform c q.fade q.action).2 with
      | true => exact absurd (by rw [done]; rfl) h
      | false =>
        rw [perform_failed done]
        exact sameControls_writeOutcome ..
    · exact ⟨nofun, fun _ => sameControls_writeOutcome ..⟩

/-- A dispatch with one cue due leaves what that cue's action leaves where its outcome is DONE, and else the channel's controls as
they were. -/
theorem controls_dispatch {s : State} {c : ChanNo} {q : Cue}
    (h : ((sortCues (s.offset c) (s.chan c).sched.cues).filter fun r => s.offset c r ≤ 0) = [q]) :
    ∃ rest, ((s.outcomeOf c q).outcome = .done → ((s.setCues c rest).perform c q.fade q.action).2 = true ∧
        (((s.setCues c rest).perform c q.fade q.action).1.chan c).SameControls ((s.dispatch c).chan c)) ∧
      ((s.outcomeOf c q).outcome ≠ .done → (s.chan c).SameControls ((s.dispatch c).chan c)) := by
  obtain ⟨rest, list, due, ahead⟩ := due_alone (sorted_sortCues (s.offset c) (s.chan c).sched.cues) h
  have controls := controls_takeCue (s.setCues c rest) c q
  have before := sameControls_setCues s c rest
  have offset (r : Cue) : ((s.setCues c rest).takeCue c q).offset c r = s.offset c r :=
    offset_congr (s := s) (moves_takeCue (s.setCues c rest) c q).rate
      ((kept_takeCue (s.setCues c rest) c q c).1.trans (outTc_setCues s c rest)) r
  have taken : State.takeDue c (sortCues (s.offset c) (s.chan c).sched.cues) s =
      ((s.setCues c rest).takeCue c q).setCues c rest := by
    rw [list, State.takeDue, if_pos due, takeDue_ahead fun r hr => by rw [offset]; exact ahead r hr]
  have after := sameControls_setCues ((s.setCues c rest).takeCue c q) c rest
  obtain ⟨-, -, pres, place, pool, -⟩ := kept_removeStranded (((s.setCues c rest).takeCue c q).setCues c rest) c c
  have final : ((s.setCues c rest).takeCue c q).chan c |>.SameControls ((s.dispatch c).chan c) := by
    simp only [State.dispatch, State.chan_raiseIf, taken]
    exact ⟨pres.trans after.1, place.trans after.2.1, pool.trans after.2.2⟩
  rw [outcomeOf_setCues] at controls
  refine ⟨rest, fun done => ?_, fun fails => ?_⟩
  · obtain ⟨performed, pres, place, pool⟩ := controls.1 done
    exact ⟨performed, final.1.trans pres, final.2.1.trans place, final.2.2.trans pool⟩
  · obtain ⟨pres, place, pool⟩ := controls.2 fails
    exact ⟨final.1.trans (pres.trans before.1), final.2.1.trans (place.trans before.2.1), final.2.2.trans (pool.trans before.2.2)⟩

/-! ### What an action leaves of its channel -/

section Perform
variable (s : State) (c : ChanNo) (n : Option Nat)

theorem place_setZone (z : ZoneNo) (w : Window) :
    ((s.perform c n (.setZone z w)).1.chan c).place = (s.chan c).place.setZone z w := by simp [State.perform]

theorem place_clearZone (z : ZoneNo) : ((s.perform c n (.clearZone z)).1.chan c).place = (s.chan c).place.clearZone z := by
  simp [State.perform]

theorem place_selectProfile {k : ProfNo} (h : (s.perform c n (.selectProfile k)).2 = true) :
    ((s.perform c n (.selectProfile k)).1.chan c).place = (s.chan c).place.select k := by
  simp only [State.perform] at h ⊢
  split
  · simp
  · rename_i undefined
    rw [if_neg undefined] at h
    cases h

/-- An action that is none of the zones' and the profiles' leaves the placement unit. -/
theorem place_perform {a : Action} (h : a.kind = 0 ∨ a.kind = 1 ∨ a.kind = 5 ∨ a.kind = 6) :
    ((s.perform c n a).1.chan c).place = (s.chan c).place := by
  cases a <;> simp [Action.kind] at h <;> simp [State.perform, State.presenterOn, State.presenterOff]

/-- An action that is not SET DELAY leaves the channel's pool. -/
theorem pool_perform {a : Action} (h : a.kind ≠ 5) : ((s.perform c n a).1.chan c).pool = (s.chan c).pool := by
  rcases pools_perform s c n a with ⟨d, rfl, -⟩ | same
  · exact absurd rfl h
  · exact (same c).1

/-- An action that is none of the presenter's leaves the presenter. -/
theorem pres_perform {a : Action} (h : 2 ≤ a.kind) : ((s.perform c n a).1.chan c).pres = (s.chan c).pres := by
  cases a with
  | presenterOn | presenterOff => simp [Action.kind] at h
  | selectProfile k =>
    simp only [State.perform]
    split <;> simp
  | _ => simp [State.perform]

theorem pres_presenterOn : ((s.perform c n .presenterOn).1.chan c).pres =
    (s.chan c).pres.actionOn (s.feedUsable c) (s.chan c).assign.releasePending (n.getD (s.currentProfile c).fade) := by
  simp [State.perform, State.presenterOn]

theorem pres_presenterOff : ((s.perform c n .presenterOff).1.chan c).pres =
    (s.chan c).pres.actionOff (n.getD (s.currentProfile c).fade) := by simp [State.perform, State.presenterOff]

end Perform

theorem intent_actionOn (x : Presenter) (u r : Bool) (n : Nat) : (x.actionOn u r n).intent = true := by
  unfold Presenter.actionOn
  dsimp only
  split
  · split <;> rfl
  · rfl
  · rfl
  · rfl
  · split <;> rfl

theorem intent_actionOff (x : Presenter) (n : Nat) : (x.actionOff n).intent = false := by
  unfold Presenter.actionOff
  dsimp only
  split <;> rfl

/-! ### The intent through the presenter step -/

theorem intent_fadeStep (x : Presenter) : x.fadeStep.intent = x.intent := by
  unfold Presenter.fadeStep
  split
  · split <;> rfl
  · split <;> rfl
  · rfl

theorem intent_react (x : Presenter) (k : Option Health) (r : Bool) (n : Nat) : (x.react k r n).intent = x.intent := by
  have rise : (x.riseOnFeed r n).intent = x.intent := by
    unfold Presenter.riseOnFeed
    split
    · rfl
    · split <;> rfl
    · rfl
    · rfl
    · rfl
  have lost : (x.onLost n).intent = x.intent := by
    unfold Presenter.onLost
    split
    · unfold Presenter.fallForRelease
      split <;> rfl
    · rfl
    · rfl
  unfold Presenter.react
  split
  · rfl
  · exact rise
  · exact rise
  · split
    · exact lost
    · rfl
  · split <;> rfl

theorem intent_step (x : Presenter) (k : Option Health) (r : Bool) (n : Nat) : (x.step k r n).intent = x.intent :=
  (intent_fadeStep _).trans (intent_react _ k r n)

/-! ### A presenter action and the step of the same frame start -/

theorem feedUsable_iff (s : State) (c : ChanNo) : s.feedUsable c = true ↔ ∃ k, s.assignedHealth c = some k ∧ k.usable = true := by
  unfold State.feedUsable
  cases s.assignedHealth c <;> simp

theorem riseSteps_zero (n : Nat) : riseSteps n 0 = max 1 n := by
  rw [riseSteps_eq]
  omega

theorem fallSteps_whole (n : Nat) : fallSteps n 256 = max 1 n := by
  rw [fallSteps_eq]
  omega

section PresenterAction
variable {x : Presenter} (r : Bool) (n m : Nat)

/-- PRESENTER ON from OFF with no usable feed waits (R82, R90). -/
theorem actionOn_waits (hs : x.state = .off) {k : Option Health} (hk : ∀ j, k = some j → j.usable = false) :
    ((x.actionOn false r n).step k r m).state = .waitFeed := by
  have waits : x.actionOn false r n = { x with intent := true, state := .waitFeed } := by
    simp only [Presenter.actionOn, hs]
    rfl
  rw [waits, step_hidden r m (.inr rfl) hk]

/-- PRESENTER ON from OFF with a usable feed begins a rise and takes its first step (R82, R86, R91). -/
theorem actionOn_rises (hs : x.state = .off) {k : Health} (hk : k.usable = true) :
    let y := (x.actionOn true r n).step (some k) r m
    (n ≤ 1 → y.state = .on ∧ y.g = 256 ∧ y.fade = none) ∧
    (2 ≤ n → y.state = .rising ∧ y.g = (512 + n) / (2 * n) ∧ y.fade = some ⟨true, 0, n, n, 1⟩) := by
  intro y
  have rises : x.actionOn true r n = ({ x with intent := true } : Presenter).beginRise 0 n := by
    simp only [Presenter.actionOn, hs]
    rfl
  have stepped : y = { (({ x with intent := true, visAtEntry := true } : Presenter).beginRise 0 n).fadeStep with frozen := false } := by
    change (x.actionOn true r n).step (some k) r m = _
    rw [rises]
    exact step_usable_rises hk r m rfl
  rw [fadeStep_beginRise, riseSteps_zero] at stepped
  refine ⟨fun one => ?_, fun two => ?_⟩
  · have last : max 1 n ≤ 1 := by omega
    rw [if_pos last] at stepped
    rw [stepped]
    exact ⟨rfl, rfl, rfl⟩
  · have steps : max 1 n = n := Nat.max_eq_right (by omega)
    rw [steps, if_neg (by omega)] at stepped
    rw [stepped]
    exact ⟨rfl, by simp [Fade.level, roundDiv, Config.whole], rfl⟩

/-- PRESENTER OFF from ON at g 256 with a usable feed begins a fall and takes its first step (R83, R87, R91). -/
theorem actionOff_falls (hs : x.state = .on) (hg : x.g = 256) {k : Health} (hk : k.usable = true) :
    let y := (x.actionOff n).step (some k) r m
    (n ≤ 1 → y.state = .off ∧ y.g = 0 ∧ y.fade = none) ∧
    (2 ≤ n → y.state = .falling ∧ y.g = 256 - (512 + n) / (2 * n) ∧ y.fade = some ⟨false, 256, n, n, 1⟩) := by
  intro y
  have falls : x.actionOff n = ({ x with intent := false } : Presenter).beginFall n := by
    simp only [Presenter.actionOff, hs]
  have stepped : y = { (({ x with intent := false, visAtEntry := true } : Presenter).beginFall n).fadeStep with frozen := false } := by
    change (x.actionOff n).step (some k) r m = _
    rw [falls]
    exact step_usable_falls hk r m rfl (.inl rfl)
  rw [fadeStep_beginFall, hg, fallSteps_whole] at stepped
  refine ⟨fun one => ?_, fun two => ?_⟩
  · have last : max 1 n ≤ 1 := by omega
    rw [if_pos last] at stepped
    rw [stepped]
    exact ⟨rfl, rfl, rfl⟩
  · have steps : max 1 n = n := Nat.max_eq_right (by omega)
    rw [steps, if_neg (by omega)] at stepped
    rw [stepped]
    exact ⟨rfl, by simp [Fade.level, roundDiv], rfl⟩

end PresenterAction

/-! ### The pool where the frame's entering changes no reservation -/

/-- A frame start that takes no slew step leaves the reservations as they were (R7, R9). -/
theorem reservation_inLine {s : State} {c : ChanNo} (level : (s.chan c).path.bypass = true ∨
    (s.chan c).path.line.length = (s.chan c).pool.granted) (i : Instr) (f : InputFrame) (e : ChanNo) :
    ((s.inLine c i f).chan e).reservation = (s.chan e).reservation := by
  have outputs := outputs_enter ((s.chan c).path.event (Instr.isArrival i) (Instr.isTimeout i)) s.rate (s.chan c).pool.granted f
  rw [inLine_eq]
  have length : (((s.chan c).path.event (Instr.isArrival i) (Instr.isTimeout i)).enter s.rate (s.chan c).pool.granted
      f.picture f.audio f.timecode).line.length = (s.chan c).path.line.length := by
    rw [(outputs.level (by rw [event_eq]; exact level)).1, event_eq]
    simp
  generalize ((s.chan c).path.event (Instr.isArrival i) (Instr.isTimeout i)).enter s.rate (s.chan c).pool.granted
    f.picture f.audio f.timecode = q at length ⊢
  have entered (d : ChanNo) : ((s.setPath c q).chan d).reservation = (s.chan d).reservation := by
    rw [Channel.reservation, pool_setPath, Channel.actual, State.chan_setPath]
    split
    · rename_i hd
      rw [hd, length]
      rfl
    · rfl
  have none : (s.setPath c q).poolPassIfFell c (s.chan c).reservation = s.setPath c q :=
    if_neg (by rw [entered]; exact lt_irrefl _)
  rw [none, entered]

end Sys2Proof.Machine
end

section
/-!
PROOF. One outcome for each due cue and each stranded cue, and the action of a cue due alone (R129 to R140).
-/
namespace Sys2Proof.Machine

section Guards
variable (s : State) (c : ChanNo) (i : Instr) (f : InputFrame)

theorem assignedHealth_inLine : (s.inLine c i f).assignedHealth c = s.assignedHealth c := by
  rw [State.assignedHealth, assign_inLine, State.assignedHealth]
  simp only [(moves_inLine s c i f).booth]

theorem feedUsable_inLine : (s.inLine c i f).feedUsable c = s.feedUsable c := by
  rw [State.feedUsable, assignedHealth_inLine]
  rfl

theorem guardHolds_inLine (g : Guard) : (s.inLine c i f).guardHolds c g = s.guardHolds c g := by
  cases g <;> simp only [State.guardHolds, feedUsable_inLine, assign_inLine, pres_inLine, place_inLine]

/-- Which actions fail (R65, R132). -/
theorem perform_fails_iff (n : Option Nat) (a : Action) :
    (s.perform c n a).2 = false ↔ ∃ k, a = .selectProfile k ∧ (s.profile k).defined = false := by
  cases a with
  | selectProfile k =>
    simp only [State.perform]
    split
    · rename_i defined
      simp [defined]
    · rename_i undefined
      simpa using undefined
  | _ => simp [State.perform]

end Guards

/-- The outcome of a cue in time, by its guard and its action (R131, R132, R137). -/
theorem outcome_inTime {s : State} {c : ChanNo} {q : Cue} (h : s.lateness c q ≤ (s.chan c).sched.lateLimit) :
    (s.guardHolds c q.guard = false → (s.outcomeOf c q).outcome = .skipped) ∧
    (s.guardHolds c q.guard = true → (∃ k, q.action = .selectProfile k ∧ (s.profile k).defined = false) →
      (s.outcomeOf c q).outcome = .failed) ∧
    (s.guardHolds c q.guard = true → (¬∃ k, q.action = .selectProfile k ∧ (s.profile k).defined = false) →
      (s.outcomeOf c q).outcome = .done) := by
  rw [← perform_fails_iff s c q.fade q.action, State.outcomeOf, if_neg (not_lt.2 h)]
  refine ⟨fun shut => ?_, fun opened fails => ?_, fun opened done => ?_⟩
  · rw [if_neg (Bool.eq_false_iff.1 shut)]
  · rw [if_pos opened, fails]
    rfl
  · rw [if_pos opened, Bool.eq_true_of_not_eq_false done]
    rfl

section Outcomes
variable (s : State) (c : ChanNo) (i : Instr) (f : InputFrame)

/-- The records of a frame start's dispatch, by the state in which it finds the channel. -/
theorem outcomes_frameStart :
    let e := s.inLine c i f
    let t := ((s.dispatched c i f).transitions c).composeStep c
    let sorted := sortCues (e.offset c) (s.chan c).sched.cues
    ∃ out,
      DispatchWrites (s.chan c).sched.lateLimit (e.chan c).path.outTc (e.lateness c) (sorted.filter fun q => e.offset c q ≤ 0)
        (sorted.filter fun q => (s.rate.day / 4 : Nat) + 1 < e.offset c q) out ∧
      (∃ l, (t.chan c).sched = { (s.chan c).sched.writeAll out with cues := l }) ∧
      ∀ q, (sorted.filter fun q => e.offset c q ≤ 0).head? = some q → out.head? = some (e.outcomeOf c q) := by
  intro e t sorted
  obtain ⟨out, told, ring, first⟩ := sched_dispatch e c
  have rate : e.rate = s.rate := (moves_inLine s c i f).rate
  have sched : (e.chan c).sched = (s.chan c).sched := sched_inLine s c i f
  have final : (t.chan c).sched = ((e.dispatch c).chan c).sched := sched_settled (s.dispatched c i f) c
  rw [sched] at told ring first
  rw [rate] at ring
  refine ⟨_, dispatchWrites told, ?_, fun q hq => ?_⟩
  · rw [final]
    exact ring
  · change out.head? = (sorted.filter fun q => e.offset c q ≤ 0).head?.map (e.outcomeOf c) at first
    rw [hq, Option.map_some] at first
    rw [List.head?_append, first, Option.some_or]

/-- OUTCOME is told where a record was written or lost (R140). -/
theorem has_outcome_frameStart {out : List OutcomeRec} (count : out.length =
      ((sortCues ((s.inLine c i f).offset c) (s.chan c).sched.cues).filter fun q => (s.inLine c i f).offset c q ≤ 0).length +
      ((sortCues ((s.inLine c i f).offset c) (s.chan c).sched.cues).filter
        fun q => (s.rate.day / 4 : Nat) + 1 < (s.inLine c i f).offset c q).length) (p : PortNo) :
    ((((s.dispatched c i f).transitions c).composeStep c).port p).pending.has (.outcome c) =
      ((s.port p).pending.has (.outcome c) || ((s.port p).role.any (fun r => r.hears (.outcome c)) && !out.isEmpty)) := by
  have told := has_settled (s.dispatched c i f) c (e := .outcome c) (by simp) p
  have cues := cues_settled s c i f
  rw [sched_settled] at cues
  have split := length_split ((s.inLine c i f).offset c) (h := (s.rate.day / 4 : Nat) + 1) (by omega)
    (sortCues ((s.inLine c i f).offset c) (s.chan c).sched.cues)
  rw [(perm_sortCues _ _).length_eq] at split
  have shorter : (((s.dispatched c i f).chan c).sched.cues.length != (s.chan c).sched.cues.length) = !out.isEmpty := by
    rw [cues, Bool.eq_iff_iff, bne_iff_ne, Bool.not_eq_true', List.isEmpty_eq_false_iff, ← List.length_pos_iff]
    omega
  rw [has_dispatched s c i f (by simp), shorter] at told
  simpa using told

end Outcomes

/-! ### The channel after the dispatch of a cue due alone -/

section Settled
variable (s : State) (c : ChanNo) (i : Instr) (f : InputFrame)

/-- The placement step of a frame start, from the placement unit its dispatch left (R75). -/
theorem place_frameStart : ((((s.dispatched c i f).transitions c).composeStep c).chan c).place =
    ((s.dispatched c i f).chan c).place.step (s.profile ((s.dispatched c i f).chan c).place.profile)
      (decide (((((s.dispatched c i f).transitions c).composeStep c).chan c).pres.state = .rising ∨
        ((((s.dispatched c i f).transitions c).composeStep c).chan c).pres.state = .on ∨
        ((((s.dispatched c i f).transitions c).composeStep c).chan c).pres.state = .falling)) := by
  rw [place_settled, State.currentProfile, (moves_dispatched s c i f).profile, visible_eq]

theorem intent_frameStart : ((((s.dispatched c i f).transitions c).composeStep c).chan c).pres.intent =
    ((s.dispatched c i f).chan c).pres.intent := by rw [pres_settled, intent_step]

/-- With no handover in progress the presenter step reads the health of the booth assigned before. -/
theorem pres_frameStart_idle (idle : (s.chan c).assign.incoming = none) :
    ((((s.dispatched c i f).transitions c).composeStep c).chan c).pres = ((s.dispatched c i f).chan c).pres.step
      (s.assignedHealth c) (s.chan c).assign.releasePending ((s.dispatched c i f).currentProfile c).fade := by
  have health : (s.dispatched c i f).assignedHealth c = s.assignedHealth c := by
    rw [State.assignedHealth, assign_dispatched, State.assignedHealth]
    simp only [(moves_dispatched s c i f).booth]
  rw [pres_settled, handoverStep_idle (by rw [assign_dispatched, idle]), health, assign_dispatched]

end Settled

/-- The state in which the action of a cue due alone acts reads as the frame start found the channel, its pool's other reservations
among it. -/
structure State.ReadsAs (s : State) (c : ChanNo) (v : State) : Prop where
  pres : (v.chan c).pres = (s.chan c).pres
  place : (v.chan c).place = (s.chan c).place
  target : (v.chan c).pool.target = (s.chan c).pool.target
  pending : (v.chan c).assign.releasePending = (s.chan c).assign.releasePending
  feed : v.feedUsable c = s.feedUsable c
  profile : v.currentProfile c = s.currentProfile c
  grant : (s.chan c).path.bypass = true ∨ (s.chan c).path.line.length = (s.chan c).pool.granted → ∀ d, v.grantFor c d = s.grantFor c d

theorem readsAs_inLine (s : State) (c : ChanNo) (i : Instr) (f : InputFrame) (l : List Cue) :
    s.ReadsAs c ((s.inLine c i f).setCues c l) := by
  have chan : ((s.inLine c i f).setCues c l).chan c =
      { (s.inLine c i f).chan c with sched := { ((s.inLine c i f).chan c).sched with cues := l } } := by simp [State.setCues]
  refine { pres := ?_, place := ?_, target := ?_, pending := ?_, feed := ?_, profile := ?_, grant := fun level d => ?_ }
  · rw [chan, pres_inLine]
  · rw [chan, place_inLine]
  · rw [chan, target_inLine]
  · rw [chan, assign_inLine]
  · rw [← feedUsable_inLine s c i f, State.feedUsable, State.assignedHealth, chan]
    rfl
  · rw [State.currentProfile, chan, place_inLine]
    exact (moves_inLine s c i f).profile _
  · rw [(samePools_setCues (s.inLine c i f) c l).grantFor, State.grantFor, State.grantFor, State.reserved, State.reserved]
    simp only [reservation_inLine level]

section Acts
variable {s v w t : State} {c : ChanNo} (reads : s.ReadsAs c v) {n : Option Nat} {a : Action}
  (acted : ((v.perform c n a).1.chan c).SameControls (w.chan c)) (done : (v.perform c n a).2 = true)
include reads acted

theorem placed_setZone {z : ZoneNo} {x : Window} (h : a = .setZone z x) : (w.chan c).place = (s.chan c).place.setZone z x := by
  subst h
  rw [acted.2.1, place_setZone, reads.place]

theorem placed_clearZone {z : ZoneNo} (h : a = .clearZone z) : (w.chan c).place = (s.chan c).place.clearZone z := by
  subst h
  rw [acted.2.1, place_clearZone, reads.place]

theorem placed_kept (h : a.kind = 0 ∨ a.kind = 1 ∨ a.kind = 5 ∨ a.kind = 6) : (w.chan c).place = (s.chan c).place := by
  rw [acted.2.1, place_perform v c n h, reads.place]

theorem target_kept (h : a.kind ≠ 5) : (w.chan c).pool.target = (s.chan c).pool.target := by
  rw [acted.2.2, pool_perform v c n h, reads.target]

theorem pool_setDelay {d : Nat} (h : a = .setDelay d) : (w.chan c).pool.target = d ∧
    (w.chan c).pool.clamped = decide ((w.chan c).pool.granted < d) ∧
    ((s.chan c).path.bypass = true ∨ (s.chan c).path.line.length = (s.chan c).pool.granted →
      (w.chan c).pool.granted = min d (480 - (s.reserved - (s.chan c).reservation))) := by
  subst h
  have own : ((v.perform c n (.setDelay d)).1.chan c).pool = _ := pool_setTarget v c d
  rw [acted.2.2, own]
  exact ⟨rfl, rfl, fun level => reads.grant level d⟩

omit reads in
theorem intent_on (h : a.kind = 0) : (w.chan c).pres.intent = true := by
  have on : a = .presenterOn := by cases a <;> simp [Action.kind] at h ⊢
  subst on
  rw [acted.1, pres_presenterOn, intent_actionOn]

omit reads in
theorem intent_off (h : a.kind = 1) : (w.chan c).pres.intent = false := by
  have off : a = .presenterOff := by cases a <;> simp [Action.kind] at h ⊢
  subst off
  rw [acted.1, pres_presenterOff, intent_actionOff]

theorem intent_kept (h : 2 ≤ a.kind) : (w.chan c).pres.intent = (s.chan c).pres.intent := by
  rw [acted.1, pres_perform v c n h, reads.pres]

theorem pres_on (h : a = .presenterOn) : (w.chan c).pres = (s.chan c).pres.actionOn (s.feedUsable c)
    (s.chan c).assign.releasePending (n.getD (s.currentProfile c).fade) := by
  subst h
  rw [acted.1, pres_presenterOn, reads.pres, reads.feed, reads.pending, reads.profile]

theorem pres_off (h : a = .presenterOff) :
    (w.chan c).pres = (s.chan c).pres.actionOff (n.getD (s.currentProfile c).fade) := by
  subst h
  rw [acted.1, pres_presenterOff, reads.pres, reads.profile]

include done in
theorem placed_selectProfile {k : ProfNo} (h : a = .selectProfile k) : (w.chan c).place = (s.chan c).place.select k := by
  subst h
  rw [acted.2.1, place_selectProfile v c n done, reads.place]

end Acts

end Sys2Proof.Machine

namespace Sys2Proof.Proofs
open Sys2Proof.Machine

/-- Settles O51: the records by the cues they tell of, and the effect of a cue due alone by its action. -/
theorem dueCueHasOneOutcome : Obligations.DueCueHasOneOutcome := by
  intro s c i f starts
  obtain ⟨out, writes, ⟨l, sched⟩, first⟩ := outcomes_frameStart s c i f
  refine ⟨_, out, exec_dispatched starts, ?_⟩
  have told := has_outcome_frameStart s c i f writes.count
  have offset : (((s.dispatched c i f).transitions c).composeStep c).offset c = (s.inLine c i f).offset c :=
    funext (offset_settled s c i f)
  have outTc := outTc_settled s c i f
  have ring := congrArg Sched.ring sched
  have lost := congrArg Sched.lost sched
  have limit := congrArg Sched.lateLimit sched
  rw [writeAll_eq] at ring lost limit
  have place := place_frameStart s c i f
  have pool := pool_settled_steps (s.dispatched c i f) c
  have intent := intent_frameStart s c i f
  have pres := pres_frameStart_idle s c i f
  have single := @controls_dispatch (s.inLine c i f) c
  have reads := readsAs_inLine s c i f
  have inTime := @outcome_inTime (s.inLine c i f) c
  rw [sched_inLine] at single
  simp only [guardHolds_inLine, sched_inLine, (moves_inLine s c i f).profile] at inTime
  have before : ((s.inLine c i f).chan c).pres = (s.chan c).pres ∧ ((s.inLine c i f).chan c).place = (s.chan c).place ∧
    ((s.inLine c i f).chan c).pool.target = (s.chan c).pool.target := ⟨pres_inLine .., place_inLine .., target_inLine ..⟩
  change ∀ q, _ → ∃ rest, (_ → _ ∧ Channel.SameControls _ ((s.dispatched c i f).chan c)) ∧
    (_ → Channel.SameControls _ ((s.dispatched c i f).chan c)) at single
  generalize ((s.dispatched c i f).transitions c).composeStep c = t at told offset outTc ring lost limit place pool intent pres ⊢
  generalize s.dispatched c i f = d at place pool intent pres single
  simp only [offset]
  rw [outTc]
  have placedAs {pl : Place} (h : (d.chan c).place = pl) : (t.chan c).place = pl.step (s.profile pl.profile)
      (decide ((t.chan c).pres.state = .rising ∨ (t.chan c).pres.state = .on ∨ (t.chan c).pres.state = .falling)) := h ▸ place
  refine ⟨writes, ring, ?_, limit, told, fun q hq intime => ?_, fun q hq => ?_⟩
  · rw [lost, Bool.or_eq_true, Bool.and_eq_true, decide_eq_true_eq, Bool.not_eq_true', List.isEmpty_eq_false_iff]
  · rw [first q hq]
    obtain ⟨shut, fails, done⟩ := inTime intime
    exact ⟨fun h => congrArg some (shut h), fun h k => congrArg some (fails h k), fun h k => congrArg some (done h k)⟩
  obtain ⟨rest, acts, stays⟩ := single q hq
  replace reads := reads rest
  rw [first q (congrArg List.head? hq)]
  generalize (s.inLine c i f).setCues c rest = v at acts reads
  refine ⟨fun h => ?_, fun h => ?_⟩
  · obtain ⟨samePres, samePlace, samePool⟩ := stays fun done => h (congrArg some done)
    refine ⟨?_, by rw [pool, samePool, before.2.2], by rw [intent, samePres, before.1]⟩
    exact placedAs (samePlace.trans before.2.1)
  obtain ⟨performed, acted⟩ := acts (Option.some.inj h)
  refine ⟨fun z w hz => placedAs (placed_setZone reads acted hz), fun z hz => placedAs (placed_clearZone reads acted hz),
    fun n hn => placedAs (placed_selectProfile reads acted performed hn), fun hk => placedAs (placed_kept reads acted hk),
    fun delay hd => ?_, fun hk => by rw [pool, target_kept reads acted hk], fun hk => by rw [intent, intent_on acted hk],
    fun hk => by rw [intent, intent_off acted hk], fun hk => by rw [intent, intent_kept reads acted hk], ?_⟩
  · rw [pool]
    exact pool_setDelay reads acted hd
  refine ⟨fun on off idle => ?_, fun gone on whole idle usable => ?_⟩
  · rw [pres idle, pres_on reads acted on]
    have rises (usable : s.feedUsable c = true) := (feedUsable_iff s c).1 usable
    refine ⟨fun unusable => ?_, fun usable one => ?_, fun usable two => ?_⟩
    · rw [unusable]
      refine actionOn_waits _ _ _ off fun k hk => Bool.eq_false_iff.2 fun h => ?_
      rw [(feedUsable_iff s c).2 ⟨k, hk, h⟩] at unusable
      cases unusable
    · obtain ⟨k, health, hk⟩ := rises usable
      rw [usable, health]
      exact (actionOn_rises _ _ _ off hk).1 one
    · obtain ⟨k, health, hk⟩ := rises usable
      rw [usable, health]
      exact (actionOn_rises _ _ _ off hk).2 two
  · obtain ⟨k, health, hk⟩ := (feedUsable_iff s c).1 usable
    rw [pres idle, pres_off reads acted gone, health]
    exact actionOff_falls _ _ _ on whole hk

end Sys2Proof.Proofs
end

section
/-!
PROOF. A store cut short (O9) and one that fails (O8): the memory its byte writes have made so far, byte by byte.
-/
namespace Sys2Proof.Machine

/-! ### Bytes written from an offset on -/

/-- What a memory reads as after bytes written from an offset on, whatever the address. -/
theorem memRead_placed_eq {m : List Host.Cell} (h : Memory.wf m = true) (start : Nat) (bs : List Byte) (a : Nat) :
    memRead (memWriteAll m (placed start bs)) a = if start ≤ a ∧ a < start + bs.length then bs.getD (a - start) 0 else memRead m a := by
  split
  case isTrue ha =>
    have key := memRead_placed h start bs (i := a - start) (by omega)
    rwa [show start + (a - start) = a by omega] at key
  case isFalse ha => exact memRead_placed_outside h (by omega)

theorem placed_length (start : Nat) (bs : List Byte) : (placed start bs).length = bs.length := by simp [placed]

theorem placed_getElem {start : Nat} {bs : List Byte} {i : Nat} (hi : i < (placed start bs).length) :
    (placed start bs)[i] = (start + i, bs.getD i 0) := by simp [placed]

/-- The first byte writes of a run are the run of its first bytes. -/
theorem placed_take (start : Nat) (bs : List Byte) (k : Nat) : (placed start bs).take k = placed start (bs.take k) := by
  refine List.ext_getElem (by simp [placed_length]) fun i h1 h2 => ?_
  rw [List.getElem_take, placed_getElem, placed_getElem]
  rw [placed_length, List.length_take] at h2
  simp [List.getD_eq_getElem?_getD, List.getElem?_take_of_lt (show i < k by omega)]

/-- Bytes read from the start of a run of writes no longer than the reading: the bytes written, then what stood behind them. -/
theorem memBytes_placed_front {m : List Host.Cell} (h : Memory.wf m = true) (start : Nat) {bs : List Byte} {n : Nat}
    (hn : bs.length ≤ n) :
    memBytes (memWriteAll m (placed start bs)) start n = bs ++ (memBytes m start n).drop bs.length := by
  refine List.ext_getElem (by simp [memBytes]; omega) fun i h1 h2 => ?_
  simp only [memBytes, List.getElem_map, List.getElem_range]
  rw [memRead_placed_eq h]
  by_cases hi : i < bs.length
  · rw [if_pos (by omega), List.getElem_append_left hi, Nat.add_sub_cancel_left, List.getD_eq_getElem _ _ hi]
  · rw [if_neg (by omega), List.getElem_append_right (by omega), List.getElem_drop, List.getElem_map, List.getElem_range]
    congr 2
    omega

/-! ### The memory while a store is under way -/

/-- What the byte writes of a store have made of a memory, so many of each of its three runs being done. -/
def storeCut (m : List Host.Cell) (body : List Byte) (i j l : Nat) : List Host.Cell :=
  memWriteAll (memWriteAll (memWriteAll m (placed 0 ((headerBytes Config.invalidMarker body).take i)))
    (placed Config.bodyOffset (body.take j))) (placed 0 ((headerBytes Config.validMarker body).take l))

theorem memWriteAll_append (m a b : List Host.Cell) : memWriteAll m (a ++ b) = memWriteAll (memWriteAll m a) b :=
  List.foldl_append

/-- The first byte writes of a store. -/
theorem memWriteAll_writes (m : List Host.Cell) (k : Settings) (w : Nat) :
    memWriteAll m ((k.writes.1 ++ k.writes.2.1 ++ k.writes.2.2).take w) =
      storeCut m k.body w (w - 8) (w - (8 + k.body.length)) := by
  simp only [Settings.writes, List.take_append, memWriteAll_append, placed_take, placed_length, List.length_append,
    headerBytes_length, storeCut]

/-- A store cut short leaves what its first byte writes have made of the memory. -/
theorem memoryAtRestart_storing {s : State} {p : PortNo} {k : Settings} (hp : s.loader.phase = .storing p k) (w : Nat) :
    s.memoryAtRestart w = storeCut s.memory k.body w (w - 8) (w - (8 + k.body.length)) := by
  rw [← memWriteAll_writes]
  simp only [State.memoryAtRestart, hp]

/-- Two bytes put over the first two of a list, one after another, and then the same bytes behind them again. -/
theorem overwrite_front (a b c d : Byte) (rest : List Byte) (l : Nat) :
    (a :: b :: rest).take l ++ (c :: d :: rest).drop (min l (rest.length + 2)) = [a, b].take l ++ [c, d].drop l ++ rest := by
  match l with
  | 0 => rfl
  | 1 => simp
  | l + 2 =>
    have same : rest.drop (min l rest.length) = rest.drop l := by
      rcases Nat.le_total l rest.length with h | h <;> simp [h]
    rw [Nat.add_min_add_right]
    simp [same]

section
variable {m : List Host.Cell} (wf : Memory.wf m = true) (body : List Byte)
include wf

/-- Beyond the body nothing is written. -/
theorem memRead_storeCut_beyond (i j l : Nat) {a : Nat} (ha : 8 + body.length ≤ a) :
    memRead (storeCut m body i j l) a = memRead m a := by
  have w1 := wf_memWriteAll wf (placed 0 ((headerBytes Config.invalidMarker body).take i))
  have w2 := wf_memWriteAll w1 (placed Config.bodyOffset (body.take j))
  have h0 := headerBytes_length Config.invalidMarker body
  have h1 := headerBytes_length Config.validMarker body
  rw [storeCut, memRead_placed_outside w2 (.inr (by rw [List.length_take]; omega)),
    memRead_placed_outside w1 (.inr (by rw [List.length_take]; simp only [Config.bodyOffset]; omega)),
    memRead_placed_outside wf (.inr (by rw [List.length_take]; omega))]

/-- Once its writes are done the body stands whole. -/
theorem memBytes_storeCut_body (i l : Nat) {j : Nat} (hj : body.length ≤ j) :
    memBytes (storeCut m body i j l) 8 body.length = body := by
  have w1 := wf_memWriteAll wf (placed 0 ((headerBytes Config.invalidMarker body).take i))
  have w2 := wf_memWriteAll w1 (placed Config.bodyOffset (body.take j))
  have h1 := headerBytes_length Config.validMarker body
  rw [storeCut, memBytes_placed_outside w2 (.inr (by rw [List.length_take]; omega)), List.take_of_length_le hj]
  exact memBytes_placed w1 Config.bodyOffset body

/-- The header while the body is written, and behind the first bytes of step 4. -/
theorem memBytes_storeCut_header (j l : Nat) {i : Nat} (hi : 8 ≤ i) :
    memBytes (storeCut m body i j l) 0 8 = (be16 Config.validMarker).take l ++ (be16 Config.invalidMarker).drop l ++
      (be16 Config.formatVersion ++ be16 body.length ++ be16 (bodySum body)) := by
  have w1 := wf_memWriteAll wf (placed 0 ((headerBytes Config.invalidMarker body).take i))
  have w2 := wf_memWriteAll w1 (placed Config.bodyOffset (body.take j))
  have h0 := headerBytes_length Config.invalidMarker body
  have h1 := headerBytes_length Config.validMarker body
  have under : memBytes (memWriteAll (memWriteAll m (placed 0 ((headerBytes Config.invalidMarker body).take i)))
      (placed Config.bodyOffset (body.take j))) 0 8 = headerBytes Config.invalidMarker body := by
    rw [memBytes_placed_outside w1 (.inl (by decide)), List.take_of_length_le (by omega)]
    have whole := memBytes_placed wf 0 (headerBytes Config.invalidMarker body)
    rwa [h0] at whole
  rw [storeCut, memBytes_placed_front w2 0 (by rw [List.length_take]; omega), under, List.length_take, h1]
  exact overwrite_front _ _ _ _ _ l

/-- The header is whole once both bytes of the valid marker are there. -/
theorem memBytes_storeCut_whole {i j l : Nat} (hi : 8 ≤ i) (hl : 2 ≤ l) :
    memBytes (storeCut m body i j l) 0 8 = headerBytes Config.validMarker body := by
  rw [memBytes_storeCut_header wf body j l hi, List.take_of_length_le (by rw [be16_length]; omega),
    List.drop_eq_nil_of_le (by rw [be16_length]; omega)]
  rfl

/-- From the first byte write on, and until both bytes of the valid marker are there, the marker is not the valid one. -/
theorem memRead_storeCut_marker {i j l : Nat} (hi : 1 ≤ i) (hl : l ≤ 1) (hlate : l = 1 → 2 ≤ i) :
    memRead (storeCut m body i j l) 0 = 0 ∨ memRead (storeCut m body i j l) 1 = 0 := by
  have w1 := wf_memWriteAll wf (placed 0 ((headerBytes Config.invalidMarker body).take i))
  have w2 := wf_memWriteAll w1 (placed Config.bodyOffset (body.take j))
  have under : ∀ a, a < 2 → a < i → l ≤ a → memRead (storeCut m body i j l) a = 0 := by
    intro a ha hai hla
    have h0 := headerBytes_length Config.invalidMarker body
    rw [storeCut, memRead_placed_outside w2 (.inr (by rw [List.length_take]; omega)),
      memRead_placed_outside w1 (.inl (by simp only [Config.bodyOffset]; omega)), memRead_placed_eq wf,
      if_pos ⟨by omega, by rw [List.length_take]; omega⟩, List.getD_eq_getElem?_getD, List.getElem?_take_of_lt (by omega)]
    obtain rfl | rfl : a = 0 ∨ a = 1 := by omega
    · rfl
    · rfl
  obtain rfl | rfl : l = 0 ∨ l = 1 := by omega
  · exact .inl (under 0 (by omega) (by omega) (by omega))
  · exact .inr (under 1 (by omega) (hlate rfl) (by omega))

end

/-! ### The validity of a memory -/

/-- A marker with a byte 0 is not the valid one. -/
theorem memoryValid_of_marker {m : List Host.Cell} (h : memRead m 0 = 0 ∨ memRead m 1 = 0) : memoryValid m = false := by
  have marker : nat16At (memBytes m 0 8) 0 ≠ Config.validMarker := by
    change (memRead m 0).toNat * 256 + (memRead m 1).toNat ≠ 0x6B47
    have b1 := (memRead m 1).isLt
    rcases h with h | h <;> rw [h] <;> simp <;> omega
  simp only [memoryValid, beq_eq_false_iff_ne.mpr marker, Bool.false_and]

theorem body_length_le (k : Settings) : k.body.length ≤ 573 := by
  have := entries_length_le k.profiles
  rw [body_length, itemsLength]
  omega

/-- The profile count of a body stands behind the booth records. -/
theorem profileCount_body (k : Settings) : profileCount k.body = (profileEntriesBytes k.profiles).length := by
  have hb := flatMap_length_const (f := BoothRecord.bytes) k.booths.toList fun r _ => boothBytes_length r
  have front : ([k.rate.toByte] ++ k.roles.toList.map Role.toByte ++ [k.mask] ++ k.booths.toList.flatMap BoothRecord.bytes).length
      = 104 := by
    simp only [List.length_append, List.length_map, List.length_cons, List.length_nil, Vector.length_toList, hb]
  have := entries_length_le k.profiles
  rw [profileCount, Settings.body, List.append_assoc, List.append_assoc, ← front]
  exact (natAt_append _ _ 0).trans (toNat_byteOf (by omega))

/-- A memory that holds a body whole behind its whole header is valid, and the body is read back from it. -/
theorem memoryValid_of_stored {m : List Host.Cell} {k : Settings} (header : memBytes m 0 8 = headerBytes Config.validMarker k.body)
    (body : memBytes m 8 k.body.length = k.body) : memoryValid m = true ∧ memBody m = k.body := by
  have short := body_length_le k
  have length := body_length k
  obtain ⟨marker, version, long, sum⟩ := header_fields (marker := Config.validMarker) (body := k.body) (by decide) (by omega)
  have named : headerLength m = k.body.length := by rw [headerLength, header, long]
  have read : memBody m = k.body := by rw [memBody, named]; exact body
  have few := entries_length_le k.profiles
  simp only [itemsLength] at length
  refine ⟨?_, read⟩
  simp only [memoryValid, header, named, read, marker, version, sum, profileCount_body, itemsLength, Config.bodyOffset,
    Config.memoryBytes, beq_self_eq_true, Bool.true_and, Bool.and_true, Bool.and_eq_true, bne_iff_ne, decide_eq_true_eq]
  omega

end Sys2Proof.Machine

namespace Sys2Proof.Proofs
open Sys2Proof.Machine

/-- Settles O9, by the memory the first byte writes of the store have made. -/
theorem abandonedStoreLeavesInvalidMemory : Obligations.AbandonedStoreLeavesInvalidMemory := by
  intro s p k cause w hp wf n rest
  refine ⟨_, rfl, ?_⟩
  have cut : (s.restart cause w).memory = storeCut s.memory k.body w (w - 8) (w - (8 + n)) := memoryAtRestart_storing hp w
  have whole : 8 + n ≤ w → memBytes (storeCut s.memory k.body w (w - 8) (w - (8 + n))) 8 n = k.body := fun h =>
    memBytes_storeCut_body wf k.body w _ (by omega)
  have header : 8 + n ≤ w → memBytes (storeCut s.memory k.body w (w - 8) (w - (8 + n))) 0 8 = _ := fun h =>
    memBytes_storeCut_header wf k.body (w - 8) (w - (8 + n)) (i := w) (by omega)
  rw [cut]
  refine ⟨fun h0 => ?_, fun h1 h9 => ?_, fun h8 => ⟨whole h8, header h8⟩, fun h10 => ?_, fun a ha => ?_⟩
  · subst h0; simp [storeCut, placed, memWriteAll]
  · exact memoryValid_of_marker (memRead_storeCut_marker wf k.body h1 (by omega) (by omega))
  · exact memoryValid_of_stored (memBytes_storeCut_whole wf k.body (by omega) (by omega)) (whole (by omega))
  · exact memRead_storeCut_beyond wf k.body w _ _ ha

end Sys2Proof.Proofs
end

section
/-!
PROOF. A store that ends (O8): what its run comes to where a byte does not take its value, and where the memory does not answer.
-/
namespace Sys2Proof.Machine

/-! ### A memory with one byte that does not take its value, and its verification -/

/-- A memory that takes every byte. -/
theorem map_storeTakes_nil (n : Option Nat) (l : List Host.Cell) : l.map (storeTakes ⟨n, []⟩) = l :=
  (List.map_congr_left fun _ _ => rfl).trans (List.map_id l)

/-- One byte of a run does not take its value. -/
theorem placed_map_storeTakes (n : Option Nat) (start : Nat) (bs : List Byte) (o : Nat) (v : Byte) :
    (placed start bs).map (storeTakes ⟨n, [(start + o, v)]⟩) = placed start (bs.set o v) := by
  refine List.ext_getElem (by simp [placed_length]) fun i h1 h2 => ?_
  rw [List.getElem_map, placed_getElem, placed_getElem]
  rw [placed_length, List.length_set] at h2
  simp only [List.getD_eq_getElem?_getD, List.getElem?_set]
  by_cases hi : o = i
  · simp [storeTakes, hi, h2]
  · simp [storeTakes, hi]

/-- A byte that no write of a run names. -/
theorem map_storeTakes_off (n : Option Nat) {l : List Host.Cell} {a : Nat} (v : Byte) (h : ∀ x ∈ l, x.1 ≠ a) :
    l.map (storeTakes ⟨n, [(a, v)]⟩) = l := by
  refine (List.map_congr_left fun x hx => ?_).trans (List.map_id l)
  simp [storeTakes, Ne.symm (h x hx)]

theorem placed_ne {start : Nat} {bs : List Byte} {a : Nat} (ha : a < start ∨ start + bs.length ≤ a) :
    ∀ x ∈ placed start bs, x.1 ≠ a := by
  intro x hx
  obtain ⟨i, hi, rfl⟩ := List.mem_map.1 hx
  have := List.mem_range.1 hi
  simp only
  omega

/-- What is read back as written does not differ. -/
theorem firstDiffers_of_whole {m : List Host.Cell} {start : Nat} {bs : List Byte} (h : memBytes m start bs.length = bs) :
    firstDiffers m (placed start bs) = none := by
  rw [firstDiffers, Option.map_eq_none_iff, List.find?_eq_none]
  intro x hx
  obtain ⟨i, hi, rfl⟩ := List.mem_map.1 hx
  have hi := List.mem_range.1 hi
  have read : memRead m (start + i) = (memBytes m start bs.length).getD i 0 := by
    simp [memBytes, List.getD_eq_getElem?_getD, hi]
  rw [read, h]
  simp

/-- Where one byte is read back otherwise than written, it is the first that differs. -/
theorem firstDiffers_of_set {m : List Host.Cell} {start : Nat} {bs : List Byte} {o : Nat} {v : Byte}
    (h : memBytes m start bs.length = bs.set o v) (ho : o < bs.length) (hv : bs[o]? ≠ some v) :
    firstDiffers m (placed start bs) = some (start + o) := by
  have read : ∀ i, i < bs.length → memRead m (start + i) = (bs.set o v).getD i 0 := by
    intro i hi
    rw [← h]
    simp [memBytes, List.getD_eq_getElem?_getD, hi]
  rw [List.getElem?_eq_getElem ho] at hv
  suffices found : (placed start bs).find? (fun x => memRead m x.1 != x.2) = some (start + o, bs[o]) by
    rw [firstDiffers, found]; rfl
  refine List.find?_eq_some_iff_getElem.mpr ⟨?_, o, by rwa [placed_length], ?_, fun j hj => ?_⟩
  · rw [read o ho]; simpa [List.getD_eq_getElem?_getD, ho] using fun e => hv (congrArg some e.symm)
  · rw [placed_getElem, List.getD_eq_getElem _ _ ho]
  · rw [placed_getElem, read j (by omega)]
    simp [List.getD_eq_getElem?_getD, show o ≠ j by omega]

/-! ### What a store comes to -/

section
variable (m : List Host.Cell) (k : Settings)

/-- A write of step 1 is not answered. -/
theorem storeRun_silent_first {n : Nat} (h : n < 8) : storeRun ⟨some n, []⟩ m k = (m, some n) := by
  simp only [storeRun, Settings.writes, placed_length, headerBytes_length, Option.getD_some, if_pos h]

/-- A write of the body is not answered. -/
theorem storeRun_silent_body {n : Nat} (h : 8 ≤ n) (hb : n < 8 + k.body.length) :
    storeRun ⟨some n, []⟩ m k = (storeCut m k.body 8 (n - 8) 0, some n) := by
  simp only [storeRun, Settings.writes, placed_length, headerBytes_length, Option.getD_some, map_storeTakes_nil,
    if_neg (show ¬n < 8 by omega), if_pos hb, placed_take]
  rw [show Config.bodyOffset + (n - 8) = n by simp only [Config.bodyOffset]; omega]
  rfl

variable {m}
variable (wf : Memory.wf m = true)
include wf

/-- A write of step 4 is not answered. -/
theorem storeRun_silent_last {n : Nat} (h : 8 + k.body.length ≤ n) (hn : n < 16 + k.body.length) :
    storeRun ⟨some n, []⟩ m k =
      (storeCut m k.body 8 k.body.length (n - (8 + k.body.length)), some (n - (8 + k.body.length))) := by
  have w1 := wf_memWriteAll wf (placed 0 (headerBytes Config.invalidMarker k.body))
  have body := firstDiffers_of_whole (memBytes_placed w1 Config.bodyOffset k.body)
  simp only [storeRun, Settings.writes, placed_length, headerBytes_length, Option.getD_some, map_storeTakes_nil,
    if_neg (show ¬n < 8 by omega), if_neg (show ¬n < 8 + k.body.length by omega), body,
    if_pos (show n < 8 + k.body.length + 8 by omega), placed_take, Nat.sub_sub, storeCut]
  rw [List.take_of_length_le (Nat.le_refl k.body.length)]
  rfl

/-- A memory that takes every byte. -/
theorem storeRun_whole : storeRun ⟨none, []⟩ m k = (storeCut m k.body 8 k.body.length 8, none) := by
  have w1 := wf_memWriteAll wf (placed 0 (headerBytes Config.invalidMarker k.body))
  have w2 := wf_memWriteAll w1 (placed Config.bodyOffset k.body)
  have body := firstDiffers_of_whole (memBytes_placed w1 Config.bodyOffset k.body)
  have header := firstDiffers_of_whole (memBytes_placed w2 0 (headerBytes Config.validMarker k.body))
  simp only [storeRun, Settings.writes, placed_length, headerBytes_length, Option.getD_none, map_storeTakes_nil,
    if_neg (show ¬8 + k.body.length + 8 < 8 by omega), if_neg (show ¬8 + k.body.length + 8 < 8 + k.body.length by omega), body,
    Nat.lt_irrefl, if_false, header, storeCut]
  rw [List.take_of_length_le (Nat.le_refl k.body.length)]
  rfl

/-- A byte of the body does not take the value written. -/
theorem storeRun_stuck_body {o : Nat} {v : Byte} (ho : o < k.body.length) (hv : k.body[o]? ≠ some v) :
    storeRun ⟨none, [(8 + o, v)]⟩ m k =
      (memWriteAll (memWriteAll m (placed 0 (headerBytes Config.invalidMarker k.body))) (placed 8 (k.body.set o v)), some (8 + o)) := by
  have w1 := wf_memWriteAll wf (placed 0 (headerBytes Config.invalidMarker k.body))
  have body := memBytes_placed w1 8 (k.body.set o v)
  rw [List.length_set] at body
  have free : ∀ x ∈ placed 0 (headerBytes Config.invalidMarker k.body), x.1 ≠ 8 + o :=
    placed_ne (.inr (by rw [headerBytes_length]; omega))
  simp only [storeRun, Settings.writes, placed_length, headerBytes_length, Option.getD_none, Config.bodyOffset,
    placed_map_storeTakes none 8, map_storeTakes_off none v free,
    if_neg (show ¬8 + k.body.length + 8 < 8 by omega), if_neg (show ¬8 + k.body.length + 8 < 8 + k.body.length by omega),
    firstDiffers_of_set body ho hv]

/-- A byte of the header does not take the value written in step 4. -/
theorem storeRun_stuck_header {o : Nat} {v : Byte} (ho : o < 8) (hv : (headerBytes Config.validMarker k.body)[o]? ≠ some v) :
    storeRun ⟨none, [(o, v)]⟩ m k =
      (memWriteAll (memWriteAll (memWriteAll m (placed 0 ((headerBytes Config.invalidMarker k.body).set o v)))
        (placed 8 k.body)) (placed 0 ((headerBytes Config.validMarker k.body).set o v)), some o) := by
  have w1 := wf_memWriteAll wf (placed 0 ((headerBytes Config.invalidMarker k.body).set o v))
  have w2 := wf_memWriteAll w1 (placed 8 k.body)
  have header := memBytes_placed w2 0 ((headerBytes Config.validMarker k.body).set o v)
  rw [List.length_set] at header
  have stuck : ∀ bs, (placed 0 bs).map (storeTakes ⟨none, [(o, v)]⟩) = placed 0 (bs.set o v) := fun bs => by
    have := placed_map_storeTakes none 0 bs o v
    rwa [Nat.zero_add] at this
  have differs := firstDiffers_of_set header (by rw [headerBytes_length]; exact ho) hv
  rw [Nat.zero_add] at differs
  simp only [storeRun, Settings.writes, placed_length, headerBytes_length, Option.getD_none, Config.bodyOffset, stuck,
    map_storeTakes_off none v (placed_ne (bs := k.body) (.inl ho)), firstDiffers_of_whole (memBytes_placed w1 8 k.body),
    if_neg (show ¬8 + k.body.length + 8 < 8 by omega), if_neg (show ¬8 + k.body.length + 8 < 8 + k.body.length by omega),
    Nat.lt_irrefl, if_false, differs]

end

/-! ### The answer of a store -/

/-- A store that failed: its port refused with VERIFY FAILED and the offset, and the part serves again. -/
theorem storeComplete_failed {s : State} {p : PortNo} {k : Settings} (hp : s.loader.phase = .storing p k) {a : StoreMemory}
    {m : List Host.Cell} {o : Nat} (run : storeRun a s.memory k = (m, some o)) :
    ∃ t, exec (.storeComplete a) s = .next t ∧ (t.loader = { s.loader with phase := .serving } ∧
      (t.port p).sense = ⟨.storeFailed, .verifyFailed, some (BitVec.ofNat 32 o)⟩ ∧
      (t.port p).trans = .answering (some (framed [if (s.port p).attention then 9 else 1])) ∧
      t = { s with memory := t.memory, loader := t.loader, ports := t.ports } ∧ ∀ q, q ≠ p → t.port q = s.port q) ∧
      t.memory = m := by
  refine ⟨s.storeDone a, rfl, ?_⟩
  have done : s.storeDone a = ({ s with memory := m, loader := { s.loader with phase := .serving } } : State).setPort p
      ((s.port p).reply (.refuse .storeFailed .verifyFailed o)) := by
    simp only [State.storeDone, hp, run]
    rfl
  rw [done]
  refine ⟨⟨rfl, ?_, ?_, rfl, fun q hq => ?_⟩, rfl⟩
  · rw [State.port_setPort_self]; rfl
  · rw [State.port_setPort_self]
    refine congrArg (fun b : Byte => Trans.answering (some (framed [b]))) ?_
    change flagBit 0 true ||| flagBit 1 false ||| flagBit 2 false ||| flagBit 3 (s.port p).attention = _
    cases (s.port p).attention <;> rfl
  · exact State.port_setPort_ne _ hq _

end Sys2Proof.Machine

namespace Sys2Proof.Proofs
open Sys2Proof.Machine

/-- Settles O8, case by case of what the memory does, by the run of the store. -/
theorem failedStoreIsReported : Obligations.FailedStoreIsReported := by
  intro s p k hp wf header failed
  have w1 := wf_memWriteAll wf (placed 0 (headerBytes Config.invalidMarker k.body))
  have length := headerBytes_length Config.validMarker k.body
  refine ⟨fun o v ho hv => ?_, fun o v ho hv => ?_, fun n hn => ?_⟩
  · obtain ⟨t, ran, reported, memory⟩ := storeComplete_failed hp (storeRun_stuck_body k wf ho hv)
    refine ⟨t, ran, reported, memory ▸ memoryValid_of_marker (.inl ?_)⟩
    rw [memRead_placed_outside w1 (.inl (by omega)), memRead_placed_eq wf, if_pos ⟨by omega, by rw [headerBytes_length]; omega⟩]
    rfl
  · obtain ⟨t, ran, reported, memory⟩ := storeComplete_failed hp (storeRun_stuck_header k wf ho hv)
    have w0 := wf_memWriteAll wf (placed 0 ((headerBytes Config.invalidMarker k.body).set o v))
    refine ⟨t, ran, reported, memory ▸ ?_, memory ▸ ?_⟩
    · have whole := memBytes_placed (wf_memWriteAll w0 (placed 8 k.body)) 0 ((headerBytes Config.validMarker k.body).set o v)
      rwa [List.length_set, length] at whole
    · rw [memBytes_placed_outside (wf_memWriteAll w0 (placed 8 k.body)) (.inr (by rw [List.length_set, length]))]
      exact memBytes_placed w0 8 k.body
  · rcases Nat.lt_or_ge n 8 with h8 | h8
    · obtain ⟨t, ran, reported, memory⟩ := storeComplete_failed hp (storeRun_silent_first s.memory k h8)
      exact ⟨t, ran, by rw [if_pos (by omega)]; exact reported, fun _ => memory, fun h => by omega, fun h => by omega⟩
    rcases Nat.lt_or_ge n (8 + k.body.length) with hb | hb
    · obtain ⟨t, ran, reported, memory⟩ := storeComplete_failed hp (storeRun_silent_body s.memory k h8 hb)
      exact ⟨t, ran, by rw [if_pos hb]; exact reported, fun h => by omega,
        fun _ _ => memory ▸ memoryValid_of_marker (memRead_storeCut_marker wf k.body (by decide) (by decide) (by decide)),
        fun h => by omega⟩
    · obtain ⟨t, ran, reported, memory⟩ := storeComplete_failed hp (storeRun_silent_last k wf hb hn)
      refine ⟨t, ran, by rw [if_neg (by omega)]; exact reported, fun h => by omega, fun _ h => by omega, fun _ =>
        ⟨memory ▸ memBytes_storeCut_body wf k.body 8 _ (Nat.le_refl _), fun h10 => ?_, fun h10 => ?_⟩⟩
      · exact memory ▸ memoryValid_of_marker (memRead_storeCut_marker wf k.body (by decide) (by omega) (by omega))
      · exact memory ▸ memBytes_storeCut_whole wf k.body (Nat.le_refl 8) (by omega)

end Sys2Proof.Proofs
end

section
/-!
PROOF. A store that a memory takes whole (O7): the body of a snapshot, item by item, and what a start-up loads from it.
-/
namespace Sys2Proof.Machine

/-! ### Where the items of a body stand -/

/-- One item of a run of items, between those before and those behind it. -/
theorem flatMap_split {α : Type} (f : α → List Byte) (l : List α) {i : Nat} (hi : i < l.length) :
    l.flatMap f = (l.take i).flatMap f ++ (f l[i] ++ (l.drop (i + 1)).flatMap f) := by
  rw [← List.flatMap_cons, ← List.drop_eq_getElem_cons hi, ← List.flatMap_append, List.take_append_drop]

/-- One item of a run of items of one length, behind a front part: how many bytes stand before it. -/
theorem item_at {α : Type} {f : α → List Byte} {n : Nat} (front : List Byte) (l : List α) (rest : List Byte)
    (h : ∀ x ∈ l, (f x).length = n) {i : Nat} (hi : i < l.length) :
    ∃ before behind, front ++ (l.flatMap f ++ rest) = before ++ (f l[i] ++ behind) ∧
      before.length = front.length + n * i := by
  refine ⟨front ++ (l.take i).flatMap f, (l.drop (i + 1)).flatMap f ++ rest, ?_, ?_⟩
  · rw [flatMap_split f l hi]
    simp only [List.append_assoc]
  · rw [List.length_append, flatMap_length_const _ fun x hx => h x (List.mem_of_mem_take hx), List.length_take,
      Nat.min_eq_left (Nat.le_of_lt hi)]

section
variable (k : Settings)

/-- The body up to its booth records. -/
def Settings.headPart : List Byte := [k.rate.toByte] ++ k.roles.toList.map Role.toByte ++ [k.mask]

/-- The body's profile count and entries. -/
def Settings.profilePart : List Byte :=
  [byteOf (profileEntriesBytes k.profiles).length] ++ (profileEntriesBytes k.profiles).flatten

theorem body_parts : k.body = k.headPart ++ (k.booths.toList.flatMap BoothRecord.bytes ++
    (k.profilePart ++ k.chans.toList.flatMap ChanDefaults.bytes)) := by
  simp only [Settings.body, Settings.headPart, Settings.profilePart, List.append_assoc]

theorem headPart_length : k.headPart.length = 8 := by simp [Settings.headPart]

theorem profilePart_length : k.profilePart.length = 1 + 28 * (profileEntriesBytes k.profiles).length := by
  rw [Settings.profilePart, List.length_append, ← List.flatMap_id, flatMap_length_const (f := id) _ fun e he => entry_length he]
  rfl

theorem boothPart_length : (k.booths.toList.flatMap BoothRecord.bytes).length = 96 := by
  rw [flatMap_length_const (f := BoothRecord.bytes) _ fun r _ => boothBytes_length r, Vector.length_toList]

theorem body_booth (b : BoothNo) :
    ∃ before behind, k.body = before ++ (k.booths[b].bytes ++ behind) ∧ before.length = 8 + 16 * b := by
  obtain ⟨before, behind, parts, length⟩ := item_at k.headPart k.booths.toList _ (fun r _ => boothBytes_length r)
    (show b.val < k.booths.toList.length by simp)
  exact ⟨before, behind, (body_parts k).trans (by simpa using parts), by rw [length, headPart_length]⟩

theorem body_entry {j : Nat} (hj : j < (profileEntriesBytes k.profiles).length) :
    ∃ before behind, k.body = before ++ ((profileEntriesBytes k.profiles)[j] ++ behind) ∧ before.length = 105 + 28 * j := by
  obtain ⟨before, behind, parts, length⟩ := item_at (f := id)
    (k.headPart ++ k.booths.toList.flatMap BoothRecord.bytes ++ [byteOf (profileEntriesBytes k.profiles).length])
    (profileEntriesBytes k.profiles) (k.chans.toList.flatMap ChanDefaults.bytes) (fun e he => entry_length he) hj
  refine ⟨before, behind, (body_parts k).trans ?_, ?_⟩
  · rw [List.flatMap_id, id] at parts
    rw [← parts, Settings.profilePart]
    simp only [List.append_assoc]
  · rw [length, List.length_append, List.length_append, headPart_length, boothPart_length]
    rfl

theorem body_chan (c : ChanNo) : ∃ before behind, k.body = before ++ (k.chans[c].bytes ++ behind) ∧
    before.length = 105 + 28 * profileCount k.body + 5 * c := by
  obtain ⟨before, behind, parts, length⟩ := item_at (k.headPart ++ (k.booths.toList.flatMap BoothRecord.bytes ++ k.profilePart))
    k.chans.toList [] (fun d _ => chanBytes_length d) (show c.val < k.chans.toList.length by simp)
  refine ⟨before, behind, (body_parts k).trans ?_, ?_⟩
  · simp only [List.append_nil, List.append_assoc, Vector.getElem_toList] at parts
    exact parts
  · rw [length, List.length_append, List.length_append, headPart_length, boothPart_length, profilePart_length, profileCount_body]
    omega

end

/-! ### What a start-up loads from the body of a snapshot -/

section
variable {k : Settings}

theorem loadBooth_body {b : BoothNo} (h : k.booths[b].inRange = true) : loadBooth k.body b = k.booths[b] := by
  obtain ⟨before, behind, parts, length⟩ := body_booth k b
  obtain ⟨record, tests⟩ := boothRecordAt_bytes h before behind
  simp only [loadBooth, ← length, parts, record, tests, Option.isNone_none, if_true]

/-- Records that name distinct slots keep them. -/
theorem resolveSlots_of_distinct {v : Vector BoothRecord 6}
    (h : ∀ b o : BoothNo, b ≠ o → v[b].slot.isSome = true → v[b].slot ≠ v[o].slot) : resolveSlots v = v := by
  refine Vector.ext fun i hi => ?_
  have get := resolveSlots_get v ⟨i, hi⟩
  simp only [Fin.getElem_fin] at get
  rw [get]
  split
  case isFalse => rfl
  case isTrue named =>
    obtain ⟨o, ho, same⟩ := named
    have free : v[i].slot = none := Option.not_isSome_iff_eq_none.mp fun some =>
      h ⟨i, hi⟩ o (ne_of_gt ho) some same.symm
    rw [← free]

/-- Every entry of a body is that of a defined profile. -/
theorem entry_defined {v : Vector Profile 16} {e : List Byte} (h : e ∈ profileEntriesBytes v) :
    ∃ n : ProfNo, v[n].defined = true ∧ e = profileEntry n v[n] := by
  obtain ⟨n, hn, he⟩ := List.mem_filterMap.1 h
  have hn := List.mem_range.1 hn
  have get : v.toList.getD n (defaultProfile false) = v[n] := by simp [List.getD_eq_getElem?_getD, hn]
  dsimp only at he
  rw [get] at he
  split at he
  case isTrue defined => exact ⟨⟨n, hn⟩, defined, (Option.some.inj he).symm⟩
  case isFalse => cases he

/-- Every defined profile has its entry in a body. -/
theorem defined_entry {v : Vector Profile 16} {n : ProfNo} (h : v[n].defined = true) : profileEntry n v[n] ∈ profileEntriesBytes v := by
  refine List.mem_filterMap.2 ⟨n, List.mem_range.2 n.isLt, ?_⟩
  have get : v.toList.getD n (defaultProfile false) = v[n] := by simp [List.getD_eq_getElem?_getD]
  dsimp only
  rw [get, if_pos h]

/-- An entry of a body reads back as the number and the record of its profile. -/
theorem entry_reads {j : Nat} (hj : j < (profileEntriesBytes k.profiles).length) {n : ProfNo} (range : k.profiles[n].inRange = true)
    (defined : k.profiles[n].defined = true) (he : (profileEntriesBytes k.profiles)[j] = profileEntry n k.profiles[n]) :
    natAt k.body (105 + 28 * j) = n ∧ profileAt k.body (106 + 28 * j) true = k.profiles[n] ∧
      firstFault (profileTests k.body (106 + 28 * j)) = none := by
  obtain ⟨before, behind, parts, length⟩ := body_entry k hj
  have same : ({ k.profiles[n] with defined := true } : Profile) = k.profiles[n] := by rw [← defined]
  rw [he, profileEntry, same] at parts
  have number : natAt k.body (before.length + 0) = n := by
    rw [parts, natAt_append]
    exact toNat_byteOf (by omega)
  have shifted : k.body = (before ++ [byteOf n]) ++ (k.profiles[n].bytes ++ behind) := by
    rw [parts]; simp only [List.append_assoc, List.cons_append, List.nil_append]
  obtain ⟨record, tests⟩ := profileAt_bytes range (before ++ [byteOf n]) behind
  have at106 : (before ++ [byteOf n]).length = 106 + 28 * j := by
    rw [List.length_append, length, List.length_singleton]; omega
  rw [← shifted, at106, defined] at record
  rw [← shifted, at106] at tests
  rw [Nat.add_zero, length] at number
  exact ⟨number, record, tests⟩

/-- A profile a start-up finds in the body of a snapshot (R58, R180). -/
theorem loadProfile_body (range : ∀ n : ProfNo, k.profiles[n].inRange = true) (zero : k.profiles[(0 : ProfNo)].defined = true)
    (n : ProfNo) : loadProfile k.body n = if k.profiles[n].defined then k.profiles[n] else defaultProfile false := by
  have reads : ∀ j (hj : j < (profileEntriesBytes k.profiles).length), ∃ o : ProfNo, k.profiles[o].defined = true ∧
      natAt k.body (105 + 28 * j) = o ∧ profileAt k.body (106 + 28 * j) true = k.profiles[o] ∧
      firstFault (profileTests k.body (106 + 28 * j)) = none ∧
      (profileEntriesBytes k.profiles)[j] = profileEntry o k.profiles[o] := by
    intro j hj
    obtain ⟨o, defined, he⟩ := entry_defined (List.getElem_mem hj)
    obtain ⟨number, record, tests⟩ := entry_reads hj (range o) defined he
    exact ⟨o, defined, number, record, tests, he⟩
  unfold loadProfile
  cases found : (profileEntries k.body).find? (fun e => e.1 == n.val) with
  | some e =>
    obtain ⟨j, hj, rfl⟩ := List.mem_map.1 (List.mem_of_find?_eq_some found)
    rw [List.mem_range, profileCount_body] at hj
    obtain ⟨o, defined, number, record, tests, -⟩ := reads j hj
    have same : natAt k.body (105 + 28 * j) = n := by simpa using List.find?_some found
    obtain rfl : o = n := Fin.ext (number.symm.trans same)
    simp only [record, tests, Option.isNone_none, if_true, defined]
  | none =>
    have undefined : ¬k.profiles[n].defined = true := by
      intro defined
      obtain ⟨j, hj, he⟩ := List.getElem_of_mem (defined_entry defined)
      have number := (entry_reads hj (range n) defined he).1
      have differs := List.find?_eq_none.1 found (105 + 28 * j |> natAt k.body, 106 + 28 * j)
        (List.mem_map.2 ⟨j, List.mem_range.2 (by rwa [profileCount_body]), rfl⟩)
      exact differs (by simpa using number)
    have other : n ≠ 0 := fun h => undefined (h ▸ zero)
    simp only [if_neg undefined, beq_eq_false_iff_ne.mpr other]

theorem lossOf_toByte (m : LossMode) : lossOf m.toByte.toNat = some m := by cases m <;> rfl

theorem roleOf_toByte (r : Role) : roleOf r.toByte.toNat = some r := by
  cases r with
  | channel n => revert n; decide
  | _ => rfl

/-- A channel's defaults in range, where their bytes stand: what a start-up loads of them (R166). -/
theorem loadChan_of_bytes {body behind : List Byte} {c : ChanNo} {d : ChanDefaults}
    (reads : ∀ i, natAt body (105 + 28 * profileCount body + 5 * c + i) = natAt (d.bytes ++ behind) i)
    (range : d.target ≤ Config.maxTarget ∧ 1 ≤ d.slew ∧ d.slew ≤ 255 ∧ d.lateLimit ≤ Config.maxLateness) (v : Vector Profile 16) :
    loadChan body v c = if v[d.profile].defined then d else { d with profile := 0 } := by
  obtain ⟨target, slew, slew255, limit⟩ := range
  simp only [Config.maxTarget, Config.maxLateness] at target limit
  have t : natAt body (105 + 28 * profileCount body + 5 * c) = d.target := (reads 0).trans (toNat_byteOf (by omega))
  have s : natAt body (105 + 28 * profileCount body + 5 * c + 1) = d.slew := (reads 1).trans (toNat_byteOf (by omega))
  have l : natAt body (105 + 28 * profileCount body + 5 * c + 2) = d.lateLimit := (reads 2).trans (toNat_byteOf (by omega))
  have m : lossOf (natAt body (105 + 28 * profileCount body + 5 * c + 3)) = some d.loss :=
    (congrArg lossOf (reads 3)).trans (lossOf_toByte d.loss)
  have p : natAt body (105 + 28 * profileCount body + 5 * c + 4) = d.profile := (reads 4).trans (toNat_byteOf (by omega))
  have named : profOf d.profile = some d.profile := dif_pos d.profile.isLt
  simp only [loadChan, t, s, l, m, p, named, Config.maxTarget, Config.maxLateness, if_pos target, if_pos limit,
    if_neg (show ¬d.slew = 0 by omega), Option.getD_some]
  split <;> rfl

theorem loadChan_body {c : ChanNo} (range : k.chans[c].target ≤ Config.maxTarget ∧ 1 ≤ k.chans[c].slew ∧ k.chans[c].slew ≤ 255 ∧
    k.chans[c].lateLimit ≤ Config.maxLateness) (v : Vector Profile 16) :
    loadChan k.body v c = if v[k.chans[c].profile].defined then k.chans[c] else { k.chans[c] with profile := 0 } := by
  obtain ⟨before, behind, parts, length⟩ := body_chan k c
  refine loadChan_of_bytes (behind := behind) (fun i => ?_) range v
  rw [← length]
  conv_lhs => rw [parts]
  exact natAt_append _ _ i

/-- The frame rate, the roles and the slot mask of a body. -/
theorem head_body : rateOf (natAt k.body 0) = k.rate ∧ k.body.getD 7 0 = k.mask ∧
    ∀ p : PortNo, roleOf (natAt k.body (1 + p)) = some k.roles[p] := by
  have front : ∀ i, i < 8 → k.body.getD i 0 = k.headPart.getD i 0 := fun i hi => by
    rw [body_parts]
    simp [List.getD_eq_getElem?_getD, List.getElem?_append_left (show i < k.headPart.length by rw [headPart_length]; exact hi)]
  refine ⟨?_, ?_, fun p => ?_⟩
  · rw [natAt, front 0 (by omega)]
    change rateOf k.rate.toByte.toNat = k.rate
    cases k.rate <;> rfl
  · rw [front 7 (by omega)]
    simp [Settings.headPart, List.getD_eq_getElem?_getD, Nat.add_comm]
  · rw [natAt, front (1 + p) (by omega)]
    have role : k.headPart.getD (1 + p) 0 = k.roles[p].toByte := by
      simp [Settings.headPart, List.getD_eq_getElem?_getD, List.getElem?_append, Nat.add_comm]
    rw [role, roleOf_toByte]

/-- A start-up finds in the body of a snapshot the settings the snapshot took (R166, R172). -/
theorem loadBody_body (h : k.Storable) : loadBody k.body = k.asLoaded := by
  obtain ⟨booths, distinct, zero, profiles, chans⟩ := h
  obtain ⟨rate, mask, roles⟩ := head_body (k := k)
  have loaded : Vector.ofFn (loadProfile k.body) =
      Vector.ofFn (fun n : ProfNo => if k.profiles[n].defined then k.profiles[n] else defaultProfile false) :=
    congrArg Vector.ofFn (funext (loadProfile_body profiles zero))
  have stored : Vector.ofFn (loadBooth k.body) = k.booths :=
    Vector.ext fun i hi => by simpa using loadBooth_body (booths ⟨i, hi⟩)
  have role : Vector.ofFn (fun p : PortNo => (roleOf (natAt k.body (1 + p.val))).getD defaultRoles[p]) = k.roles :=
    Vector.ext fun i hi => by
      rw [Vector.getElem_ofFn, roles ⟨i, hi⟩]
      rfl
  simp only [loadBody, loaded, stored, role, rate, mask, resolveSlots_of_distinct distinct, Settings.asLoaded]
  congr 1
  refine Vector.ext fun i hi => ?_
  rw [Vector.getElem_ofFn, Vector.getElem_ofFn, loadChan_body (chans ⟨i, hi⟩)]
  refine if_congr ?_ rfl rfl
  simp only [Fin.getElem_fin, Vector.getElem_ofFn]
  split <;> simp_all [defaultProfile]

end

/-! ### The answer of a store that succeeds -/

/-- A store without a failure: its port answered without CHECK, and the part serves again. -/
theorem storeComplete_good {s : State} {p : PortNo} {k : Settings} (hp : s.loader.phase = .storing p k)
    (sense : (s.port p).sense = senseNone) {a : StoreMemory} {m : List Host.Cell} (run : storeRun a s.memory k = (m, none)) :
    ∃ t, exec (.storeComplete a) s = .next t ∧ t.loader = { s.loader with phase := .serving } ∧
      (t.port p).trans = .answering (some (framed [if (s.port p).attention then 8 else 0])) ∧ (t.port p).sense = senseNone ∧
      t.memory = m ∧ t = { s with memory := t.memory, loader := t.loader, ports := t.ports } ∧ ∀ q, q ≠ p → t.port q = s.port q := by
  refine ⟨s.storeDone a, rfl, ?_⟩
  have done : s.storeDone a = ({ s with memory := m, loader := { s.loader with phase := .serving } } : State).setPort p
      ((s.port p).reply (.ok [])) := by
    simp only [State.storeDone, hp, run]
    rfl
  rw [done]
  refine ⟨rfl, ?_, ?_, rfl, rfl, fun q hq => State.port_setPort_ne _ hq _⟩
  · rw [State.port_setPort_self]
    refine congrArg (fun b : Byte => Trans.answering (some (framed [b]))) ?_
    simp only [Port.status, sense]
    cases (s.port p).attention <;> rfl
  · rw [State.port_setPort_self]; exact sense

end Sys2Proof.Machine

namespace Sys2Proof.Proofs
open Sys2Proof.Machine

/-- Settles O7: the store leaves the snapshot's body whole behind its whole header, and each item of the body reads back. -/
theorem storedSettingsLoadBack : Obligations.StoredSettingsLoadBack := by
  intro s p k hp sense storable wf
  obtain ⟨t, ran, loader, trans, kept, memory, rest, others⟩ := storeComplete_good hp sense (storeRun_whole k wf)
  obtain ⟨valid, body⟩ := memoryValid_of_stored (memBytes_storeCut_whole wf k.body (j := k.body.length) (l := 8) (Nat.le_refl 8)
    (by decide)) (memBytes_storeCut_body wf k.body 8 8 (Nat.le_refl _))
  rw [← memory] at valid body
  exact ⟨t, ran, loader, trans, kept, valid, (congrArg loadBody body).trans (loadBody_body storable), rest, others⟩

end Sys2Proof.Proofs
end

section
/-!
PROOF. What the completion of start-up leaves (O4): grants in turn, first candidates, roles, notices and the memory.
-/
namespace Sys2Proof.Machine

/-! ### The grants in ascending order (R14, R19) -/

/-- From channels that reserve nothing and hold no frame: the grants of a start-up, each from what those before it leave. -/
theorem granted_startGrants {u : State} (empty : ∀ c, (u.chan c).reservation = 0) :
    let g := fun c : ChanNo => (u.startGrants.chan c).pool.granted
    let d := fun c : ChanNo => (u.chan c).pool.target
    g 0 = min (d 0) 480 ∧ g 1 = min (d 1) (480 - g 0) ∧ g 2 = min (d 2) (480 - (g 0 + g 1)) ∧
      g 3 = min (d 3) (480 - (g 0 + g 1 + g 2)) := by
  intro g d
  have other (v : State) (c e : ChanNo) (h : e ≠ c) : (v.startGrant c).chan e = v.chan e := chan_startGrant_ne v h
  have own (v : State) (c : ChanNo) (same : v.chan c = u.chan c) :
      ((v.startGrant c).chan c).reservation = v.grantFor c (u.chan c).pool.target ∧
        ((v.startGrant c).chan c).pool.granted = v.grantFor c (u.chan c).pool.target := by
    have held : (u.chan c).actual = 0 := by
      have := empty c
      simp only [Channel.reservation] at this
      omega
    rw [chan_startGrant, if_pos rfl, same]
    refine ⟨?_, rfl⟩
    change max (v.grantFor c (u.chan c).pool.target) (u.chan c).actual = _
    rw [held, Nat.max_zero]
  simp only [g, State.startGrants]
  generalize h0 : u.startGrant 0 = s0
  generalize h1 : s0.startGrant 1 = s1
  generalize h2 : s1.startGrant 2 = s2
  generalize h3 : s2.startGrant 3 = s3
  have e0 := fun c hc => h0 ▸ other u 0 c hc
  have e1 := fun c hc => h1 ▸ other s0 1 c hc
  have e2 := fun c hc => h2 ▸ other s1 2 c hc
  have e3 := fun c hc => h3 ▸ other s2 3 c hc
  obtain ⟨r0, g0⟩ := h0 ▸ own u 0 rfl
  obtain ⟨r1, g1⟩ := h1 ▸ own s0 1 (e0 1 (by decide))
  obtain ⟨r2, g2⟩ := h2 ▸ own s1 2 ((e1 2 (by decide)).trans (e0 2 (by decide)))
  obtain ⟨-, g3⟩ := h3 ▸ own s2 3 ((e2 3 (by decide)).trans ((e1 3 (by decide)).trans (e0 3 (by decide))))
  have z0 := empty 0
  have z1 := empty 1
  have z2 := empty 2
  have z3 := empty 3
  simp only [e3 0 (by decide), e3 1 (by decide), e3 2 (by decide), e2 0 (by decide), e2 1 (by decide), e1 0 (by decide), g0, g1, g2, g3]
  simp only [State.grantFor, State.reserved, e2 0 (by decide), e2 1 (by decide), e2 3 (by decide), e1 0 (by decide), e1 2 (by decide),
    e1 3 (by decide), e0 1 (by decide), e0 2 (by decide), e0 3 (by decide), r0, r1, r2, z0, z1, z2, z3, Config.poolFrames, d, Nat.add_zero, Nat.sub_zero, and_self]

/-! ### The placements (R69, R78) -/

/-- With no zone active the choice is the first candidate. -/
theorem choose_no_zones {p : Profile} {q : Nat × Nat} (h : p.positions.head? = some q) (kept : Placement) :
    (p.choose [] kept).1 = p.fitted ⟨q.1, q.2, p.fp⟩ := by
  obtain ⟨rest, positions⟩ := List.head?_eq_some_iff.1 h
  obtain ⟨i, here, -, first, -⟩ := choose_spec (p := p) (by rw [positions]; simp) [] kept
  have lead : p.candidates[0]? = some (p.fitted ⟨q.1, q.2, p.fp⟩) := by rw [candidates_eq, positions]; rfl
  rcases Nat.eq_zero_or_pos i with rfl | later
  · exact Option.some.inj (here.symm.trans lead)
  · exact absurd (first 0 _ later lead) (by simp [Profile.overlap])

/-! ### The notices (R170) -/

/-- The DELAY notices of a start-up. -/
theorem delay_resetDelays (s : State) (old : Option (Vector Nat 4)) (p : PortNo) (c : ChanNo) :
    ((s.resetDelays old).port p).pending.has (.delay c) = ((s.port p).pending.has (.delay c) ||
      ((s.port p).role.any (fun r => r.hears (.delay c)) && old.any (fun v => (s.chan c).pool.granted != v[c]))) := by
  cases old with
  | none => simp [State.resetDelays]
  | some v =>
    simp only [State.resetDelays, State.has_raiseIf, State.role_raiseIf, Notice.delay.injEq, Option.any_some]
    match c with
    | 0 => simp
    | 1 => simp
    | 2 => simp
    | 3 => simp

/-- No other notice is told by them. -/
theorem has_resetDelays (s : State) (old : Option (Vector Nat 4)) (p : PortNo) {e : Notice} (he : ∀ c, e ≠ .delay c) :
    ((s.resetDelays old).port p).pending.has e = (s.port p).pending.has e := by
  cases old with
  | none => rfl
  | some v => simp [State.resetDelays, State.has_raiseIf, he]

/-- They change nothing at a port but its pending set. -/
theorem port_resetDelays (s : State) (old : Option (Vector Nat 4)) (p : PortNo) :
    (s.resetDelays old).port p = { s.port p with pending := ((s.resetDelays old).port p).pending } := by
  cases old with
  | none => rfl
  | some v =>
    simp only [State.resetDelays]
    rw [port_raiseIf_eq _ _ _ p, port_raiseIf_eq _ _ _ p, port_raiseIf_eq _ _ _ p, port_raiseIf_eq _ _ _ p]

/-- Where RESET UNIT carried no roles across, the roles of a start-up are those of its settings (R167). -/
theorem roles_of_settings {l : Loader} (h : l.rolesPending = false ∨ l.pendingRoles = none) (k : Settings) :
    l.roles k = resolveRoles k.roles := by
  unfold Loader.roles
  split
  case h_1 carried held => rcases h with h | h <;> simp_all
  case h_2 => rfl

/-- The state a start-up tells its DELAY notices in: settings, grants, placements and roles in place, and START raised. -/
def State.started (s : State) (m : MemoryAnswer) : State :=
  ((s.settled m).startPlacements.bringRoles (s.loader.roles (startSettings m s.memory))).raise .start

section
variable {s : State} (hp : s.loader.phase = .starting) (m : MemoryAnswer)

theorem port_bringRoles (u : State) (v : Vector Role 6) (p : PortNo) :
    (u.bringRoles v).port p = { u.port p with role := some v[p], sense := senseNone } := by
  simp [State.bringRoles, State.port]

theorem port_started (p : PortNo) : (s.started m).port p = { s.port p with
    role := some (s.loader.roles (startSettings m s.memory))[p], sense := senseNone
    pending := ((s.started m).port p).pending } := by
  have told := port_raiseIf_eq ((s.settled m).startPlacements.bringRoles (s.loader.roles (startSettings m s.memory))) true .start p
  rw [port_bringRoles] at told
  exact told

theorem has_started (p : PortNo) (e : Notice) :
    ((s.started m).port p).pending.has e = ((s.port p).pending.has e || decide (e = .start)) := by
  have told := State.has_raiseIf ((s.settled m).startPlacements.bringRoles (s.loader.roles (startSettings m s.memory))) true .start e p
  rw [port_bringRoles] at told
  refine told.trans (congrArg ((s.port p).pending.has e || ·) ?_)
  by_cases h : e = .start
  · simp [h, Role.hears]
  · simp [h]

include hp

theorem port_startUp_started (p : PortNo) : (s.startUp m).port p = ((s.started m).resetDelays s.loader.grantsAtReset).port p := by
  simp only [State.startUp, hp]
  rfl

theorem port_startUp (p : PortNo) : (s.startUp m).port p = { s.port p with
    role := some (s.loader.roles (startSettings m s.memory))[p], sense := senseNone
    pending := ((s.startUp m).port p).pending } := by
  rw [port_startUp_started hp, port_resetDelays, port_started]

/-- The notices of a start-up: START, and DELAY for a channel whose grant is another than RESET UNIT kept. -/
theorem delay_startUp (p : PortNo) (c : ChanNo) : ((s.startUp m).port p).pending.has (.delay c) =
    ((s.port p).pending.has (.delay c) || ((s.loader.roles (startSettings m s.memory))[p].hears (.delay c) &&
      s.loader.grantsAtReset.any (fun v => v[c] != ((s.startUp m).chan c).pool.granted))) := by
  have same : ((s.started m).chan c).pool.granted = ((s.startUp m).chan c).pool.granted := by
    rw [chan_startUp hp]
    change ((s.settled m).startPlacements.chan c).pool.granted = _
    rw [chan_startPlacements]
  have role : ((s.started m).port p).role = some (s.loader.roles (startSettings m s.memory))[p] := by rw [port_started]
  rw [port_startUp_started hp, delay_resetDelays, has_started, role, same]
  simp only [reduceCtorEq, decide_false, Bool.or_false, Option.any_some, bne_comm]

theorem has_startUp (p : PortNo) {e : Notice} (he : ∀ c, e ≠ .delay c) :
    ((s.startUp m).port p).pending.has e = ((s.port p).pending.has e || decide (e = .start)) := by
  rw [port_startUp_started hp, has_resetDelays _ _ _ he, has_started]

/-- The profile a start-up chooses a channel's placement by. -/
theorem currentProfile_startUp (c : ChanNo) :
    (s.startUp m).currentProfile c = (startSettings m s.memory).profiles[(startSettings m s.memory).chans[c].profile] ∧
      (s.settled m).currentProfile c = (s.startUp m).currentProfile c := by
  have selected : ((s.settled m).chan c).place.profile = (startSettings m s.memory).chans[c].profile := by rw [chan_settled]; rfl
  have same : ((s.startUp m).chan c).place.profile = (startSettings m s.memory).chans[c].profile := by
    rw [chan_startUp hp]; exact selected
  rw [State.currentProfile, State.currentProfile, profile_startUp hp, same, selected, profile_settled]
  exact ⟨rfl, rfl⟩

/-- A channel after start-up: its stored defaults in place, its grant and its choice made. -/
theorem chan_startUp_load (c : ChanNo) : (s.startUp m).chan c = { (s.chan c).load (startSettings m s.memory).chans[c] with
    pool := { target := (startSettings m s.memory).chans[c].target
              granted := ((s.startUp m).chan c).pool.granted
              clamped := ((s.startUp m).chan c).pool.clamped }
    place := ((s.chan c).load (startSettings m s.memory).chans[c]).place.startUp ((s.startUp m).currentProfile c) } := by
  rw [← (currentProfile_startUp hp m c).2]
  conv_lhs => rw [chan_startUp hp, chan_settled]
  rw [chan_startUp hp]

theorem memory_startUp : (s.startUp m).memory = memContents m s.memory := by rw [startUp_eq hp]; rfl

end

/-- An image prepared outside the part stands in the memory byte by byte, what it does not hold reading as blank. -/
theorem memRead_prepared (image : List Byte) (held : List Host.Cell) {a : Nat} (ha : a < 4096) :
    memRead (memContents (.prepared image) held) a = image.getD a 0 := by
  have wf : Memory.wf [] = true := rfl
  rw [memContents, memRead_placed_eq wf]
  by_cases h : a < image.length
  · rw [if_pos ⟨Nat.zero_le a, by rw [List.length_take]; simp only [Config.memoryBytes]; omega⟩]
    simp [List.getD_eq_getElem?_getD, ha]
  · rw [if_neg (by rw [List.length_take]; omega), List.getD_eq_default _ _ (by omega)]
    rfl

/-- START pending and every kind enabled assert the attention line. -/
theorem attention_of_start {q : Port} (pending : q.pending.start = true) (enabled : q.enabled = 0xFF) : q.attention = true := by
  rw [Port.attention, and_bne_zero]
  exact ⟨0, by rw [enabled]; decide, by rw [kinds_getLsbD]; exact pending⟩

end Sys2Proof.Machine

namespace Sys2Proof.Proofs
open Sys2Proof.Machine

/-- Settles O4: each block as the start-up leaves it, from the loaded settings, the grants in turn and the first candidates. -/
theorem startUpPutsSettingsInPlace : Obligations.StartUpPutsSettingsInPlace := by
  intro m s hp laws k
  obtain ⟨empty, ports⟩ := laws hp
  have pools (c : ChanNo) : ((s.startUp m).chan c).pool = ((s.placed m).startGrants.chan c).pool :=
    (samePools_startUp hp m c).1
  have clamped (c : ChanNo) : ((s.startUp m).chan c).pool.clamped = decide (((s.startUp m).chan c).pool.granted < k.chans[c].target) := by
    obtain ⟨v, pool, -⟩ := startGrants_turn (s.placed m) c
    rw [pools, pool, chan_placed]
    rfl
  refine ⟨s.startUp m, s.loader.roles k, rfl, fun v carried some => ?_, fun none => ?_, ?_, fun b => booth_startUp hp m b,
    fun c => ⟨?_, fun q hq => ?_⟩, ?_, fun p => ⟨?_, ?_, fun c => ?_⟩, fun kept => ?_, fun image prepared a ha => ?_⟩
  · simp only [Loader.roles, carried, some]
  · exact roles_of_settings none k
  · have booths : (s.startUp m).booths = (s.settled m).startPlacements.booths := by rw [startUp_eq hp]
    have chans : (s.startUp m).chans = (s.settled m).startPlacements.chans := by rw [startUp_eq hp]
    have memory : (s.startUp m).memory = (s.settled m).startPlacements.memory := by rw [startUp_eq hp]
    rw [booths, chans, memory]
    exact startUp_eq hp m
  · have chosen : ((s.startUp m).chan c).place.chosen =
        (((s.chan c).load k.chans[c]).place.startUp ((s.startUp m).currentProfile c)).chosen := by rw [chan_startUp_load hp]
    refine (chan_startUp_load hp m c).trans ?_
    dsimp only
    rw [chosen, clamped]
    rfl
  · have place : ((s.startUp m).chan c).place.chosen = (((s.startUp m).currentProfile c).choose [] (s.chan c).place.chosen).1 := by
      rw [chan_startUp_load hp]; rfl
    rw [place]
    exact choose_no_zones hq _
  · have grants := granted_startGrants (u := s.placed m) fun c => by
      obtain ⟨-, line, granted⟩ := empty c
      rw [reservation_placed, Channel.reservation, Channel.actual, granted, line]
      rfl
    simp only [chan_placed] at grants
    simp only [pools]
    exact grants
  · obtain ⟨-, none, enabled⟩ := ports p
    refine attention_of_start ?_ (by rw [port_startUp hp]; exact enabled)
    have start := has_startUp hp m p (e := .start) (by simp)
    simpa [Notices.has] using start
  · obtain ⟨-, none, enabled⟩ := ports p
    have told : ((s.startUp m).port p).pending = { noNotices with start := true, delay := ((s.startUp m).port p).pending.delay } := by
      refine Notices.ext_has fun e => ?_
      cases e with
      | delay c => rfl
      | _ => rw [has_startUp hp m p (by simp), none]; simp [Notices.has, noNotices]
    rw [← told]
    exact port_startUp hp m p
  · obtain ⟨-, none, enabled⟩ := ports p
    have delay := delay_startUp hp m p c
    rw [none] at delay
    simpa [Notices.has, noNotices] using delay
  · rw [memory_startUp hp]
    rcases kept with rfl | rfl <;> rfl
  · rw [memory_startUp hp, prepared]
    exact memRead_prepared image s.memory ha

end Sys2Proof.Proofs
end

section
/-!
PROOF. What a start-up loads (O5): a memory that does not check gives every default, one that checks its items, each with its fallback.
-/
namespace Sys2Proof.Machine

/-! ### The bytes of a memory -/

/-- The memory reads as these bytes. -/
def MemReads (mem : List Host.Cell) (byte : Nat → Nat) : Prop := ∀ a, a < 4096 → (memRead mem a).toNat = byte a

/-- What a start-up judges and loads is the memory that reads as the bytes it meets. -/
theorem reads_of_startBytes {s : State} {m : MemoryAnswer} {byte : Nat → Nat} (h : startBytes s m = some byte) :
    MemReads (memContents m s.memory) byte ∧ memAnswerValid m s.memory = memoryValid (memContents m s.memory) := by
  cases m with
  | unreadable => cases h
  | held => cases h; exact ⟨fun _ _ => rfl, rfl⟩
  | prepared image =>
    cases h
    exact ⟨fun a ha => congrArg BitVec.toNat (memRead_prepared image s.memory ha), rfl⟩

theorem natAt_memBytes (mem : List Host.Cell) (start : Nat) {n i : Nat} (h : i < n) :
    natAt (memBytes mem start n) i = (memRead mem (start + i)).toNat := by
  simp [natAt, memBytes, List.getD_eq_getElem?_getD, h]

section
variable {mem : List Host.Cell} {byte : Nat → Nat} (reads : MemReads mem byte)
include reads

theorem nat16At_header {i : Nat} (h : i + 1 < 8) : nat16At (memBytes mem 0 8) i = word byte i := by
  rw [nat16At, natAt_memBytes mem 0 (by omega), natAt_memBytes mem 0 h, reads _ (by omega), reads _ (by omega), word, Nat.zero_add,
    Nat.zero_add, Nat.mul_comm]

theorem headerLength_eq : headerLength mem = word byte 4 := nat16At_header reads (by omega)

/-- A byte of the body, within the length the header gives. -/
theorem natAt_memBody {i : Nat} (h : i < word byte 4) (fits : 8 + word byte 4 ≤ 4096) : natAt (memBody mem) i = byte (8 + i) := by
  rw [memBody, headerLength_eq reads, natAt_memBytes _ _ h]
  exact reads _ (by simp only [Config.bodyOffset]; omega)

theorem bodySum_eq (fits : 8 + word byte 4 ≤ 4096) :
    bodySum (memBody mem) = ((List.range (word byte 4)).map (fun i => byte (8 + i))).sum % 65536 := by
  rw [bodySum, memBody, headerLength_eq reads, memBytes, List.map_map]
  congr 2
  refine List.map_congr_left fun i hi => ?_
  have := List.mem_range.1 hi
  exact reads _ (by simp only [Config.bodyOffset]; omega)

/-- The profile count of a body that could hold no profile entry is 0, else the byte behind the booth records. -/
theorem profileCount_memBody (fits : 8 + word byte 4 ≤ 4096) (long : 104 < word byte 4) :
    profileCount (memBody mem) = byte 112 := natAt_memBody reads long fits

/-- A memory is valid just where nothing of its header and body fails to check (R165, R180). -/
theorem memoryValid_iff : memoryValid mem = true ↔ ¬BadImage byte := by
  have count : 104 < word byte 4 → 8 + word byte 4 ≤ 4096 → profileCount (memBody mem) = byte 112 := fun long fits =>
    profileCount_memBody reads fits long
  have sum : 8 + word byte 4 ≤ 4096 → _ := bodySum_eq reads
  simp only [memoryValid, nat16At_header reads (show 0 + 1 < 8 by omega), nat16At_header reads (show 2 + 1 < 8 by omega),
    nat16At_header reads (show 6 + 1 < 8 by omega), headerLength_eq reads, Bool.and_eq_true, beq_iff_eq, bne_iff_ne,
    decide_eq_true_eq, itemsLength, Config.validMarker, Config.formatVersion, Config.bodyOffset, Config.memoryBytes, BadImage,
    not_or, Nat.not_lt, ne_eq, not_not]
  constructor
  · rintro ⟨⟨⟨⟨⟨⟨marker, version⟩, long⟩, fits⟩, items⟩, few⟩, total⟩
    have same := count (by omega) fits
    rw [same] at items few
    rw [sum fits] at total
    exact ⟨marker, version, long, fits, items, few, total⟩
  · rintro ⟨marker, version, long, fits, items, few, total⟩
    have same := count (by omega) fits
    rw [same, sum fits]
    exact ⟨⟨⟨⟨⟨⟨marker, version⟩, long⟩, fits⟩, items⟩, few⟩, total⟩

end

/-! ### Items read from bytes that agree -/

/-- The first bytes of a record, all others being 0. -/
def firstBytes (n : Nat) (f : Nat → Nat) (i : Nat) : Nat := if i < n then f i else 0

theorem firstBytes_congr {n : Nat} {f g : Nat → Nat} (h : ∀ i, i < n → f i = g i) : firstBytes n f = firstBytes n g :=
  funext fun i => by
    unfold firstBytes
    split
    · exact h i ‹_›
    · rfl

theorem boothRanges_congr {f g : Nat → Nat} (h : ∀ i, i < 16 → f i = g i) :
    boothRanges f = boothRanges g ∧ boothOfRecord f = boothOfRecord g :=
  have cut := firstBytes_congr h
  ⟨show boothRanges (firstBytes 16 f) = boothRanges (firstBytes 16 g) from congrArg _ cut,
    show boothOfRecord (firstBytes 16 f) = boothOfRecord (firstBytes 16 g) from congrArg _ cut⟩

theorem profileRanges_congr {f g : Nat → Nat} (h : ∀ i, i < 27 → f i = g i) :
    profileRanges f = profileRanges g ∧ profileOfRecord f true = profileOfRecord g true :=
  have cut := firstBytes_congr h
  ⟨show profileRanges (firstBytes 27 f) = profileRanges (firstBytes 27 g) from congrArg _ cut,
    show profileOfRecord (firstBytes 27 f) true = profileOfRecord (firstBytes 27 g) true from congrArg (profileOfRecord · true) cut⟩

section
variable {body : List Byte} {byte : Nat → Nat}

/-- A stored booth record, from its sixteen bytes. -/
theorem loadBooth_eq {b : BoothNo} (h : ∀ i, i < 16 → natAt body (8 + 16 * b + i) = byte i) :
    loadBooth body b = if (boothRanges byte).all id then boothOfRecord byte else defaultBoothRecord := by
  obtain ⟨ranges, record⟩ := boothRanges_congr h
  rw [loadBooth, ← ranges, ← record]
  by_cases passes : (boothRanges fun i => natAt body (8 + 16 * b + i)).all id = true
  · have none := (firstFault_numbered_none 2 _).mpr passes
    rw [← boothTests_eq] at none
    rw [if_pos passes, ← boothRecordAt_eq passes, none]
    rfl
  · have some := mt (firstFault_numbered_none 2 _).mp passes
    rw [← boothTests_eq, ← Option.isNone_iff_eq_none] at some
    rw [if_neg passes]
    exact if_neg some

/-- A stored profile of a number that no entry has. -/
theorem loadProfile_of_no_entry {n : ProfNo} (h : ∀ j, j < profileCount body → natAt body (105 + 28 * j) ≠ n) :
    loadProfile body n = defaultProfile (n == 0) := by
  have none : (profileEntries body).find? (fun e => e.1 == n.val) = none := by
    rw [List.find?_eq_none]
    intro e he
    obtain ⟨j, hj, rfl⟩ := List.mem_map.1 he
    simpa using h j (List.mem_range.1 hj)
  simp only [loadProfile, none]

/-- A stored profile, from the twenty-seven bytes of the first entry of its number. -/
theorem loadProfile_of_entry {n : ProfNo} {j : Nat} (hj : j < profileCount body) (here : natAt body (105 + 28 * j) = n)
    (first : ∀ i, i < j → natAt body (105 + 28 * i) ≠ n) (h : ∀ i, i < 27 → natAt body (106 + 28 * j + i) = byte i) :
    loadProfile body n = if (profileRanges byte).all id then profileOfRecord byte true else defaultProfile (n == 0) := by
  have found : (profileEntries body).find? (fun e => e.1 == n.val) = some (natAt body (105 + 28 * j), 106 + 28 * j) := by
    refine List.find?_eq_some_iff_getElem.mpr ⟨by simpa using here, j, by simpa [profileEntries] using hj, by simp [profileEntries],
      fun i hi => ?_⟩
    simpa [profileEntries] using first i hi
  obtain ⟨ranges, record⟩ := profileRanges_congr h
  rw [← ranges, ← record]
  simp only [loadProfile, found]
  by_cases passes : (profileRanges fun i => natAt body (106 + 28 * j + i)).all id = true
  · have none := (firstFault_numbered_none 2 _).mpr passes
    rw [← profileTests_eq] at none
    rw [if_pos passes, ← profileAt_eq passes true, none]
    rfl
  · have some := mt (firstFault_numbered_none 2 _).mp passes
    rw [← profileTests_eq, ← Option.isNone_iff_eq_none] at some
    rw [if_neg passes]
    exact if_neg some

theorem roleOf_eq_roleList (n : Nat) : roleOf n = roleList[n]? := by
  match n with
  | 0 | 1 | 2 | 3 | 4 | 5 | 6 => rfl
  | n + 7 => rfl

theorem lossOf_getD (n : Nat) : (lossOf n).getD .holdFade = if n = 1 then .cut else if n = 2 then .freeze else .holdFade := by
  match n with
  | 0 | 1 | 2 => rfl
  | n + 3 => simp [lossOf]

/-- The stored defaults of a channel, each item with its fallback; the profile is the number stored, where it is that of a defined
profile, else P0 (R166). -/
theorem loadChan_items (profiles : Vector Profile 16) (c : ChanNo)
    (h : ∀ i, i < 5 → natAt body (105 + 28 * profileCount body + 5 * c + i) = byte i) :
    (loadChan body profiles c).target = (if byte 0 ≤ 150 then byte 0 else 0) ∧
      (loadChan body profiles c).slew = (if byte 1 = 0 then 5 else byte 1) ∧
      (loadChan body profiles c).lateLimit = (if byte 2 ≤ 250 then byte 2 else 25) ∧
      (loadChan body profiles c).loss = (if byte 3 = 1 then .cut else if byte 3 = 2 then .freeze else .holdFade) ∧
      ((loadChan body profiles c).profile : Nat) = if ∃ n : ProfNo, byte 4 = n ∧ profiles[n].defined = true then byte 4 else 0 := by
  have h0 : natAt body (105 + 28 * profileCount body + 5 * c) = byte 0 := h 0 (by omega)
  simp only [loadChan, h0, h 1 (by omega), h 2 (by omega), h 3 (by omega), h 4 (by omega), lossOf_getD, Config.maxTarget,
    Config.defaultSlew, Config.maxLateness, Config.defaultLateLimit, true_and]
  by_cases hx : byte 4 < 16
  · have named : profOf (byte 4) = some ⟨byte 4, hx⟩ := dif_pos hx
    have defined : (∃ n : ProfNo, byte 4 = n ∧ profiles[n].defined = true) ↔ profiles[(⟨byte 4, hx⟩ : ProfNo)].defined = true :=
      ⟨fun ⟨n, e, d⟩ => (Fin.ext e : (⟨byte 4, hx⟩ : ProfNo) = n) ▸ d, fun d => ⟨⟨byte 4, hx⟩, rfl, d⟩⟩
    simp only [named, defined]
    split <;> rfl
  · have unnamed : profOf (byte 4) = none := dif_neg hx
    rw [unnamed, if_neg (fun ⟨n, e, _⟩ => hx (e ▸ n.isLt))]
    rfl

end

/-! ### The settings in their places -/

section
variable {s : State} (hp : s.loader.phase = .starting) (m : MemoryAnswer)
include hp

theorem defaulted_startUp : (s.startUp m).loader.defaulted = !memAnswerValid m s.memory := by rw [startUp_eq hp]

/-- Each item of a channel's defaults is in its block. -/
theorem chan_startUp_items (c : ChanNo) :
    ((s.startUp m).chan c).pool.target = (startSettings m s.memory).chans[c].target ∧
      ((s.startUp m).chan c).path.slewInterval = (startSettings m s.memory).chans[c].slew ∧
      ((s.startUp m).chan c).sched.lateLimit = (startSettings m s.memory).chans[c].lateLimit ∧
      ((s.startUp m).chan c).pres.loss = (startSettings m s.memory).chans[c].loss ∧
      ((s.startUp m).chan c).place.profile = (startSettings m s.memory).chans[c].profile := by
  rw [chan_startUp_load hp]
  exact ⟨rfl, rfl, rfl, rfl, rfl⟩

/-- The roles of the settings come into force where none were carried across (R167). -/
theorem role_startUp_settings (carried : s.loader.rolesPending = false) (p : PortNo) :
    ((s.startUp m).port p).role = some (resolveRoles (startSettings m s.memory).roles)[p] := by
  rw [role_startUp hp, roles_of_settings (.inl carried)]

theorem record_startUp (b : BoothNo) : ((s.startUp m).booth b).record = (startSettings m s.memory).booths[b] := by
  rw [booth_startUp hp]; rfl

end

theorem startSettings_invalid {m : MemoryAnswer} {mem : List Host.Cell} (h : memAnswerValid m mem = false) :
    startSettings m mem = defaultSettings := by
  rw [startSettings, h]; rfl

theorem startSettings_valid {m : MemoryAnswer} {mem : List Host.Cell} (h : memAnswerValid m mem = true) :
    startSettings m mem = loadBody (memBody (memContents m mem)) := by
  rw [startSettings, h]; rfl

/-- The default settings, item by item (R166). -/
theorem defaultSettings_items : (∀ p : PortNo, (resolveRoles defaultSettings.roles)[p] = defaultRoles[p]) ∧
    (∀ b : BoothNo, defaultSettings.booths[b] = defaultBoothRecord) ∧
    ∀ c : ChanNo, defaultSettings.chans[c] = defaultChan := by decide

/-- The items of a body a start-up loads, from its bytes: each its own fallback where it is out of range (R25, R58, R166). -/
theorem loadBody_items {body : List Byte} {byte : Nat → Nat} (long : ∀ i, i < 125 + 28 * profileCount body → natAt body i = byte i) :
    let stored := fun b : BoothNo => let n := fun i => byte (8 + 16 * b + i)
      if (boothRanges n).all id then boothOfRecord n else defaultBoothRecord
    (loadBody body).rate = rateOf (byte 0) ∧ (loadBody body).mask = BitVec.ofNat 8 (byte 7) ∧
      (∀ p : PortNo, (loadBody body).roles[p] = (roleList[byte (1 + p)]?).getD defaultRoles[p]) ∧
      (∀ b : BoothNo, (loadBody body).booths[b] =
        if ∃ o : BoothNo, o < b ∧ (stored o).slot = (stored b).slot then { stored b with slot := none } else stored b) ∧
      (∀ n : ProfNo, (loadBody body).profiles[n] = loadProfile body n) ∧
      ∀ c : ChanNo, (loadBody body).chans[c] = loadChan body (loadBody body).profiles c := by
  intro stored
  have record (b : BoothNo) : (Vector.ofFn (loadBooth body))[b] = stored b := by
    rw [Fin.getElem_fin, Vector.getElem_ofFn]
    exact loadBooth_eq fun i hi => long _ (by omega)
  refine ⟨?_, ?_, fun p => ?_, fun b => ?_, fun n => ?_, fun c => ?_⟩
  · rw [← long 0 (by omega)]; rfl
  · rw [← long 7 (by omega), natAt, BitVec.ofNat_toNat, BitVec.setWidth_eq]; rfl
  · rw [← roleOf_eq_roleList, ← long (1 + p) (by omega), loadBody, Fin.getElem_fin, Vector.getElem_ofFn]
  · have resolved := resolveSlots_get (Vector.ofFn (loadBooth body)) b
    simp only [record] at resolved
    exact resolved
  · rw [loadBody, Fin.getElem_fin, Vector.getElem_ofFn]
  · rw [loadBody, Fin.getElem_fin, Vector.getElem_ofFn]

end Sys2Proof.Machine

namespace Sys2Proof.Proofs
open Sys2Proof.Machine

/-- Settles O5: a memory that does not check gives the default settings; from one that checks each item is read from its bytes. -/
theorem invalidMemoryGivesEveryDefault : Obligations.InvalidMemoryGivesEveryDefault := by
  intro m s hp defaultRole boothStart profileStart
  refine ⟨fun bad => ⟨s.startUp m, rfl, ?_⟩, fun byte start good => ?_⟩
  · have invalid : memAnswerValid m s.memory = false := by
      cases start : startBytes s m with
      | none => cases m with
        | unreadable => rfl
        | held => cases start
        | prepared => cases start
      | some byte =>
        obtain ⟨reads, valid⟩ := reads_of_startBytes start
        rw [valid, Bool.eq_false_iff, ne_eq, memoryValid_iff reads, not_not]
        exact bad byte start
    have settings := startSettings_invalid invalid
    obtain ⟨roles, booths, chans⟩ := defaultSettings_items
    refine ⟨by rw [defaulted_startUp hp, invalid]; rfl, by rw [rate_startUp hp, settings]; rfl,
      by rw [slotMask_startUp hp, settings]; rfl, fun carried p => ?_, fun b => ?_, fun n => ?_, fun c => ?_⟩
    · rw [role_startUp_settings hp m carried, settings, roles]
      rfl
    · rw [record_startUp hp, settings, booths]; rfl
    · rw [profile_startUp hp, settings]
      exact defaultProfiles_get n
    · have items := chan_startUp_items hp m c
      rw [settings, chans] at items
      exact items
  · intro body stored entry defaults
    obtain ⟨reads, valid⟩ := reads_of_startBytes start
    have valid : memAnswerValid m s.memory = true := valid.trans ((memoryValid_iff reads).mpr good)
    have settings := startSettings_valid valid
    have fits : 8 + word byte 4 ≤ 4096 ∧ 125 + 28 * byte 112 ≤ word byte 4 := by
      simp only [BadImage, not_or, Nat.not_lt] at good
      obtain ⟨-, -, -, fits, items, -⟩ := good
      exact ⟨fits, items⟩
    have count : profileCount (memBody (memContents m s.memory)) = byte 112 := profileCount_memBody reads fits.1 (by omega)
    have long : ∀ i, i < 125 + 28 * profileCount (memBody (memContents m s.memory)) →
        natAt (memBody (memContents m s.memory)) i = body i := fun i hi =>
      natAt_memBody reads (by omega) fits.1
    generalize memBody (memContents m s.memory) = b at *
    obtain ⟨rate, mask, roles, booths, profiles, chans⟩ := loadBody_items long
    rw [← settings] at rate mask roles booths profiles chans
    refine ⟨s.startUp m, (startSettings m s.memory).roles, rfl, by rw [defaulted_startUp hp, valid]; rfl,
      by rw [rate_startUp hp, rate]; rfl, by rw [slotMask_startUp hp, mask],
      fun p => ⟨roles p, fun carried => role_startUp_settings hp m carried p⟩,
      fun o => by rw [record_startUp hp]; exact booths o, fun n => ⟨fun none => ?_, fun j hj here first => ?_⟩, fun c => ?_⟩
    · rw [profile_startUp hp, profiles]
      refine loadProfile_of_no_entry fun j hj => ?_
      rw [long _ (by omega)]
      exact none j (by rwa [count] at hj)
    · rw [profile_startUp hp, profiles]
      have hj : j < profileCount b := by rwa [count]
      refine loadProfile_of_entry hj ((long _ (by omega)).trans here) (fun i hi => ?_) fun i hi => ?_
      · rw [long _ (by omega)]
        exact first i hi
      · rw [long _ (by omega)]
        exact congrArg body (by omega)
    · have read (i : Nat) (hi : i < 5) : natAt b (105 + 28 * profileCount b + 5 * c + i) = defaults c i := by
        rw [long _ (by omega), count]
      obtain ⟨target, slew, limit, loss, profile⟩ := chan_startUp_items hp m c
      rw [target, slew, limit, loss, profile, chans]
      simp only [profile_startUp hp]
      exact loadChan_items (startSettings m s.memory).profiles c read

end Sys2Proof.Proofs
end

section
/-!
PROOF. A block refused at its port has not acted (O54): a test refuses it before its owner sees it, or the owner refuses it with nothing
changed.
-/
namespace Sys2Proof.Machine

/-- A block refused by its owner with a CHECK, or by a test, leaves the state but for its port. -/
theorem answered_check {s : State} {p : PortNo} {a : Answer} (h : a.IsCheck) :
    let t := (s.setPort p (s.port p).accept).answer p a
    t = s.setPort p { s.port p with recv := .seek, trans := (t.port p).trans, sense := (t.port p).sense } := by
  obtain ⟨k, e, i, busy, rfl⟩ := h
  exact answer_check_port s p k e i busy

/-- An answer that is no refusal leaves the sense record of its port. -/
theorem sense_answer_of_not_check (u : State) (p : PortNo) {a : Answer} (h : ¬a.IsCheck) :
    ((u.answer p a).port p).sense = (u.port p).sense := by
  rw [State.answer, State.port_setPort_self]
  cases a with
  | good data matched => rfl
  | check k e i busy => exact absurd ⟨k, e, i, busy, rfl⟩ h
  | later => rfl

end Sys2Proof.Machine

namespace Sys2Proof.Proofs
open Sys2Proof.Machine

/-- Settles O54: where a block's sense record is not NONE a test or its owner refused it, and neither has changed anything. -/
theorem refusedBlockHasNotActed : Obligations.RefusedBlockHasNotActed := by
  intro s t p k b free ran sense
  have whole : s.acceptBlock p (tailBlock k.code b) = t := by
    rw [exec_instr, blockCompletes_free free] at ran
    exact Host.Outcome.next.inj ran
  subst whole
  cases judged : judge s.loader.phase.isStarting (s.port p).role (tailBlock k.code b) with
  | refused a =>
    rw [acceptBlock_refused judged]
    exact answered_check (judge_refused judged)
  | command c r =>
    have carried : s.acceptBlock p (tailBlock k.code b) =
        (act c r (s.setPort p (s.port p).accept) p (s.port p).sense (tailBlock k.code b).body.tail).1.answer p
          (act c r (s.setPort p (s.port p).accept) p (s.port p).sense (tailBlock k.code b).body.tail).2 := by
      simp only [State.acceptBlock, judged]
    have kept := refusesUnchanged_act c r (s.setPort p (s.port p).accept) p (s.port p).sense (tailBlock k.code b).body.tail
    have clear := sense_act c r (s.setPort p (s.port p).accept) p (tailBlock k.code b).body.tail (s.port p).sense
    rw [carried] at sense ⊢
    generalize act c r (s.setPort p (s.port p).accept) p (s.port p).sense (tailBlock k.code b).body.tail = u at *
    by_cases check : u.2.IsCheck
    · obtain ⟨key, code, info, busy, refused⟩ := check
      rw [kept key code info busy refused]
      exact answered_check ⟨key, code, info, busy, refused⟩
    · rw [sense_answer_of_not_check _ _ check, clear, State.port_setPort_self] at sense
      exact absurd rfl sense

end Sys2Proof.Proofs
end
